-- ==== Sys2Proof/Word.lean ====
section
/-! DEFINITION. The word type of the window (00_scope.md, Numbers and units; R145), the numbers that name agents,
locks and deadline entries, and the fixed-size tables the blocks keep. -/

namespace Sys2Proof

/-- Every word in the window is 32 bits wide (R145). -/
abbrev Word := BitVec 32

/-- Agents are numbered 0 to 7: the 3-bit master identifier (R145). -/
abbrev Agent := Fin 8

/-- Locks are numbered 0 to 63 (R1). -/
abbrev LockNum := Fin 64

/-- Deadline entries are numbered 0 to 23 (R89). -/
abbrev EntryNum := Fin 24

/-- The word offset within the window, address lines A9 to A2 (Table 10-14): 256 words (R145). -/
abbrev WordOffset := BitVec 8

/-- Every agent, in ascending order. -/
def allAgents : List Agent := List.finRange 8

/-- Every lock, in ascending order. -/
def allLocks : List LockNum := List.finRange 64

/-- Every deadline entry, in ascending order. -/
def allEntries : List EntryNum := List.finRange 24

/-- The table whose row `i` is `f i`. -/
def ofTable {n : Nat} {α : Type} (f : Fin n → α) : Vector α n :=
  ⟨⟨(List.finRange n).map f⟩, by simp⟩

/-- The table `v` with row `i` replaced by `x`. -/
def setRow {n : Nat} {α : Type} (v : Vector α n) (i : Fin n) (x : α) : Vector α n :=
  v.set i.val x i.isLt

end Sys2Proof
end

