-- ==== Sys2Proof/Syntax.lean ====
section
/-! DEFINITION. The commands of the block: one constructor for each row of spec/opcode_table.json, with the operands
the row's rules give it. -/

namespace Sys2Proof

/-- What the system bus carries on a write: the data lines D31 to D0 and the parity lines DP3 to DP0, one for each
data byte (R147, Table 10-14). -/
structure WriteData where
  data   : Word
  parity : BitVec 4
deriving DecidableEq, Repr

/-- The operations and events of the part. An access names the agent whose master identifier it carries (R145); a
write carries its data and parity lines; the other rows are events of the signals or of the part's own blocks. -/
inductive Instr where
  /-- POWER_ON_RESET (R155): the power-on reset input is asserted. -/
  | powerOnReset
  /-- POWER_ON_RESET_RELEASE (R154): the power-on reset input is released. -/
  | powerOnResetRelease
  /-- BUS_RESET (R155): the bus reset input is asserted. -/
  | busReset
  /-- BUS_RESET_RELEASE (R154): the bus reset input is released. -/
  | busResetRelease
  /-- INITIALIZATION_COMPLETE (R154): the initialization period ends. -/
  | initializationComplete
  /-- TICK_ADVANCE (R97): a tick is taken at the Deadline Unit. -/
  | tickAdvance
  /-- WAIT_EXPIRY (R65): the expiry next in turn, of a WAIT entry, is taken at the Lock Engine. -/
  | waitExpiry
  /-- LEASE_EXPIRY (R106, R107): the expiry next in turn, of a LEASE entry, is taken at the Lock Engine. -/
  | leaseExpiry
  /-- SWEEP_VISIT (R138): the Purge Engine visits the lock at the sweep pointer. -/
  | sweepVisit
  /-- SWEEP_END (R139): the Purge Engine ends a sweep whose pointer is 64. -/
  | sweepEnd
  /-- NOP (R152). -/
  | nop (a : Agent) (w : WriteData)
  /-- ACQUIRE (R18 to R30). -/
  | acquire (a : Agent) (w : WriteData)
  /-- RELEASE (R35 to R38). -/
  | release (a : Agent) (w : WriteData)
  /-- UPGRADE (R68 to R73). -/
  | upgrade (a : Agent) (w : WriteData)
  /-- DOWNGRADE (R76, R77). -/
  | downgrade (a : Agent) (w : WriteData)
  /-- CANCEL (R62, R63). -/
  | cancel (a : Agent) (w : WriteData)
  /-- RENEW (R103, R104). -/
  | renew (a : Agent) (w : WriteData)
  /-- SET_AGENT (R121, R122). -/
  | setAgent (a : Agent) (w : WriteData)
  /-- SET_LOCK (R11). -/
  | setLock (a : Agent) (w : WriteData)
  /-- FORCE_RELEASE (R111 to R113). -/
  | forceRelease (a : Agent) (w : WriteData)
  /-- PURGE (R135, R136). -/
  | purge (a : Agent) (w : WriteData)
  /-- SET_TIME (R86). -/
  | setTime (a : Agent) (w : WriteData)
  /-- SET_DIVIDER (R85). -/
  | setDivider (a : Agent) (w : WriteData)
  /-- RESET_TABLES (R156). -/
  | resetTables (a : Agent) (w : WriteData)
  /-- TRY_READ (R32): agent `a` reads TRY `l`. -/
  | tryRead (a : Agent) (l : LockNum)
  /-- TRY_WRITE (R39): agent `a` writes TRY `l`. -/
  | tryWrite (a : Agent) (l : LockNum) (w : WriteData)
  /-- TIME_LOW_READ (R87): agent `a` reads TIME LOW. -/
  | timeLowRead (a : Agent)
  /-- POP (R127): agent `a` writes NOTICE CONTROL with the POP flag set. -/
  | pop (a : Agent) (w : WriteData)
  /-- CLEAR_OVERRUN (R127): agent `a` writes NOTICE CONTROL with the CLEAR OVERRUN flag set. -/
  | clearOverrun (a : Agent) (w : WriteData)
  /-- ERROR_STATUS_WRITE (R129). -/
  | errorStatusWrite (a : Agent) (w : WriteData)
  /-- INTERRUPT_ENABLE_WRITE (R130). -/
  | interruptEnableWrite (a : Agent) (w : WriteData)
  /-- REGISTER_WRITE (R146, R148): agent `a` writes the word at `off`. -/
  | registerWrite (a : Agent) (off : WordOffset) (w : WriteData)
  /-- REFUSED_READ (R146): agent `a` reads the word at `off`. -/
  | refusedRead (a : Agent) (off : WordOffset)
deriving DecidableEq, Repr

end Sys2Proof
end

