-- ==== Sys2Proof/Machine/Operands.lean ====
section
/-! DEFINITION. The operand forms: byte parity of a write (R147), the tag of a command write (R149), and the fields of
the argument words (Tables 10-3 and 10-4). -/

namespace Sys2Proof

/-- Byte `k` of a word, byte 0 in bits 7 to 0. -/
def byteOf (d : Word) (k : Nat) : BitVec 8 := d.extractLsb' (8 * k) 8

/-- The number of ones in a byte. -/
def onesOf (b : BitVec 8) : Nat := (List.range 8).countP fun k => b.getLsbD k

/-- The parity line that makes a byte with its line hold an even number of ones (R147). -/
def evenParityBit (b : BitVec 8) : Bool := onesOf b % 2 == 1

/-- The four parity lines DP3 to DP0 of a word with correct parity (R147). -/
def evenParity (d : Word) : BitVec 4 :=
  BitVec.ofBool (evenParityBit (byteOf d 3)) ++ BitVec.ofBool (evenParityBit (byteOf d 2))
    ++ BitVec.ofBool (evenParityBit (byteOf d 1)) ++ BitVec.ofBool (evenParityBit (byteOf d 0))

/-- R147: all four bytes of the write pass the parity check. -/
def WriteData.parityGood (w : WriteData) : Bool := w.parity == evenParity w.data

/-- A write of `d` with correct parity. -/
def WriteData.good (d : Word) : WriteData := ⟨d, evenParity d⟩

/-- The tag of a command write, bits 7 to 0 (R149). -/
def WriteData.tag (w : WriteData) : BitVec 8 := w.data.extractLsb' 0 8

/-- NOTICE CONTROL's POP flag, bit 0 (Section 10.4). -/
def WriteData.popFlag (w : WriteData) : Bool := w.data.getLsbD 0

/-- NOTICE CONTROL's CLEAR OVERRUN flag, bit 1 (Section 10.4). -/
def WriteData.clearOverrunFlag (w : WriteData) : Bool := w.data.getLsbD 1

/-- INTERRUPT ENABLE's notice enable, bit 0 (Section 10.6). -/
def WriteData.noticeEnableFlag (w : WriteData) : Bool := w.data.getLsbD 0

/-- INTERRUPT ENABLE's error enable, bit 1 (Section 10.6). -/
def WriteData.errorEnableFlag (w : WriteData) : Bool := w.data.getLsbD 1

namespace Machine

/-- The lock number and agent number fields, ARG0 bits 7 to 0 (Table 10-3). -/
def numberField (arg0 : Word) : Nat := (arg0.extractLsb' 0 8).toNat

/-- The mode and target state fields, ARG0 bits 9 to 8 (Table 10-3). -/
def codeField (arg0 : Word) : BitVec 2 := arg0.extractLsb' 8 2

/-- The wait flag, ARG0 bit 10 (Table 10-3). -/
def waitField (arg0 : Word) : Bool := arg0.getLsbD 10

/-- The class field, ARG0 bits 13 to 12 (Table 10-3). -/
def classField (arg0 : Word) : BitVec 2 := arg0.extractLsb' 12 2

/-- The timeout field, ARG0 bits 31 to 12, in ticks (Table 10-3). -/
def timeoutField (arg0 : Word) : Nat := (arg0.extractLsb' 12 20).toNat

/-- The divider field, ARG0 bits 16 to 0 (Table 10-3). -/
def dividerField (arg0 : Word) : Nat := (arg0.extractLsb' 0 17).toNat

/-- The lease duration field, ARG1 bits 19 to 0, in ticks (Table 10-4). -/
def leaseField (arg1 : Word) : Nat := (arg1.extractLsb' 0 20).toNat

/-- The shared_allowed field, ARG1 bit 0 (Table 10-4). -/
def sharedAllowedField (arg1 : Word) : Bool := arg1.getLsbD 0

/-- The lease_required field, ARG1 bit 1 (Table 10-4). -/
def leaseRequiredField (arg1 : Word) : Bool := arg1.getLsbD 1

/-- The report field, ARG1 bit 2 (Table 10-4). -/
def reportField (arg1 : Word) : Bool := arg1.getLsbD 2

/-- The bypass_limit field, ARG1 bits 11 to 8 (Table 10-4). -/
def bypassLimitField (arg1 : Word) : BitVec 4 := arg1.extractLsb' 8 4

/-- The timebase that SET TIME loads: ARG1 bits 15 to 0 above ARG0 (R86). -/
def timeFields (arg0 arg1 : Word) : BitVec 48 := arg1.extractLsb' 0 16 ++ arg0

/-- A duration field: 0 means none (00_scope.md, Durations and time). -/
def duration (d : Nat) : Option Nat := if d = 0 then none else some d

/-- The lock a lock number field names, when it is 0 to 63. -/
def lockOf (k : Nat) : Option LockNum := if h : k < 64 then some ⟨k, h⟩ else none

/-- The agent an agent number field names, when it is 0 to 7. -/
def agentOf (k : Nat) : Option Agent := if h : k < 8 then some ⟨k, h⟩ else none

end Machine
end Sys2Proof
end

