-- ==== Sys2Proof/Machine/Window.lean ====
section
/-! DEFINITION. The window map of Chapter 10 (Tables 10-1 and 10-2): which word stands at which word offset, and each
word's access direction (R145). -/

namespace Sys2Proof.Machine

/-- The commands of the command page (Table 10-2). -/
inductive Command where
  | nop | acquire | release | upgrade | downgrade | cancel | renew
  | setAgent | setLock | forceRelease | purge | setTime | setDivider | resetTables
deriving DecidableEq, Repr

/-- The words of the window (Table 10-1), and the offsets that hold none. -/
inductive WindowWord where
  | unmapped
  | tryWord (l : LockNum)
  | lockView (l : LockNum)
  | agentView (n : Agent)
  | heldMapLow (n : Agent)
  | heldMapHigh (n : Agent)
  | timeLow
  | timeHigh
  | arg0
  | arg1
  | result
  | noticeHead
  | noticeTime
  | noticeControl
  | errorStatus
  | interruptEnable
  | command (c : Command)
  | identification (w : Fin 4)
deriving DecidableEq, Repr

/-- Access directions of the words (R145). -/
inductive Direction where
  | readWrite | readOnly | writeOnly | noWord
deriving DecidableEq, Repr

/-- The word of the command page at byte offset 0x300 + 4k (Table 10-2). -/
def commandPage : Nat → WindowWord
  | 0 => .command .nop
  | 1 => .command .acquire
  | 2 => .command .release
  | 3 => .command .upgrade
  | 4 => .command .downgrade
  | 5 => .command .cancel
  | 6 => .command .renew
  | 8 => .command .setAgent
  | 9 => .command .setLock
  | 10 => .command .forceRelease
  | 11 => .command .purge
  | 12 => .command .setTime
  | 13 => .command .setDivider
  | 14 => .command .resetTables
  | _ => .unmapped

/-- The words from byte offset 0x280 on (Table 10-1): ARG0 at 0x280 + 4·0 and so on. -/
def bankedWords : Nat → WindowWord
  | 0 => .arg0
  | 1 => .arg1
  | 2 => .result
  | 3 => .noticeHead
  | 4 => .noticeTime
  | 5 => .noticeControl
  | 6 => .errorStatus
  | 7 => .interruptEnable
  | _ => .unmapped

/-- The word at a word offset, whose byte offset is four times it (Table 10-1). -/
def windowWord (off : WordOffset) : WindowWord :=
  let b := 4 * off.toNat
  if b < 0x100 then .tryWord (Fin.ofNat 64 off.toNat)
  else if b < 0x200 then .lockView (Fin.ofNat 64 (off.toNat - 0x40))
  else if b < 0x220 then .agentView (Fin.ofNat 8 (off.toNat - 0x80))
  else if b < 0x260 then
    if b % 8 = 0 then .heldMapLow (Fin.ofNat 8 ((b - 0x220) / 8))
    else .heldMapHigh (Fin.ofNat 8 ((b - 0x220) / 8))
  else if b = 0x260 then .timeLow
  else if b = 0x264 then .timeHigh
  else if b < 0x280 then .unmapped
  else if b < 0x300 then bankedWords (off.toNat - 0xA0)
  else if b < 0x340 then commandPage (off.toNat - 0xC0)
  else if b < 0x3F0 then .unmapped
  else .identification (Fin.ofNat 4 (off.toNat - 0xFC))

/-- The access direction of a word (R145). -/
def WindowWord.direction : WindowWord → Direction
  | .unmapped => .noWord
  | .tryWord _ | .arg0 | .arg1 | .errorStatus | .interruptEnable => .readWrite
  | .command _ | .noticeControl => .writeOnly
  | .lockView _ | .agentView _ | .heldMapLow _ | .heldMapHigh _ | .timeLow | .timeHigh
  | .result | .noticeHead | .noticeTime | .identification _ => .readOnly

/-- The commands reserved to the supervisor agent (R119, Table 9-3). -/
def Command.supervisor : Command → Bool
  | .setAgent | .setLock | .forceRelease | .purge | .setTime | .setDivider | .resetTables => true
  | .nop | .acquire | .release | .upgrade | .downgrade | .cancel | .renew => false

end Sys2Proof.Machine
end

