-- ==== Sys2Proof/Decode.lean ====
section
/-! DEFINITION. The decoder over the rows of spec/opcode_table.json that give bits (none does), and the Bus Port's
decoding of an access within the window (R145): the row of the table that an access of the bus is, and the access that
a row is. -/

namespace Sys2Proof

/-- The command that the word `w` of `nbits` bits spells by the table's bits. No row of the table gives any ("fields"
is empty in all 33 rows and none has "fixed"), so no word spells a command. -/
def decodeTableWord (nbits w : Nat) : Option Instr :=
  match nbits, w with
  | _, _ => none

/-- An access of the system bus (R145, Table 10-14): the master identifier, the word offset, and on a write what the
data and parity lines carry. -/
structure BusAccess where
  agent : Agent
  off   : WordOffset
  write : Option WriteData
deriving DecidableEq, Repr

/-- The row of the table that a write of a command word is. -/
def Machine.Command.row : Machine.Command → Agent → WriteData → Instr
  | .nop, a, w => .nop a w
  | .acquire, a, w => .acquire a w
  | .release, a, w => .release a w
  | .upgrade, a, w => .upgrade a w
  | .downgrade, a, w => .downgrade a w
  | .cancel, a, w => .cancel a w
  | .renew, a, w => .renew a w
  | .setAgent, a, w => .setAgent a w
  | .setLock, a, w => .setLock a w
  | .forceRelease, a, w => .forceRelease a w
  | .purge, a, w => .purge a w
  | .setTime, a, w => .setTime a w
  | .setDivider, a, w => .setDivider a w
  | .resetTables, a, w => .resetTables a w

/-- The row of the table that a write is, by the word at its offset. A NOTICE CONTROL write with both flags set is a
POP, which acts on both (R127). -/
def writeRow (a : Agent) (off : WordOffset) (w : WriteData) : Instr :=
  match Machine.windowWord off with
  | .tryWord l => .tryWrite a l w
  | .command c => c.row a w
  | .noticeControl =>
    if w.popFlag then .pop a w else if w.clearOverrunFlag then .clearOverrun a w else .registerWrite a off w
  | .errorStatus => .errorStatusWrite a w
  | .interruptEnable => .interruptEnableWrite a w
  | .unmapped | .lockView _ | .agentView _ | .heldMapLow _ | .heldMapHigh _ | .timeLow | .timeHigh | .arg0 | .arg1
  | .result | .noticeHead | .noticeTime | .identification _ => .registerWrite a off w

/-- The row of the table that a read is, by the word at its offset. -/
def readRow (a : Agent) (off : WordOffset) : Instr :=
  match Machine.windowWord off with
  | .tryWord l => .tryRead a l
  | .timeLow => .timeLowRead a
  | .unmapped | .lockView _ | .agentView _ | .heldMapLow _ | .heldMapHigh _ | .timeHigh | .arg0 | .arg1 | .result
  | .noticeHead | .noticeTime | .noticeControl | .errorStatus | .interruptEnable | .command _
  | .identification _ => .refusedRead a off

/-- The command that an access is. -/
def BusAccess.command (b : BusAccess) : Instr :=
  match b.write with
  | some w => writeRow b.agent b.off w
  | none => readRow b.agent b.off

/-- The word offset of a command word (Table 10-2): its byte offset divided by 4. -/
def Machine.Command.offset : Machine.Command → WordOffset
  | .nop => 0xC0
  | .acquire => 0xC1
  | .release => 0xC2
  | .upgrade => 0xC3
  | .downgrade => 0xC4
  | .cancel => 0xC5
  | .renew => 0xC6
  | .setAgent => 0xC8
  | .setLock => 0xC9
  | .forceRelease => 0xCA
  | .purge => 0xCB
  | .setTime => 0xCC
  | .setDivider => 0xCD
  | .resetTables => 0xCE

/-- The access that a command is; `none` for the events that are no access. Offsets as Tables 10-1 and 10-2 give them,
divided by 4. -/
def Instr.access : Instr → Option BusAccess
  | .powerOnReset | .powerOnResetRelease | .busReset | .busResetRelease | .initializationComplete
  | .tickAdvance | .waitExpiry | .leaseExpiry | .sweepVisit | .sweepEnd => none
  | .nop a w => some ⟨a, Machine.Command.nop.offset, some w⟩
  | .acquire a w => some ⟨a, Machine.Command.acquire.offset, some w⟩
  | .release a w => some ⟨a, Machine.Command.release.offset, some w⟩
  | .upgrade a w => some ⟨a, Machine.Command.upgrade.offset, some w⟩
  | .downgrade a w => some ⟨a, Machine.Command.downgrade.offset, some w⟩
  | .cancel a w => some ⟨a, Machine.Command.cancel.offset, some w⟩
  | .renew a w => some ⟨a, Machine.Command.renew.offset, some w⟩
  | .setAgent a w => some ⟨a, Machine.Command.setAgent.offset, some w⟩
  | .setLock a w => some ⟨a, Machine.Command.setLock.offset, some w⟩
  | .forceRelease a w => some ⟨a, Machine.Command.forceRelease.offset, some w⟩
  | .purge a w => some ⟨a, Machine.Command.purge.offset, some w⟩
  | .setTime a w => some ⟨a, Machine.Command.setTime.offset, some w⟩
  | .setDivider a w => some ⟨a, Machine.Command.setDivider.offset, some w⟩
  | .resetTables a w => some ⟨a, Machine.Command.resetTables.offset, some w⟩
  | .tryRead a l => some ⟨a, BitVec.ofNat 8 l.val, none⟩
  | .tryWrite a l w => some ⟨a, BitVec.ofNat 8 l.val, some w⟩
  | .timeLowRead a => some ⟨a, 0x98, none⟩
  | .pop a w => some ⟨a, 0xA5, some w⟩
  | .clearOverrun a w => some ⟨a, 0xA5, some w⟩
  | .errorStatusWrite a w => some ⟨a, 0xA6, some w⟩
  | .interruptEnableWrite a w => some ⟨a, 0xA7, some w⟩
  | .registerWrite a off w => some ⟨a, off, some w⟩
  | .refusedRead a off => some ⟨a, off, none⟩

end Sys2Proof
end

