-- ==== Sys2Proof/Config.lean ====
section
/-! DEFINITION. The capacities and values that revision 1 of the part fixes, and the one value the manual leaves
open: the length of an initialization period (R154). -/

namespace Sys2Proof.Config

/-- A notice queue holds at most 8 notices (R124, R125). -/
def noticeDepth : Nat := 8

/-- The tick divider after power-on reset (R84). -/
def defaultDivider : Nat := 1000

/-- The largest tick divider (R84, R85). -/
def maxDivider : Nat := 65536

/-- The largest duration, in ticks, that a 20-bit duration field holds (00_scope.md, Durations and time). -/
def maxDuration : Nat := 1048575

/-- The ceiling of a bypass count when the bypass_limit is 0 (R58). -/
def bypassCeiling : Nat := 15

/-- The bypass_limit of every lock after power-on reset (R8). -/
def defaultBypassLimit : BitVec 4 := 4

/-- The class of every agent after power-on reset (R120). -/
def defaultClass : BitVec 2 := 2

/-- The supervisor agent is agent 0 (R119). -/
def supervisor : Agent := 0

/-- The values of the identification words (R158, Table 9-4). -/
def identification : Fin 4 → Word
  | 0 => 0x47414E54
  | 1 => 0x08640001
  | 2 => 0x08184008
  | 3 => 0x00001430

/-- FREE VALUE (log entry 1): one less than the length, in bus clock periods, of the `n`-th initialization period.
R154 allows any length from 1 to 1,024 and no rule chooses one, so nothing constrains this constant. -/
opaque initLengthLessOne : Nat → BitVec 10

/-- The length of the `n`-th initialization period, 1 to 1,024 bus clock periods (R154). -/
def initLength (n : Nat) : Nat := (initLengthLessOne n).toNat + 1

end Sys2Proof.Config
end

