-- ==== Sys2Proof/Machine/State.lean ====
section
/-! DEFINITION. The state of the part, block by block (00_scope.md Table 2), the reasons a step can stop, and the
state after power-on reset. -/

namespace Sys2Proof.Machine

/-! ### Lock Engine (R1, R44) -/

/-- State of a lock (R1). -/
inductive LockState where
  | free | exclusive | shared
deriving DecidableEq, Repr

/-- Mode of a request, and of the hold a notice names (R44, Table 10-8). -/
inductive Mode where
  | exclusive | shared | upgrade
deriving DecidableEq, Repr

/-- A holder's part of a lock record: its lease, absent or a reference to one deadline entry (R5). -/
structure Hold where
  lease : Option EntryNum
deriving DecidableEq, Repr

/-- A lock record (R1, Table 1-1). The holder set is one row for each agent, present when the agent holds the lock,
so that no agent stands in it twice (R4). -/
structure LockRecord where
  state         : LockState
  holders       : Vector (Option Hold) 8
  recovered     : Bool
  queue         : List Agent
  sharedAllowed : Bool
  leaseRequired : Bool
  bypassLimit   : BitVec 4
  report        : Bool
deriving DecidableEq, Repr

/-- A pending-request record (R44, Table 3-1). `arrival` is the request's place in the arrival order: a later arrival
has a larger number. -/
structure PendingRequest where
  lock     : LockNum
  mode     : Mode
  effClass : BitVec 2
  bypass   : Nat
  arrival  : Nat
  timeout  : Option Nat
  lease    : Option Nat
  entry    : Option EntryNum
deriving DecidableEq, Repr

/-! ### Deadline Unit (R83, R84, R87, R89) -/

/-- Kind of a deadline entry (R89). -/
inductive EntryKind where
  | wait | lease
deriving DecidableEq, Repr

/-- A deadline entry (R89, Table 5-1): a FREE one has no kind, agent, lock or count, and a RESERVED one is of kind
LEASE and has no count. `arming` is the entry's place in the arming order. -/
inductive DeadlineEntry where
  | free
  | reserved (agent : Agent) (lock : LockNum)
  | armed (kind : EntryKind) (agent : Agent) (lock : LockNum) (remaining : Nat) (arming : Nat)
deriving DecidableEq, Repr

/-- The Deadline Unit. `divider` is the tick divider; `activeDivider` is the one that the tick period in progress was
begun with (R85). `armedList` is the armed list, first to run out first (R90). `expiries` holds the entries that have
run out and await their expiry, in the order presented (R97, R98). `heldTicks` counts the ticks that fell due while
expiries were awaited (R98). -/
structure DeadlineUnit where
  timebase      : BitVec 48
  divider       : Nat
  activeDivider : Nat
  dividerCount  : Nat
  heldTicks     : Nat
  entries       : Vector DeadlineEntry 24
  armedList     : List EntryNum
  expiries      : List EntryNum
  nextArming    : Nat
  snapshots     : Vector (BitVec 16) 8
deriving DecidableEq, Repr

/-! ### Agent Table (R116) -/

/-- State of an agent (R117). -/
inductive AgentState where
  | offline | online | purging
deriving DecidableEq, Repr

/-- The outcomes of commands and TRY reads (Table 10-7). -/
inductive OutcomeCode where
  | done | granted | queued | released | cancelled | renewed | downgraded | started
  | busy | alreadyHolder | notHolder | requestPending | nothingPending | modeNotAllowed
  | leaseRequired | noDeadline | wouldDeadlock | upgradeConflict | upgradePending | notExclusive | noLease
  | badArgument | agentOffline | agentPurging | notSupervisor | lockBusy | agentBusy | engineBusy
deriving DecidableEq, Repr

/-- The command record of an agent (R116): last accepted tag, last outcome with its detail, replayed flag. -/
structure CommandRecord where
  tag      : BitVec 8
  code     : OutcomeCode
  detail   : BitVec 16
  replayed : Bool
deriving DecidableEq, Repr

/-- Cause of a revocation (Table 6-4). -/
inductive Cause where
  | lease | forced
deriving DecidableEq, Repr

/-- A notice, with the fields its kind carries (R124, Table 7-5); `time` is the low 32 bits of the timebase. -/
inductive Notice where
  | granted (lock : LockNum) (mode : Mode) (recovered upgrade : Bool) (time : Word)
  | timedOut (lock : LockNum) (mode : Mode) (upgrade : Bool) (time : Word)
  | revoked (lock : LockNum) (mode : Mode) (recovered upgrade : Bool) (cause : Cause) (time : Word)
  | revokeReport (lock : LockNum) (mode : Mode) (cause : Cause) (subject : Agent) (time : Word)
  | purgeDone (subject : Agent) (count : Nat) (time : Word)
deriving DecidableEq, Repr

/-- Kinds of a refused access (R129). -/
inductive ErrorKind where
  | none | parity | badOffset | readOnly | writeOnly | notHolder | agentNotOnline
deriving DecidableEq, Repr

/-- An agent record (R116, Table 7-1). The interrupt line is no field: it is a function of these fields and the reset
inputs at all times (R131; Flags.lean, `State.line`). -/
structure AgentRecord where
  state        : AgentState
  cls          : BitVec 2
  record       : CommandRecord
  notices      : List Notice
  overrun      : Bool
  noticeEnable : Bool
  errorEnable  : Bool
  errorKind    : ErrorKind
  errorSeen    : Bool
deriving DecidableEq, Repr

/-! ### Purge Engine (R134) -/

/-- State of the Purge Engine (R134). -/
inductive PurgeState where
  | idle | sweeping
deriving DecidableEq, Repr

/-- The Purge Engine (R134, Table 8-1). -/
structure PurgeEngine where
  state   : PurgeState
  subject : Option Agent
  pointer : Nat
  count   : Nat
deriving DecidableEq, Repr

/-! ### Bus Port (R145, R148, R154) -/

/-- Port state (R154). -/
inductive PortState where
  | initializing | ready
deriving DecidableEq, Repr

/-- Bus answers (R146, R162). -/
inductive BusAnswer where
  | ok | retry | error
deriving DecidableEq, Repr

/-- What the part drove for the latest access: nothing yet, the answer to a write, or the answer to a read with its
data and parity lines (R146, R147). -/
inductive BusResponse where
  | none
  | write (answer : BusAnswer)
  | read (answer : BusAnswer) (data : Word) (parity : BitVec 4)
deriving DecidableEq, Repr

/-- The argument words of an agent (R148). -/
structure ArgWords where
  arg0 : Word
  arg1 : Word
deriving DecidableEq, Repr

/-- The Bus Port with the two reset inputs (set while the input is asserted, which is at the low level: R162,
Signals.lean). `initElapsed` counts the bus clock periods of the initialization period in progress and `initIndex`
numbers the periods (R154). -/
structure BusPort where
  powerOnReset : Bool
  busReset     : Bool
  state        : PortState
  initElapsed  : Nat
  initIndex    : Nat
  args         : Vector ArgWords 8
  response     : BusResponse
deriving DecidableEq, Repr

end Sys2Proof.Machine

namespace Sys2Proof.Machine

/-- The whole part, and the queue of commands that wait, first in, first out. -/
structure State where
  port        : BusPort
  locks       : Vector LockRecord 64
  requests    : Vector (Option PendingRequest) 8
  nextArrival : Nat
  du          : DeadlineUnit
  agents      : Vector AgentRecord 8
  purge       : PurgeEngine
  pending     : List Instr
deriving DecidableEq, Repr

/-- Reasons a step stops with a fault. There are none: every command of the table and every event of the part has an
effect the spec gives (NOTES.md, Stops), so no meaning raises a fault and the type has no constructor. -/
inductive Fault where
deriving DecidableEq, Repr

/-- Reasons a step is refused. -/
inductive Refusal where
  /-- Raised by an arm of `exec` for a command that has no meaning yet (safe). No arm raises it. -/
  | notModelled (mnemonic : String)
deriving DecidableEq, Repr

/-! ### Reset values -/

/-- The command record after power-on reset and bus reset (R155, Table 7-6). -/
def CommandRecord.reset : CommandRecord := ⟨0, .done, 0, false⟩

/-- A lock record after power-on reset (R8, R17, Table 1-8). -/
def LockRecord.reset : LockRecord :=
  { state := .free, holders := Vector.replicate 8 none, recovered := false, queue := []
    sharedAllowed := true, leaseRequired := false, bypassLimit := Config.defaultBypassLimit, report := false }

/-- The Deadline Unit after power-on reset (R84, R88, R100, Table 5-4). -/
def DeadlineUnit.reset : DeadlineUnit :=
  { timebase := 0, divider := Config.defaultDivider, activeDivider := Config.defaultDivider, dividerCount := 0
    heldTicks := 0, entries := Vector.replicate 24 .free, armedList := [], expiries := [], nextArming := 0
    snapshots := Vector.replicate 8 0 }

/-- An agent record after power-on reset (R119, R120, R133, Table 7-6): agent 0 ONLINE, agents 1 to 7 OFFLINE. -/
def AgentRecord.reset (a : Agent) : AgentRecord :=
  { state := if a = Config.supervisor then .online else .offline, cls := Config.defaultClass
    record := CommandRecord.reset, notices := [], overrun := false, noticeEnable := false, errorEnable := false
    errorKind := .none, errorSeen := false }

/-- The Purge Engine after each reset (R134). -/
def PurgeEngine.reset : PurgeEngine := ⟨.idle, none, 0, 0⟩

/-- The Bus Port right after the release of the power-on reset input (R154, R155). -/
def BusPort.reset : BusPort :=
  { powerOnReset := false, busReset := false, state := .initializing, initElapsed := 0, initIndex := 0
    args := Vector.replicate 8 ⟨0, 0⟩, response := .none }

/-- The part right after power-on reset: the input released, the port INITIALIZING (R154, R155), no command
waiting. -/
def State.reset : State :=
  { port := BusPort.reset, locks := Vector.replicate 64 LockRecord.reset, requests := Vector.replicate 8 none
    nextArrival := 0, du := DeadlineUnit.reset, agents := ofTable AgentRecord.reset, purge := PurgeEngine.reset
    pending := [] }

end Sys2Proof.Machine
end

