-- ==== Sys2Proof/Machine/Ops.lean ====
section
/-! DEFINITION. The named operations over the part's state: reading and replacing one record of a table, holders of a
lock, entries of the deadline pool, notices, error status and command record. -/

namespace Sys2Proof.Machine

/-! ### One record of a table -/

/-- Lock record `l`. -/
def State.lock (s : State) (l : LockNum) : LockRecord := s.locks.get l

/-- Lock record `l` replaced by `r`. -/
def State.setLock (s : State) (l : LockNum) (r : LockRecord) : State := { s with locks := setRow s.locks l r }

/-- Pending-request record of agent `a`. -/
def State.request (s : State) (a : Agent) : Option PendingRequest := s.requests.get a

/-- Pending-request record of agent `a` replaced by `q`. -/
def State.setRequest (s : State) (a : Agent) (q : Option PendingRequest) : State :=
  { s with requests := setRow s.requests a q }

/-- Agent record `a`. -/
def State.agent (s : State) (a : Agent) : AgentRecord := s.agents.get a

/-- Agent record `a` replaced by `r`. -/
def State.setAgent (s : State) (a : Agent) (r : AgentRecord) : State := { s with agents := setRow s.agents a r }

/-- The Deadline Unit changed by `f`. -/
def State.withDu (s : State) (f : DeadlineUnit → DeadlineUnit) : State := { s with du := f s.du }

/-- The argument words of agent `a` (R148). -/
def State.argsOf (s : State) (a : Agent) : ArgWords := s.port.args.get a

/-- The argument words of agent `a` replaced. -/
def State.setArgs (s : State) (a : Agent) (w : ArgWords) : State :=
  { s with port := { s.port with args := setRow s.port.args a w } }

/-- The low 32 bits of the timebase, as every notice carries them (R83). -/
def State.now (s : State) : Word := s.du.timebase.extractLsb' 0 32

/-! ### Bus answers (R146, R162) -/

/-- The part drives `r`. -/
def State.respond (s : State) (r : BusResponse) : State := { s with port := { s.port with response := r } }

/-! ### Holders of a lock (R3, R4) -/

/-- Agent `a` is a holder of the lock. -/
def LockRecord.holds (r : LockRecord) (a : Agent) : Bool := (r.holders.get a).isSome

/-- The holders of the lock, in ascending order of agent number. -/
def LockRecord.holderList (r : LockRecord) : List Agent := allAgents.filter r.holds

/-- Agent `a` is the one holder of the lock. -/
def LockRecord.soleHolder (r : LockRecord) (a : Agent) : Bool :=
  r.holds a && allAgents.all fun b => !r.holds b || b == a

/-- The lease of agent `a`'s hold on the lock, when it holds it and the lease is present (R5). -/
def LockRecord.leaseOf (r : LockRecord) (a : Agent) : Option EntryNum := (r.holders.get a).bind Hold.lease

/-- Table 1-3: the holder `a` has left the lock. -/
def LockRecord.withoutHolder (r : LockRecord) (a : Agent) : LockRecord :=
  let hs := setRow r.holders a none
  { r with
    holders := hs
    state := match r.state with
      | .shared => if allAgents.any fun b => (hs.get b).isSome then .shared else .free
      | .exclusive | .free => .free }

/-- Table 1-3: agent `a` has joined the holders of the lock, which is then in state `st`; the grant clears the
recovered flag (R7). -/
def LockRecord.withHolder (r : LockRecord) (a : Agent) (st : LockState) (lease : Option EntryNum) : LockRecord :=
  { r with holders := setRow r.holders a (some ⟨lease⟩), state := st, recovered := false }

/-- The number of locks agent `a` holds, in either mode. -/
def State.holdCount (s : State) (a : Agent) : Nat := allLocks.countP fun l => (s.lock l).holds a

/-! ### The deadline pool (R89 to R97) -/

/-- The remaining count of an ARMED entry (R89). -/
def DeadlineEntry.remaining : DeadlineEntry → Nat
  | .armed _ _ _ d _ => d
  | .free | .reserved _ _ => 0

/-- The lowest-numbered FREE entry (R89). -/
def DeadlineUnit.findFree (d : DeadlineUnit) : Option EntryNum :=
  allEntries.find? fun e => d.entries.get e == .free

/-- R90: the place of entry `e` of count `n` in the armed list: behind every entry of equal or smaller count. -/
def insertArmed (count : EntryNum → Nat) (e : EntryNum) (n : Nat) : List EntryNum → List EntryNum
  | [] => [e]
  | x :: xs => if count x ≤ n then x :: insertArmed count e n xs else e :: x :: xs

/-- R94, R95: entry `e` is armed, or re-armed, with count `n` and the latest place in the arming order; a re-armed
entry leaves its old place in the armed list, or among the expiries awaited, first. -/
def DeadlineUnit.arm (d : DeadlineUnit) (e : EntryNum) (k : EntryKind) (a : Agent) (l : LockNum) (n : Nat) :
    DeadlineUnit :=
  { d with
    entries := setRow d.entries e (.armed k a l n d.nextArming)
    armedList := insertArmed (fun x => (d.entries.get x).remaining) e n (d.armedList.filter (· != e))
    expiries := d.expiries.filter (· != e)
    nextArming := d.nextArming + 1 }

/-- R94: the FREE entry `e` is reserved for a lease to be armed at a later grant. -/
def DeadlineUnit.reserve (d : DeadlineUnit) (e : EntryNum) (a : Agent) (l : LockNum) : DeadlineUnit :=
  { d with entries := setRow d.entries e (.reserved a l) }

/-- R94, R95: the owned entry `e` becomes an ARMED LEASE entry of count `n`, from RESERVED or by re-arming, its agent
and lock unchanged. -/
def DeadlineUnit.armAsLease (d : DeadlineUnit) (e : EntryNum) (n : Nat) : DeadlineUnit :=
  match d.entries.get e with
  | .reserved a l | .armed _ a l _ _ => d.arm e .lease a l n
  | .free => d

/-- R95: entry `e` is freed; it leaves the armed list, and an expiry it awaited is not taken. -/
def DeadlineUnit.free (d : DeadlineUnit) (e : EntryNum) : DeadlineUnit :=
  { d with
    entries := setRow d.entries e .free
    armedList := d.armedList.filter (· != e)
    expiries := d.expiries.filter (· != e) }

/-- The entry, when present, is freed (R95). -/
def DeadlineUnit.freeOwned (d : DeadlineUnit) : Option EntryNum → DeadlineUnit
  | some e => d.free e
  | none => d

/-- R97: a count falls by 1. -/
def DeadlineEntry.countDown : DeadlineEntry → DeadlineEntry
  | .armed k a l n o => .armed k a l (n - 1) o
  | .free => .free
  | .reserved a l => .reserved a l

/-- R97: a tick advance. The entries of count 1 run out and are presented in list order; the others count down. -/
def DeadlineUnit.tick (d : DeadlineUnit) : DeadlineUnit :=
  let stay := d.armedList.filter fun e => (d.entries.get e).remaining != 1
  { d with
    timebase := d.timebase + 1
    entries := ofTable fun e => if e ∈ stay then (d.entries.get e).countDown else d.entries.get e
    armedList := stay
    expiries := d.expiries ++ d.armedList.filter fun e => (d.entries.get e).remaining == 1 }

/-- R100: every entry FREE, the armed list empty, no expiry awaited. -/
def DeadlineUnit.emptied (d : DeadlineUnit) : DeadlineUnit :=
  { d with entries := Vector.replicate 24 .free, armedList := [], expiries := [] }

/-! ### Agent records -/

/-- R124: a notice is posted to agent `a`: discarded when the agent is not ONLINE, appended when there is room, dropped
with overrun set when the queue is full. -/
def State.post (s : State) (a : Agent) (n : Notice) : State :=
  let r := s.agent a
  match r.state with
  | .online =>
    if r.notices.length < Config.noticeDepth then s.setAgent a { r with notices := r.notices ++ [n] }
    else s.setAgent a { r with overrun := true }
  | .offline | .purging => s

/-- R129: an ERROR answer to an access of agent `a` is recorded in its error status. -/
def State.recordError (s : State) (a : Agent) (k : ErrorKind) : State :=
  s.setAgent a { s.agent a with errorKind := k, errorSeen := true }

/-- What a command ends with: an outcome code and its detail (R116). -/
structure CmdOutcome where
  code   : OutcomeCode
  detail : BitVec 16
deriving DecidableEq, Repr

/-- R151: the command record of agent `a` takes the tag and the outcome, replayed clear. -/
def State.recordOutcome (s : State) (a : Agent) (tag : BitVec 8) (o : CmdOutcome) : State :=
  s.setAgent a { s.agent a with record := ⟨tag, o.code, o.detail, false⟩ }

/-- R150: a replay sets the replayed flag and nothing else. -/
def State.markReplayed (s : State) (a : Agent) : State :=
  s.setAgent a { s.agent a with record := { (s.agent a).record with replayed := true } }

end Sys2Proof.Machine
end

