-- ==== Sys2Proof/Machine/Flags.lean ====
section
/-! DEFINITION. The codes of Tables 10-7 and 10-8, the details of outcomes (R159), and the interrupt lines (R131). -/

namespace Sys2Proof.Machine

/-- Lock state codes (Table 10-8). -/
def LockState.code : LockState → BitVec 2
  | .free => 0
  | .exclusive => 1
  | .shared => 2

/-- Mode codes (Table 10-8); 0 means none. -/
def Mode.code : Mode → BitVec 2
  | .exclusive => 1
  | .shared => 2
  | .upgrade => 3

/-- Agent state codes (Table 10-8). -/
def AgentState.code : AgentState → BitVec 2
  | .offline => 0
  | .online => 1
  | .purging => 2

/-- Cause codes (Table 10-8); 0 means none. -/
def Cause.code : Cause → BitVec 2
  | .lease => 1
  | .forced => 2

/-- Error kind codes (Table 10-8). -/
def ErrorKind.code : ErrorKind → BitVec 3
  | .none => 0
  | .parity => 1
  | .badOffset => 2
  | .readOnly => 3
  | .writeOnly => 4
  | .notHolder => 5
  | .agentNotOnline => 6

/-- Outcome codes (Table 10-7). -/
def OutcomeCode.code : OutcomeCode → BitVec 7
  | .done => 0x00
  | .granted => 0x01
  | .queued => 0x02
  | .released => 0x03
  | .cancelled => 0x04
  | .renewed => 0x05
  | .downgraded => 0x06
  | .started => 0x07
  | .busy => 0x10
  | .alreadyHolder => 0x11
  | .notHolder => 0x12
  | .requestPending => 0x13
  | .nothingPending => 0x14
  | .modeNotAllowed => 0x15
  | .leaseRequired => 0x16
  | .noDeadline => 0x17
  | .wouldDeadlock => 0x18
  | .upgradeConflict => 0x19
  | .upgradePending => 0x1A
  | .notExclusive => 0x1B
  | .noLease => 0x1C
  | .badArgument => 0x20
  | .agentOffline => 0x21
  | .agentPurging => 0x22
  | .notSupervisor => 0x23
  | .lockBusy => 0x24
  | .agentBusy => 0x25
  | .engineBusy => 0x26

/-- Bus answers on ANS1 and ANS0 (R162). -/
def BusAnswer.code : BusAnswer → BitVec 2
  | .ok => 1
  | .retry => 2
  | .error => 3

/-- ANS1 and ANS0 for the latest access (R162): 00 when no answer has been given. -/
def BusResponse.ans : BusResponse → BitVec 2
  | .none => 0
  | .write a | .read a _ _ => a.code

/-- R159: a number in the detail field. -/
def numberDetail (n : Nat) : BitVec 16 := BitVec.ofNat 16 n

/-- R159: a lock state in the detail field; the mode of a hold has the same code (Table 10-8). -/
def stateDetail (st : LockState) : BitVec 16 := st.code.zeroExtend 16

/-- R159: the flags of GRANTED in the detail field, RECOVERED in bit 0 of the detail and UPGRADE in bit 1. -/
def flagsDetail (recovered upgrade : Bool) : BitVec 16 :=
  (BitVec.ofBool upgrade ++ BitVec.ofBool recovered).zeroExtend 16

/-- An outcome with a number as detail. -/
def outcomeNumber (c : OutcomeCode) (n : Nat) : CmdOutcome := ⟨c, numberDetail n⟩

/-- An outcome with a lock state, or the mode of a hold, as detail. -/
def outcomeState (c : OutcomeCode) (st : LockState) : CmdOutcome := ⟨c, stateDetail st⟩

/-- BAD_ARGUMENT reasons (R159). -/
def badArgument (reason : Nat) : CmdOutcome := outcomeNumber .badArgument reason

/-- The lock state that a hold of this mode gives the lock (Table 1-3). -/
def Mode.lockState : Mode → LockState
  | .exclusive | .upgrade => .exclusive
  | .shared => .shared

/-- The mode of the holds of a lock in this state. -/
def LockState.mode : LockState → Mode
  | .shared => .shared
  | .exclusive | .free => .exclusive

/-- A reset input is asserted (R155). -/
def State.inReset (s : State) : Bool := s.port.powerOnReset || s.port.busReset

/-- The port is READY and no reset input is asserted (R154, R155). -/
def State.ready (s : State) : Bool := !s.inReset && s.port.state == .ready

/-- What asserts the line of an agent (R131). -/
def AgentRecord.wantsLine (r : AgentRecord) : Bool :=
  (r.noticeEnable && (!r.notices.isEmpty || r.overrun)) || (r.errorEnable && r.errorSeen)

/-- R131: interrupt line `a` is asserted, which is at the low level (R162; Signals.lean). -/
def State.line (s : State) (a : Agent) : Bool := !s.inReset && (s.agent a).wantsLine

end Sys2Proof.Machine
end

