-- ==== Sys2Proof/Machine/Grant.lean ====
section
/-! DEFINITION. Wait queues and the grant step (R44 to R61): queue order, leaving a queue, conversion, grant of a batch,
bypass counting and promotion. -/

namespace Sys2Proof.Machine

/-! ### Queue order (R48) -/

/-- The rank of a request: an UPGRADE first, then ascending effective class (R48). -/
def PendingRequest.rank (q : PendingRequest) : Nat :=
  match q.mode with
  | .upgrade => 0
  | .exclusive | .shared => q.effClass.toNat + 1

/-- Request `p` stands ahead of request `q` (R48): by rank, then by arrival. -/
def PendingRequest.precedes (p q : PendingRequest) : Bool :=
  p.rank < q.rank || (p.rank == q.rank && p.arrival < q.arrival)

/-- Waiter `a` stands ahead of waiter `b` (R48). -/
def State.precedes (s : State) (a b : Agent) : Bool :=
  match s.request a, s.request b with
  | some p, some q => p.precedes q
  | _, _ => false

/-- R49, R59: waiter `a` is placed before the first waiter it stands ahead of. -/
def State.place (s : State) (a : Agent) : List Agent → List Agent
  | [] => [a]
  | b :: bs => if s.precedes a b then a :: b :: bs else b :: s.place a bs

/-! ### Leaving a queue -/

/-- Waiter `a` leaves the queue of lock `l`, and its pending-request record becomes absent (R44). -/
def State.leaveQueue (s : State) (l : LockNum) (a : Agent) : State :=
  (s.setLock l { s.lock l with queue := (s.lock l).queue.filter (· != a) }).setRequest a none

/-- The pending request of agent `a`, if any, leaves its queue without a grant; its entry is freed (R47, R63). -/
def State.dequeue (s : State) (a : Agent) : State :=
  match s.request a with
  | some q => (s.leaveQueue q.lock a).withDu (·.freeOwned q.entry)
  | none => s

/-- Agent `a` has an upgrade queued on lock `l` (R37). -/
def State.upgradeQueued (s : State) (a : Agent) (l : LockNum) : Bool :=
  match s.request a with
  | some q => q.mode == .upgrade && q.lock == l
  | none => false

/-- The agent whose upgrade is queued on lock `l` (R72). -/
def State.upgraderOf (s : State) (l : LockNum) : Option Agent := (s.lock l).queue.find? fun a => s.upgradeQueued a l

/-! ### The grant step -/

/-- What the head test finds (R54, Table 3-3). -/
inductive HeadTest where
  | nothing
  | convert (a : Agent)
  | grant (batch : List Agent)
deriving DecidableEq, Repr

/-- Waiter `a` asks SHARED mode. -/
def State.asksShared (s : State) (a : Agent) : Bool :=
  match s.request a with
  | some q => q.mode == .shared
  | none => false

/-- R54, Table 3-3: the head test of lock `l`; R56: the batch at a SHARED head. -/
def State.headTest (s : State) (l : LockNum) : HeadTest :=
  match (s.lock l).queue with
  | [] => .nothing
  | a :: _ =>
    match s.request a with
    | none => .nothing
    | some q =>
      match q.mode, (s.lock l).state with
      | .upgrade, .shared => if (s.lock l).soleHolder a then .convert a else .nothing
      | .exclusive, .free => .grant [a]
      | .shared, .free | .shared, .shared => .grant ((s.lock l).queue.takeWhile s.asksShared)
      | .upgrade, .free | .upgrade, .exclusive | .exclusive, .shared | .exclusive, .exclusive
      | .shared, .exclusive => .nothing

/-- Table 3-2, at grant: the entry of the granted request `q` becomes the LEASE entry of the hold, or is freed. -/
def DeadlineUnit.atGrant (d : DeadlineUnit) (q : PendingRequest) : DeadlineUnit :=
  match q.lease, q.entry with
  | some n, some e => d.armAsLease e n
  | none, some e => d.free e
  | _, none => d

/-- Table 3-2, at grant: the lease of the hold. -/
def PendingRequest.grantedLease (q : PendingRequest) : Option EntryNum := q.lease.bind fun _ => q.entry

/-- R55, steps 1 to 3: waiter `a` of lock `l` with request `q` leaves the queue and joins the holders with its lease.
-/
def State.seatWaiter (s : State) (l : LockNum) (a : Agent) (q : PendingRequest) : State :=
  let t := s.leaveQueue l a
  (t.setLock l ((t.lock l).withHolder a q.mode.lockState q.grantedLease)).withDu (·.atGrant q)

/-- R55: waiter `a` of lock `l` is granted, other than by conversion; `recovered` is the flag as it stood when the
grant step began. -/
def State.grantWaiter (s : State) (l : LockNum) (recovered : Bool) (a : Agent) : State :=
  match s.request a with
  | none => s
  | some q => (s.seatWaiter l a q).post a (.granted l q.mode recovered false s.now)

/-- R57, steps 1 to 4: the upgrade request `q` of agent `a` leaves the queue and lock `l` becomes EXCLUSIVE. -/
def State.seatUpgrade (s : State) (l : LockNum) (a : Agent) (q : PendingRequest) : State :=
  let t := s.leaveQueue l a
  (t.setLock l { t.lock l with state := .exclusive }).withDu (·.freeOwned q.entry)

/-- R57: the upgrade of agent `a`, sole holder of lock `l`, is converted. -/
def State.convert (s : State) (l : LockNum) (a : Agent) : State :=
  match s.request a with
  | none => s
  | some q => (s.seatUpgrade l a q).post a (.granted l .upgrade false true s.now)

/-- The arrival of waiter `a`, as a list of one or none. -/
def State.arrivalOf (s : State) (a : Agent) : List Nat :=
  match s.request a with
  | some q => [q.arrival]
  | none => []

/-- R58: a bypass count after one more grant step has passed its waiter. -/
def bypassNext (limit : BitVec 4) (count : Nat) : Nat :=
  min (count + 1) (if limit = 0 then Config.bypassCeiling else limit.toNat)

/-- R58: the request is passed by a grant step that granted requests of these arrivals. -/
def PendingRequest.passedBy (q : PendingRequest) (arrivals : List Nat) : Bool := arrivals.any fun n => q.arrival < n

/-- R58: the bypass counts of lock `l` after a grant step that granted requests of these arrivals. -/
def State.countPassed (s : State) (l : LockNum) (arrivals : List Nat) : State :=
  { s with
    requests := ofTable fun a =>
      if a ∈ (s.lock l).queue then
        (s.request a).map fun q =>
          if q.passedBy arrivals then { q with bypass := bypassNext (s.lock l).bypassLimit q.bypass } else q
      else s.request a }

/-- R59: the request reaches the limit in this grant step and is not yet of class 0. -/
def PendingRequest.promotedBy (q : PendingRequest) (limit : BitVec 4) (arrivals : List Nat) : Bool :=
  limit != 0 && q.passedBy arrivals && q.bypass < limit.toNat && bypassNext limit q.bypass == limit.toNat
    && q.effClass != 0

/-- R59: the waiters of lock `l` that this grant step promotes, judged before their counts are updated. -/
def State.promotees (s : State) (l : LockNum) (arrivals : List Nat) : List Agent :=
  (s.lock l).queue.filter fun a =>
    match s.request a with
    | some q => q.promotedBy (s.lock l).bypassLimit arrivals
    | none => false

/-- R59: the effective class of each of `ps` becomes 0. -/
def State.toClassZero (s : State) (ps : List Agent) : State :=
  { s with
    requests := ofTable fun a =>
      if a ∈ ps then (s.request a).map fun q => { q with effClass := 0 } else s.request a }

/-- R59: the waiters `ps` of lock `l` are promoted and re-placed. -/
def State.promote (s : State) (l : LockNum) (ps : List Agent) : State :=
  let s := s.toClassZero ps
  let others := (s.lock l).queue.filter fun a => !ps.contains a
  s.setLock l { s.lock l with queue := ps.foldl (fun q a => s.place a q) others }

/-- The runs of the grant step on lock `l`, with the number of waiters they granted. Each run is one grant step of
R54; R60 adds a run when promotion has re-placed a waiter. -/
def State.grantRuns : Nat → LockNum → State → State × Nat
  | 0, _, s => (s, 0)
  | fuel + 1, l, s =>
    match s.headTest l with
    | .nothing => (s, 0)
    | .convert a => (s.convert l a, 1)
    | .grant batch =>
      let arrivals := batch.flatMap s.arrivalOf
      let recovered := (s.lock l).recovered
      let t := batch.foldl (fun t a => t.grantWaiter l recovered a) s
      let ps := t.promotees l arrivals
      let t := t.countPassed l arrivals
      if ps.isEmpty then (t, batch.length)
      else
        let r := State.grantRuns fuel l (t.promote l ps)
        (r.1, batch.length + r.2)

/-- R53: the grant step on lock `l`, with the number of waiters it granted. A run grants at least one waiter, so there
are no more runs than waiters (R60). -/
def State.grantStepCounted (s : State) (l : LockNum) : State × Nat := State.grantRuns (s.lock l).queue.length l s

/-- R53: the grant step on lock `l`. -/
def State.grantStep (s : State) (l : LockNum) : State := (s.grantStepCounted l).1

/-! ### The grant step of an event

A SHARED request that has queued by its class can stand at the head of a SHARED lock (R25, R49). Table 3-3 grants it in
any grant step; but some rules say of the grant step of their own event that it grants nothing, and the rule of the
event is followed: R63, R67 and R136 of a waiter that leaves from behind the head (log entry 18), R41, R106 and R138 of
a hold that leaves the lock SHARED, but for a conversion (log entry 17). -/

/-- The grant step on lock `l` in an event whose rule lets it grant; in another it changes nothing (R54). -/
def State.grantIf (s : State) (grants : Bool) (l : LockNum) : State := if grants then s.grantStep l else s

/-- Waiter `a` stands at the head of the queue of lock `l` (R48). -/
def State.atHead (s : State) (a : Agent) (l : LockNum) : Bool := (s.lock l).queue.head? == some a

/-- R41, R106, R138: the grant step that follows the removal of a hold grants what the head test finds, but not a
SHARED head of a lock that is still SHARED (log entry 17). -/
def State.grantsAfterHold (s : State) (l : LockNum) : Bool :=
  match (s.lock l).state, s.headTest l with
  | .shared, .grant _ => false
  | .shared, .nothing | .shared, .convert _ | .free, _ | .exclusive, _ => true

/-- R41, R106, R138: the grant step on lock `l` after a hold was removed. -/
def State.grantAfterHold (s : State) (l : LockNum) : State := s.grantIf (s.grantsAfterHold l) l

/-- R63, R136 step 3: the pending request of agent `a` is removed; the grant step grants on its lock if it stood at
the head (R67; log entry 18). -/
def State.dropRequest (s : State) (a : Agent) : State :=
  match s.request a with
  | none => s
  | some q => (s.dequeue a).grantIf (s.atHead a q.lock) q.lock

/-! ### Removing a hold -/

/-- R36, R106, R138: agent `a` leaves the holders of lock `l`; its lease entry, if present, is freed. -/
def State.removeHold (s : State) (a : Agent) (l : LockNum) : State :=
  (s.setLock l ((s.lock l).withoutHolder a)).withDu (·.freeOwned ((s.lock l).leaseOf a))

/-- R6: the recovered flag of lock `l` is set. -/
def State.setRecovered (s : State) (l : LockNum) : State := s.setLock l { s.lock l with recovered := true }

end Sys2Proof.Machine
end

