-- ==== Sys2Proof/Machine/Expiry.lean ====
section
/-! DEFINITION. Expiries (R65, R98, R106 to R109), tick advances (R97), and the taking of the expiries that stand before
a request at the Lock Engine (R98). -/

namespace Sys2Proof.Machine

/-- R65: the WAIT expiry of the pending request `q` of agent `a`: removed, reported, and the grant step run, which
grants if the request stood at the head (R67; log entry 18). -/
def State.timeOut (s : State) (a : Agent) (q : PendingRequest) : State :=
  ((s.dequeue a).post a (.timedOut q.lock q.mode (q.mode == .upgrade) s.now)).grantIf (s.atHead a q.lock) q.lock

/-- R65: the WAIT expiry of entry `e`, owned by the pending request of agent `a`. -/
def State.waitExpired (s : State) (e : EntryNum) (a : Agent) : State :=
  let t := s.withDu (·.free e)
  match s.request a with
  | none => t
  | some q => t.timeOut a q

/-- R109: the REVOKE_REPORT of a lease expiry of agent `a` on lock `l`, when the report attribute asks for it. -/
def State.reportRevocation (s : State) (a : Agent) (l : LockNum) (m : Mode) : State :=
  if (s.lock l).report && a != Config.supervisor then
    s.post Config.supervisor (.revokeReport l m .lease a s.now)
  else s

/-- R106, R107, steps 1 to 3 and 1 to 2: the hold of agent `a` on lock `l` is removed with its lease entry, an upgrade
that `a` has queued on `l` with it, and the recovered flag set if the hold was exclusive. -/
def State.revokeHold (s : State) (a : Agent) (l : LockNum) : State :=
  let t := s.removeHold a l
  let t := if s.upgradeQueued a l then t.dequeue a else t
  if (s.lock l).state = .exclusive then t.setRecovered l else t

/-- R108: the REVOKED notice of a lease expiry of agent `a` on lock `l`. -/
def State.leaseNotice (s : State) (a : Agent) (l : LockNum) : Notice :=
  .revoked l (s.lock l).state.mode ((s.lock l).state == .exclusive) (s.upgradeQueued a l) .lease s.now

/-- R106, R107: a LEASE expiry for the hold of agent `a` on lock `l`, up to the grant step: revoked and reported. -/
def State.revokeReported (s : State) (a : Agent) (l : LockNum) : State :=
  ((s.revokeHold a l).post a (s.leaseNotice a l)).reportRevocation a l (s.lock l).state.mode

/-- R106, R107: a LEASE expiry for the hold of agent `a` on lock `l`: revoked, reported, and the grant step run. Where
an upgrade of `a` left the head with the hold, the grant step finds a new head (R107). -/
def State.revokeLease (s : State) (a : Agent) (l : LockNum) : State :=
  let t := s.revokeReported a l
  t.grantIf (s.upgradeQueued a l || t.grantsAfterHold l) l

/-- R106, R107: the LEASE expiry of entry `e`, for the hold of agent `a` on lock `l`. -/
def State.leaseExpired (s : State) (e : EntryNum) (a : Agent) (l : LockNum) : State :=
  let t := s.withDu (·.free e)
  if (s.lock l).holds a then t.revokeLease a l else t

/-- R98: the expiry of entry `e` is taken at the Lock Engine. -/
def State.expiryOf (s : State) (e : EntryNum) : State :=
  match s.du.entries.get e with
  | .armed .wait a _ _ _ => s.waitExpired e a
  | .armed .lease a l _ _ => s.leaseExpired e a l
  | .free | .reserved _ _ => s.withDu fun d => { d with expiries := d.expiries.filter (· != e) }

/-- R98: the expiry that stands first is taken. -/
def State.takeExpiry (s : State) : State :=
  match s.du.expiries with
  | [] => s
  | e :: _ => s.expiryOf e

/-- `k` expiries are taken, in the order presented. -/
def State.takeExpiries : Nat → State → State
  | 0, s => s
  | k + 1, s => State.takeExpiries k s.takeExpiry

/-- R98: every expiry presented is taken, in order. -/
def State.drain (s : State) : State := State.takeExpiries s.du.expiries.length s

/-- R98: a held tick is taken. -/
def State.heldTick (s : State) : State := s.withDu fun d => { d.tick with heldTicks := d.heldTicks - 1 }

/-- R98: the expiries presented, and `k` held ticks with theirs. -/
def State.settleTicks : Nat → State → State
  | 0, s => s.drain
  | k + 1, s => State.settleTicks k s.drain.heldTick

/-- R98: what is taken before a request that waits for the Lock Engine: the expiries presented, in order, and each
held tick, taken as soon as the last expiry before it (log entry 2). -/
def State.settle (s : State) : State := State.settleTicks s.du.heldTicks s

/-- `k` held ticks are taken, each once the expiries before it have been (R98). -/
def State.takeHeldTicks : Nat → State → State
  | 0, s => s
  | k + 1, s => if s.du.expiries.isEmpty then State.takeHeldTicks k s.heldTick else s

/-- R98: the held ticks are taken, in turn, until one presents an expiry: as soon as the last expiry of the tick
advance before has been. -/
def State.catchUp (s : State) : State := State.takeHeldTicks s.du.heldTicks s

/-- The kind of the expiry that stands first (R98). -/
def State.nextExpiry (s : State) : Option EntryKind :=
  match s.du.expiries with
  | [] => none
  | e :: _ =>
    match s.du.entries.get e with
    | .armed k _ _ _ _ => some k
    | .free | .reserved _ _ => none

/-- R84, R97: a tick is taken once the expiries before it are (R98). A held tick is taken first, and those still held
follow it as soon as they can; else the tick falls due now, the divider count returns to 0 and the new divider applies
(R85; log entries 8 and 9). -/
def State.tickTaken (s : State) : State :=
  if s.port.powerOnReset then s
  else if 0 < s.du.heldTicks then s.drain.catchUp
  else s.drain.withDu fun d => { d.tick with dividerCount := 0, activeDivider := d.divider }

end Sys2Proof.Machine
end

