-- ==== Sys2Proof/Machine/SweepEvents.lean ====
section
/-! DEFINITION. The sweep of the Purge Engine: SWEEP_VISIT (R138) and SWEEP_END (R139). -/

namespace Sys2Proof.Machine

/-- The hold of agent `a` on lock `k` is removed with its lease entry; recovered is set if it was exclusive (R138,
steps 1 and 2). -/
def State.sweepHold (s : State) (a : Agent) (k : LockNum) : State :=
  if (s.lock k).state = .exclusive then (s.removeHold a k).setRecovered k else s.removeHold a k

/-- The count of the Purge Engine is `n` and its pointer `p`. -/
def State.setSweep (s : State) (n p : Nat) : State := { s with purge := { s.purge with count := n, pointer := p } }

/-- R138: the visit to lock `k` for subject `a`: its hold removed and counted, recovered set if the hold was exclusive,
the grant step run, the pointer advanced. -/
def State.visitLock (s : State) (a : Agent) (k : LockNum) : State :=
  if (s.lock k).holds a then ((s.sweepHold a k).grantAfterHold k).setSweep (s.purge.count + 1) (k.val + 1)
  else s.setSweep s.purge.count (k.val + 1)

/-- R138: the visit to the lock at the sweep pointer, after the expiries that stand before it (R98). It is presented
while the Purge Engine is SWEEPING and a lock remains (log entry 3). -/
def State.sweepVisit (s : State) : State :=
  match s.purge.state, s.purge.subject, lockOf s.purge.pointer with
  | .sweeping, some a, some k => s.settle.visitLock a k
  | _, _, _ => s

/-- R139: the sweep end, taken while the Purge Engine is SWEEPING with pointer 64 (log entry 3). The pointer and the
count keep their values and have no meaning (R134; log entry 11). -/
def State.sweepEnd (s : State) : State :=
  match s.purge.state, s.purge.subject with
  | .sweeping, some a =>
    if s.purge.pointer = 64 then
      let s := s.setAgent a { s.agent a with state := .offline }
      let s := { s with purge := { s.purge with state := .idle, subject := none } }
      s.post Config.supervisor (.purgeDone a s.purge.count s.now)
    else s
  | _, _ => s

/-- SWEEP_VISIT (R138). -/
def execSweepVisit (s : State) : Host.Outcome State Fault Refusal := .next s.sweepVisit

/-- SWEEP_END (R139). -/
def execSweepEnd (s : State) : Host.Outcome State Fault Refusal := .next s.sweepEnd

end Sys2Proof.Machine
end

