-- ==== Sys2Proof/Machine/BusClock.lean ====
section
/-! DEFINITION. A bus clock period (R84, R154), and the events the part brings about by itself (R97, R98, R139): what a
step does when no command waits (log entry 4). -/

namespace Sys2Proof.Machine

/-- R84, R85: the divider count takes one bus clock period. When it reaches the divider of the period in progress it
returns to 0, the tick divider applies to the next period, and a tick falls due. -/
def DeadlineUnit.countPeriod (d : DeadlineUnit) : DeadlineUnit :=
  if d.activeDivider ≤ d.dividerCount + 1 then
    { d with dividerCount := 0, activeDivider := d.divider, heldTicks := d.heldTicks + 1 }
  else { d with dividerCount := d.dividerCount + 1 }

/-- R154: the initialization period takes one bus clock period, and ends after its length, which is a free value (log
entry 1). -/
def State.countInitialization (s : State) : State :=
  match s.inReset, s.port.state with
  | false, .initializing =>
    if Config.initLength s.port.initIndex ≤ s.port.initElapsed + 1 then
      { s with port := { s.port with state := .ready } }
    else { s with port := { s.port with initElapsed := s.port.initElapsed + 1 } }
  | _, _ => s

/-- R98, R139: the next event that the part brings to the Lock Engine, one a bus clock period: an expiry presented,
else the next visit of a sweep, after the tick that has fallen due and its expiries; or else the end of the sweep. -/
def State.ownEvent (s : State) : State :=
  if !s.du.expiries.isEmpty then s.takeExpiry
  else if s.purge.pointer = 64 then s.sweepEnd
  else s.sweepVisit

/-- One bus clock period with no access (log entry 4). A tick never stands in the way of a sweep: the held ticks are
taken beside the period's own event. While the power-on reset input is asserted nothing counts (R84). -/
def State.busClock (s : State) : State :=
  if s.port.powerOnReset then s else ((s.withDu (·.countPeriod)).countInitialization).ownEvent.catchUp

end Sys2Proof.Machine
end

