-- ==== Sys2Proof/Machine/Deadlock.lean ====
section
/-! DEFINITION. The waits-for relation (R79) and the deadlock check (R80). -/

namespace Sys2Proof.Machine

/-- R79: a waiting agent points to every holder of the lock its request names, other than itself. -/
def State.pointsTo (s : State) (w : Agent) : List Agent :=
  match s.request w with
  | none => []
  | some q => (s.lock q.lock).holderList.filter (· != w)

/-- One round of the walk of R80: the agents reached, and every agent a reached one points to. -/
def State.reachMore (s : State) (reached : List Agent) : List Agent :=
  allAgents.filter fun h => reached.contains h || reached.any fun w => (s.pointsTo w).contains h

/-- `k` rounds of the walk. -/
def State.walk (s : State) : Nat → List Agent → List Agent
  | 0, reached => reached
  | k + 1, reached => State.walk s k (s.reachMore reached)

/-- R80: agent `a` is reachable from agent `h`, another agent. The walk covers at most 8 agents, so 8 rounds reach all
that can be reached. -/
def State.reaches (s : State) (h a : Agent) : Bool := (s.walk 8 [h]).contains a

/-- R80: the lowest-numbered holder of lock `l`, other than `a`, from which `a` is reachable. -/
def State.deadlockHolder (s : State) (a : Agent) (l : LockNum) : Option Agent :=
  ((s.lock l).holderList.filter (· != a)).find? fun h => s.reaches h a

end Sys2Proof.Machine
end

