-- ==== Sys2Proof/Machine/Port.lean ====
section
/-! DEFINITION. The Bus Port: bus answers (R146), parity (R147), command writes, replay and NOT_SUPERVISOR (R149 to
R152), and the entry into an initialization period (R154). -/

namespace Sys2Proof.Machine

/-- The part answers a write. -/
def State.answerWrite (s : State) (b : BusAnswer) : State := s.respond (.write b)

/-- The part answers a read, driving the data with correct parity (R147). -/
def State.answerRead (s : State) (b : BusAnswer) (d : Word) : State := s.respond (.read b d (evenParity d))

/-- R146: a write answered ERROR; its kind is recorded. -/
def State.refuseWrite (s : State) (a : Agent) (k : ErrorKind) : State := (s.recordError a k).answerWrite .error

/-- R146: a read answered ERROR, with data 0; its kind is recorded. -/
def State.refuseRead (s : State) (a : Agent) (k : ErrorKind) : State := (s.recordError a k).answerRead .error 0

/-- R146, R147, R154, R155: a write to a word that takes writes. Not READY, it is answered RETRY; with bad parity it
is answered ERROR and PARITY is recorded; else it is taken, as `take` gives. -/
def State.writeAccess (s : State) (a : Agent) (w : WriteData) (take : State → State) : State :=
  if s.ready then
    if w.parityGood then take s else s.refuseWrite a .parity
  else s.answerWrite .retry

/-- R146, R154, R155: a read of a word other than an identification word. Not READY, it is answered RETRY with data 0;
else it is taken, as `take` gives. -/
def State.readAccess (s : State) (take : State → State) : State :=
  if s.ready then take s else s.answerRead .retry 0

/-- R150: the replay test. -/
def State.isReplay (s : State) (a : Agent) (tag : BitVec 8) : Bool := tag != 0 && tag == (s.agent a).record.tag

/-- R150 to R152: a command write of agent `a` past the checks of R146. `take` is what the command's owner does. -/
def State.takeCommand (s : State) (c : Command) (a : Agent) (tag : BitVec 8) (take : State → State × CmdOutcome) :
    State :=
  if s.isReplay a tag then s.markReplayed a
  else if c.supervisor && a != Config.supervisor then s.recordOutcome a tag ⟨.notSupervisor, 0⟩
  else
    let r := take s
    r.1.recordOutcome a tag r.2

/-- R149: a write to the word of command `c` by agent `a`; the bus answer is OK whatever the outcome. -/
def State.commandWrite (s : State) (c : Command) (a : Agent) (w : WriteData) (take : State → State × CmdOutcome) :
    State :=
  s.writeAccess a w fun t => (t.takeCommand c a w.tag take).answerWrite .ok

/-- The refusal of an agent that is not ONLINE, the first check of each lock command (R20, R35). -/
def AgentState.refusal : AgentState → Option OutcomeCode
  | .online => none
  | .offline => some .agentOffline
  | .purging => some .agentPurging

/-- R154: the port enters INITIALIZING; a new initialization period begins. -/
def State.enterInitializing (s : State) : State :=
  { s with port := { s.port with state := .initializing, initElapsed := 0, initIndex := s.port.initIndex + 1 } }

end Sys2Proof.Machine
end

