-- ==== Sys2Proof/Machine/AgentCommands.lean ====
section
/-! DEFINITION. The commands any agent may write: NOP (R152), ACQUIRE (R18 to R30), RELEASE (R35 to R38), UPGRADE (R68
to R73), DOWNGRADE (R76, R77), CANCEL (R62, R63), RENEW (R103, R104). -/

namespace Sys2Proof.Machine

/-! ### ACQUIRE -/

/-- The arguments of ACQUIRE (Table 2-1). -/
structure AcquireArgs where
  lockField : Nat
  mode      : Option Mode
  wait      : Bool
  timeout   : Option Nat
  lease     : Option Nat
deriving DecidableEq, Repr

/-- The mode an ACQUIRE asks: a code that names neither EXCLUSIVE nor SHARED is invalid (R21, R161). -/
def acquireMode (code : BitVec 2) : Option Mode :=
  if code = 1 then some .exclusive else if code = 2 then some .shared else none

/-- The arguments of ACQUIRE as they stand in the argument words (R18). -/
def acquireArgs (w : ArgWords) : AcquireArgs :=
  { lockField := numberField w.arg0, mode := acquireMode (codeField w.arg0), wait := waitField w.arg0
    timeout := duration (timeoutField w.arg0), lease := duration (leaseField w.arg1) }

/-- What the checks of a request end in: a refusal, an immediate grant, or a place in the queue, with the deadline
entry that the grant or the request takes. -/
inductive RequestDecision where
  | refuse (o : CmdOutcome)
  | grant (l : LockNum) (m : Mode) (e : Option EntryNum)
  | enqueue (l : LockNum) (m : Mode) (e : Option EntryNum)
deriving DecidableEq, Repr

/-- R25: a request is grantable now. -/
def LockRecord.grantableNow (r : LockRecord) (m : Mode) : Bool :=
  match m, r.state with
  | .exclusive, .free | .shared, .free => true
  | .shared, .shared => r.queue.isEmpty
  | .exclusive, .exclusive | .exclusive, .shared | .shared, .exclusive => false
  | .upgrade, _ => false

/-- Checks 8 to 11 of ACQUIRE, for a request that is not grantable now (R28, R29). -/
def State.queueChecks (s : State) (a : Agent) (l : LockNum) (m : Mode) (x : AcquireArgs) : RequestDecision :=
  if x.wait then
    match s.deadlockHolder a l with
    | some h => .refuse (outcomeNumber .wouldDeadlock h.val)
    | none =>
      if x.timeout.isSome || x.lease.isSome then
        match s.du.findFree with
        | some e => .enqueue l m (some e)
        | none => .refuse ⟨.noDeadline, 0⟩
      else .enqueue l m none
  else .refuse (outcomeState .busy (s.lock l).state)

/-- Check 7 of ACQUIRE, for a request that is grantable now (R26). -/
def State.grantCheck (s : State) (l : LockNum) (m : Mode) (x : AcquireArgs) : RequestDecision :=
  if x.lease.isSome then
    match s.du.findFree with
    | some e => .grant l m (some e)
    | none => .refuse ⟨.noDeadline, 0⟩
  else .grant l m none

/-- R19, Table 2-2: the checks of ACQUIRE, in order. -/
def State.acquireDecision (s : State) (a : Agent) (x : AcquireArgs) : RequestDecision :=
  match (s.agent a).state.refusal with
  | some c => .refuse ⟨c, 0⟩
  | none =>
    match lockOf x.lockField, x.mode with
    | none, _ => .refuse (badArgument 1)
    | some _, none => .refuse (badArgument 2)
    | some l, some m =>
      match s.request a with
      | some q => .refuse (outcomeNumber .requestPending q.lock.val)
      | none =>
        let r := s.lock l
        if m == .shared && !r.sharedAllowed then .refuse ⟨.modeNotAllowed, 0⟩
        else if r.leaseRequired && x.lease.isNone then .refuse ⟨.leaseRequired, 0⟩
        else if r.holds a then .refuse (outcomeState .alreadyHolder r.state)
        else if r.grantableNow m then s.grantCheck l m x
        else s.queueChecks a l m x

/-- R27: an immediate grant of lock `l` to agent `a`; its lease, when asked, is the entry `e` armed with the lease
duration (R26). -/
def State.grantNow (s : State) (a : Agent) (l : LockNum) (m : Mode) (lease : Option Nat) (e : Option EntryNum) :
    State :=
  let s := s.setLock l ((s.lock l).withHolder a m.lockState e)
  match e, lease with
  | some e, some n => s.withDu (·.arm e .lease a l n)
  | _, _ => s

/-- R30, R73: the entry of a request that queues: armed as WAIT with the timeout, or RESERVED for the lease. -/
def DeadlineUnit.atQueue (d : DeadlineUnit) (e : Option EntryNum) (timeout : Option Nat) (a : Agent) (l : LockNum) :
    DeadlineUnit :=
  match e, timeout with
  | some e, some n => d.arm e .wait a l n
  | some e, none => d.reserve e a l
  | none, _ => d

/-- R30, R73: agent `a` joins the queue of lock `l`; its pending-request record is created. -/
def State.joinQueue (s : State) (a : Agent) (l : LockNum) (m : Mode) (timeout lease : Option Nat)
    (e : Option EntryNum) : State :=
  let q : PendingRequest :=
    { lock := l, mode := m, effClass := (s.agent a).cls, bypass := 0, arrival := s.nextArrival
      timeout := timeout, lease := lease, entry := e }
  let s := { s.setRequest a (some q) with nextArrival := s.nextArrival + 1 }
  let s := s.setLock l { s.lock l with queue := s.place a (s.lock l).queue }
  s.withDu (·.atQueue e timeout a l)

/-- R30: the 1-based position of agent `a` in the queue of lock `l`. -/
def State.positionIn (s : State) (a : Agent) (l : LockNum) : Nat := (s.lock l).queue.idxOf a + 1

/-- R18: ACQUIRE taken at the Lock Engine, after the expiries that stand before it (R98). -/
def State.acquireTaken (a : Agent) (s : State) : State × CmdOutcome :=
  let s := s.settle
  let x := acquireArgs (s.argsOf a)
  match s.acquireDecision a x with
  | .refuse o => (s, o)
  | .grant l m e => (s.grantNow a l m x.lease e, ⟨.granted, flagsDetail (s.lock l).recovered false⟩)
  | .enqueue l m e =>
    let t := s.joinQueue a l m x.timeout x.lease e
    (t, outcomeNumber .queued (t.positionIn a l))

/-! ### RELEASE -/

/-- R36, R41: agent `a` gives up its hold on lock `l`, and the grant step runs. -/
def State.giveUp (s : State) (a : Agent) (l : LockNum) : State := (s.removeHold a l).grantAfterHold l

/-- R35, Table 2-5: the checks of RELEASE. -/
def State.releaseCheck (s : State) (a : Agent) (lockField : Nat) : CmdOutcome ⊕ LockNum :=
  match (s.agent a).state.refusal with
  | some c => .inl ⟨c, 0⟩
  | none =>
    match lockOf lockField with
    | none => .inl (badArgument 1)
    | some l =>
      if !(s.lock l).holds a then .inl ⟨.notHolder, 0⟩
      else if s.upgradeQueued a l then .inl ⟨.upgradePending, 0⟩
      else .inr l

/-- R35: RELEASE taken at the Lock Engine. -/
def State.releaseTaken (a : Agent) (s : State) : State × CmdOutcome :=
  let s := s.settle
  match s.releaseCheck a (numberField (s.argsOf a).arg0) with
  | .inl o => (s, o)
  | .inr l => (s.giveUp a l, outcomeState .released (s.lock l).state)

/-! ### UPGRADE -/

/-- R69, Table 4-1: the checks of UPGRADE, in order; a grant is the conversion of R71. -/
def State.upgradeDecision (s : State) (a : Agent) (w : ArgWords) : RequestDecision :=
  match (s.agent a).state.refusal with
  | some c => .refuse ⟨c, 0⟩
  | none =>
    match lockOf (numberField w.arg0) with
    | none => .refuse (badArgument 1)
    | some l =>
      match s.request a with
      | some q => .refuse (outcomeNumber .requestPending q.lock.val)
      | none =>
        let r := s.lock l
        if !r.holds a then .refuse ⟨.notHolder, 0⟩
        else if r.state == .exclusive then .refuse (outcomeState .alreadyHolder .exclusive)
        else if r.soleHolder a then .grant l .upgrade none
        else
          match s.upgraderOf l with
          | some b => .refuse (outcomeNumber .upgradeConflict b.val)
          | none =>
            if waitField w.arg0 then
              match s.deadlockHolder a l with
              | some h => .refuse (outcomeNumber .wouldDeadlock h.val)
              | none =>
                if (duration (timeoutField w.arg0)).isSome then
                  match s.du.findFree with
                  | some e => .enqueue l .upgrade (some e)
                  | none => .refuse ⟨.noDeadline, 0⟩
                else .enqueue l .upgrade none
            else .refuse (outcomeState .busy .shared)

/-- R71: an immediate conversion: the lock becomes EXCLUSIVE, its holder and the lease unchanged. -/
def State.convertNow (s : State) (l : LockNum) : State := s.setLock l { s.lock l with state := .exclusive }

/-- R68: UPGRADE taken at the Lock Engine. -/
def State.upgradeTaken (a : Agent) (s : State) : State × CmdOutcome :=
  let s := s.settle
  let w := s.argsOf a
  match s.upgradeDecision a w with
  | .refuse o => (s, o)
  | .grant l _ _ => (s.convertNow l, ⟨.granted, flagsDetail false true⟩)
  | .enqueue l m e =>
    let t := s.joinQueue a l m (duration (timeoutField w.arg0)) none e
    (t, outcomeNumber .queued (t.positionIn a l))

/-! ### DOWNGRADE -/

/-- R76, Table 4-3: the checks of DOWNGRADE. -/
def State.downgradeCheck (s : State) (a : Agent) (lockField : Nat) : CmdOutcome ⊕ LockNum :=
  match (s.agent a).state.refusal with
  | some c => .inl ⟨c, 0⟩
  | none =>
    match lockOf lockField with
    | none => .inl (badArgument 1)
    | some l =>
      let r := s.lock l
      if !r.holds a then .inl ⟨.notHolder, 0⟩
      else if r.state == .shared then .inl ⟨.notExclusive, 0⟩
      else if !r.sharedAllowed then .inl ⟨.modeNotAllowed, 0⟩
      else .inr l

/-- R77: the lock becomes SHARED, holder and lease unchanged. -/
def State.toShared (s : State) (l : LockNum) : State := s.setLock l { s.lock l with state := .shared }

/-- R76, R77: DOWNGRADE taken at the Lock Engine; the detail counts the waiters granted. -/
def State.downgradeTaken (a : Agent) (s : State) : State × CmdOutcome :=
  let s := s.settle
  match s.downgradeCheck a (numberField (s.argsOf a).arg0) with
  | .inl o => (s, o)
  | .inr l =>
    let r := (s.toShared l).grantStepCounted l
    (r.1, outcomeNumber .downgraded r.2)

/-! ### CANCEL -/

/-- R62, R63: CANCEL taken at the Lock Engine. -/
def State.cancelTaken (a : Agent) (s : State) : State × CmdOutcome :=
  let s := s.settle
  match (s.agent a).state.refusal with
  | some c => (s, ⟨c, 0⟩)
  | none =>
    match s.request a with
    | none => (s, ⟨.nothingPending, 0⟩)
    | some q => (s.dropRequest a, outcomeNumber .cancelled q.lock.val)

/-! ### RENEW -/

/-- R103, Table 6-3: the checks of RENEW; on success the lock, the LEASE entry and the new duration. -/
def State.renewCheck (s : State) (a : Agent) (w : ArgWords) : CmdOutcome ⊕ (LockNum × EntryNum × Nat) :=
  match (s.agent a).state.refusal with
  | some c => .inl ⟨c, 0⟩
  | none =>
    match lockOf (numberField w.arg0) with
    | none => .inl (badArgument 1)
    | some l =>
      if !(s.lock l).holds a then .inl ⟨.notHolder, 0⟩
      else
        match (s.lock l).leaseOf a, duration (leaseField w.arg1) with
        | none, _ => .inl ⟨.noLease, 0⟩
        | some _, none => .inl (badArgument 4)
        | some e, some n => .inr (l, e, n)

/-- R103, R104: RENEW taken at the Lock Engine, with the Deadline Unit. -/
def State.renewTaken (a : Agent) (s : State) : State × CmdOutcome :=
  let s := s.settle
  match s.renewCheck a (s.argsOf a) with
  | .inl o => (s, o)
  | .inr (l, e, n) => (s.withDu (·.armAsLease e n), outcomeState .renewed (s.lock l).state)

/-! ### The commands -/

/-- R152: NOP taken at the Bus Port. -/
def State.nopTaken (s : State) : State × CmdOutcome := (s, ⟨.done, 0⟩)

/-- NOP (R152). -/
def execNop (a : Agent) (w : WriteData) (s : State) : Host.Outcome State Fault Refusal :=
  .next (s.commandWrite .nop a w State.nopTaken)

/-- ACQUIRE (R18). -/
def execAcquire (a : Agent) (w : WriteData) (s : State) : Host.Outcome State Fault Refusal :=
  .next (s.commandWrite .acquire a w (State.acquireTaken a))

/-- RELEASE (R35). -/
def execRelease (a : Agent) (w : WriteData) (s : State) : Host.Outcome State Fault Refusal :=
  .next (s.commandWrite .release a w (State.releaseTaken a))

/-- UPGRADE (R68). -/
def execUpgrade (a : Agent) (w : WriteData) (s : State) : Host.Outcome State Fault Refusal :=
  .next (s.commandWrite .upgrade a w (State.upgradeTaken a))

/-- DOWNGRADE (R76). -/
def execDowngrade (a : Agent) (w : WriteData) (s : State) : Host.Outcome State Fault Refusal :=
  .next (s.commandWrite .downgrade a w (State.downgradeTaken a))

/-- CANCEL (R62). -/
def execCancel (a : Agent) (w : WriteData) (s : State) : Host.Outcome State Fault Refusal :=
  .next (s.commandWrite .cancel a w (State.cancelTaken a))

/-- RENEW (R103). -/
def execRenew (a : Agent) (w : WriteData) (s : State) : Host.Outcome State Fault Refusal :=
  .next (s.commandWrite .renew a w (State.renewTaken a))

end Sys2Proof.Machine
end

