-- ==== Sys2Proof/Machine/ResetEvents.lean ====
section
/-! DEFINITION. The reset inputs and the end of initialization: POWER_ON_RESET, POWER_ON_RESET_RELEASE, BUS_RESET,
BUS_RESET_RELEASE, INITIALIZATION_COMPLETE (R17, R100, R133, R144, R154, R155), and the emptying of the tables that
bus reset and RESET TABLES share. -/

namespace Sys2Proof.Machine

/-- R17: the dynamic part of a lock record emptied, the attributes kept. -/
def LockRecord.emptied (r : LockRecord) : LockRecord :=
  { r with state := .free, holders := Vector.replicate 8 none, recovered := false, queue := [] }

/-- R133: a PURGING agent becomes OFFLINE; ONLINE and OFFLINE are kept. -/
def AgentState.afterReset : AgentState → AgentState
  | .purging => .offline
  | .online => .online
  | .offline => .offline

/-- R133: what bus reset and RESET TABLES share for an agent record: state, notice queue and overrun. -/
def AgentRecord.emptied (r : AgentRecord) : AgentRecord :=
  { r with state := r.state.afterReset, notices := [], overrun := false }

/-- R133, Table 7-6: an agent record at bus reset. -/
def AgentRecord.busReset (r : AgentRecord) : AgentRecord :=
  { r.emptied with
    record := CommandRecord.reset, noticeEnable := false, errorEnable := false, errorKind := .none
    errorSeen := false }

/-- R17, R100, R144: lock table, pending requests, deadline pool and Purge Engine emptied in one event. -/
def State.emptyTables (s : State) : State :=
  { s with
    locks := ofTable fun l => (s.lock l).emptied
    requests := Vector.replicate 8 none
    du := s.du.emptied
    purge := PurgeEngine.reset }

/-- R155: the power-on values of every block, with the power-on reset input asserted. The bus reset input, the port
state (log entry 10), the number of the initialization period, the latest response (log entry 6) and the queue of
commands are not among them. -/
def State.powerOnAsserted (s : State) : State :=
  { State.reset with
    port := { s.port with powerOnReset := true, initElapsed := 0, args := BusPort.reset.args }
    pending := s.pending }

/-- R155: bus reset, with its input asserted: the tables emptied, the agent records, argument words and snapshots
reset; attributes, agent states and classes, timebase, divider and divider count kept. -/
def State.busResetAsserted (s : State) : State :=
  let s := s.emptyTables
  { s with
    port := { s.port with busReset := true, initElapsed := 0, args := BusPort.reset.args }
    du := { s.du with snapshots := DeadlineUnit.reset.snapshots }
    agents := ofTable fun a => (s.agent a).busReset }

/-- POWER_ON_RESET (R155). -/
def execPowerOnReset (s : State) : Host.Outcome State Fault Refusal := .next s.powerOnAsserted

/-- POWER_ON_RESET_RELEASE (R154, R155): the port enters INITIALIZING unless the bus reset input is still asserted.
With the input not asserted there is no release (log entry 3). -/
def execPowerOnResetRelease (s : State) : Host.Outcome State Fault Refusal :=
  if s.port.powerOnReset then
    let t := { s with port := { s.port with powerOnReset := false } }
    .next (if s.port.busReset then t else t.enterInitializing)
  else .next s

/-- BUS_RESET (R155): while the power-on reset input is asserted, the bus reset input has no effect. -/
def execBusReset (s : State) : Host.Outcome State Fault Refusal :=
  .next (if s.port.powerOnReset then { s with port := { s.port with busReset := true } } else s.busResetAsserted)

/-- BUS_RESET_RELEASE (R154, R155): the port enters INITIALIZING unless the power-on reset input is still asserted.
With the input not asserted there is no release (log entry 3). -/
def execBusResetRelease (s : State) : Host.Outcome State Fault Refusal :=
  if s.port.busReset then
    let t := { s with port := { s.port with busReset := false } }
    .next (if s.port.powerOnReset then t else t.enterInitializing)
  else .next s

/-- INITIALIZATION_COMPLETE (R154): the port becomes READY. It is taken in INITIALIZING, with no reset input asserted
(log entries 3 and 10). A tick that a reset has left held, with the expiries before it ended, has been taken by then
(R98, R100; log entry 9). -/
def execInitializationComplete (s : State) : Host.Outcome State Fault Refusal :=
  match s.inReset, s.port.state with
  | false, .initializing => .next (State.catchUp { s with port := { s.port with state := .ready } })
  | _, _ => .next s

end Sys2Proof.Machine
end

