-- ==== Sys2Proof/Machine/SupervisorCommands.lean ====
section
/-! DEFINITION. The supervisor commands: SET AGENT (R121, R122), SET LOCK (R11), FORCE RELEASE (R111 to R113), PURGE
(R135, R136), SET TIME (R86), SET DIVIDER (R85), RESET TABLES (R156). The NOT_SUPERVISOR check of each is the Bus
Port's (R152). -/

namespace Sys2Proof.Machine

/-! ### SET AGENT -/

/-- The target state of SET AGENT: only ONLINE and OFFLINE are valid codes (R121, R161). -/
def targetState (code : BitVec 2) : Option AgentState :=
  if code = 0 then some .offline else if code = 1 then some .online else none

/-- R121, Table 7-3: the checks of SET AGENT, in order. -/
def State.setAgentCheck (s : State) (arg0 : Word) : CmdOutcome ⊕ (Agent × AgentState) :=
  match agentOf (numberField arg0), targetState (codeField arg0) with
  | none, _ => .inl (badArgument 5)
  | some _, none => .inl (badArgument 6)
  | some n, some t =>
    if n == Config.supervisor && t == .offline then .inl (badArgument 7)
    else if (s.agent n).state == .purging then .inl (outcomeNumber .agentBusy 1)
    else if t == .offline && (s.request n).isSome then .inl (outcomeNumber .agentBusy 2)
    else if t == .offline && s.holdCount n != 0 then .inl (outcomeNumber .agentBusy 3)
    else .inr (n, t)

/-- R122, Table 7-4: class and state of the agent; an agent that leaves ONLINE loses its notices and its overrun. -/
def AgentRecord.withState (r : AgentRecord) (t : AgentState) (cls : BitVec 2) : AgentRecord :=
  if r.state == .online && t == .offline then { r with state := t, cls := cls, notices := [], overrun := false }
  else { r with state := t, cls := cls }

/-- R121: SET AGENT taken at the Agent Table. -/
def State.setAgentTaken (s : State) : State × CmdOutcome :=
  let arg0 := (s.argsOf Config.supervisor).arg0
  match s.setAgentCheck arg0 with
  | .inl o => (s, o)
  | .inr (n, t) => (s.setAgent n ((s.agent n).withState t (classField arg0)), ⟨.done, 0⟩)

/-! ### SET LOCK -/

/-- R11: the four attributes of the lock take the values from ARG1. -/
def LockRecord.withFields (r : LockRecord) (arg1 : Word) : LockRecord :=
  { r with
    sharedAllowed := sharedAllowedField arg1
    leaseRequired := leaseRequiredField arg1
    bypassLimit := bypassLimitField arg1
    report := reportField arg1 }

/-- R11: SET LOCK taken at the Lock Engine. -/
def State.setLockTaken (s : State) : State × CmdOutcome :=
  let s := s.settle
  let w := s.argsOf Config.supervisor
  match lockOf (numberField w.arg0) with
  | none => (s, badArgument 1)
  | some l =>
    let r := s.lock l
    if r.state != .free || !r.queue.isEmpty then (s, outcomeState .lockBusy r.state)
    else (s.setLock l (r.withFields w.arg1), ⟨.done, 0⟩)

/-! ### FORCE RELEASE -/

/-- R112, step 1: every hold of lock `l` is removed with its lease entry. -/
def State.removeHolds (s : State) (l : LockNum) : State :=
  (s.lock l).holderList.foldl (fun t a => t.removeHold a l) s

/-- R112, step 2: an upgrade queued on lock `l` is removed. -/
def State.dropUpgrade (s : State) (l : LockNum) : State :=
  match s.upgraderOf l with
  | some a => s.dequeue a
  | none => s

/-- R112, step 3: lock `l` becomes FREE; recovered is set if it was EXCLUSIVE. -/
def State.toFree (s : State) (l : LockNum) (exclusive : Bool) : State :=
  let t := s.setLock l { s.lock l with state := .free }
  if exclusive then t.setRecovered l else t

/-- R112, steps 1 to 3. -/
def State.stripLock (s : State) (l : LockNum) : State :=
  ((s.removeHolds l).dropUpgrade l).toFree l ((s.lock l).state == .exclusive)

/-- R108, R112: the REVOKED notice of a forced release. -/
def forcedNotice (l : LockNum) (st : LockState) (upgrader : Option Agent) (a : Agent) (time : Word) : Notice :=
  .revoked l st.mode (st == .exclusive) (upgrader == some a) .forced time

/-- R112: FORCE RELEASE of the held lock `l`. -/
def State.forceHeld (s : State) (l : LockNum) : State :=
  let r := s.lock l
  let note := fun a => forcedNotice l r.state (s.upgraderOf l) a s.now
  (r.holderList.foldl (fun t a => t.post a (note a)) (s.stripLock l)).grantStep l

/-- R111, R113: FORCE RELEASE taken at the Lock Engine. -/
def State.forceReleaseTaken (s : State) : State × CmdOutcome :=
  let s := s.settle
  match lockOf (numberField (s.argsOf Config.supervisor).arg0) with
  | none => (s, badArgument 1)
  | some l =>
    let r := s.lock l
    if r.state == .free then (s.setLock l { r with recovered := false }, ⟨.done, 0⟩)
    else (s.forceHeld l, outcomeNumber .done r.holderList.length)

/-! ### PURGE -/

/-- R135, Table 8-2: the checks of PURGE, in order. -/
def State.purgeCheck (s : State) (arg0 : Word) : CmdOutcome ⊕ Agent :=
  match agentOf (numberField arg0) with
  | none => .inl (badArgument 5)
  | some a =>
    if a == Config.supervisor then .inl (badArgument 7)
    else
      match s.purge.state, s.purge.subject with
      | .sweeping, some b => .inl (outcomeNumber .engineBusy b.val)
      | .sweeping, none => .inl (outcomeNumber .engineBusy 0)
      | .idle, _ => if (s.agent a).state != .online then .inl (badArgument 8) else .inr a

/-- R136: purge start for agent `a`. -/
def State.purgeStart (s : State) (a : Agent) : State :=
  let s := s.setAgent a { s.agent a with state := .purging }
  let s := s.dropRequest a
  let s := s.setAgent a { s.agent a with notices := [], overrun := false }
  { s with purge := ⟨.sweeping, some a, 0, 0⟩ }

/-- R135: PURGE taken at the Purge Engine; purge start comes after the expiries that stand before it (R98), and the
detail counts the holds it finds. -/
def State.purgeTaken (s : State) : State × CmdOutcome :=
  match s.purgeCheck (s.argsOf Config.supervisor).arg0 with
  | .inl o => (s, o)
  | .inr a =>
    let s := s.settle
    (s.purgeStart a, outcomeNumber .started (s.holdCount a))

/-! ### SET TIME, SET DIVIDER, RESET TABLES -/

/-- R86: SET TIME taken at the Deadline Unit; expiries presented before it are taken before it, so that their notices
carry the time of their tick (R83; log entry 2). -/
def State.setTimeTaken (s : State) : State × CmdOutcome :=
  let s := s.settle
  let w := s.argsOf Config.supervisor
  (s.withDu fun d => { d with timebase := timeFields w.arg0 w.arg1 }, ⟨.done, 0⟩)

/-- R85: SET DIVIDER taken at the Deadline Unit. -/
def State.setDividerTaken (s : State) : State × CmdOutcome :=
  let n := dividerField (s.argsOf Config.supervisor).arg0
  if n = 0 ∨ Config.maxDivider < n then (s, badArgument 3)
  else (s.withDu fun d => { d with divider := n }, ⟨.done, 0⟩)

/-- R156, step 4: an agent record at RESET TABLES; the command record of agent 0 is written by the command itself. -/
def AgentRecord.resetTables (r : AgentRecord) : AgentRecord := { r.emptied with record := CommandRecord.reset }

/-- R156: RESET TABLES taken at the Bus Port. -/
def State.resetTablesTaken (s : State) : State × CmdOutcome :=
  let s := s.emptyTables
  let s := { s with agents := ofTable fun a => (s.agent a).resetTables }
  (s.enterInitializing, ⟨.done, 0⟩)

/-! ### The commands -/

/-- SET_AGENT (R121). -/
def execSetAgent (a : Agent) (w : WriteData) (s : State) : Host.Outcome State Fault Refusal :=
  .next (s.commandWrite .setAgent a w State.setAgentTaken)

/-- SET_LOCK (R11). -/
def execSetLock (a : Agent) (w : WriteData) (s : State) : Host.Outcome State Fault Refusal :=
  .next (s.commandWrite .setLock a w State.setLockTaken)

/-- FORCE_RELEASE (R111). -/
def execForceRelease (a : Agent) (w : WriteData) (s : State) : Host.Outcome State Fault Refusal :=
  .next (s.commandWrite .forceRelease a w State.forceReleaseTaken)

/-- PURGE (R135). -/
def execPurge (a : Agent) (w : WriteData) (s : State) : Host.Outcome State Fault Refusal :=
  .next (s.commandWrite .purge a w State.purgeTaken)

/-- SET_TIME (R86). -/
def execSetTime (a : Agent) (w : WriteData) (s : State) : Host.Outcome State Fault Refusal :=
  .next (s.commandWrite .setTime a w State.setTimeTaken)

/-- SET_DIVIDER (R85). -/
def execSetDivider (a : Agent) (w : WriteData) (s : State) : Host.Outcome State Fault Refusal :=
  .next (s.commandWrite .setDivider a w State.setDividerTaken)

/-- RESET_TABLES (R156). -/
def execResetTables (a : Agent) (w : WriteData) (s : State) : Host.Outcome State Fault Refusal :=
  .next (s.commandWrite .resetTables a w State.resetTablesTaken)

end Sys2Proof.Machine
end

