-- ==== Sys2Proof/Machine/Views.lean ====
section
/-! DEFINITION. The read words of the window, bit by bit: RESULT and TRY read data (Table 10-6), NOTICE HEAD and NOTICE
TIME (Table 10-9), LOCK VIEW (Table 10-10), AGENT VIEW (Tables 10-11, 10-12), HELD MAP (Table 1-7), the timebase words
(R87), ERROR STATUS and INTERRUPT ENABLE (Section 10.6). Fields stand from bit 31 down; unused bits read 0 (R160). -/

namespace Sys2Proof.Machine

/-- A flag as a bit field. -/
def flagBit (b : Bool) : BitVec 1 := BitVec.ofBool b

/-- Table 10-6: RESULT. -/
def CommandRecord.word (r : CommandRecord) : Word := r.detail ++ flagBit r.replayed ++ r.code.code ++ r.tag

/-- Table 10-6, R34: the read data of TRY n; tag and replayed read 0. -/
def CmdOutcome.tryWord (o : CmdOutcome) : Word := o.detail ++ flagBit false ++ o.code.code ++ (0 : BitVec 8)

/-- Bits 18 to 0 and 26 to 20 of NOTICE HEAD (Table 10-9): the fields of the oldest notice; absent fields read 0
(R160). -/
structure NoticeFields where
  count     : BitVec 7
  subject   : BitVec 3
  upgrade   : Bool
  recovered : Bool
  lock      : BitVec 6
  mode      : BitVec 2
  cause     : BitVec 2
  kind      : BitVec 3
deriving DecidableEq, Repr

/-- The notice fields of an empty queue: all read 0 (R160). -/
def NoticeFields.absent : NoticeFields := ⟨0, 0, false, false, 0, 0, 0, 0⟩

/-- A lock number in six bits. -/
def lockBits (l : LockNum) : BitVec 6 := BitVec.ofNat 6 l.val

/-- An agent number in three bits. -/
def agentBits (a : Agent) : BitVec 3 := BitVec.ofNat 3 a.val

/-- The fields of a notice by its kind (Table 7-5, R160). -/
def Notice.fields : Notice → NoticeFields
  | .granted l m r u _ => ⟨0, 0, u, r, lockBits l, m.code, 0, 1⟩
  | .timedOut l m u _ => ⟨0, 0, u, false, lockBits l, m.code, 0, 2⟩
  | .revoked l m r u c _ => ⟨0, 0, u, r, lockBits l, m.code, c.code, 3⟩
  | .revokeReport l m c n _ => ⟨0, agentBits n, false, false, lockBits l, m.code, c.code, 4⟩
  | .purgeDone n k _ => ⟨BitVec.ofNat 7 k, agentBits n, false, false, 0, 0, 0, 5⟩

/-- The time field of a notice (R124). -/
def Notice.time : Notice → Word
  | .granted _ _ _ _ t | .timedOut _ _ _ t | .revoked _ _ _ _ _ t | .revokeReport _ _ _ _ t | .purgeDone _ _ t => t

/-- Table 10-9, R126: NOTICE HEAD of an agent. -/
def AgentRecord.noticeHead (r : AgentRecord) : Word :=
  let f := match r.notices with
    | [] => NoticeFields.absent
    | n :: _ => n.fields
  flagBit r.overrun ++ BitVec.ofNat 4 r.notices.length ++ f.count ++ (0 : BitVec 1) ++ f.subject ++ flagBit f.upgrade
    ++ flagBit f.recovered ++ f.lock ++ f.mode ++ f.cause ++ (0 : BitVec 1) ++ f.kind

/-- R126: NOTICE TIME of an agent. -/
def AgentRecord.noticeTime (r : AgentRecord) : Word :=
  match r.notices with
  | [] => 0
  | n :: _ => n.time

/-- Section 10.6: ERROR STATUS. -/
def AgentRecord.errorStatus (r : AgentRecord) : Word := (0 : BitVec 28) ++ flagBit r.errorSeen ++ r.errorKind.code

/-- Section 10.6: INTERRUPT ENABLE. -/
def AgentRecord.interruptEnable (r : AgentRecord) : Word :=
  (0 : BitVec 30) ++ flagBit r.errorEnable ++ flagBit r.noticeEnable

/-- The holder map of a lock, agent m in bit m (Table 10-10). -/
def LockRecord.holderMap (r : LockRecord) : BitVec 8 :=
  flagBit (r.holds 7) ++ flagBit (r.holds 6) ++ flagBit (r.holds 5) ++ flagBit (r.holds 4) ++ flagBit (r.holds 3)
    ++ flagBit (r.holds 2) ++ flagBit (r.holds 1) ++ flagBit (r.holds 0)

/-- The head of a lock's queue as LOCK VIEW shows it: head present, head agent, head mode; with no head the agent
reads 0 and the mode reads EXCLUSIVE (R13, R160). -/
def State.headFields (s : State) (l : LockNum) : Bool × BitVec 3 × BitVec 2 :=
  match (s.lock l).queue with
  | [] => (false, 0, Mode.exclusive.code)
  | a :: _ => (true, agentBits a, ((s.request a).map fun q => q.mode.code).getD Mode.exclusive.code)

/-- Table 10-10, R13: LOCK VIEW of lock `l`. -/
def State.lockView (s : State) (l : LockNum) : Word :=
  let r := s.lock l
  let h := s.headFields l
  r.bypassLimit ++ (0 : BitVec 1) ++ flagBit r.report ++ flagBit r.leaseRequired ++ flagBit r.sharedAllowed
    ++ (0 : BitVec 2) ++ h.2.2 ++ (0 : BitVec 1) ++ h.2.1 ++ r.holderMap ++ BitVec.ofNat 4 r.queue.length
    ++ flagBit h.1 ++ flagBit r.recovered ++ r.state.code

/-- Table 10-12: bits 7 to 0 of AGENT VIEW of agent `a`. -/
def State.agentViewLow (s : State) (a : Agent) : BitVec 8 :=
  match s.request a with
  | some q => BitVec.ofNat 4 q.bypass ++ q.effClass ++ q.mode.code
  | none =>
    match (s.agent a).state with
    | .purging => (0 : BitVec 1) ++ BitVec.ofNat 7 s.purge.pointer
    | .online | .offline => 0

/-- Table 10-11, R132: AGENT VIEW of agent `a`. -/
def State.agentView (s : State) (a : Agent) : Word :=
  let r := s.agent a
  let pendingLock := match s.request a with
    | some q => lockBits q.lock
    | none => 0
  r.state.code ++ r.cls ++ BitVec.ofNat 4 r.notices.length ++ flagBit (s.line a) ++ BitVec.ofNat 7 (s.holdCount a)
    ++ flagBit r.overrun ++ flagBit (s.request a).isSome ++ pendingLock ++ s.agentViewLow a

/-- R15, Table 1-7: 32 flags, bit k set when agent `a` holds lock `base + k`. -/
def State.heldMap (s : State) (a : Agent) (base : Nat) : Word :=
  BitVec.ofBoolListLE ((List.range 32).map fun k => (s.lock (Fin.ofNat 64 (base + k))).holds a) |>.setWidth 32

/-- R87: TIME HIGH of agent `a`, its snapshot in bits 15 to 0. -/
def State.timeHigh (s : State) (a : Agent) : Word := (0 : BitVec 16) ++ s.du.snapshots.get a

end Sys2Proof.Machine
end

