-- ==== Sys2Proof/Machine/Accesses.lean ====
section
/-! DEFINITION. The accesses that are no command writes: TRY_READ (R32), TRY_WRITE (R39), TIME_LOW_READ (R87), POP and
CLEAR_OVERRUN (R127), ERROR_STATUS_WRITE (R129), INTERRUPT_ENABLE_WRITE (R130), REGISTER_WRITE (R146, R148) and
REFUSED_READ (R146). -/

namespace Sys2Proof.Machine

/-! ### The quick path -/

/-- R32, Table 2-4: the refusal of a TRY read of lock `l` by agent `a`, if any. -/
def State.tryRefusal (s : State) (a : Agent) (l : LockNum) : Option CmdOutcome :=
  match (s.agent a).state.refusal with
  | some c => some ⟨c, 0⟩
  | none =>
    let r := s.lock l
    if r.leaseRequired then some ⟨.leaseRequired, 0⟩
    else if r.holds a then some (outcomeState .alreadyHolder r.state)
    else if r.state != .free then some (outcomeState .busy r.state)
    else none

/-- R32: a TRY read taken at the Lock Engine, after the expiries that stand before it (R98). -/
def State.tryReadTaken (s : State) (a : Agent) (l : LockNum) : State :=
  let s := s.settle
  match s.tryRefusal a l with
  | some o => s.answerRead .ok o.tryWord
  | none =>
    (s.grantNow a l .exclusive none none).answerRead .ok
      (CmdOutcome.tryWord ⟨.granted, flagsDetail (s.lock l).recovered false⟩)

/-- R39, Table 2-6: the refusal of a TRY write of lock `l` by agent `a`, if any. -/
def State.tryWriteRefusal (s : State) (a : Agent) (l : LockNum) : Option ErrorKind :=
  match (s.agent a).state with
  | .offline | .purging => some .agentNotOnline
  | .online => if !(s.lock l).holds a || s.upgradeQueued a l then some .notHolder else none

/-- R39: a TRY write with good parity taken at the Lock Engine, after the expiries that stand before it (R98). -/
def State.tryWriteTaken (s : State) (a : Agent) (l : LockNum) : State :=
  let s := s.settle
  match s.tryWriteRefusal a l with
  | some k => s.refuseWrite a k
  | none => (s.giveUp a l).answerWrite .ok

/-- TRY_READ (R32 to R34). -/
def execTryRead (a : Agent) (l : LockNum) (s : State) : Host.Outcome State Fault Refusal :=
  .next (s.readAccess fun t => t.tryReadTaken a l)

/-- TRY_WRITE (R39, R40). -/
def execTryWrite (a : Agent) (l : LockNum) (w : WriteData) (s : State) : Host.Outcome State Fault Refusal :=
  .next (s.writeAccess a w fun t => t.tryWriteTaken a l)

/-! ### The timebase -/

/-- R87: a read of TIME LOW returns the low 32 bits of the timebase and latches the high 16 for the reading agent. -/
def State.timeLowTaken (s : State) (a : Agent) : State :=
  (s.withDu fun d => { d with snapshots := setRow d.snapshots a (d.timebase.extractLsb' 32 16) }).answerRead .ok s.now

/-- TIME_LOW_READ (R87). -/
def execTimeLowRead (a : Agent) (s : State) : Host.Outcome State Fault Refusal :=
  .next (s.readAccess fun t => t.timeLowTaken a)

/-! ### Notices, error status, interrupt enable -/

/-- R127: what a write of NOTICE CONTROL does to the writing agent's record. -/
def AgentRecord.noticeControl (r : AgentRecord) (popFlag clearFlag : Bool) : AgentRecord :=
  { r with
    notices := if popFlag then r.notices.tail else r.notices
    overrun := if clearFlag then false else r.overrun }

/-- R127: a write of NOTICE CONTROL with good parity; both flags act in the one event. -/
def State.noticeControlTaken (s : State) (a : Agent) (w : WriteData) : State :=
  (s.setAgent a ((s.agent a).noticeControl w.popFlag w.clearOverrunFlag)).answerWrite .ok

/-- POP (R127). -/
def execPop (a : Agent) (w : WriteData) (s : State) : Host.Outcome State Fault Refusal :=
  .next (s.writeAccess a w fun t => t.noticeControlTaken a w)

/-- CLEAR_OVERRUN (R127). -/
def execClearOverrun (a : Agent) (w : WriteData) (s : State) : Host.Outcome State Fault Refusal :=
  .next (s.writeAccess a w fun t => t.noticeControlTaken a w)

/-- R129: a write of ERROR STATUS clears both fields, whatever the data. -/
def State.errorStatusTaken (s : State) (a : Agent) : State :=
  (s.setAgent a { s.agent a with errorKind := .none, errorSeen := false }).answerWrite .ok

/-- ERROR_STATUS_WRITE (R129). -/
def execErrorStatusWrite (a : Agent) (w : WriteData) (s : State) : Host.Outcome State Fault Refusal :=
  .next (s.writeAccess a w fun t => t.errorStatusTaken a)

/-- R130: a write of INTERRUPT ENABLE sets both enables of the writing agent. -/
def State.interruptEnableTaken (s : State) (a : Agent) (w : WriteData) : State :=
  (s.setAgent a
    { s.agent a with noticeEnable := w.noticeEnableFlag, errorEnable := w.errorEnableFlag }).answerWrite .ok

/-- INTERRUPT_ENABLE_WRITE (R130). -/
def execInterruptEnableWrite (a : Agent) (w : WriteData) (s : State) : Host.Outcome State Fault Refusal :=
  .next (s.writeAccess a w fun t => t.interruptEnableTaken a w)

/-! ### Every other write and read -/

/-- The write of a command word (Table 10-2). -/
def execCommand : Command → Agent → WriteData → State → Host.Outcome State Fault Refusal
  | .nop => execNop
  | .acquire => execAcquire
  | .release => execRelease
  | .upgrade => execUpgrade
  | .downgrade => execDowngrade
  | .cancel => execCancel
  | .renew => execRenew
  | .setAgent => execSetAgent
  | .setLock => execSetLock
  | .forceRelease => execForceRelease
  | .purge => execPurge
  | .setTime => execSetTime
  | .setDivider => execSetDivider
  | .resetTables => execResetTables

/-- R146, checks 1 and 2: a write to an offset that holds no word, or to a read-only word, refused before its parity is
looked at. -/
def State.writeRefused (s : State) (a : Agent) (k : ErrorKind) : State :=
  if s.ready then s.refuseWrite a k else s.answerWrite .retry

/-- REGISTER_WRITE (R146, R148): ARG0 and ARG1 are stored; an unmapped offset and a read-only word are refused. At the
word of another row of the table the write acts as that row (log entry 5). -/
def execRegisterWrite (a : Agent) (off : WordOffset) (w : WriteData) (s : State) : Host.Outcome State Fault Refusal :=
  match windowWord off with
  | .unmapped => .next (s.writeRefused a .badOffset)
  | .lockView _ | .agentView _ | .heldMapLow _ | .heldMapHigh _ | .timeLow | .timeHigh | .result | .noticeHead
  | .noticeTime | .identification _ => .next (s.writeRefused a .readOnly)
  | .arg0 =>
    .next (s.writeAccess a w fun t => (t.setArgs a { t.argsOf a with arg0 := w.data }).answerWrite .ok)
  | .arg1 =>
    .next (s.writeAccess a w fun t => (t.setArgs a { t.argsOf a with arg1 := w.data }).answerWrite .ok)
  | .noticeControl => .next (s.writeAccess a w fun t => t.noticeControlTaken a w)
  | .tryWord l => execTryWrite a l w s
  | .errorStatus => execErrorStatusWrite a w s
  | .interruptEnable => execInterruptEnableWrite a w s
  | .command c => execCommand c a w s

/-- REFUSED_READ (R146): an unmapped offset and a write-only word are refused. A read of any other word returns it, as
its own rule gives (log entry 5): an identification word in INITIALIZING too (R158). -/
def execRefusedRead (a : Agent) (off : WordOffset) (s : State) : Host.Outcome State Fault Refusal :=
  match windowWord off with
  | .unmapped => .next (s.readAccess fun t => t.refuseRead a .badOffset)
  | .command _ | .noticeControl => .next (s.readAccess fun t => t.refuseRead a .writeOnly)
  | .identification w =>
    .next (if s.inReset then s.answerRead .retry 0 else s.answerRead .ok (Config.identification w))
  | .tryWord l => execTryRead a l s
  | .timeLow => execTimeLowRead a s
  | .lockView l => .next (s.readAccess fun t => t.answerRead .ok (t.lockView l))
  | .agentView n => .next (s.readAccess fun t => t.answerRead .ok (t.agentView n))
  | .heldMapLow n => .next (s.readAccess fun t => t.answerRead .ok (t.heldMap n 0))
  | .heldMapHigh n => .next (s.readAccess fun t => t.answerRead .ok (t.heldMap n 32))
  | .timeHigh => .next (s.readAccess fun t => t.answerRead .ok (t.timeHigh a))
  | .arg0 => .next (s.readAccess fun t => t.answerRead .ok (t.argsOf a).arg0)
  | .arg1 => .next (s.readAccess fun t => t.answerRead .ok (t.argsOf a).arg1)
  | .result => .next (s.readAccess fun t => t.answerRead .ok (t.agent a).record.word)
  | .noticeHead => .next (s.readAccess fun t => t.answerRead .ok (t.agent a).noticeHead)
  | .noticeTime => .next (s.readAccess fun t => t.answerRead .ok (t.agent a).noticeTime)
  | .errorStatus => .next (s.readAccess fun t => t.answerRead .ok (t.agent a).errorStatus)
  | .interruptEnable => .next (s.readAccess fun t => t.answerRead .ok (t.agent a).interruptEnable)

end Sys2Proof.Machine
end

