-- ==== Sys2Proof/Machine/TimeEvents.lean ====
section
/-! DEFINITION. TICK_ADVANCE, WAIT_EXPIRY and LEASE_EXPIRY as events of their own (R65, R97, R98, R106). -/

namespace Sys2Proof.Machine

/-- TICK_ADVANCE (R97). -/
def execTickAdvance (s : State) : Host.Outcome State Fault Refusal := .next s.tickTaken

/-- WAIT_EXPIRY (R65): the expiry next in turn, when it is of a WAIT entry (log entry 3); then the held ticks that wait
for no other expiry (R98). -/
def execWaitExpiry (s : State) : Host.Outcome State Fault Refusal :=
  .next (if s.nextExpiry = some .wait then s.takeExpiry.catchUp else s)

/-- LEASE_EXPIRY (R106, R107): the expiry next in turn, when it is of a LEASE entry (log entry 3); then the held ticks
that wait for no other expiry (R98). -/
def execLeaseExpiry (s : State) : Host.Outcome State Fault Refusal :=
  .next (if s.nextExpiry = some .lease then s.takeExpiry.catchUp else s)

end Sys2Proof.Machine
end

