-- ==== Sys2Proof/Machine/Dispatch.lean ====
section
/-! DEFINITION. One arm for each command of spec/opcode_table.json, each one call of its meaning. -/

namespace Sys2Proof.Machine

def exec (i : Instr) (s : State) : Host.Outcome State Fault Refusal :=
  match i with
  | .powerOnReset => Sys2Proof.Machine.execPowerOnReset s
  | .powerOnResetRelease => Sys2Proof.Machine.execPowerOnResetRelease s
  | .busReset => Sys2Proof.Machine.execBusReset s
  | .busResetRelease => Sys2Proof.Machine.execBusResetRelease s
  | .initializationComplete => Sys2Proof.Machine.execInitializationComplete s
  | .tickAdvance => Sys2Proof.Machine.execTickAdvance s
  | .waitExpiry => Sys2Proof.Machine.execWaitExpiry s
  | .leaseExpiry => Sys2Proof.Machine.execLeaseExpiry s
  | .sweepVisit => Sys2Proof.Machine.execSweepVisit s
  | .sweepEnd => Sys2Proof.Machine.execSweepEnd s
  | .nop a w => Sys2Proof.Machine.execNop a w s
  | .acquire a w => Sys2Proof.Machine.execAcquire a w s
  | .release a w => Sys2Proof.Machine.execRelease a w s
  | .upgrade a w => Sys2Proof.Machine.execUpgrade a w s
  | .downgrade a w => Sys2Proof.Machine.execDowngrade a w s
  | .cancel a w => Sys2Proof.Machine.execCancel a w s
  | .renew a w => Sys2Proof.Machine.execRenew a w s
  | .setAgent a w => Sys2Proof.Machine.execSetAgent a w s
  | .setLock a w => Sys2Proof.Machine.execSetLock a w s
  | .forceRelease a w => Sys2Proof.Machine.execForceRelease a w s
  | .purge a w => Sys2Proof.Machine.execPurge a w s
  | .setTime a w => Sys2Proof.Machine.execSetTime a w s
  | .setDivider a w => Sys2Proof.Machine.execSetDivider a w s
  | .resetTables a w => Sys2Proof.Machine.execResetTables a w s
  | .tryRead a l => Sys2Proof.Machine.execTryRead a l s
  | .tryWrite a l w => Sys2Proof.Machine.execTryWrite a l w s
  | .timeLowRead a => Sys2Proof.Machine.execTimeLowRead a s
  | .pop a w => Sys2Proof.Machine.execPop a w s
  | .clearOverrun a w => Sys2Proof.Machine.execClearOverrun a w s
  | .errorStatusWrite a w => Sys2Proof.Machine.execErrorStatusWrite a w s
  | .interruptEnableWrite a w => Sys2Proof.Machine.execInterruptEnableWrite a w s
  | .registerWrite a off w => Sys2Proof.Machine.execRegisterWrite a off w s
  | .refusedRead a off => Sys2Proof.Machine.execRefusedRead a off s

end Sys2Proof.Machine
end

