-- ==== Sys2Proof/Machine/Signals.lean ====
section
/-! DEFINITION. The signals of Table 10-14 at their levels (R162): the answer lines, the interrupt lines and the reset
inputs, which are active low, and the access that the address, select, write, identifier, data and parity lines spell. A
level is a bit: set is high. -/

namespace Sys2Proof

/-- Table 10-14: the access that the input lines spell, when the window is selected (SEL); WR set is a write. -/
def BusAccess.ofLines (sel wr : Bool) (a : WordOffset) (mid : BitVec 3) (d : Word) (dp : BitVec 4) :
    Option BusAccess :=
  if sel then some ⟨mid.toFin, a, if wr then some ⟨d, dp⟩ else none⟩ else none

namespace Machine

/-- R162: the level of ANS1 and ANS0 between two steps: the answer given to the latest access (log entry 6). -/
def State.answerLines (s : State) : BitVec 2 := s.port.response.ans

/-- The command that the next step takes is an access. There is one bus, so it reaches the port in that step, and the
accesses behind it after it has been given its answer (log entries 6 and 15). -/
def State.awaitsAnswer (s : State) : Bool := (s.pending.head?.bind Instr.access).isSome

/-- R162: the levels that ANS1 and ANS0 take in the next step, in turn: 00 from the moment an access reaches the port
until it is given its answer, then the answer; with no access, the level that stands. -/
def State.answerLevels (s : State) : List (BitVec 2) :=
  match step s with
  | .next t => if s.awaitsAnswer then [0, t.answerLines] else [t.answerLines]
  | .fault _ | .refused _ => []

/-- R162: the level of INTL`a`, active low. -/
def State.interruptLevel (s : State) (a : Agent) : Bool := !s.line a

/-- R162: the level at which PORST stands, active low. -/
def BusPort.porstLevel (p : BusPort) : Bool := !p.powerOnReset

/-- R162: the level at which BRST stands, active low. -/
def BusPort.brstLevel (p : BusPort) : Bool := !p.busReset

end Machine
end Sys2Proof
end

