-- ==== Sys2Proof/Safety.lean ====
section
/-! DEFINITION. What the statements speak of: what an event leaves alone, the laws that hold after every event (R2, R7,
R45, R48, R50 to R52, R58, R81, R84, R91, R92, R118, R119, R125, R134), and when an access or a command is taken. -/

namespace Sys2Proof.Machine

/-! ### What an event leaves alone -/

/-- The clock side of the Deadline Unit is the same: timebase, divider, divider count, held ticks and snapshots. -/
def DeadlineUnit.ClockKept (d e : DeadlineUnit) : Prop :=
  e.timebase = d.timebase ∧ e.divider = d.divider ∧ e.activeDivider = d.activeDivider ∧
    e.dividerCount = d.dividerCount ∧ e.heldTicks = d.heldTicks ∧ e.snapshots = d.snapshots

/-- What an event at the Lock Engine leaves alone, whatever it grants or removes: the Bus Port, the arrival numbers,
the Purge Engine, the queue of commands, the clock side of the Deadline Unit, and every field of an agent record but
its notice queue and its overrun flag. -/
structure State.EngineFrame (s t : State) : Prop where
  port : t.port = s.port
  nextArrival : t.nextArrival = s.nextArrival
  purge : t.purge = s.purge
  pending : t.pending = s.pending
  clock : s.du.ClockKept t.du
  agents : ∀ b, t.agent b = { s.agent b with notices := (t.agent b).notices, overrun := (t.agent b).overrun }

/-- What the expiries and held ticks taken before a request leave alone (R98): as an event at the Lock Engine, but for
the timebase and the number of held ticks. -/
structure State.SettleFrame (s t : State) : Prop where
  port : t.port = s.port
  nextArrival : t.nextArrival = s.nextArrival
  purge : t.purge = s.purge
  pending : t.pending = s.pending
  divider : t.du.divider = s.du.divider
  activeDivider : t.du.activeDivider = s.du.activeDivider
  dividerCount : t.du.dividerCount = s.du.dividerCount
  snapshots : t.du.snapshots = s.du.snapshots
  agents : ∀ b, t.agent b = { s.agent b with notices := (t.agent b).notices, overrun := (t.agent b).overrun }

/-- Every lock record but `l` is the same in both states. -/
def State.OnlyLock (l : LockNum) (s t : State) : Prop := ∀ k, k ≠ l → t.lock k = s.lock k

/-- The attributes of a lock record are the same (R8). -/
def LockRecord.SameAttributes (r r' : LockRecord) : Prop :=
  r'.sharedAllowed = r.sharedAllowed ∧ r'.leaseRequired = r.leaseRequired ∧ r'.bypassLimit = r.bypassLimit ∧
    r'.report = r.report

/-! ### The laws of the Agent Table and the Purge Engine -/

/-- R125, for one agent: at most 8 notices; none, and overrun clear, when the agent is not ONLINE. -/
def AgentRecord.NoticeLaw (r : AgentRecord) : Prop :=
  r.notices.length ≤ Config.noticeDepth ∧ (r.state ≠ .online → r.notices = [] ∧ r.overrun = false)

/-- R125: the law of the notice queue. -/
def State.NoticeLaw (s : State) : Prop := ∀ a, (s.agent a).NoticeLaw

/-- R119: agent 0 is ONLINE. -/
def State.SupervisorLaw (s : State) : Prop := (s.agent Config.supervisor).state = .online

/-- R134, Table 8-1: a subject is present while SWEEPING and only then; it is the one PURGING agent; the count is at
most the pointer, and the pointer at most 64. -/
structure State.PurgeLaw (s : State) : Prop where
  sweeping : s.purge.state = .sweeping ↔ s.purge.subject.isSome = true
  purging : ∀ a, (s.agent a).state = .purging ↔ s.purge.subject = some a
  count : s.purge.count ≤ s.purge.pointer
  pointer : s.purge.pointer ≤ 64

/-- The laws of the Agent Table and the Purge Engine together. -/
structure State.AgentLaw (s : State) : Prop where
  notices : s.NoticeLaw
  supervisor : s.SupervisorLaw
  purge : s.PurgeLaw

/-! ### The laws of the Deadline Unit -/

/-- R84, R85: the tick divider is 1 to 65,536, and the divider count stands below the divider of the period in
progress. -/
def State.DividerLaw (s : State) : Prop :=
  (1 ≤ s.du.divider ∧ s.du.divider ≤ Config.maxDivider) ∧
    (1 ≤ s.du.activeDivider ∧ s.du.activeDivider ≤ Config.maxDivider) ∧ s.du.dividerCount < s.du.activeDivider

/-- A duration that a request may carry: 1 to 1,048,575 ticks (Table 3-1). -/
def DurationLaw (n : Nat) : Prop := 1 ≤ n ∧ n ≤ Config.maxDuration

/-- R90: entry `e` stands ahead of entry `x` in the armed list: by remaining count, then by arming. -/
def DeadlineUnit.Before (d : DeadlineUnit) (e x : EntryNum) : Prop :=
  match d.entries.get e, d.entries.get x with
  | .armed _ _ _ n o, .armed _ _ _ m p => n < m ∨ (n = m ∧ o < p)
  | _, _ => False

/-- R91: the law of the deadline pool, with R90 and R97 for the entries that have run out. -/
structure DeadlineUnit.PoolLaw (d : DeadlineUnit) : Prop where
  counts : ∀ e k a l n o, d.entries.get e = .armed k a l n o → DurationLaw n ∧ o < d.nextArming
  ordered : d.armedList.Pairwise d.Before
  listed : ∀ e ∈ d.armedList, ∃ k a l n o, d.entries.get e = .armed k a l n o
  runOut : ∀ e ∈ d.expiries, e ∉ d.armedList ∧ ∃ k a l o, d.entries.get e = .armed k a l 1 o
  once : d.expiries.Nodup
  complete : ∀ e k a l n o, d.entries.get e = .armed k a l n o → e ∈ d.armedList ∨ e ∈ d.expiries

/-- The durations that the pending requests carry are in range (Table 3-1). -/
def State.RequestDurations (s : State) : Prop :=
  ∀ a q, s.request a = some q → (∀ n, q.timeout = some n → DurationLaw n) ∧ ∀ n, q.lease = some n → DurationLaw n

/-- R91, with the durations that are yet to be armed. -/
structure State.PoolLaw (s : State) : Prop where
  pool : s.du.PoolLaw
  durations : s.RequestDurations

/-- R98: a held tick is taken as soon as the last expiry before it has been, so that in READY a tick is held only while
an expiry is awaited. -/
def State.HeldLaw (s : State) : Prop := s.ready = true → 0 < s.du.heldTicks → s.du.expiries ≠ []

/-! ### The laws of the Lock Engine -/

/-- R2, R7: the law of a lock record and of its recovered flag. -/
structure LockRecord.Law (r : LockRecord) : Prop where
  free : r.state = .free → ∀ a, r.holds a = false
  exclusive : r.state = .exclusive → ∃ a, ∀ b, r.holds b = true ↔ b = a
  shared : r.state = .shared → (∃ a, r.holds a = true) ∧ r.sharedAllowed = true
  recovered : r.recovered = true → r.state = .free

/-- R58: the ceiling of a bypass count on a lock. -/
def LockRecord.bypassCap (r : LockRecord) : Nat :=
  if r.bypassLimit = 0 then Config.bypassCeiling else r.bypassLimit.toNat

/-- R45, R50, R52, R58: the laws of the queues. A waiter that asks no upgrade does not hold the lock it waits for (R24,
R33), and one that asks SHARED waits on a lock that allows it (R23, R11). -/
structure State.QueueLaw (s : State) : Prop where
  once : ∀ l, (s.lock l).queue.Nodup
  joined : ∀ l a, a ∈ (s.lock l).queue ↔ ∃ q, s.request a = some q ∧ q.lock = l
  upgrade : ∀ a q, s.request a = some q → q.mode = .upgrade →
    (s.lock q.lock).queue.head? = some a ∧ (s.lock q.lock).holds a = true ∧ (s.lock q.lock).state = .shared
  waiter : ∀ a q, s.request a = some q → q.mode ≠ .upgrade → (s.lock q.lock).holds a = false
  shared : ∀ a q, s.request a = some q → q.mode = .shared → (s.lock q.lock).sharedAllowed = true
  free : ∀ l, (s.lock l).state = .free → (s.lock l).queue = []
  bypass : ∀ a q, s.request a = some q → q.bypass ≤ (s.lock q.lock).bypassCap

/-- R51, R118: who may wait and hold. -/
structure State.MemberLaw (s : State) : Prop where
  waiting : ∀ a, s.request a ≠ none → (s.agent a).state = .online
  offline : ∀ a, (s.agent a).state = .offline → ∀ l, (s.lock l).holds a = false
  purging : ∀ a, (s.agent a).state = .purging → ∀ l : LockNum, l.val < s.purge.pointer → (s.lock l).holds a = false

/-- The laws of the lock table together. -/
structure State.LockTableLaw (s : State) : Prop where
  records : ∀ l, (s.lock l).Law
  queues : s.QueueLaw
  members : s.MemberLaw

/-- R48: every queue stands in the order of R48, and the arrivals are told apart. -/
structure State.OrderLaw (s : State) : Prop where
  ordered : ∀ l, (s.lock l).queue.Pairwise fun a b => s.precedes a b = true
  early : ∀ a q, s.request a = some q → q.arrival < s.nextArrival
  apart : ∀ a b p q, s.request a = some p → s.request b = some q → p.arrival = q.arrival → a = b

/-- Table 3-2: the entry a pending request owns while it waits. -/
def State.OwnsEntry (s : State) (a : Agent) (q : PendingRequest) : Prop :=
  match q.timeout, q.lease with
  | none, none => q.entry = none
  | some _, _ => ∃ e n o, q.entry = some e ∧ s.du.entries.get e = .armed .wait a q.lock n o
  | none, some _ => ∃ e, q.entry = some e ∧ s.du.entries.get e = .reserved a q.lock

/-- R92: the law of entry ownership. -/
structure State.OwnershipLaw (s : State) : Prop where
  hold : ∀ l a e, (s.lock l).leaseOf a = some e → ∃ n o, s.du.entries.get e = .armed .lease a l n o
  request : ∀ a q, s.request a = some q → s.OwnsEntry a q
  waitOwner : ∀ e a l n o, s.du.entries.get e = .armed .wait a l n o →
    ∃ q, s.request a = some q ∧ q.lock = l ∧ q.entry = some e ∧ q.timeout.isSome = true
  leaseOwner : ∀ e a l n o, s.du.entries.get e = .armed .lease a l n o → (s.lock l).leaseOf a = some e
  reservedOwner : ∀ e a l, s.du.entries.get e = .reserved a l →
    ∃ q, s.request a = some q ∧ q.lock = l ∧ q.entry = some e ∧ q.timeout = none ∧ q.lease.isSome = true

/-- R79: waiting agent `w` points to `h`. -/
def State.WaitsFor (s : State) (w h : Agent) : Prop :=
  ∃ q, s.request w = some q ∧ (s.lock q.lock).holds h = true ∧ h ≠ w

/-- R81: the law of the waits-for relation: it has no cycle. -/
def State.Acyclic (s : State) : Prop := ∀ a, ¬ Relation.TransGen s.WaitsFor a a

/-! ### When an access is taken -/

/-- R146, R150, R152: the write of command `c` by agent `a` is taken by the owner of `c`: the port is READY, the parity
is good, the write is no replay, and a supervisor command comes from agent 0. -/
structure State.Takes (s : State) (c : Command) (a : Agent) (w : WriteData) : Prop where
  ready : s.ready = true
  parity : w.parityGood = true
  fresh : s.isReplay a w.tag = false
  allowed : c.supervisor = true → a = Config.supervisor

/-- R129, R146: the access of agent `a` is answered by `b`, an ERROR, and the kind recorded in its error status. -/
def State.errs (s : State) (a : Agent) (k : ErrorKind) (b : BusResponse) : State :=
  (s.setAgent a { s.agent a with errorKind := k, errorSeen := true }).respond b

/-- The lock number field of the agent's ARG0 (Table 10-3). -/
def State.lockArg (s : State) (a : Agent) : Nat := numberField (s.argsOf a).arg0

/-- R151: the outcome of a taken command in the agent's record, and the bus answer OK (R149). -/
def State.answers (u : State) (a : Agent) (w : WriteData) (o : CmdOutcome) : State :=
  (u.setAgent a { u.agent a with record := ⟨w.tag, o.code, o.detail, false⟩ }).respond (.write .ok)

/-! ### What a request meets -/

/-- The first two checks of a lock command pass: agent `a` is ONLINE and its ARG0 names lock `l`. -/
structure State.Asks (u : State) (a : Agent) (l : LockNum) : Prop where
  online : (u.agent a).state = .online
  lock : u.lockArg a = l.val

/-- Checks 1 to 6 of ACQUIRE pass (Table 2-2), for lock `l` in mode `m`. -/
structure State.PassesAcquire (u : State) (a : Agent) (l : LockNum) (m : Mode) : Prop extends u.Asks a l where
  asked : m ≠ .upgrade
  mode : codeField (u.argsOf a).arg0 = m.code
  idle : u.request a = none
  allowed : m = .shared → (u.lock l).sharedAllowed = true
  leased : (u.lock l).leaseRequired = true → leaseField (u.argsOf a).arg1 ≠ 0
  stranger : (u.lock l).holds a = false

/-- R25: a request in mode `m` is grantable now. -/
def LockRecord.Grantable (r : LockRecord) (m : Mode) : Prop :=
  r.state = .free ∨ (m = .shared ∧ r.state = .shared ∧ r.queue = [])

/-- R80: `h` is a holder of lock `l`, other than `a`, from which `a` is reachable. -/
def State.Blocks (u : State) (a : Agent) (l : LockNum) (h : Agent) : Prop :=
  (u.lock l).holds h = true ∧ h ≠ a ∧ Relation.TransGen u.WaitsFor h a

/-- R80: `h` is the lowest-numbered such holder. -/
def State.FirstBlocker (u : State) (a : Agent) (l : LockNum) (h : Agent) : Prop :=
  u.Blocks a l h ∧ ∀ k, u.Blocks a l k → h ≤ k

/-- R89: `e` is the lowest-numbered FREE entry. -/
def DeadlineUnit.FirstFree (d : DeadlineUnit) (e : EntryNum) : Prop :=
  d.entries.get e = .free ∧ ∀ f, d.entries.get f = .free → e ≤ f

/-- R96: no entry is FREE. -/
def DeadlineUnit.Full (d : DeadlineUnit) : Prop := ∀ e, d.entries.get e ≠ .free

/-- Every waiter of lock `l` has a pending request that names `l` (R44). -/
def State.Queued (s : State) (l : LockNum) : Prop := ∀ a ∈ (s.lock l).queue, ∃ q, s.request a = some q ∧ q.lock = l

end Sys2Proof.Machine
end

