-- ==== Sys2Proof/WellFormed.lean ====
section
/-! DEFINITION. Which commands are within their own row of spec/opcode_table.json. Every command has a meaning
(exec is total); the check says which row an access belongs to, so that each access of the window is spelled by one
row (log entry 5). -/

namespace Sys2Proof

/-- A write at `off` of `w` belongs to REGISTER_WRITE: no other row of the table is the write of that word. -/
def registerWriteRow (off : WordOffset) (w : WriteData) : Bool :=
  match Machine.windowWord off with
  | .tryWord _ | .command _ | .errorStatus | .interruptEnable => false
  | .noticeControl => !w.popFlag && !w.clearOverrunFlag
  | _ => true

/-- A read at `off` belongs to REFUSED_READ: no other row of the table is the read of that word. -/
def refusedReadRow (off : WordOffset) : Bool :=
  match Machine.windowWord off with
  | .tryWord _ | .timeLow => false
  | _ => true

/-- The command is within its row of the table. -/
def Instr.wf : Instr → Bool
  | .pop _ w => w.popFlag
  | .clearOverrun _ w => w.clearOverrunFlag && !w.popFlag
  | .registerWrite _ off w => registerWriteRow off w
  | .refusedRead _ off => refusedReadRow off
  | .powerOnReset | .powerOnResetRelease | .busReset | .busResetRelease | .initializationComplete
  | .tickAdvance | .waitExpiry | .leaseExpiry | .sweepVisit | .sweepEnd
  | .nop _ _ | .acquire _ _ | .release _ _ | .upgrade _ _ | .downgrade _ _ | .cancel _ _ | .renew _ _
  | .setAgent _ _ | .setLock _ _ | .forceRelease _ _ | .purge _ _ | .setTime _ _ | .setDivider _ _
  | .resetTables _ _ | .tryRead _ _ | .tryWrite _ _ _ | .timeLowRead _ | .errorStatusWrite _ _
  | .interruptEnableWrite _ _ => true

/-- `Instr.wf` as a proposition. -/
abbrev Instr.WellFormed (i : Instr) : Prop := i.wf = true

end Sys2Proof
end

