-- ==== Sys2Proof/Certificates/Slice0/Obligations.lean ====
section
/-! DEFINITION. The statements for the provers, from the numbered rules of spec/. -/

open Sys2Proof Sys2Proof.Machine

/-! ### Steps -/

/-- A step with a command waiting is the meaning of the command at the front of the queue, on the queue's rest. -/
def Obligations.StepRunsFrontCommand : Prop :=
  ∀ (c : Instr) (rest : List Instr) (s : State),
    step { s with pending := c :: rest } = exec c { s with pending := rest }

/-- R84, R85, R97, R98, R139, R154: a step with no command waiting is one bus clock period. The divider count grows by
1, or returns to 0 with a tick due and the tick divider in force; the initialization period counts, and ends at its
length; then an expiry awaited is taken, or the next visit or the end of a sweep; then the held ticks, in turn, until
one presents an expiry. With nothing else to do the step is the divider count and its tick. That a step on an empty
queue is one period with one such event is the model's choice (log entry 4), and so are the divider that the period in
progress was begun with (log entry 9) and the length of the initialization period (log entry 1). -/
def Obligations.IdleStepCountsOnePeriod : Prop :=
  (∀ s : State, s.pending = [] →
    (s.port.powerOnReset = true → step s = .next s) ∧
    (s.port.powerOnReset = false → s.port.state = .ready → s.du.expiries = [] → s.du.heldTicks = 0 →
      s.purge.state = .idle →
      (s.du.dividerCount + 1 < s.du.activeDivider →
        step s = .next { s with du := { s.du with dividerCount := s.du.dividerCount + 1 } }) ∧
      (s.du.dividerCount + 1 = s.du.activeDivider →
        step s = .next { s with du := { s.du.tick with dividerCount := 0, activeDivider := s.du.divider } })) ∧
    (s.port.powerOnReset = false →
      let d := if s.du.dividerCount + 1 < s.du.activeDivider
        then { s.du with dividerCount := s.du.dividerCount + 1 }
        else { s.du with dividerCount := 0, activeDivider := s.du.divider, heldTicks := s.du.heldTicks + 1 }
      let p := if s.port.busReset = true ∨ s.port.state = .ready then s.port
        else if Config.initLength s.port.initIndex ≤ s.port.initElapsed + 1 then { s.port with state := .ready }
        else { s.port with initElapsed := s.port.initElapsed + 1 }
      let u := { s with du := d, port := p }
      (s.du.expiries ≠ [] → step s = .next u.takeExpiry.catchUp) ∧
      (s.du.expiries = [] → s.purge.state = .idle → step s = .next u.catchUp) ∧
      (s.du.expiries = [] → s.purge.state = .sweeping →
        ∃ v, exec (if s.purge.pointer = 64 then .sweepEnd else .sweepVisit) u = .next v ∧
          step s = .next v.catchUp))) ∧
  ∀ s : State,
    (s.du.expiries ≠ [] ∨ s.du.heldTicks = 0 → s.catchUp = s) ∧
    (s.du.expiries = [] → 0 < s.du.heldTicks → s.catchUp = s.heldTick.catchUp)

/-- Every command answers a next state in every state, and leaves the commands that wait as they were. -/
def Obligations.ExecAnswersNext : Prop :=
  ∀ (i : Instr) (s : State), ∃ t, exec i s = .next t ∧ t.pending = s.pending

/-! ### Resets -/

/-- The values the rules give for power-on reset (R8, R17, R84, R88, R100, R120, R133, R134, R148, R155). -/
def Obligations.ResetValues : Prop :=
  let s := State.reset
  (s.port.state = .initializing ∧ s.port.powerOnReset = false ∧ s.port.busReset = false ∧ ∀ a, s.argsOf a = ⟨0, 0⟩) ∧
  (∀ l, s.lock l = ⟨.free, Vector.replicate 8 none, false, [], true, false, 4, false⟩) ∧
  (∀ a, s.request a = none) ∧
  (s.du.timebase = 0 ∧ s.du.divider = 1000 ∧ s.du.dividerCount = 0 ∧ (∀ e, s.du.entries.get e = .free) ∧
    s.du.armedList = [] ∧ s.du.expiries = [] ∧ ∀ a, s.du.snapshots.get a = 0) ∧
  (∀ a, s.agent a =
    ⟨if a = 0 then .online else .offline, 2, ⟨0, .done, 0, false⟩, [], false, false, false, .none, false⟩) ∧
  (∀ a, s.line a = false) ∧ s.purge = ⟨.idle, none, 0, 0⟩ ∧ s.pending = []

/-- The laws of the part hold right after power-on reset. -/
def Obligations.ResetKeepsLaws : Prop :=
  State.reset.AgentLaw ∧ State.reset.DividerLaw ∧ State.reset.PoolLaw ∧ State.reset.LockTableLaw ∧
    State.reset.OrderLaw ∧ State.reset.OwnershipLaw ∧ State.reset.Acyclic ∧ State.reset.HeldLaw

/-- R17, R84, R100, R133, R134, R155: POWER_ON_RESET puts every block at its power-on values while the input is
asserted, and no interrupt line is asserted. -/
def Obligations.PowerOnResetValues : Prop :=
  ∀ s : State, ∃ t, exec .powerOnReset s = .next t ∧
    t.port.powerOnReset = true ∧ t.port.busReset = s.port.busReset ∧ (∀ a, t.argsOf a = ⟨0, 0⟩) ∧
    t.locks = State.reset.locks ∧ t.requests = State.reset.requests ∧
    (t.du.timebase = 0 ∧ t.du.divider = 1000 ∧ t.du.dividerCount = 0 ∧ (∀ e, t.du.entries.get e = .free) ∧
      t.du.armedList = [] ∧ t.du.expiries = [] ∧ ∀ a, t.du.snapshots.get a = 0) ∧
    t.agents = State.reset.agents ∧ t.purge = State.reset.purge ∧ (∀ a, t.line a = false) ∧ t.pending = s.pending

/-- R17, R100, R133, R144, R155: BUS_RESET. The attributes, the ONLINE and OFFLINE states, the classes, the timebase,
the divider and the divider count are kept. While the power-on reset input is asserted it has no effect but its own
input. That the held ticks and the divider of the period in progress are kept too is the model's choice (log entry 9).
-/
def Obligations.BusResetValues : Prop :=
  ∀ s : State,
    (s.port.powerOnReset = true → exec .busReset s = .next { s with port := { s.port with busReset := true } }) ∧
    (s.port.powerOnReset = false → ∃ t, exec .busReset s = .next t ∧
      t.port.busReset = true ∧ t.port.powerOnReset = false ∧ (∀ a, t.argsOf a = ⟨0, 0⟩) ∧
      (∀ l, t.lock l =
        { s.lock l with state := .free, holders := Vector.replicate 8 none, recovered := false, queue := [] }) ∧
      (∀ a, t.request a = none) ∧
      t.du = { s.du with
        entries := Vector.replicate 24 .free, armedList := [], expiries := [], snapshots := Vector.replicate 8 0 } ∧
      (∀ a, t.agent a =
        { state := if (s.agent a).state = .purging then .offline else (s.agent a).state, cls := (s.agent a).cls
          record := ⟨0, .done, 0, false⟩, notices := [], overrun := false, noticeEnable := false
          errorEnable := false, errorKind := .none, errorSeen := false }) ∧
      t.purge = ⟨.idle, none, 0, 0⟩ ∧ (∀ a, t.line a = false) ∧ t.pending = s.pending)

/-- R154, R155: the release of the reset input released last makes the port INITIALIZING, in a new period; the release
of the other leaves the port as it was. INITIALIZATION_COMPLETE makes it READY. Nothing else changes, but for held
ticks that a reset has left, which are taken by then (R98). The two fields that number and time the period are the
model's (log entry 1), and so is the time of those ticks (log entry 9). -/
def Obligations.ReleasesAndInitialization : Prop :=
  ∀ s : State,
    let begun := { s.port with
      powerOnReset := false, busReset := false, state := .initializing, initElapsed := 0
      initIndex := s.port.initIndex + 1 }
    (s.port.powerOnReset = true → s.port.busReset = false →
      exec .powerOnResetRelease s = .next { s with port := begun }) ∧
    (s.port.powerOnReset = true → s.port.busReset = true →
      exec .powerOnResetRelease s = .next { s with port := { s.port with powerOnReset := false } }) ∧
    (s.port.busReset = true → s.port.powerOnReset = false →
      exec .busResetRelease s = .next { s with port := begun }) ∧
    (s.port.busReset = true → s.port.powerOnReset = true →
      exec .busResetRelease s = .next { s with port := { s.port with busReset := false } }) ∧
    (s.inReset = false → s.port.state = .initializing →
      exec .initializationComplete s = .next (State.catchUp { s with port := { s.port with state := .ready } }))

/-- R156: RESET_TABLES taken from agent 0. The number of the initialization period is the model's (log entry 1), and
that the held ticks and the divider of the period in progress are kept is the model's choice (log entry 9). -/
def Obligations.ResetTablesValues : Prop :=
  ∀ (s : State) (a : Agent) (w : WriteData), s.Takes .resetTables a w → ∃ t, exec (.resetTables a w) s = .next t ∧
    (∀ l, t.lock l =
      { s.lock l with state := .free, holders := Vector.replicate 8 none, recovered := false, queue := [] }) ∧
    (∀ b, t.request b = none) ∧
    t.du = { s.du with entries := Vector.replicate 24 .free, armedList := [], expiries := [] } ∧
    t.purge = ⟨.idle, none, 0, 0⟩ ∧
    (∀ b, t.agent b = { s.agent b with
      state := if (s.agent b).state = .purging then .offline else (s.agent b).state, notices := [], overrun := false
      record := if b = 0 then ⟨w.tag, .done, 0, false⟩ else ⟨0, .done, 0, false⟩ }) ∧
    t.port = { s.port with
      state := .initializing, initElapsed := 0, initIndex := s.port.initIndex + 1, response := .write .ok } ∧
    t.pending = s.pending

/-! ### The Bus Port -/

/-- R154, R155: while the port is INITIALIZING or a reset input is asserted, every access is answered RETRY, a read
with data 0, and has no effect, but for the read of an identification word in INITIALIZING. -/
def Obligations.NotReadyAnswersRetry : Prop :=
  ∀ (i : Instr) (b : BusAccess) (s : State), i.access = some b → s.ready = false →
    (s.inReset = true ∨ b.write ≠ none ∨ ∀ k, windowWord b.off ≠ .identification k) →
    exec i s = .next (s.respond (match b.write with
      | some _ => .write .retry
      | none => .read .retry 0 0))

/-- R158: the identification words, at word offsets 0xFC to 0xFF. -/
def Obligations.IdentificationWords : Prop :=
  ∀ (s : State) (a : Agent) (k : Fin 4) (w : WriteData),
    let off : WordOffset := BitVec.ofNat 8 (0xFC + k.val)
    let value : Word := match k with
      | 0 => 0x47414E54
      | 1 => 0x08640001
      | 2 => 0x08184008
      | 3 => 0x00001430
    (s.inReset = false → exec (.refusedRead a off) s = .next (s.respond (.read .ok value (evenParity value)))) ∧
    (s.inReset = true → exec (.refusedRead a off) s = .next (s.respond (.read .retry 0 0))) ∧
    (s.ready = true → exec (.registerWrite a off w) s = .next (s.errs a .readOnly (.write .error))) ∧
    (s.ready = false → exec (.registerWrite a off w) s = .next (s.respond (.write .retry)))

/-- R147: each byte of a write with its line must hold an even number of ones. A write in READY to a word that takes
writes, with a byte that fails, is answered ERROR, records PARITY and does nothing else. Every read is answered with
correct parity. Not READY, parity is not checked. -/
def Obligations.ParityOfWritesAndReads : Prop :=
  (∀ w : WriteData, w.parityGood = true ↔
    ∀ k : Fin 4, (onesOf (byteOf w.data k.val) + (w.parity.getLsbD k.val).toNat) % 2 = 0) ∧
  (∀ d : Word, (WriteData.good d).parityGood = true) ∧
  ∀ (i : Instr) (b : BusAccess) (s : State), i.access = some b →
    (∀ w, b.write = some w →
      (s.ready = true → (windowWord b.off).direction = .readWrite ∨ (windowWord b.off).direction = .writeOnly →
        w.parityGood = false → exec i s = .next (s.errs b.agent .parity (.write .error))) ∧
      (s.ready = false → exec i s = .next (s.respond (.write .retry)))) ∧
    (b.write = none → ∃ t answer d, exec i s = .next t ∧ t.port.response = .read answer d (evenParity d))

/-- R150: a command write whose nonzero tag is the last accepted tag, whatever its command word, sets the replayed flag
and does nothing else; any other command write is taken, and its tag becomes the last accepted tag. -/
def Obligations.ReplayTest : Prop :=
  ∀ (c : Command) (a : Agent) (w : WriteData) (s : State), s.ready = true → w.parityGood = true →
    (w.tag ≠ 0 → w.tag = (s.agent a).record.tag →
      exec (c.row a w) s = .next
        ((s.setAgent a { s.agent a with record := { (s.agent a).record with replayed := true } }).respond
          (.write .ok))) ∧
    (w.tag = 0 ∨ w.tag ≠ (s.agent a).record.tag →
      ∃ t, exec (c.row a w) s = .next t ∧ (t.agent a).record.tag = w.tag ∧ (t.agent a).record.replayed = false ∧
        t.port.response = .write .ok)

/-- R152: a supervisor command of agent 1 to 7 that is no replay is answered NOT_SUPERVISOR and changes nothing but the
command record; one of agent 0 is not so answered. NOP is DONE from any agent, and changes nothing else either. -/
def Obligations.SupervisorCheckAndNop : Prop :=
  ∀ (a : Agent) (w : WriteData) (s : State), s.ready = true → w.parityGood = true → s.isReplay a w.tag = false →
    exec (.nop a w) s = .next (s.answers a w ⟨.done, 0⟩) ∧
    ∀ c : Command, c.supervisor = true →
      (a ≠ 0 → exec (c.row a w) s = .next (s.answers a w ⟨.notSupervisor, 0⟩)) ∧
      (a = 0 → ∃ t, exec (c.row a w) s = .next t ∧ (t.agent a).record.code ≠ .notSupervisor)

/-- R146, checks 1 to 3: an unmapped offset, a write to a read-only word, a read of a write-only word. -/
def Obligations.RefusedAccesses : Prop :=
  ∀ (a : Agent) (off : WordOffset) (w : WriteData) (s : State), s.ready = true →
    (windowWord off = .unmapped →
      exec (.registerWrite a off w) s = .next (s.errs a .badOffset (.write .error)) ∧
      exec (.refusedRead a off) s = .next (s.errs a .badOffset (.read .error 0 0))) ∧
    ((windowWord off).direction = .readOnly →
      exec (.registerWrite a off w) s = .next (s.errs a .readOnly (.write .error))) ∧
    ((windowWord off).direction = .writeOnly →
      exec (.refusedRead a off) s = .next (s.errs a .writeOnly (.read .error 0 0)))

/-- R13, R15, R87, R116, R126, R129, R130, R132, R148: a read in READY of a word that can be read, other than a TRY
word and TIME LOW, is answered OK with the word, correct parity, and changes nothing. -/
def Obligations.PlainReads : Prop :=
  ∀ (a : Agent) (off : WordOffset) (s : State), s.ready = true →
    let reads := fun d => exec (.refusedRead a off) s = .next (s.respond (.read .ok d (evenParity d)))
    match windowWord off with
    | .lockView l => reads (s.lockView l)
    | .agentView n => reads (s.agentView n)
    | .heldMapLow n => reads (s.heldMap n 0)
    | .heldMapHigh n => reads (s.heldMap n 32)
    | .timeHigh => reads (s.timeHigh a)
    | .arg0 => reads (s.argsOf a).arg0
    | .arg1 => reads (s.argsOf a).arg1
    | .result => reads (s.agent a).record.word
    | .noticeHead => reads (s.agent a).noticeHead
    | .noticeTime => reads (s.agent a).noticeTime
    | .errorStatus => reads (s.agent a).errorStatus
    | .interruptEnable => reads (s.agent a).interruptEnable
    | .identification k => reads (Config.identification k)
    | .unmapped | .tryWord _ | .timeLow | .noticeControl | .command _ => True

/-- Tables 1-7, 10-10, 10-11, 10-12, R160: the fields of LOCK VIEW, AGENT VIEW and HELD MAP, bit by bit. -/
def Obligations.ViewLayouts : Prop :=
  ∀ s : State,
    (∀ l : LockNum, let v := s.lockView l; let r := s.lock l
      v.extractLsb' 0 2 = r.state.code ∧ v.getLsbD 2 = r.recovered ∧ v.getLsbD 3 = !r.queue.isEmpty ∧
      v.extractLsb' 4 4 = BitVec.ofNat 4 r.queue.length ∧ (∀ m : Agent, v.getLsbD (8 + m.val) = r.holds m) ∧
      (r.queue = [] → v.extractLsb' 16 3 = 0 ∧ v.extractLsb' 20 2 = 1) ∧
      (∀ a rest q, r.queue = a :: rest → s.request a = some q →
        v.extractLsb' 16 3 = BitVec.ofNat 3 a.val ∧ v.extractLsb' 20 2 = q.mode.code) ∧
      v.getLsbD 24 = r.sharedAllowed ∧ v.getLsbD 25 = r.leaseRequired ∧ v.getLsbD 26 = r.report ∧
      v.extractLsb' 28 4 = r.bypassLimit ∧
      v.getLsbD 19 = false ∧ v.extractLsb' 22 2 = 0 ∧ v.getLsbD 27 = false) ∧
    ∀ n : Agent, let v := s.agentView n; let r := s.agent n
      (v.extractLsb' 30 2 = r.state.code ∧ v.extractLsb' 28 2 = r.cls ∧
        v.extractLsb' 24 4 = BitVec.ofNat 4 r.notices.length ∧ v.getLsbD 23 = s.line n ∧
        v.extractLsb' 16 7 = BitVec.ofNat 7 (s.holdCount n) ∧ v.getLsbD 15 = r.overrun) ∧
      (∀ q, s.request n = some q → v.getLsbD 14 = true ∧ v.extractLsb' 8 6 = BitVec.ofNat 6 q.lock.val ∧
        v.extractLsb' 0 2 = q.mode.code ∧ v.extractLsb' 2 2 = q.effClass ∧
        v.extractLsb' 4 4 = BitVec.ofNat 4 q.bypass) ∧
      (s.request n = none → v.extractLsb' 8 7 = 0 ∧
        v.extractLsb' 0 8 = if r.state = .purging then BitVec.ofNat 7 s.purge.pointer |>.zeroExtend 8 else 0) ∧
      ∀ k : Fin 32, (s.heldMap n 0).getLsbD k.val = (s.lock ⟨k.val, by omega⟩).holds n ∧
        (s.heldMap n 32).getLsbD k.val = (s.lock ⟨32 + k.val, by omega⟩).holds n

/-- Tables 10-6 to 10-9, Table 7-5, Section 10.6, R126, R160: the fields of RESULT, NOTICE HEAD, NOTICE TIME, ERROR
STATUS, INTERRUPT ENABLE and TIME HIGH, bit by bit; the fields of each kind of notice, absent ones 0; and the codes. -/
def Obligations.BankedLayouts : Prop :=
  (∀ c : CommandRecord, c.word.extractLsb' 0 8 = c.tag ∧ c.word.extractLsb' 8 7 = c.code.code ∧
    c.word.getLsbD 15 = c.replayed ∧ c.word.extractLsb' 16 16 = c.detail) ∧
  (∀ r : AgentRecord, let v := r.noticeHead
    v.getLsbD 31 = r.overrun ∧ v.extractLsb' 27 4 = BitVec.ofNat 4 r.notices.length ∧
    (r.notices = [] → v.extractLsb' 0 27 = 0 ∧ r.noticeTime = 0) ∧
    (∀ n rest, r.notices = n :: rest → v.getLsbD 3 = false ∧ v.getLsbD 19 = false ∧ r.noticeTime = n.time ∧
      v.extractLsb' 0 3 = n.fields.kind ∧ v.extractLsb' 4 2 = n.fields.cause ∧ v.extractLsb' 6 2 = n.fields.mode ∧
      v.extractLsb' 8 6 = n.fields.lock ∧ v.getLsbD 14 = n.fields.recovered ∧ v.getLsbD 15 = n.fields.upgrade ∧
      v.extractLsb' 16 3 = n.fields.subject ∧ v.extractLsb' 20 7 = n.fields.count)) ∧
  (∀ r : AgentRecord, r.errorStatus.extractLsb' 0 3 = r.errorKind.code ∧ r.errorStatus.getLsbD 3 = r.errorSeen ∧
    r.errorStatus.extractLsb' 4 28 = 0 ∧ r.interruptEnable.getLsbD 0 = r.noticeEnable ∧
    r.interruptEnable.getLsbD 1 = r.errorEnable ∧ r.interruptEnable.extractLsb' 2 30 = 0) ∧
  (∀ (s : State) (a : Agent), (s.timeHigh a).extractLsb' 0 16 = s.du.snapshots.get a ∧
    (s.timeHigh a).extractLsb' 16 16 = 0) ∧
  (∀ (l : LockNum) (m : Mode) (r u : Bool) (c : Cause) (n : Agent) (k : Nat) (t : Word),
    let lock := BitVec.ofNat 6 l.val
    let none : NoticeFields :=
      { kind := 0, cause := 0, mode := 0, lock := 0, recovered := false, upgrade := false, subject := 0, count := 0 }
    NoticeFields.absent = none ∧
    (Notice.granted l m r u t).fields =
      { none with kind := 1, lock := lock, mode := m.code, recovered := r, upgrade := u } ∧
    (Notice.timedOut l m u t).fields = { none with kind := 2, lock := lock, mode := m.code, upgrade := u } ∧
    (Notice.revoked l m r u c t).fields =
      { none with kind := 3, lock := lock, mode := m.code, recovered := r, upgrade := u, cause := c.code } ∧
    (Notice.revokeReport l m c n t).fields =
      { none with kind := 4, lock := lock, mode := m.code, cause := c.code, subject := BitVec.ofNat 3 n.val } ∧
    (Notice.purgeDone n k t).fields =
      { none with kind := 5, subject := BitVec.ofNat 3 n.val, count := BitVec.ofNat 7 k }) ∧
  ([LockState.free, .exclusive, .shared].map LockState.code = [0, 1, 2] ∧
    [Mode.exclusive, .shared, .upgrade].map Mode.code = [1, 2, 3] ∧
    [AgentState.offline, .online, .purging].map AgentState.code = [0, 1, 2] ∧
    [Cause.lease, .forced].map Cause.code = [1, 2] ∧
    [ErrorKind.none, .parity, .badOffset, .readOnly, .writeOnly, .notHolder, .agentNotOnline].map ErrorKind.code =
      [0, 1, 2, 3, 4, 5, 6]) ∧
  [OutcomeCode.done, .granted, .queued, .released, .cancelled, .renewed, .downgraded, .started].map OutcomeCode.code =
    [0x00, 0x01, 0x02, 0x03, 0x04, 0x05, 0x06, 0x07] ∧
  [OutcomeCode.busy, .alreadyHolder, .notHolder, .requestPending, .nothingPending, .modeNotAllowed, .leaseRequired,
    .noDeadline, .wouldDeadlock, .upgradeConflict, .upgradePending, .notExclusive, .noLease].map OutcomeCode.code =
    [0x10, 0x11, 0x12, 0x13, 0x14, 0x15, 0x16, 0x17, 0x18, 0x19, 0x1A, 0x1B, 0x1C] ∧
  [OutcomeCode.badArgument, .agentOffline, .agentPurging, .notSupervisor, .lockBusy, .agentBusy, .engineBusy].map
    OutcomeCode.code = [0x20, 0x21, 0x22, 0x23, 0x24, 0x25, 0x26]

/-- R148: the argument words, at word offsets 0xA0 and 0xA1. -/
def Obligations.ArgumentWords : Prop :=
  (∀ (a : Agent) (w : WriteData) (s : State), s.ready = true →
    (w.parityGood = true →
      exec (.registerWrite a 0xA0 w) s = .next ((s.setArgs a ⟨w.data, (s.argsOf a).arg1⟩).respond (.write .ok)) ∧
      exec (.registerWrite a 0xA1 w) s = .next ((s.setArgs a ⟨(s.argsOf a).arg0, w.data⟩).respond (.write .ok))) ∧
    (w.parityGood = false →
      exec (.registerWrite a 0xA0 w) s = .next (s.errs a .parity (.write .error)) ∧
      exec (.registerWrite a 0xA1 w) s = .next (s.errs a .parity (.write .error))) ∧
    exec (.refusedRead a 0xA0) s =
      .next (s.respond (.read .ok (s.argsOf a).arg0 (evenParity (s.argsOf a).arg0))) ∧
    exec (.refusedRead a 0xA1) s =
      .next (s.respond (.read .ok (s.argsOf a).arg1 (evenParity (s.argsOf a).arg1)))) ∧
  (∀ (s t : State) (a : Agent), exec .powerOnReset s = .next t → t.argsOf a = ⟨0, 0⟩) ∧
  (∀ (s t : State) (a : Agent), s.port.powerOnReset = false → exec .busReset s = .next t → t.argsOf a = ⟨0, 0⟩) ∧
  ∀ (i : Instr) (s t : State), i ≠ .powerOnReset → i ≠ .busReset →
    (∀ a off w, i = .registerWrite a off w → windowWord off ≠ .arg0 ∧ windowWord off ≠ .arg1) →
    exec i s = .next t → ∀ b, t.argsOf b = s.argsOf b

/-! ### What stands before a request -/

/-- R98: `settle` takes each expiry that has been presented, in order, and then each held tick with its expiries, until
none is left; it leaves a state with none as it is. That exactly these stand before each request is the model's reading
(log entry 2). -/
def Obligations.SettleTakesExpiriesFirst : Prop :=
  ∀ s : State,
    (s.du.expiries = [] → s.du.heldTicks = 0 → s.settle = s) ∧
    (s.du.expiries ≠ [] → s.settle = s.takeExpiry.settle) ∧
    (s.du.expiries = [] → 0 < s.du.heldTicks → s.settle = s.heldTick.settle) ∧
    s.settle.du.expiries = [] ∧ s.settle.du.heldTicks = 0 ∧ s.SettleFrame s.settle

/-! ### The commands any agent may write

A lock command is judged on the state that the expiries and held ticks before it leave, `s.settle` (R98); that exactly
these stand before it is the model's reading (log entry 2). -/

/-- R20, R21, R35, R62, R69, R76, R103: the first checks that the lock commands share: the state of the agent, and the
lock number of those that name a lock. They follow the expiries that stand first (R98; log entry 2). -/
def Obligations.FirstChecksOfLockCommands : Prop :=
  ∀ (c : Command) (a : Agent) (w : WriteData) (s : State), s.Takes c a w →
    let u := s.settle
    let refused := fun o => exec (c.row a w) s = .next (u.answers a w o)
    (c ∈ [.acquire, .release, .upgrade, .downgrade, .cancel, .renew] →
      ((u.agent a).state = .offline → refused ⟨.agentOffline, 0⟩) ∧
      ((u.agent a).state = .purging → refused ⟨.agentPurging, 0⟩)) ∧
    (c ∈ [.acquire, .release, .upgrade, .downgrade, .renew] → (u.agent a).state = .online → 63 < u.lockArg a →
      refused ⟨.badArgument, 1⟩)

/-- R19, Table 2-2, checks 2 to 6 of ACQUIRE, after the expiries that stand first (R98; log entry 2). -/
def Obligations.AcquireRefusals : Prop :=
  ∀ (a : Agent) (w : WriteData) (s : State) (l : LockNum), s.Takes .acquire a w → s.settle.Asks a l →
    let u := s.settle
    let r := u.lock l
    let code := codeField (u.argsOf a).arg0
    let lease := leaseField (u.argsOf a).arg1
    let refused := fun o => exec (.acquire a w) s = .next (u.answers a w o)
    (code ≠ 1 → code ≠ 2 → refused ⟨.badArgument, 2⟩) ∧
    (code = 1 ∨ code = 2 →
      (∀ q, u.request a = some q → refused ⟨.requestPending, BitVec.ofNat 16 q.lock.val⟩) ∧
      (u.request a = none → code = 2 → r.sharedAllowed = false → refused ⟨.modeNotAllowed, 0⟩) ∧
      (u.request a = none → (code = 2 → r.sharedAllowed = true) → r.leaseRequired = true → lease = 0 →
        refused ⟨.leaseRequired, 0⟩) ∧
      (u.request a = none → (code = 2 → r.sharedAllowed = true) → (r.leaseRequired = true → lease ≠ 0) →
        r.holds a = true → refused ⟨.alreadyHolder, stateDetail r.state⟩))

/-- R26, R27: ACQUIRE of a lock that is grantable now, after the expiries that stand first (R98; log entry 2). -/
def Obligations.AcquireGrants : Prop :=
  ∀ (a : Agent) (w : WriteData) (s : State) (l : LockNum) (m : Mode), s.Takes .acquire a w →
    s.settle.PassesAcquire a l m → (s.settle.lock l).Grantable m →
    let u := s.settle
    let r := u.lock l
    let lease := leaseField (u.argsOf a).arg1
    let state : LockState := if m = .shared then .shared else .exclusive
    let granted := fun e : Option EntryNum =>
      u.setLock l { r with holders := setRow r.holders a (some ⟨e⟩), state := state, recovered := false }
    let o : CmdOutcome := ⟨.granted, if r.recovered then 1 else 0⟩
    (lease = 0 → exec (.acquire a w) s = .next ((granted none).answers a w o)) ∧
    (∀ e, lease ≠ 0 → u.du.FirstFree e →
      exec (.acquire a w) s = .next (((granted (some e)).withDu (·.arm e .lease a l lease)).answers a w o)) ∧
    (lease ≠ 0 → u.du.Full → exec (.acquire a w) s = .next (u.answers a w ⟨.noDeadline, 0⟩))

/-- R28, R29, R30, R80: ACQUIRE of a lock that is not grantable now, after the expiries that stand first (R98; log
entry 2). -/
def Obligations.AcquireQueues : Prop :=
  ∀ (a : Agent) (w : WriteData) (s : State) (l : LockNum) (m : Mode), s.Takes .acquire a w →
    s.settle.PassesAcquire a l m → ¬ (s.settle.lock l).Grantable m →
    let u := s.settle
    let arg0 := (u.argsOf a).arg0
    let timeout := timeoutField arg0
    let lease := leaseField (u.argsOf a).arg1
    let refused := fun o => exec (.acquire a w) s = .next (u.answers a w o)
    let queued := fun (n d : Option Nat) (e : Option EntryNum) =>
      let t := u.joinQueue a l m n d e
      exec (.acquire a w) s = .next (t.answers a w ⟨.queued, BitVec.ofNat 16 (t.positionIn a l)⟩)
    (waitField arg0 = false → refused ⟨.busy, stateDetail (u.lock l).state⟩) ∧
    (waitField arg0 = true →
      (∀ h, u.FirstBlocker a l h → refused ⟨.wouldDeadlock, BitVec.ofNat 16 h.val⟩) ∧
      ((∀ h, ¬ u.Blocks a l h) →
        (timeout = 0 → lease = 0 → queued none none none) ∧
        (∀ e, u.du.FirstFree e →
          (timeout ≠ 0 → queued (some timeout) (if lease = 0 then none else some lease) (some e)) ∧
          (timeout = 0 → lease ≠ 0 → queued none (some lease) (some e))) ∧
        (u.du.Full → timeout ≠ 0 ∨ lease ≠ 0 → refused ⟨.noDeadline, 0⟩)))

/-- R30, R46, R49, R73: an agent joins the queue of a lock. Its request is created; it stands behind every waiter of
its class or a more urgent one, and ahead of the others, an upgrade at the head; the entry it takes is armed as WAIT
with the timeout, or reserved for the lease. -/
def Obligations.JoiningAQueue : Prop :=
  ∀ (s : State) (a : Agent) (l : LockNum) (m : Mode) (timeout lease : Option Nat) (e : Option EntryNum),
    s.OrderLaw → s.Queued l → s.request a = none →
    let t := s.joinQueue a l m timeout lease e
    (∃ front back, (s.lock l).queue = front ++ back ∧ t.lock l = { s.lock l with queue := front ++ a :: back } ∧
      t.positionIn a l = front.length + 1 ∧
      (m ≠ .upgrade →
        (∀ b ∈ front, ∀ p, s.request b = some p → p.mode = .upgrade ∨ p.effClass ≤ (s.agent a).cls) ∧
        ∀ b ∈ back, ∀ p, s.request b = some p → p.mode ≠ .upgrade ∧ (s.agent a).cls < p.effClass) ∧
      (m = .upgrade → (∀ b ∈ (s.lock l).queue, ∀ p, s.request b = some p → p.mode ≠ .upgrade) → front = [])) ∧
    t.request a = some
      { lock := l, mode := m, effClass := (s.agent a).cls, bypass := 0, arrival := s.nextArrival
        timeout := timeout, lease := lease, entry := e } ∧
    (∀ b, b ≠ a → t.request b = s.request b) ∧ (∀ k, k ≠ l → t.lock k = s.lock k) ∧
    t.du = (match e, timeout with
      | some x, some n => s.du.arm x .wait a l n
      | some x, none => { s.du with entries := setRow s.du.entries x (.reserved a l) }
      | none, _ => s.du) ∧
    t.agents = s.agents ∧ t.purge = s.purge ∧ t.port = s.port ∧ t.pending = s.pending

/-- R35 to R37, R41: RELEASE, after the expiries that stand first (R98; log entry 2). The hold is removed and the grant
step after a hold runs on the lock (`GrantStepNothingOrConversion` says what it does; log entry 17). -/
def Obligations.ReleaseOutcomes : Prop :=
  ∀ (a : Agent) (w : WriteData) (s : State) (l : LockNum), s.Takes .release a w → s.settle.Asks a l →
    let u := s.settle
    ((u.lock l).holds a = false → exec (.release a w) s = .next (u.answers a w ⟨.notHolder, 0⟩)) ∧
    ((u.lock l).holds a = true →
      (u.upgradeQueued a l = true → exec (.release a w) s = .next (u.answers a w ⟨.upgradePending, 0⟩)) ∧
      (u.upgradeQueued a l = false → exec (.release a w) s =
        .next (((u.removeHold a l).grantAfterHold l).answers a w ⟨.released, stateDetail (u.lock l).state⟩)))

/-- Table 1-3, R36, R106, R138: a hold is removed. Its lease entry is freed, and the lock becomes FREE unless it is
SHARED and a holder remains. -/
def Obligations.HoldRemoval : Prop :=
  ∀ (s : State) (a : Agent) (l : LockNum), (s.lock l).state ≠ .free →
    let t := s.removeHold a l
    let remains := ∃ b, b ≠ a ∧ (s.lock l).holds b = true
    (((s.lock l).state = .shared ∧ remains) →
      t.lock l = { s.lock l with holders := setRow (s.lock l).holders a none }) ∧
    (¬ ((s.lock l).state = .shared ∧ remains) →
      t.lock l = { s.lock l with holders := setRow (s.lock l).holders a none, state := .free }) ∧
    (∀ e, (s.lock l).leaseOf a = some e →
      t.du = { s.du with
        entries := setRow s.du.entries e .free, armedList := s.du.armedList.filter (· != e)
        expiries := s.du.expiries.filter (· != e) }) ∧
    ((s.lock l).leaseOf a = none → t.du = s.du) ∧
    (∀ k, k ≠ l → t.lock k = s.lock k) ∧ (∀ b, t.request b = s.request b) ∧ t.agents = s.agents ∧
    t.purge = s.purge ∧ t.port = s.port ∧ t.nextArrival = s.nextArrival ∧ t.pending = s.pending

/-- R69 to R72, Table 4-1, checks 3 to 7 of UPGRADE; R71: the sole holder is converted at once. After
the expiries that stand first (R98; log entry 2). -/
def Obligations.UpgradeOutcomes : Prop :=
  ∀ (a : Agent) (w : WriteData) (s : State) (l : LockNum), s.Takes .upgrade a w → s.settle.Asks a l →
    let u := s.settle
    let r := u.lock l
    let refused := fun o => exec (.upgrade a w) s = .next (u.answers a w o)
    (∀ q, u.request a = some q → refused ⟨.requestPending, BitVec.ofNat 16 q.lock.val⟩) ∧
    (u.request a = none → r.holds a = false → refused ⟨.notHolder, 0⟩) ∧
    (u.request a = none → r.holds a = true →
      (r.state = .exclusive → refused ⟨.alreadyHolder, 1⟩) ∧
      (r.state = .shared → (∀ b, r.holds b = true → b = a) →
        exec (.upgrade a w) s = .next ((u.setLock l { r with state := .exclusive }).answers a w ⟨.granted, 2⟩)) ∧
      (r.state = .shared → (∃ b, b ≠ a ∧ r.holds b = true) → ∀ b q, r.queue.head? = some b →
        u.request b = some q → q.mode = .upgrade → q.lock = l → refused ⟨.upgradeConflict, BitVec.ofNat 16 b.val⟩))

/-- R73, R80: UPGRADE of a shared holder beside another one, with no upgrade queued, after the expiries that
stand first (R98; log entry 2). -/
def Obligations.UpgradeQueues : Prop :=
  ∀ (a : Agent) (w : WriteData) (s : State) (l : LockNum), s.Takes .upgrade a w → s.settle.Asks a l →
    s.settle.request a = none → (s.settle.lock l).holds a = true → (s.settle.lock l).state = .shared →
    (∃ b, b ≠ a ∧ (s.settle.lock l).holds b = true) →
    (∀ b ∈ (s.settle.lock l).queue, ∃ q, s.settle.request b = some q ∧ q.mode ≠ .upgrade) →
    let u := s.settle
    let arg0 := (u.argsOf a).arg0
    let timeout := timeoutField arg0
    let refused := fun o => exec (.upgrade a w) s = .next (u.answers a w o)
    let queued := fun (n : Option Nat) (e : Option EntryNum) =>
      exec (.upgrade a w) s = .next ((u.joinQueue a l .upgrade n none e).answers a w ⟨.queued, 1⟩)
    (waitField arg0 = false → refused ⟨.busy, 2⟩) ∧
    (waitField arg0 = true →
      (∀ h, u.FirstBlocker a l h → refused ⟨.wouldDeadlock, BitVec.ofNat 16 h.val⟩) ∧
      ((∀ h, ¬ u.Blocks a l h) →
        (timeout = 0 → queued none none) ∧
        (∀ e, timeout ≠ 0 → u.du.FirstFree e → queued (some timeout) (some e)) ∧
        (timeout ≠ 0 → u.du.Full → refused ⟨.noDeadline, 0⟩)))

/-- R76, R77: DOWNGRADE, after the expiries that stand first (R98; log entry 2). The lock becomes SHARED, the grant
step runs on it, and the detail counts the waiters that left its queue. -/
def Obligations.DowngradeOutcomes : Prop :=
  ∀ (a : Agent) (w : WriteData) (s : State) (l : LockNum), s.Takes .downgrade a w → s.settle.Asks a l →
    let u := s.settle
    let r := u.lock l
    let refused := fun o => exec (.downgrade a w) s = .next (u.answers a w o)
    (r.holds a = false → refused ⟨.notHolder, 0⟩) ∧
    (r.holds a = true → r.state = .shared → refused ⟨.notExclusive, 0⟩) ∧
    (r.holds a = true → r.state = .exclusive → r.sharedAllowed = false → refused ⟨.modeNotAllowed, 0⟩) ∧
    (r.holds a = true → r.state = .exclusive → r.sharedAllowed = true → r.queue.Nodup → u.Queued l →
      let t := (u.setLock l { r with state := .shared }).grantStep l
      ∃ n, exec (.downgrade a w) s = .next (t.answers a w ⟨.downgraded, BitVec.ofNat 16 n⟩) ∧
        n + (t.lock l).queue.length = r.queue.length)

/-- R62, R63, R67: CANCEL, after the expiries that stand first (R98; log entry 2). The request leaves its queue, its
entry is freed, and the grant step runs on its lock; behind the head it grants nothing (log entry 18). -/
def Obligations.CancelOutcomes : Prop :=
  ∀ (a : Agent) (w : WriteData) (s : State), s.Takes .cancel a w → (s.settle.agent a).state = .online →
    let u := s.settle
    (u.request a = none → exec (.cancel a w) s = .next (u.answers a w ⟨.nothingPending, 0⟩)) ∧
    (∀ q, u.request a = some q →
      let l := q.lock
      let left := (u.setLock l { u.lock l with queue := (u.lock l).queue.filter (· != a) }).setRequest a none
      let freed := match q.entry with
        | some e => left.withDu (·.free e)
        | none => left
      let gone := fun v : State =>
        exec (.cancel a w) s = .next (v.answers a w ⟨.cancelled, BitVec.ofNat 16 l.val⟩)
      ((u.lock l).queue.head? = some a → gone (freed.grantStep l)) ∧
      ((u.lock l).queue.head? ≠ some a → gone freed))

/-- R103, R104: RENEW, after the expiries that stand first (R98; log entry 2). The LEASE entry of the hold is armed
again with the new duration, behind every other of that count, and nothing else changes. -/
def Obligations.RenewOutcomes : Prop :=
  ∀ (a : Agent) (w : WriteData) (s : State) (l : LockNum), s.Takes .renew a w → s.settle.Asks a l →
    let u := s.settle
    let n := leaseField (u.argsOf a).arg1
    let refused := fun o => exec (.renew a w) s = .next (u.answers a w o)
    ((u.lock l).holds a = false → refused ⟨.notHolder, 0⟩) ∧
    ((u.lock l).holds a = true → (u.lock l).leaseOf a = none → refused ⟨.noLease, 0⟩) ∧
    (∀ e, (u.lock l).leaseOf a = some e →
      (n = 0 → refused ⟨.badArgument, 4⟩) ∧
      (∀ d o, n ≠ 0 → u.du.entries.get e = .armed .lease a l d o → exec (.renew a w) s =
        .next ((u.withDu (·.arm e .lease a l n)).answers a w ⟨.renewed, stateDetail (u.lock l).state⟩)))

/-! ### The supervisor commands -/

/-- R121, R122, Tables 7-3 and 7-4: SET_AGENT. It is taken at the Agent Table, so no expiry is taken before it (log
entry 16). -/
def Obligations.SetAgentOutcomes : Prop :=
  ∀ (a : Agent) (w : WriteData) (s : State), s.Takes .setAgent a w →
    let arg0 := (s.argsOf 0).arg0
    let code := codeField arg0
    let refused := fun o => exec (.setAgent a w) s = .next (s.answers a w o)
    (7 < numberField arg0 → refused ⟨.badArgument, 5⟩) ∧
    ∀ n : Agent, numberField arg0 = n.val →
      let r := s.agent n
      (code ≠ 0 → code ≠ 1 → refused ⟨.badArgument, 6⟩) ∧
      (n = 0 → code = 0 → refused ⟨.badArgument, 7⟩) ∧
      (n ≠ 0 → code = 0 ∨ code = 1 → r.state = .purging → refused ⟨.agentBusy, 1⟩) ∧
      (n ≠ 0 → code = 0 → r.state ≠ .purging → s.request n ≠ none → refused ⟨.agentBusy, 2⟩) ∧
      (n ≠ 0 → code = 0 → r.state ≠ .purging → s.request n = none → (∃ l, (s.lock l).holds n = true) →
        refused ⟨.agentBusy, 3⟩) ∧
      (code = 1 → r.state ≠ .purging → exec (.setAgent a w) s =
        .next ((s.setAgent n { r with state := .online, cls := classField arg0 }).answers a w ⟨.done, 0⟩)) ∧
      (n ≠ 0 → code = 0 → r.state ≠ .purging → s.request n = none → (∀ l, (s.lock l).holds n = false) →
        exec (.setAgent a w) s = .next
          ((s.setAgent n (if r.state = .online
            then { r with state := .offline, cls := classField arg0, notices := [], overrun := false }
            else { r with cls := classField arg0 })).answers a w ⟨.done, 0⟩))

/-- R11: SET_LOCK. From agent 0 it is taken after the expiries that stand first (R98), which is the model's reading
(log entry 2). -/
def Obligations.SetLockOutcomes : Prop :=
  ∀ (a : Agent) (w : WriteData) (s : State), s.ready = true → w.parityGood = true → s.isReplay a w.tag = false →
    (a ≠ 0 → exec (.setLock a w) s = .next (s.answers a w ⟨.notSupervisor, 0⟩)) ∧
    (a = 0 →
      let u := s.settle
      let arg1 := (u.argsOf 0).arg1
      (63 < u.lockArg 0 → exec (.setLock a w) s = .next (u.answers a w ⟨.badArgument, 1⟩)) ∧
      ∀ l : LockNum, u.lockArg 0 = l.val →
        let r := u.lock l
        (r.state ≠ .free ∨ r.queue ≠ [] →
          exec (.setLock a w) s = .next (u.answers a w ⟨.lockBusy, stateDetail r.state⟩)) ∧
        (r.state = .free → r.queue = [] → exec (.setLock a w) s =
          .next ((u.setLock l { r with
            sharedAllowed := arg1.getLsbD 0, leaseRequired := arg1.getLsbD 1, report := arg1.getLsbD 2
            bypassLimit := arg1.extractLsb' 8 4 }).answers a w ⟨.done, 0⟩)))

/-- R108, R111 to R113: FORCE_RELEASE, after the expiries that stand first (R98; log entry 2). A held lock loses every
holder, with the lease entries, and the queued upgrade, with its entry; it becomes FREE, recovered if it was
EXCLUSIVE; each former holder is told; the grant step runs. -/
def Obligations.ForceReleaseOutcomes : Prop :=
  ∀ (a : Agent) (w : WriteData) (s : State), s.Takes .forceRelease a w →
    let u := s.settle
    (63 < u.lockArg 0 → exec (.forceRelease a w) s = .next (u.answers a w ⟨.badArgument, 1⟩)) ∧
    ∀ l : LockNum, u.lockArg 0 = l.val →
      let r := u.lock l
      let freed := fun e : EntryNum => allAgents.any fun b => r.leaseOf b == some e ||
        (u.upgradeQueued b l && (u.request b).any fun q => q.entry == some e)
      (r.state = .free →
        exec (.forceRelease a w) s = .next ((u.setLock l { r with recovered := false }).answers a w ⟨.done, 0⟩)) ∧
      (r.state ≠ .free → u.LockTableLaw → ∃ v : State,
        exec (.forceRelease a w) s =
          .next ((v.grantStep l).answers a w ⟨.done, BitVec.ofNat 16 (allAgents.countP fun b => r.holds b)⟩) ∧
        v.lock l = { r with
          state := .free, holders := Vector.replicate 8 none, recovered := r.state == .exclusive
          queue := r.queue.filter fun b => !u.upgradeQueued b l } ∧
        (∀ k, k ≠ l → v.lock k = u.lock k) ∧
        (∀ b, v.request b = if u.upgradeQueued b l = true then none else u.request b) ∧
        (∀ b, r.holds b = false → v.agent b = u.agent b) ∧
        (∀ b, r.holds b = true → v.agent b = (u.post b (.revoked l
          (if r.state = .exclusive then .exclusive else .shared) (r.state == .exclusive) (u.upgradeQueued b l) .forced
          (u.du.timebase.extractLsb' 0 32))).agent b) ∧
        (∀ e, v.du.entries.get e = if freed e = true then .free else u.du.entries.get e) ∧
        v.du = { u.du with
          entries := v.du.entries, armedList := u.du.armedList.filter fun e => !freed e
          expiries := u.du.expiries.filter fun e => !freed e } ∧
        v.port = u.port ∧ v.purge = u.purge ∧ v.nextArrival = u.nextArrival ∧ v.pending = u.pending)

/-- R135, R136, Table 8-2: PURGE. Its checks precede the expiries that stand before purge start; the detail counts the
holds found after them (log entry 2). -/
def Obligations.PurgeOutcomes : Prop :=
  ∀ (a : Agent) (w : WriteData) (s : State), s.Takes .purge a w →
    let number := numberField (s.argsOf 0).arg0
    let refused := fun o => exec (.purge a w) s = .next (s.answers a w o)
    (7 < number → refused ⟨.badArgument, 5⟩) ∧ (number = 0 → refused ⟨.badArgument, 7⟩) ∧
    ∀ n : Agent, number = n.val → n ≠ 0 →
      (∀ b, s.purge.state = .sweeping → s.purge.subject = some b → refused ⟨.engineBusy, BitVec.ofNat 16 b.val⟩) ∧
      (s.purge.state = .idle → (s.agent n).state ≠ .online → refused ⟨.badArgument, 8⟩) ∧
      (s.purge.state = .idle → (s.agent n).state = .online →
        let u := s.settle
        let p := u.setAgent n { u.agent n with state := .purging }
        let started := fun v : State => exec (.purge a w) s = .next
          ({ v.setAgent n { v.agent n with notices := [], overrun := false } with
            purge := ⟨.sweeping, some n, 0, 0⟩ }.answers a w
              ⟨.started, BitVec.ofNat 16 (allLocks.countP fun l => (u.lock l).holds n)⟩)
        (u.request n = none → started p) ∧
        (∀ q, u.request n = some q →
          let left := (p.leaveQueue q.lock n).withDu (·.freeOwned q.entry)
          ((u.lock q.lock).queue.head? = some n → started (left.grantStep q.lock)) ∧
          ((u.lock q.lock).queue.head? ≠ some n → started left)))

/-- R86: SET_TIME loads the timebase and changes nothing else. R85: SET_DIVIDER changes the tick divider alone, and
refuses 0 and a value above 65,536. That SET_TIME is taken after the expiries that stand first (log entry 2), and that
SET_DIVIDER takes none (log entry 16), is the model's reading. -/
def Obligations.SetTimeAndSetDivider : Prop :=
  ∀ (a : Agent) (w : WriteData) (s : State),
    (s.Takes .setTime a w →
      let u := s.settle
      let time : BitVec 48 := (u.argsOf 0).arg1.extractLsb' 0 16 ++ (u.argsOf 0).arg0
      exec (.setTime a w) s = .next ({ u with du := { u.du with timebase := time } }.answers a w ⟨.done, 0⟩)) ∧
    (s.Takes .setDivider a w →
      let n := ((s.argsOf 0).arg0.extractLsb' 0 17).toNat
      (n = 0 ∨ 65536 < n → exec (.setDivider a w) s = .next (s.answers a w ⟨.badArgument, 3⟩)) ∧
      (1 ≤ n → n ≤ 65536 →
        exec (.setDivider a w) s = .next ({ s with du := { s.du with divider := n } }.answers a w ⟨.done, 0⟩)))

/-! ### The part's own events -/

/-- R97, R98: TICK_ADVANCE, once the expiries before it have been taken. The timebase grows by 1, modulo 2^48; the
entries of count 1 run out, in list order, and stay ARMED; the others of the armed list count down. The ticks still
held follow as soon as they can. A held tick is taken first, and the tick divider applies from the tick that falls due
(R85); these two are the model's choices (log entries 8 and 9). -/
def Obligations.TickAdvanceCounts : Prop :=
  ∀ s : State, s.port.powerOnReset = false →
    (s.du.expiries ≠ [] → exec .tickAdvance s = exec .tickAdvance s.takeExpiry) ∧
    (s.du.expiries = [] → ∃ d, exec .tickAdvance s = .next (State.catchUp { s with du := d }) ∧
      d.timebase = s.du.timebase + 1 ∧
      d.armedList = s.du.armedList.filter (fun e => (s.du.entries.get e).remaining != 1) ∧
      d.expiries = s.du.armedList.filter (fun e => (s.du.entries.get e).remaining == 1) ∧
      (∀ e, e ∉ d.armedList → d.entries.get e = s.du.entries.get e) ∧
      (∀ e k a l n o, e ∈ d.armedList → s.du.entries.get e = .armed k a l n o →
        d.entries.get e = .armed k a l (n - 1) o) ∧
      d.divider = s.du.divider ∧ d.snapshots = s.du.snapshots ∧
      (s.du.heldTicks = 0 → d.heldTicks = 0 ∧ d.dividerCount = 0 ∧ d.activeDivider = s.du.divider) ∧
      (0 < s.du.heldTicks → d.heldTicks + 1 = s.du.heldTicks ∧ d.dividerCount = s.du.dividerCount ∧
        d.activeDivider = s.du.activeDivider))

/-- R65, R67, R98: WAIT_EXPIRY for the pending request that owns the entry first in turn. The grant step grants if the
request stood at the head (log entry 18). Held ticks follow the last expiry awaited. -/
def Obligations.WaitExpiryTimesOut : Prop :=
  ∀ (s : State) (e : EntryNum) (rest : List EntryNum) (a : Agent) (k : LockNum) (n o : Nat) (q : PendingRequest),
    s.du.expiries = e :: rest → s.du.entries.get e = .armed .wait a k n o → s.request a = some q →
    q.entry = some e →
    let l := q.lock
    let left := (s.setLock l { s.lock l with queue := (s.lock l).queue.filter (· != a) }).setRequest a none
    let told := (left.withDu (·.free e)).post a
      (.timedOut l q.mode (q.mode == .upgrade) (s.du.timebase.extractLsb' 0 32))
    ((s.lock l).queue.head? = some a → exec .waitExpiry s = .next (told.grantStep l).catchUp) ∧
    ((s.lock l).queue.head? ≠ some a → exec .waitExpiry s = .next told.catchUp)

/-- R98, R106 to R109: LEASE_EXPIRY for the hold that owns the entry first in turn. The grant step is that after a hold
(`GrantStepNothingOrConversion` says what it does; log entry 17), but where an upgrade of the holder left the head with
it, the whole one (R107). Held ticks follow the last expiry awaited. -/
def Obligations.LeaseExpiryRevokes : Prop :=
  ∀ (s : State) (e : EntryNum) (rest : List EntryNum) (h : Agent) (l : LockNum) (n o : Nat),
    s.du.expiries = e :: rest → s.du.entries.get e = .armed .lease h l n o → (s.lock l).leaseOf h = some e →
    let r : LockRecord := s.lock l
    let time := s.du.timebase.extractLsb' 0 32
    let removed := s.removeHold h l
    let left := match s.request h with
      | some q => if q.mode = Mode.upgrade ∧ q.lock = l
        then (removed.leaveQueue l h).withDu (·.freeOwned q.entry)
        else removed
      | none => removed
    let marked := if r.state = .exclusive then left.setLock l { left.lock l with recovered := true } else left
    let mode : Mode := if r.state = .shared then .shared else .exclusive
    let told := marked.post h (.revoked l mode (r.state == .exclusive) (s.upgradeQueued h l) .lease time)
    let reported := if r.report = true ∧ h ≠ 0 then told.post 0 (.revokeReport l mode .lease h time) else told
    (s.upgradeQueued h l = true → exec .leaseExpiry s = .next (reported.grantStep l).catchUp) ∧
    (s.upgradeQueued h l = false → exec .leaseExpiry s = .next (reported.grantAfterHold l).catchUp)

/-- R138: SWEEP_VISIT to the lock at the sweep pointer, after the expiries that stand first (R98; log entry 2). The
grant step is that after a hold (`GrantStepNothingOrConversion` says what it does; log entry 17). -/
def Obligations.SweepVisitRemoves : Prop :=
  ∀ (s : State) (a : Agent) (k : LockNum), s.purge.state = .sweeping → s.purge.subject = some a →
    s.purge.pointer = k.val →
    let u := s.settle
    ((u.lock k).holds a = false →
      exec .sweepVisit s = .next { u with purge := { s.purge with pointer := k.val + 1 } }) ∧
    ((u.lock k).holds a = true →
      let removed := u.removeHold a k
      let marked := if (u.lock k).state = .exclusive
        then removed.setLock k { removed.lock k with recovered := true } else removed
      exec .sweepVisit s = .next { marked.grantAfterHold k with
        purge := { s.purge with pointer := k.val + 1, count := s.purge.count + 1 } })

/-- R139: SWEEP_END. That it takes no expiry that is awaited, and so leaves locks, requests and Deadline Unit as they
were, is the model's reading (log entry 16). -/
def Obligations.SweepEndReports : Prop :=
  ∀ (s : State) (a : Agent), s.purge.state = .sweeping → s.purge.subject = some a → s.purge.pointer = 64 → a ≠ 0 →
    ∃ t, exec .sweepEnd s = .next t ∧ t.agent a = { s.agent a with state := .offline } ∧
      t.agent 0 = (s.post 0 (.purgeDone a s.purge.count (s.du.timebase.extractLsb' 0 32))).agent 0 ∧
      (∀ b, b ≠ 0 → b ≠ a → t.agent b = s.agent b) ∧ t.purge.state = .idle ∧ t.purge.subject = none ∧
      t.locks = s.locks ∧ t.requests = s.requests ∧ t.du = s.du ∧ t.port = s.port ∧ t.pending = s.pending

/-! ### The quick path and the other words -/

/-- R32 to R34, R39 to R41, Tables 2-4 and 2-6: a read and a write of TRY `l`, after the expiries that stand first
(R98; log entry 2). The grant step of a write is that after a hold (`GrantStepNothingOrConversion` says what it does;
log entry 17). -/
def Obligations.TryAccesses : Prop :=
  ∀ (a : Agent) (l : LockNum) (w : WriteData) (s : State), s.ready = true →
    let u := s.settle
    let r := u.lock l
    let reads := fun (v : State) (c : OutcomeCode) (detail : BitVec 16) =>
      let d : Word := detail ++ (0 : BitVec 1) ++ c.code ++ (0 : BitVec 8)
      exec (.tryRead a l) s = .next (v.respond (.read .ok d (evenParity d)))
    let online := (u.agent a).state = .online
    (((u.agent a).state = .offline → reads u .agentOffline 0) ∧
      ((u.agent a).state = .purging → reads u .agentPurging 0) ∧
      (online → r.leaseRequired = true → reads u .leaseRequired 0) ∧
      (online → r.leaseRequired = false → r.holds a = true → reads u .alreadyHolder (stateDetail r.state)) ∧
      (online → r.leaseRequired = false → r.holds a = false → r.state ≠ .free →
        reads u .busy (stateDetail r.state)) ∧
      (online → r.leaseRequired = false → r.holds a = false → r.state = .free →
        reads (u.setLock l
          { r with holders := setRow r.holders a (some ⟨none⟩), state := .exclusive, recovered := false })
          .granted (if r.recovered then 1 else 0))) ∧
    (w.parityGood = true →
      ((u.agent a).state ≠ .online →
        exec (.tryWrite a l w) s = .next (u.errs a .agentNotOnline (.write .error))) ∧
      (online → r.holds a = false ∨ u.upgradeQueued a l = true →
        exec (.tryWrite a l w) s = .next (u.errs a .notHolder (.write .error))) ∧
      (online → r.holds a = true → u.upgradeQueued a l = false →
        exec (.tryWrite a l w) s = .next (((u.removeHold a l).grantAfterHold l).respond (.write .ok))))

/-- R87: TIME LOW, at word offset 0x98, and TIME HIGH, at 0x99. -/
def Obligations.TimeWords : Prop :=
  ∀ (a : Agent) (w : WriteData) (s : State),
    (s.ready = true →
      let low : Word := s.du.timebase.extractLsb' 0 32
      let high : Word := (0 : BitVec 16) ++ s.du.snapshots.get a
      exec (.timeLowRead a) s = .next
        ({ s with du := { s.du with snapshots := setRow s.du.snapshots a (s.du.timebase.extractLsb' 32 16) } }.respond
          (.read .ok low (evenParity low))) ∧
      exec (.refusedRead a 0x99) s = .next (s.respond (.read .ok high (evenParity high))) ∧
      exec (.registerWrite a 0x98 w) s = .next (s.errs a .readOnly (.write .error)) ∧
      exec (.registerWrite a 0x99 w) s = .next (s.errs a .readOnly (.write .error))) ∧
    (s.ready = false → exec (.timeLowRead a) s = .next (s.respond (.read .retry 0 0)) ∧
      exec (.refusedRead a 0x99) s = .next (s.respond (.read .retry 0 0)))

/-- R127, R129, R130: the writes of NOTICE CONTROL (POP and CLEAR_OVERRUN), ERROR STATUS and INTERRUPT ENABLE, with
good parity in READY, each on the writing agent's record alone. -/
def Obligations.BankedWrites : Prop :=
  ∀ (a : Agent) (w : WriteData) (s : State), s.ready = true → w.parityGood = true →
    let r := s.agent a
    let after := fun r' => Host.Outcome.next (φ := Fault) (ρ := Refusal) ((s.setAgent a r').respond (.write .ok))
    (w.data.getLsbD 0 = true → exec (.pop a w) s = after { r with
      notices := r.notices.tail, overrun := if w.data.getLsbD 1 then false else r.overrun }) ∧
    (w.data.getLsbD 0 = false → w.data.getLsbD 1 = true →
      exec (.clearOverrun a w) s = after { r with overrun := false }) ∧
    (w.data.getLsbD 0 = false → w.data.getLsbD 1 = false → exec (.registerWrite a 0xA5 w) s = after r) ∧
    exec (.errorStatusWrite a w) s = after { r with errorKind := .none, errorSeen := false } ∧
    exec (.interruptEnableWrite a w) s =
      after { r with noticeEnable := w.data.getLsbD 0, errorEnable := w.data.getLsbD 1 }

/-- R131: interrupt line `n` is asserted exactly when one of its causes stands and no reset input is asserted; after
power-on reset and bus reset every cause is clear; after RESET_TABLES a line is asserted exactly when its agent has
error enable and error-seen set. -/
def Obligations.InterruptLines : Prop :=
  (∀ (s : State) (n : Agent), s.line n = true ↔ s.inReset = false ∧
    (((s.agent n).noticeEnable = true ∧ ((s.agent n).notices ≠ [] ∨ (s.agent n).overrun = true)) ∨
      ((s.agent n).errorEnable = true ∧ (s.agent n).errorSeen = true))) ∧
  (∀ (s t : State) (i : Instr), i = .powerOnReset ∨ (i = .busReset ∧ s.port.powerOnReset = false) →
    exec i s = .next t → ∀ n, t.line n = false ∧ (t.agent n).notices = [] ∧ (t.agent n).overrun = false ∧
      (t.agent n).noticeEnable = false ∧ (t.agent n).errorEnable = false ∧ (t.agent n).errorSeen = false) ∧
  (∀ (s t : State) (a : Agent) (w : WriteData), s.Takes .resetTables a w → exec (.resetTables a w) s = .next t →
    ∀ n, t.line n = true ↔ ((s.agent n).errorEnable = true ∧ (s.agent n).errorSeen = true))

/-! ### The grant step and notices -/

/-- R54, R57, Table 3-3: the rows of the head test that grant nothing, and the conversion of an upgrade. R41 with
Table 2-7, R106, R138: the grant step after a hold is the grant step, but on a lock that is still SHARED it grants
nothing but a conversion. The two differ at a SHARED head alone; that these rules stand before Table 3-3 there is the
model's reading (log entry 17). A hold that leaves its lock SHARED leaves the grant step itself nothing else to grant,
where the head is not a SHARED request. -/
def Obligations.GrantStepNothingOrConversion : Prop :=
  ∀ (s : State) (l : LockNum),
    ((s.lock l).queue = [] → s.grantStep l = s) ∧
    ((s.lock l).queue = [] ∨ (s.lock l).state ≠ .shared → s.grantAfterHold l = s.grantStep l) ∧
    (∀ h, (∀ a q, (s.lock l).queue.head? = some a → s.request a = some q → q.mode ≠ .shared) →
      let t := s.removeHold h l
      (t.lock l).state = .shared → t.grantStep l = t ∨
        ∃ a q, (s.lock l).queue.head? = some a ∧ s.request a = some q ∧ q.mode = .upgrade ∧
          ∀ b, (t.lock l).holds b = true ↔ b = a) ∧
    ∀ a rest q, (s.lock l).queue = a :: rest → s.request a = some q →
      (q.mode ≠ .shared → s.grantAfterHold l = s.grantStep l) ∧
      (q.mode = .shared → (s.lock l).state = .shared → s.grantAfterHold l = s) ∧
      (q.mode = .upgrade → (s.lock l).state = .shared → (∃ b, b ≠ a ∧ (s.lock l).holds b = true) →
        s.grantStep l = s) ∧
      (q.mode = .exclusive → (s.lock l).state ≠ .free → s.grantStep l = s) ∧
      (q.mode = .shared → (s.lock l).state = .exclusive → s.grantStep l = s) ∧
      (q.mode = .upgrade → (s.lock l).state = .shared → (∀ b, (s.lock l).holds b = true ↔ b = a) →
        s.grantStep l =
          (((s.setLock l { s.lock l with state := .exclusive, queue := (s.lock l).queue.filter (· != a) }).setRequest a
            none).withDu (·.freeOwned q.entry)).post a
              (.granted l .upgrade false true (s.du.timebase.extractLsb' 0 32)))

/-- R55, R58, R59: an EXCLUSIVE head on a FREE lock is granted alone, in a state that keeps the order law. Each waiter
that joined before it gains one bypass count, to the ceiling, and is promoted to class 0 when that brings it to a
nonzero bypass_limit; the queue keeps its waiters and the order of R48. -/
def Obligations.GrantStepExclusive : Prop :=
  ∀ (s : State) (l : LockNum) (a : Agent) (rest : List Agent) (q : PendingRequest),
    (s.lock l).queue = a :: rest → (a :: rest).Nodup → s.Queued l → s.request a = some q → q.mode = .exclusive →
    (s.lock l).state = .free → (∀ b, (s.lock l).holds b = false) →
    s.OrderLaw →
    let limit := (s.lock l).bypassLimit
    let t := s.grantStep l
    (t.lock l).state = .exclusive ∧ (∀ b, (t.lock l).holds b = true ↔ b = a) ∧ (t.lock l).recovered = false ∧
    (t.lock l).leaseOf a = q.grantedLease ∧ t.request a = none ∧ t.du = s.du.atGrant q ∧
    t.agent a = (s.post a
      (.granted l .exclusive (s.lock l).recovered false (s.du.timebase.extractLsb' 0 32))).agent a ∧
    (∀ b, b ≠ a → t.agent b = s.agent b) ∧
    (∀ b p, b ∈ rest → s.request b = some p →
      let passed := p.arrival < q.arrival
      let count := min (p.bypass + 1) (if limit = 0 then 15 else limit.toNat)
      t.request b = some { p with
        bypass := if passed then count else p.bypass
        effClass := if passed ∧ limit ≠ 0 ∧ p.bypass + 1 = limit.toNat then 0 else p.effClass }) ∧
    (t.lock l).queue.Perm rest ∧ (t.lock l).queue.Pairwise (fun b c => t.precedes b c = true)

/-- R55, R56, R58, R59, R60, Table 3-2: the batch at a SHARED head of a lock that is not EXCLUSIVE. Its first run
leaves `v`: every member granted, counts and promotions made. With no waiter promoted the grant step ends there; else
it goes on as the grant step of `v`. -/
def Obligations.GrantStepBatch : Prop :=
  ∀ (s : State) (l : LockNum) (batch rest : List Agent),
    (s.lock l).queue = batch ++ rest → batch ≠ [] → (batch ++ rest).Nodup → s.Queued l →
    (∀ b ∈ batch, ∃ q, s.request b = some q ∧ q.mode = .shared) →
    (∀ b q, rest.head? = some b → s.request b = some q → q.mode ≠ .shared) →
    (s.lock l).state ≠ .exclusive →
    let limit := (s.lock l).bypassLimit
    let passed := fun p : PendingRequest => batch.any fun c => (s.request c).any fun q => p.arrival < q.arrival
    let promoted := fun p : PendingRequest =>
      passed p && limit != 0 && p.bypass + 1 == limit.toNat && p.effClass != 0
    ∃ v : State,
      ((∀ b p, b ∈ rest → s.request b = some p → promoted p = false) →
        s.grantStep l = v ∧ (v.lock l).queue = rest) ∧
      ((∃ b p, b ∈ rest ∧ s.request b = some p ∧ promoted p = true) → s.grantStep l = v.grantStep l) ∧
      (v.lock l).state = .shared ∧ (v.lock l).recovered = false ∧ (s.lock l).SameAttributes (v.lock l) ∧
      (v.lock l).queue.Perm rest ∧
      (s.OrderLaw → (v.lock l).queue.Pairwise fun b c => v.precedes b c = true) ∧
      (∀ b q, b ∈ batch → s.request b = some q →
        v.request b = none ∧ (v.lock l).holders.get b = some ⟨q.grantedLease⟩ ∧
        v.agent b = (s.post b
          (.granted l .shared (s.lock l).recovered false (s.du.timebase.extractLsb' 0 32))).agent b) ∧
      (∀ b, b ∉ batch → (v.lock l).holders.get b = (s.lock l).holders.get b ∧ v.agent b = s.agent b) ∧
      (∀ b p, b ∈ rest → s.request b = some p → v.request b = some { p with
        bypass := if passed p = true then min (p.bypass + 1) (if limit = 0 then 15 else limit.toNat) else p.bypass
        effClass := if promoted p = true then 0 else p.effClass }) ∧
      (∀ b, b ∉ batch → b ∉ rest → v.request b = s.request b) ∧
      v.du = batch.foldl (fun d b => match s.request b with
        | some q => d.atGrant q
        | none => d) s.du ∧
      State.OnlyLock l s v ∧ s.EngineFrame v

/-- R124: a notice posted to an agent. -/
def Obligations.NoticePost : Prop :=
  ∀ (s : State) (a : Agent) (n : Notice),
    let r := s.agent a
    (r.state ≠ .online → s.post a n = s) ∧
    (r.state = .online → r.notices.length < 8 → s.post a n = s.setAgent a { r with notices := r.notices ++ [n] }) ∧
    (r.state = .online → 8 ≤ r.notices.length → s.post a n = s.setAgent a { r with overrun := true })

/-! ### Frames -/

/-- R53: the grant step on a lock works on that lock and on no other; it changes the lock's attributes never, and of an
agent record the notices and the overrun flag alone. -/
def Obligations.GrantStepFrame : Prop :=
  ∀ (s : State) (l : LockNum), s.Queued l →
    let t := s.grantStep l
    s.EngineFrame t ∧ State.OnlyLock l s t ∧ (s.lock l).SameAttributes (t.lock l) ∧
      ∀ a q, s.request a = some q → q.lock ≠ l → t.request a = some q

/-- R8, R85, R88, R116, R120, R129, R130, Table 7-2: what each kind of register is left alone by. -/
def Obligations.RegisterFrames : Prop :=
  ∀ (i : Instr) (s t : State), i.wf = true → exec i s = .next t → i ≠ .powerOnReset →
    ((∀ a w, i ≠ .setLock a w) → ∀ l, (s.lock l).SameAttributes (t.lock l)) ∧
    ((∀ a w, i ≠ .setAgent a w) → ∀ b, (t.agent b).cls = (s.agent b).cls) ∧
    ((∀ a w, i ≠ .setAgent a w) → (∀ a w, i ≠ .purge a w) → i ≠ .sweepEnd → i ≠ .busReset →
      (∀ a w, i ≠ .resetTables a w) → ∀ b, (t.agent b).state = (s.agent b).state) ∧
    (i ≠ .busReset → ∀ b, (∀ w, i ≠ .interruptEnableWrite b w) →
      (t.agent b).noticeEnable = (s.agent b).noticeEnable ∧ (t.agent b).errorEnable = (s.agent b).errorEnable) ∧
    (i ≠ .busReset → ∀ b, i ≠ .timeLowRead b → t.du.snapshots.get b = s.du.snapshots.get b) ∧
    ((∀ a w, i ≠ .setDivider a w) → t.du.divider = s.du.divider) ∧
    (i ≠ .busReset → (∀ a w, i ≠ .resetTables a w) → ∀ b, (∀ (c : Command) w, i ≠ c.row b w) →
      (t.agent b).record = (s.agent b).record) ∧
    (i ≠ .busReset → ∀ b, (∀ x, i.access = some x → x.agent ≠ b) →
      (t.agent b).errorKind = (s.agent b).errorKind ∧ (t.agent b).errorSeen = (s.agent b).errorSeen) ∧
    t.pending = s.pending

/-! ### Laws that every step keeps -/

/-- R119, R125, R134: every step keeps the law of the notice queues, agent 0 ONLINE, and the law of the Purge Engine.
-/
def Obligations.StepKeepsAgentLaw : Prop :=
  ∀ s t : State, s.AgentLaw → step s = .next t → t.AgentLaw

/-- R84, R85, R90, R91, R97, R98: every step keeps the range of the dividers and the divider count, and the law of the
deadline pool; and, by itself, the law of the held ticks. -/
def Obligations.StepKeepsDeadlineLaws : Prop :=
  ∀ s t : State, step s = .next t →
    (s.DividerLaw → s.PoolLaw → t.DividerLaw ∧ t.PoolLaw) ∧ (s.HeldLaw → t.HeldLaw)

/-- R2, R7, R45, R48, R50 to R52, R58, R118: every step keeps the laws of the lock records, the queues with their
order, and who may wait and hold. -/
def Obligations.StepKeepsLockTableLaws : Prop :=
  ∀ s t : State, s.AgentLaw → s.LockTableLaw → s.OrderLaw → step s = .next t → t.LockTableLaw ∧ t.OrderLaw

/-- R92: every step keeps the law of entry ownership. -/
def Obligations.StepKeepsOwnership : Prop :=
  ∀ s t : State, s.AgentLaw → s.LockTableLaw → s.OrderLaw → s.OwnershipLaw → step s = .next t →
    t.OwnershipLaw

/-- R81: every step keeps the waits-for relation without a cycle. -/
def Obligations.StepKeepsNoDeadlock : Prop :=
  ∀ s t : State, s.AgentLaw → s.LockTableLaw → s.OrderLaw → s.Acyclic → step s = .next t → t.Acyclic

/-- R145, Tables 10-1 and 10-2: the access that a command within its row is, decoded by the window map, is that command
again, with every agent, lock, offset, data and parity. -/
def Obligations.AccessRoundTrip : Prop :=
  ∀ i : Instr, i.wf = true → ∀ b, i.access = some b → b.command = i

/-! ### The deadline entries of requests and holds, and the signals -/

/-- R90, R94, R95, Tables 3-2 and 5-3: what the Lock Engine asks of the Deadline Unit. An entry armed or re-armed
takes the kind, agent, lock and count given and the latest place in the arming order, behind every entry of an equal
or smaller count; one reserved is RESERVED; one freed is FREE. At a grant, the entry of a request with a lease becomes
the LEASE entry of the hold, and that of a request without one is freed. -/
def Obligations.DeadlineEntryRequests : Prop :=
  ∀ (d : DeadlineUnit) (e : EntryNum) (a : Agent) (l : LockNum),
    (∀ (k : EntryKind) (n : Nat),
      let t := d.arm e k a l n
      t.entries.get e = .armed k a l n d.nextArming ∧ (∀ f, f ≠ e → t.entries.get f = d.entries.get f) ∧
      t.nextArming = d.nextArming + 1 ∧ t.expiries = d.expiries.filter (· != e) ∧ d.ClockKept t ∧
      ∃ front back, d.armedList.filter (· != e) = front ++ back ∧ t.armedList = front ++ e :: back ∧
        (∀ x ∈ front, (d.entries.get x).remaining ≤ n) ∧
        (∀ x, back.head? = some x → n < (d.entries.get x).remaining) ∧
        (d.PoolLaw → ∀ x ∈ back, n < (d.entries.get x).remaining)) ∧
    ((d.reserve e a l).entries.get e = .reserved a l ∧
      (∀ f, f ≠ e → (d.reserve e a l).entries.get f = d.entries.get f) ∧
      d.reserve e a l = { d with entries := (d.reserve e a l).entries }) ∧
    ((d.free e).entries.get e = .free ∧ (∀ f, f ≠ e → (d.free e).entries.get f = d.entries.get f) ∧
      d.free e = { d with
        entries := (d.free e).entries, armedList := d.armedList.filter (· != e)
        expiries := d.expiries.filter (· != e) }) ∧
    ∀ q : PendingRequest,
      (q.entry = none → q.grantedLease = none ∧ d.atGrant q = d) ∧
      (q.entry = some e → q.lease = none → q.grantedLease = none ∧ d.atGrant q = d.free e) ∧
      (∀ n, q.entry = some e → q.lease = some n → q.grantedLease = some e ∧
        (d.entries.get e = .reserved a l → d.atGrant q = d.arm e .lease a l n) ∧
        ∀ k m o, d.entries.get e = .armed k a l m o → d.atGrant q = d.arm e .lease a l n)

/-- R162, Table 10-14: in the step that takes an access, whatever commands wait behind it, ANS1 and ANS0 carry 00 and
then 01, 10 or 11 for its answer OK, RETRY or ERROR. INTL, PORST and BRST are active low; the input lines spell an
access when the window is selected. That an access reaches the port in the step that takes it, and that the lines keep
the latest answer between accesses, is the model's choice (log entry 6). -/
def Obligations.SignalLevels : Prop :=
  (BusAnswer.ok.code = 0b01 ∧ BusAnswer.retry.code = 0b10 ∧ BusAnswer.error.code = 0b11) ∧
  (∀ (i : Instr) (b : BusAccess) (rest : List Instr) (s : State), i.access = some b →
    let u := { s with pending := i :: rest }
    ∃ t c, step u = .next t ∧
      (t.port.response = .write c ∨ ∃ d, t.port.response = .read c d (evenParity d)) ∧
      u.answerLevels = [0b00, c.code] ∧ t.answerLines = c.code) ∧
  (∀ s : State, (∀ i, s.pending.head? = some i → i.access = none) →
    ∃ t, step s = .next t ∧ s.answerLevels = [s.answerLines] ∧ t.answerLines = s.answerLines) ∧
  (∀ (s : State) (n : Agent), s.interruptLevel n = false ↔ s.line n = true) ∧
  (∀ p : BusPort, (p.porstLevel = false ↔ p.powerOnReset = true) ∧ (p.brstLevel = false ↔ p.busReset = true)) ∧
  ∀ (a : WordOffset) (mid : BitVec 3) (d : Word) (dp : BitVec 4) (wr : Bool),
    BusAccess.ofLines false wr a mid d dp = none ∧
    ∀ n : Agent, mid.toNat = n.val →
      BusAccess.ofLines true true a mid d dp = some ⟨n, a, some ⟨d, dp⟩⟩ ∧
      BusAccess.ofLines true false a mid d dp = some ⟨n, a, none⟩
end

