-- ==== Sys2Proof/Laws/State.lean ====
section
/-! SUPPORT. Reading a table after a change of one row, and one lemma for each field of the state under each update. -/

namespace Sys2Proof

/-! ### Tables -/

@[simp] theorem get_ofTable {n : Nat} {α : Type} (f : Fin n → α) (i : Fin n) : (ofTable f).get i = f i := by
  simp only [ofTable, Vector.get, List.getElem_toArray, List.getElem_map, List.getElem_finRange]
  rfl

@[simp] theorem get_replicate {n : Nat} {α : Type} (x : α) (i : Fin n) : (Vector.replicate n x).get i = x := by
  show (Vector.replicate n x)[i.val] = x
  simp

theorem get_setRow {n : Nat} {α : Type} (v : Vector α n) (i j : Fin n) (x : α) :
    (setRow v i x).get j = if j = i then x else v.get j := by
  show (v.set i.val x i.isLt)[j.val] = if j = i then x else v[j.val]
  rw [Vector.getElem_set]
  simp only [Fin.ext_iff, eq_comm]

@[simp] theorem get_setRow_self {n : Nat} {α : Type} (v : Vector α n) (i : Fin n) (x : α) :
    (setRow v i x).get i = x := by simp [get_setRow]

theorem get_setRow_ne {n : Nat} {α : Type} (v : Vector α n) {i j : Fin n} (h : j ≠ i) (x : α) :
    (setRow v i x).get j = v.get j := by simp [get_setRow, h]

/-- Two tables with the same rows are equal. -/
theorem table_ext {n : Nat} {α : Type} {v w : Vector α n} (h : ∀ i, v.get i = w.get i) : v = w := by
  apply Vector.ext
  intro i hi
  exact h ⟨i, hi⟩

@[simp] theorem mem_allAgents (a : Agent) : a ∈ allAgents := List.mem_finRange a

@[simp] theorem mem_allLocks (l : LockNum) : l ∈ allLocks := List.mem_finRange l

@[simp] theorem mem_allEntries (e : EntryNum) : e ∈ allEntries := List.mem_finRange e

namespace Machine

/-! ### One row read after another is written -/

theorem State.setLock_lock (s : State) (l l' : LockNum) (r : LockRecord) :
    (s.setLock l r).lock l' = if l' = l then r else s.lock l' := get_setRow ..

@[simp] theorem State.setLock_lock_self (s : State) (l : LockNum) (r : LockRecord) :
    (s.setLock l r).lock l = r := get_setRow_self ..

theorem State.setLock_lock_ne (s : State) {l l' : LockNum} (h : l' ≠ l) (r : LockRecord) :
    (s.setLock l r).lock l' = s.lock l' := get_setRow_ne _ h _

theorem State.setRequest_request (s : State) (a a' : Agent) (q : Option PendingRequest) :
    (s.setRequest a q).request a' = if a' = a then q else s.request a' := get_setRow ..

@[simp] theorem State.setRequest_request_self (s : State) (a : Agent) (q : Option PendingRequest) :
    (s.setRequest a q).request a = q := get_setRow_self ..

theorem State.setAgent_agent (s : State) (a a' : Agent) (r : AgentRecord) :
    (s.setAgent a r).agent a' = if a' = a then r else s.agent a' := get_setRow ..

@[simp] theorem State.setAgent_agent_self (s : State) (a : Agent) (r : AgentRecord) :
    (s.setAgent a r).agent a = r := get_setRow_self ..

theorem State.setArgs_argsOf (s : State) (a a' : Agent) (w : ArgWords) :
    (s.setArgs a w).argsOf a' = if a' = a then w else s.argsOf a' := get_setRow ..

/-! ### State.setLock -/

@[simp] theorem State.setLock_port (s : State) (l : LockNum) (r : LockRecord) : (s.setLock l r).port = s.port := rfl
@[simp] theorem State.setLock_requests (s : State) (l : LockNum) (r : LockRecord) : (s.setLock l r).requests = s.requests := rfl
@[simp] theorem State.setLock_nextArrival (s : State) (l : LockNum) (r : LockRecord) : (s.setLock l r).nextArrival = s.nextArrival := rfl
@[simp] theorem State.setLock_du (s : State) (l : LockNum) (r : LockRecord) : (s.setLock l r).du = s.du := rfl
@[simp] theorem State.setLock_agents (s : State) (l : LockNum) (r : LockRecord) : (s.setLock l r).agents = s.agents := rfl
@[simp] theorem State.setLock_purge (s : State) (l : LockNum) (r : LockRecord) : (s.setLock l r).purge = s.purge := rfl
@[simp] theorem State.setLock_pending (s : State) (l : LockNum) (r : LockRecord) : (s.setLock l r).pending = s.pending := rfl
@[simp] theorem State.setLock_request (s : State) (l : LockNum) (r : LockRecord) (a' : Agent) :
    (s.setLock l r).request a' = s.request a' := rfl
@[simp] theorem State.setLock_agent (s : State) (l : LockNum) (r : LockRecord) (a' : Agent) :
    (s.setLock l r).agent a' = s.agent a' := rfl
@[simp] theorem State.setLock_argsOf (s : State) (l : LockNum) (r : LockRecord) (a' : Agent) :
    (s.setLock l r).argsOf a' = s.argsOf a' := rfl
@[simp] theorem State.setLock_now (s : State) (l : LockNum) (r : LockRecord) :
    (s.setLock l r).now = s.now := rfl
@[simp] theorem State.setLock_inReset (s : State) (l : LockNum) (r : LockRecord) :
    (s.setLock l r).inReset = s.inReset := rfl
@[simp] theorem State.setLock_ready (s : State) (l : LockNum) (r : LockRecord) :
    (s.setLock l r).ready = s.ready := rfl
@[simp] theorem State.setLock_line (s : State) (l : LockNum) (r : LockRecord) (a' : Agent) :
    (s.setLock l r).line a' = s.line a' := rfl

/-! ### State.setRequest -/

@[simp] theorem State.setRequest_port (s : State) (a : Agent) (q : Option PendingRequest) : (s.setRequest a q).port = s.port := rfl
@[simp] theorem State.setRequest_locks (s : State) (a : Agent) (q : Option PendingRequest) : (s.setRequest a q).locks = s.locks := rfl
@[simp] theorem State.setRequest_nextArrival (s : State) (a : Agent) (q : Option PendingRequest) : (s.setRequest a q).nextArrival = s.nextArrival := rfl
@[simp] theorem State.setRequest_du (s : State) (a : Agent) (q : Option PendingRequest) : (s.setRequest a q).du = s.du := rfl
@[simp] theorem State.setRequest_agents (s : State) (a : Agent) (q : Option PendingRequest) : (s.setRequest a q).agents = s.agents := rfl
@[simp] theorem State.setRequest_purge (s : State) (a : Agent) (q : Option PendingRequest) : (s.setRequest a q).purge = s.purge := rfl
@[simp] theorem State.setRequest_pending (s : State) (a : Agent) (q : Option PendingRequest) : (s.setRequest a q).pending = s.pending := rfl
@[simp] theorem State.setRequest_lock (s : State) (a : Agent) (q : Option PendingRequest) (l' : LockNum) :
    (s.setRequest a q).lock l' = s.lock l' := rfl
@[simp] theorem State.setRequest_agent (s : State) (a : Agent) (q : Option PendingRequest) (a' : Agent) :
    (s.setRequest a q).agent a' = s.agent a' := rfl
@[simp] theorem State.setRequest_argsOf (s : State) (a : Agent) (q : Option PendingRequest) (a' : Agent) :
    (s.setRequest a q).argsOf a' = s.argsOf a' := rfl
@[simp] theorem State.setRequest_now (s : State) (a : Agent) (q : Option PendingRequest) :
    (s.setRequest a q).now = s.now := rfl
@[simp] theorem State.setRequest_inReset (s : State) (a : Agent) (q : Option PendingRequest) :
    (s.setRequest a q).inReset = s.inReset := rfl
@[simp] theorem State.setRequest_ready (s : State) (a : Agent) (q : Option PendingRequest) :
    (s.setRequest a q).ready = s.ready := rfl
@[simp] theorem State.setRequest_line (s : State) (a : Agent) (q : Option PendingRequest) (a' : Agent) :
    (s.setRequest a q).line a' = s.line a' := rfl
@[simp] theorem State.setRequest_holdCount (s : State) (a : Agent) (q : Option PendingRequest) (a' : Agent) :
    (s.setRequest a q).holdCount a' = s.holdCount a' := rfl

/-! ### State.setAgent -/

@[simp] theorem State.setAgent_port (s : State) (a : Agent) (r : AgentRecord) : (s.setAgent a r).port = s.port := rfl
@[simp] theorem State.setAgent_locks (s : State) (a : Agent) (r : AgentRecord) : (s.setAgent a r).locks = s.locks := rfl
@[simp] theorem State.setAgent_requests (s : State) (a : Agent) (r : AgentRecord) : (s.setAgent a r).requests = s.requests := rfl
@[simp] theorem State.setAgent_nextArrival (s : State) (a : Agent) (r : AgentRecord) : (s.setAgent a r).nextArrival = s.nextArrival := rfl
@[simp] theorem State.setAgent_du (s : State) (a : Agent) (r : AgentRecord) : (s.setAgent a r).du = s.du := rfl
@[simp] theorem State.setAgent_purge (s : State) (a : Agent) (r : AgentRecord) : (s.setAgent a r).purge = s.purge := rfl
@[simp] theorem State.setAgent_pending (s : State) (a : Agent) (r : AgentRecord) : (s.setAgent a r).pending = s.pending := rfl
@[simp] theorem State.setAgent_lock (s : State) (a : Agent) (r : AgentRecord) (l' : LockNum) :
    (s.setAgent a r).lock l' = s.lock l' := rfl
@[simp] theorem State.setAgent_request (s : State) (a : Agent) (r : AgentRecord) (a' : Agent) :
    (s.setAgent a r).request a' = s.request a' := rfl
@[simp] theorem State.setAgent_argsOf (s : State) (a : Agent) (r : AgentRecord) (a' : Agent) :
    (s.setAgent a r).argsOf a' = s.argsOf a' := rfl
@[simp] theorem State.setAgent_now (s : State) (a : Agent) (r : AgentRecord) :
    (s.setAgent a r).now = s.now := rfl
@[simp] theorem State.setAgent_inReset (s : State) (a : Agent) (r : AgentRecord) :
    (s.setAgent a r).inReset = s.inReset := rfl
@[simp] theorem State.setAgent_ready (s : State) (a : Agent) (r : AgentRecord) :
    (s.setAgent a r).ready = s.ready := rfl
@[simp] theorem State.setAgent_holdCount (s : State) (a : Agent) (r : AgentRecord) (a' : Agent) :
    (s.setAgent a r).holdCount a' = s.holdCount a' := rfl

/-! ### State.withDu -/

@[simp] theorem State.withDu_port (s : State) (f : DeadlineUnit → DeadlineUnit) : (s.withDu f).port = s.port := rfl
@[simp] theorem State.withDu_locks (s : State) (f : DeadlineUnit → DeadlineUnit) : (s.withDu f).locks = s.locks := rfl
@[simp] theorem State.withDu_requests (s : State) (f : DeadlineUnit → DeadlineUnit) : (s.withDu f).requests = s.requests := rfl
@[simp] theorem State.withDu_nextArrival (s : State) (f : DeadlineUnit → DeadlineUnit) : (s.withDu f).nextArrival = s.nextArrival := rfl
@[simp] theorem State.withDu_agents (s : State) (f : DeadlineUnit → DeadlineUnit) : (s.withDu f).agents = s.agents := rfl
@[simp] theorem State.withDu_purge (s : State) (f : DeadlineUnit → DeadlineUnit) : (s.withDu f).purge = s.purge := rfl
@[simp] theorem State.withDu_pending (s : State) (f : DeadlineUnit → DeadlineUnit) : (s.withDu f).pending = s.pending := rfl
@[simp] theorem State.withDu_du (s : State) (f : DeadlineUnit → DeadlineUnit) : (s.withDu f).du = f s.du := rfl
@[simp] theorem State.withDu_lock (s : State) (f : DeadlineUnit → DeadlineUnit) (l' : LockNum) :
    (s.withDu f).lock l' = s.lock l' := rfl
@[simp] theorem State.withDu_request (s : State) (f : DeadlineUnit → DeadlineUnit) (a' : Agent) :
    (s.withDu f).request a' = s.request a' := rfl
@[simp] theorem State.withDu_agent (s : State) (f : DeadlineUnit → DeadlineUnit) (a' : Agent) :
    (s.withDu f).agent a' = s.agent a' := rfl
@[simp] theorem State.withDu_argsOf (s : State) (f : DeadlineUnit → DeadlineUnit) (a' : Agent) :
    (s.withDu f).argsOf a' = s.argsOf a' := rfl
@[simp] theorem State.withDu_inReset (s : State) (f : DeadlineUnit → DeadlineUnit) :
    (s.withDu f).inReset = s.inReset := rfl
@[simp] theorem State.withDu_ready (s : State) (f : DeadlineUnit → DeadlineUnit) :
    (s.withDu f).ready = s.ready := rfl
@[simp] theorem State.withDu_line (s : State) (f : DeadlineUnit → DeadlineUnit) (a' : Agent) :
    (s.withDu f).line a' = s.line a' := rfl
@[simp] theorem State.withDu_holdCount (s : State) (f : DeadlineUnit → DeadlineUnit) (a' : Agent) :
    (s.withDu f).holdCount a' = s.holdCount a' := rfl

/-! ### State.setArgs -/

@[simp] theorem State.setArgs_locks (s : State) (a : Agent) (w : ArgWords) : (s.setArgs a w).locks = s.locks := rfl
@[simp] theorem State.setArgs_requests (s : State) (a : Agent) (w : ArgWords) : (s.setArgs a w).requests = s.requests := rfl
@[simp] theorem State.setArgs_nextArrival (s : State) (a : Agent) (w : ArgWords) : (s.setArgs a w).nextArrival = s.nextArrival := rfl
@[simp] theorem State.setArgs_du (s : State) (a : Agent) (w : ArgWords) : (s.setArgs a w).du = s.du := rfl
@[simp] theorem State.setArgs_agents (s : State) (a : Agent) (w : ArgWords) : (s.setArgs a w).agents = s.agents := rfl
@[simp] theorem State.setArgs_purge (s : State) (a : Agent) (w : ArgWords) : (s.setArgs a w).purge = s.purge := rfl
@[simp] theorem State.setArgs_pending (s : State) (a : Agent) (w : ArgWords) : (s.setArgs a w).pending = s.pending := rfl
@[simp] theorem State.setArgs_port_powerOnReset (s : State) (a : Agent) (w : ArgWords) : (s.setArgs a w).port.powerOnReset = s.port.powerOnReset := rfl
@[simp] theorem State.setArgs_port_busReset (s : State) (a : Agent) (w : ArgWords) : (s.setArgs a w).port.busReset = s.port.busReset := rfl
@[simp] theorem State.setArgs_port_state (s : State) (a : Agent) (w : ArgWords) : (s.setArgs a w).port.state = s.port.state := rfl
@[simp] theorem State.setArgs_port_initElapsed (s : State) (a : Agent) (w : ArgWords) : (s.setArgs a w).port.initElapsed = s.port.initElapsed := rfl
@[simp] theorem State.setArgs_port_initIndex (s : State) (a : Agent) (w : ArgWords) : (s.setArgs a w).port.initIndex = s.port.initIndex := rfl
@[simp] theorem State.setArgs_port_response (s : State) (a : Agent) (w : ArgWords) : (s.setArgs a w).port.response = s.port.response := rfl
@[simp] theorem State.setArgs_lock (s : State) (a : Agent) (w : ArgWords) (l' : LockNum) :
    (s.setArgs a w).lock l' = s.lock l' := rfl
@[simp] theorem State.setArgs_request (s : State) (a : Agent) (w : ArgWords) (a' : Agent) :
    (s.setArgs a w).request a' = s.request a' := rfl
@[simp] theorem State.setArgs_agent (s : State) (a : Agent) (w : ArgWords) (a' : Agent) :
    (s.setArgs a w).agent a' = s.agent a' := rfl
@[simp] theorem State.setArgs_now (s : State) (a : Agent) (w : ArgWords) :
    (s.setArgs a w).now = s.now := rfl
@[simp] theorem State.setArgs_inReset (s : State) (a : Agent) (w : ArgWords) :
    (s.setArgs a w).inReset = s.inReset := rfl
@[simp] theorem State.setArgs_ready (s : State) (a : Agent) (w : ArgWords) :
    (s.setArgs a w).ready = s.ready := rfl
@[simp] theorem State.setArgs_line (s : State) (a : Agent) (w : ArgWords) (a' : Agent) :
    (s.setArgs a w).line a' = s.line a' := rfl
@[simp] theorem State.setArgs_holdCount (s : State) (a : Agent) (w : ArgWords) (a' : Agent) :
    (s.setArgs a w).holdCount a' = s.holdCount a' := rfl

/-! ### State.respond -/

@[simp] theorem State.respond_locks (s : State) (b : BusResponse) : (s.respond b).locks = s.locks := rfl
@[simp] theorem State.respond_requests (s : State) (b : BusResponse) : (s.respond b).requests = s.requests := rfl
@[simp] theorem State.respond_nextArrival (s : State) (b : BusResponse) : (s.respond b).nextArrival = s.nextArrival := rfl
@[simp] theorem State.respond_du (s : State) (b : BusResponse) : (s.respond b).du = s.du := rfl
@[simp] theorem State.respond_agents (s : State) (b : BusResponse) : (s.respond b).agents = s.agents := rfl
@[simp] theorem State.respond_purge (s : State) (b : BusResponse) : (s.respond b).purge = s.purge := rfl
@[simp] theorem State.respond_pending (s : State) (b : BusResponse) : (s.respond b).pending = s.pending := rfl
@[simp] theorem State.respond_port_powerOnReset (s : State) (b : BusResponse) : (s.respond b).port.powerOnReset = s.port.powerOnReset := rfl
@[simp] theorem State.respond_port_busReset (s : State) (b : BusResponse) : (s.respond b).port.busReset = s.port.busReset := rfl
@[simp] theorem State.respond_port_state (s : State) (b : BusResponse) : (s.respond b).port.state = s.port.state := rfl
@[simp] theorem State.respond_port_initElapsed (s : State) (b : BusResponse) : (s.respond b).port.initElapsed = s.port.initElapsed := rfl
@[simp] theorem State.respond_port_initIndex (s : State) (b : BusResponse) : (s.respond b).port.initIndex = s.port.initIndex := rfl
@[simp] theorem State.respond_port_args (s : State) (b : BusResponse) : (s.respond b).port.args = s.port.args := rfl
@[simp] theorem State.respond_port_response (s : State) (b : BusResponse) : (s.respond b).port.response = b := rfl
@[simp] theorem State.respond_lock (s : State) (b : BusResponse) (l' : LockNum) :
    (s.respond b).lock l' = s.lock l' := rfl
@[simp] theorem State.respond_request (s : State) (b : BusResponse) (a' : Agent) :
    (s.respond b).request a' = s.request a' := rfl
@[simp] theorem State.respond_agent (s : State) (b : BusResponse) (a' : Agent) :
    (s.respond b).agent a' = s.agent a' := rfl
@[simp] theorem State.respond_argsOf (s : State) (b : BusResponse) (a' : Agent) :
    (s.respond b).argsOf a' = s.argsOf a' := rfl
@[simp] theorem State.respond_now (s : State) (b : BusResponse) :
    (s.respond b).now = s.now := rfl
@[simp] theorem State.respond_inReset (s : State) (b : BusResponse) :
    (s.respond b).inReset = s.inReset := rfl
@[simp] theorem State.respond_ready (s : State) (b : BusResponse) :
    (s.respond b).ready = s.ready := rfl
@[simp] theorem State.respond_line (s : State) (b : BusResponse) (a' : Agent) :
    (s.respond b).line a' = s.line a' := rfl
@[simp] theorem State.respond_holdCount (s : State) (b : BusResponse) (a' : Agent) :
    (s.respond b).holdCount a' = s.holdCount a' := rfl

end Machine
end Sys2Proof
end

