-- ==== Sys2Proof/Laws/Ops.lean ====
section
/-! SUPPORT. What each named operation can do, said once: posting a notice, removing a hold, leaving a queue, and the
operations of the deadline pool. -/

namespace Sys2Proof.Machine

/-! ### Posting a notice (R124) -/

/-- R124, first case: the notice is discarded. -/
theorem State.post_of_not_online {s : State} {a : Agent} (h : (s.agent a).state ≠ .online) (n : Notice) :
    s.post a n = s := by
  unfold State.post
  cases hs : (s.agent a).state <;> simp_all

/-- R124, second case: the notice is appended. -/
theorem State.post_of_room {s : State} {a : Agent} (h : (s.agent a).state = .online)
    (room : (s.agent a).notices.length < Config.noticeDepth) (n : Notice) :
    s.post a n = s.setAgent a { s.agent a with notices := (s.agent a).notices ++ [n] } := by
  simp [State.post, h, room]

/-- R124, third case: the notice is dropped and overrun set. -/
theorem State.post_of_full {s : State} {a : Agent} (h : (s.agent a).state = .online)
    (full : ¬ (s.agent a).notices.length < Config.noticeDepth) (n : Notice) :
    s.post a n = s.setAgent a { s.agent a with overrun := true } := by
  simp [State.post, h, full]

/-- A post changes nothing but the agent records. -/
theorem State.post_eq (s : State) (a : Agent) (n : Notice) : s.post a n = { s with agents := (s.post a n).agents } := by
  by_cases hon : (s.agent a).state = .online
  · by_cases hroom : (s.agent a).notices.length < Config.noticeDepth
    · rw [State.post_of_room hon hroom]; rfl
    · rw [State.post_of_full hon hroom]; rfl
  · rw [State.post_of_not_online hon]

@[simp] theorem State.post_port (s : State) (a : Agent) (n : Notice) : (s.post a n).port = s.port := by
  rw [State.post_eq]
@[simp] theorem State.post_locks (s : State) (a : Agent) (n : Notice) : (s.post a n).locks = s.locks := by
  rw [State.post_eq]
@[simp] theorem State.post_requests (s : State) (a : Agent) (n : Notice) : (s.post a n).requests = s.requests := by
  rw [State.post_eq]
@[simp] theorem State.post_nextArrival (s : State) (a : Agent) (n : Notice) :
    (s.post a n).nextArrival = s.nextArrival := by rw [State.post_eq]
@[simp] theorem State.post_du (s : State) (a : Agent) (n : Notice) : (s.post a n).du = s.du := by rw [State.post_eq]
@[simp] theorem State.post_purge (s : State) (a : Agent) (n : Notice) : (s.post a n).purge = s.purge := by
  rw [State.post_eq]
@[simp] theorem State.post_pending (s : State) (a : Agent) (n : Notice) : (s.post a n).pending = s.pending := by
  rw [State.post_eq]
@[simp] theorem State.post_lock (s : State) (a : Agent) (n : Notice) (l : LockNum) :
    (s.post a n).lock l = s.lock l := by simp [State.lock]
@[simp] theorem State.post_request (s : State) (a : Agent) (n : Notice) (b : Agent) :
    (s.post a n).request b = s.request b := by simp [State.request]
@[simp] theorem State.post_argsOf (s : State) (a : Agent) (n : Notice) (b : Agent) :
    (s.post a n).argsOf b = s.argsOf b := by simp [State.argsOf]
@[simp] theorem State.post_now (s : State) (a : Agent) (n : Notice) : (s.post a n).now = s.now := by simp [State.now]

/-- R124: what a post can do to an agent record: nothing, a notice at the tail of a queue with room, or overrun set on
a full one; the latter two only for the agent posted to, and only when it is ONLINE. -/
theorem State.post_agent (s : State) (a : Agent) (n : Notice) (b : Agent) :
    (s.post a n).agent b = s.agent b ∨
    (b = a ∧ (s.agent a).state = .online ∧ (s.agent a).notices.length < Config.noticeDepth ∧
      (s.post a n).agent b = { s.agent b with notices := (s.agent b).notices ++ [n] }) ∨
    (b = a ∧ (s.agent a).state = .online ∧ ¬ (s.agent a).notices.length < Config.noticeDepth ∧
      (s.post a n).agent b = { s.agent b with overrun := true }) := by
  by_cases hon : (s.agent a).state = .online
  · by_cases hroom : (s.agent a).notices.length < Config.noticeDepth
    · rw [State.post_of_room hon hroom]
      by_cases hb : b = a
      · subst hb; exact Or.inr (Or.inl ⟨rfl, hon, hroom, by simp⟩)
      · exact Or.inl (by rw [State.setAgent_agent, if_neg hb])
    · rw [State.post_of_full hon hroom]
      by_cases hb : b = a
      · subst hb; exact Or.inr (Or.inr ⟨rfl, hon, hroom, by simp⟩)
      · exact Or.inl (by rw [State.setAgent_agent, if_neg hb])
  · exact Or.inl (by rw [State.post_of_not_online hon])

/-- A post leaves every field of an agent record but its notice queue and its overrun flag. -/
theorem State.post_agent_kept (s : State) (a : Agent) (n : Notice) (b : Agent) :
    (s.post a n).agent b =
      { s.agent b with notices := ((s.post a n).agent b).notices, overrun := ((s.post a n).agent b).overrun } := by
  rcases s.post_agent a n b with h | ⟨-, -, -, h⟩ | ⟨-, -, -, h⟩ <;> rw [h]

@[simp] theorem State.post_agent_state (s : State) (a : Agent) (n : Notice) (b : Agent) :
    ((s.post a n).agent b).state = (s.agent b).state := by rw [State.post_agent_kept]

@[simp] theorem State.post_agent_record (s : State) (a : Agent) (n : Notice) (b : Agent) :
    ((s.post a n).agent b).record = (s.agent b).record := by rw [State.post_agent_kept]

/-! ### Leaving a queue (R44, R48) -/

/-- The queue of every lock after waiter `a` has left that of `l`. -/
theorem State.leaveQueue_queue (s : State) (l : LockNum) (a : Agent) (k : LockNum) :
    ((s.leaveQueue l a).lock k).queue = if k = l then (s.lock l).queue.filter (· != a) else (s.lock k).queue := by
  unfold State.leaveQueue
  rw [State.setRequest_lock, State.setLock_lock]
  split <;> rfl

/-- Leaving a queue changes no field of a lock record but the queue. -/
theorem State.leaveQueue_lock (s : State) (l : LockNum) (a : Agent) (k : LockNum) :
    (s.leaveQueue l a).lock k = { s.lock k with queue := ((s.leaveQueue l a).lock k).queue } := by
  unfold State.leaveQueue
  rw [State.setRequest_lock, State.setLock_lock]
  by_cases h : k = l
  · subst h; simp
  · simp [h]

theorem State.leaveQueue_request (s : State) (l : LockNum) (a b : Agent) :
    (s.leaveQueue l a).request b = if b = a then none else s.request b := by
  unfold State.leaveQueue
  rw [State.setRequest_request, State.setLock_request]

@[simp] theorem State.leaveQueue_port (s : State) (l : LockNum) (a : Agent) : (s.leaveQueue l a).port = s.port := rfl
@[simp] theorem State.leaveQueue_nextArrival (s : State) (l : LockNum) (a : Agent) :
    (s.leaveQueue l a).nextArrival = s.nextArrival := rfl
@[simp] theorem State.leaveQueue_du (s : State) (l : LockNum) (a : Agent) : (s.leaveQueue l a).du = s.du := rfl
@[simp] theorem State.leaveQueue_agents (s : State) (l : LockNum) (a : Agent) :
    (s.leaveQueue l a).agents = s.agents := rfl
@[simp] theorem State.leaveQueue_agent (s : State) (l : LockNum) (a b : Agent) :
    (s.leaveQueue l a).agent b = s.agent b := rfl
@[simp] theorem State.leaveQueue_purge (s : State) (l : LockNum) (a : Agent) : (s.leaveQueue l a).purge = s.purge := rfl
@[simp] theorem State.leaveQueue_pending (s : State) (l : LockNum) (a : Agent) :
    (s.leaveQueue l a).pending = s.pending := rfl
@[simp] theorem State.leaveQueue_now (s : State) (l : LockNum) (a : Agent) : (s.leaveQueue l a).now = s.now := rfl

/-- R47, R63: an agent with no pending request leaves nothing. -/
theorem State.dequeue_of_none {s : State} {a : Agent} (h : s.request a = none) : s.dequeue a = s := by
  simp [State.dequeue, h]

/-- R47, R63: a pending request leaves its queue and its entry is freed. -/
theorem State.dequeue_of_some {s : State} {a : Agent} {q : PendingRequest} (h : s.request a = some q) :
    s.dequeue a = (s.leaveQueue q.lock a).withDu (·.freeOwned q.entry) := by
  simp [State.dequeue, h]

@[simp] theorem State.dequeue_port (s : State) (a : Agent) : (s.dequeue a).port = s.port := by
  unfold State.dequeue; split <;> rfl
@[simp] theorem State.dequeue_nextArrival (s : State) (a : Agent) : (s.dequeue a).nextArrival = s.nextArrival := by
  unfold State.dequeue; split <;> rfl
@[simp] theorem State.dequeue_agents (s : State) (a : Agent) : (s.dequeue a).agents = s.agents := by
  unfold State.dequeue; split <;> rfl
@[simp] theorem State.dequeue_agent (s : State) (a b : Agent) : (s.dequeue a).agent b = s.agent b := by
  simp [State.agent]
@[simp] theorem State.dequeue_purge (s : State) (a : Agent) : (s.dequeue a).purge = s.purge := by
  unfold State.dequeue; split <;> rfl
@[simp] theorem State.dequeue_pending (s : State) (a : Agent) : (s.dequeue a).pending = s.pending := by
  unfold State.dequeue; split <;> rfl

@[simp] theorem State.dequeue_request_self (s : State) (a : Agent) : (s.dequeue a).request a = none := by
  unfold State.dequeue
  split
  · rw [State.withDu_request, State.leaveQueue_request, if_pos rfl]
  · assumption

theorem State.dequeue_request_ne (s : State) {a b : Agent} (h : b ≠ a) : (s.dequeue a).request b = s.request b := by
  unfold State.dequeue
  split
  · rw [State.withDu_request, State.leaveQueue_request, if_neg h]
  · rfl

/-- A withdrawn request changes no field of a lock record but the queue (R48, R63). -/
theorem State.dequeue_lock (s : State) (a : Agent) (k : LockNum) :
    (s.dequeue a).lock k = { s.lock k with queue := ((s.dequeue a).lock k).queue } := by
  unfold State.dequeue
  split
  · rw [State.withDu_lock]; exact State.leaveQueue_lock ..
  · rfl

/-! ### Removing a hold (R36, R106, R138) -/

@[simp] theorem State.removeHold_port (s : State) (a : Agent) (l : LockNum) : (s.removeHold a l).port = s.port := rfl
@[simp] theorem State.removeHold_requests (s : State) (a : Agent) (l : LockNum) :
    (s.removeHold a l).requests = s.requests := rfl
@[simp] theorem State.removeHold_request (s : State) (a : Agent) (l : LockNum) (b : Agent) :
    (s.removeHold a l).request b = s.request b := rfl
@[simp] theorem State.removeHold_nextArrival (s : State) (a : Agent) (l : LockNum) :
    (s.removeHold a l).nextArrival = s.nextArrival := rfl
@[simp] theorem State.removeHold_agents (s : State) (a : Agent) (l : LockNum) :
    (s.removeHold a l).agents = s.agents := rfl
@[simp] theorem State.removeHold_agent (s : State) (a : Agent) (l : LockNum) (b : Agent) :
    (s.removeHold a l).agent b = s.agent b := rfl
@[simp] theorem State.removeHold_purge (s : State) (a : Agent) (l : LockNum) :
    (s.removeHold a l).purge = s.purge := rfl
@[simp] theorem State.removeHold_pending (s : State) (a : Agent) (l : LockNum) :
    (s.removeHold a l).pending = s.pending := rfl

@[simp] theorem State.removeHold_du (s : State) (a : Agent) (l : LockNum) :
    (s.removeHold a l).du = s.du.freeOwned ((s.lock l).leaseOf a) := rfl

theorem State.removeHold_lock (s : State) (a : Agent) (l k : LockNum) :
    (s.removeHold a l).lock k = if k = l then (s.lock l).withoutHolder a else s.lock k := by
  unfold State.removeHold
  rw [State.withDu_lock, State.setLock_lock]

theorem State.setRecovered_lock (s : State) (l k : LockNum) :
    (s.setRecovered l).lock k = if k = l then { s.lock l with recovered := true } else s.lock k :=
  State.setLock_lock ..

/-- R3: the holders after agent `a` has left. -/
theorem LockRecord.withoutHolder_holds (r : LockRecord) (a b : Agent) :
    (r.withoutHolder a).holds b = (r.holds b && b != a) := by
  unfold LockRecord.withoutHolder LockRecord.holds
  simp only [get_setRow]
  by_cases h : b = a <;> simp [h]

/-- R27, R55: the holders after agent `a` has joined. -/
theorem LockRecord.withHolder_holds (r : LockRecord) (a b : Agent) (st : LockState) (e : Option EntryNum) :
    (r.withHolder a st e).holds b = (r.holds b || b == a) := by
  unfold LockRecord.withHolder LockRecord.holds
  simp only [get_setRow]
  by_cases h : b = a <;> simp [h]

@[simp] theorem LockRecord.withoutHolder_queue (r : LockRecord) (a : Agent) : (r.withoutHolder a).queue = r.queue := rfl
@[simp] theorem LockRecord.withoutHolder_recovered (r : LockRecord) (a : Agent) :
    (r.withoutHolder a).recovered = r.recovered := rfl
@[simp] theorem LockRecord.withoutHolder_sharedAllowed (r : LockRecord) (a : Agent) :
    (r.withoutHolder a).sharedAllowed = r.sharedAllowed := rfl
@[simp] theorem LockRecord.withHolder_queue (r : LockRecord) (a : Agent) (st : LockState) (e : Option EntryNum) :
    (r.withHolder a st e).queue = r.queue := rfl
@[simp] theorem LockRecord.withHolder_state (r : LockRecord) (a : Agent) (st : LockState) (e : Option EntryNum) :
    (r.withHolder a st e).state = st := rfl
@[simp] theorem LockRecord.withHolder_recovered (r : LockRecord) (a : Agent) (st : LockState) (e : Option EntryNum) :
    (r.withHolder a st e).recovered = false := rfl
@[simp] theorem LockRecord.withHolder_sharedAllowed (r : LockRecord) (a : Agent) (st : LockState)
    (e : Option EntryNum) : (r.withHolder a st e).sharedAllowed = r.sharedAllowed := rfl

/-- R4, R5: the lease of each hold after agent `a` has left. -/
theorem LockRecord.withoutHolder_leaseOf (r : LockRecord) (a b : Agent) :
    (r.withoutHolder a).leaseOf b = if b = a then none else r.leaseOf b := by
  unfold LockRecord.withoutHolder LockRecord.leaseOf
  simp only [get_setRow]
  by_cases h : b = a <;> simp [h]

/-- R5: the lease of each hold after agent `a` has joined. -/
theorem LockRecord.withHolder_leaseOf (r : LockRecord) (a b : Agent) (st : LockState) (e : Option EntryNum) :
    (r.withHolder a st e).leaseOf b = if b = a then e else r.leaseOf b := by
  unfold LockRecord.withHolder LockRecord.leaseOf
  simp only [get_setRow]
  by_cases h : b = a <;> simp [h]

theorem LockRecord.mem_holderList (r : LockRecord) (a : Agent) : a ∈ r.holderList ↔ r.holds a = true := by
  simp [LockRecord.holderList]

/-! ### The deadline pool (R89 to R97) -/

theorem DeadlineUnit.ClockKept.refl (d : DeadlineUnit) : d.ClockKept d := ⟨rfl, rfl, rfl, rfl, rfl, rfl⟩

theorem DeadlineUnit.ClockKept.trans {d e f : DeadlineUnit} (h : d.ClockKept e) (g : e.ClockKept f) :
    d.ClockKept f := by
  obtain ⟨a1, a2, a3, a4, a5, a6⟩ := h
  obtain ⟨b1, b2, b3, b4, b5, b6⟩ := g
  exact ⟨b1.trans a1, b2.trans a2, b3.trans a3, b4.trans a4, b5.trans a5, b6.trans a6⟩

theorem DeadlineUnit.arm_clockKept (d : DeadlineUnit) (e : EntryNum) (k : EntryKind) (a : Agent) (l : LockNum)
    (n : Nat) : d.ClockKept (d.arm e k a l n) := ⟨rfl, rfl, rfl, rfl, rfl, rfl⟩

theorem DeadlineUnit.free_clockKept (d : DeadlineUnit) (e : EntryNum) : d.ClockKept (d.free e) :=
  ⟨rfl, rfl, rfl, rfl, rfl, rfl⟩

theorem DeadlineUnit.freeOwned_clockKept (d : DeadlineUnit) (o : Option EntryNum) : d.ClockKept (d.freeOwned o) := by
  cases o
  · exact .refl d
  · exact d.free_clockKept _

theorem DeadlineUnit.armAsLease_clockKept (d : DeadlineUnit) (e : EntryNum) (n : Nat) :
    d.ClockKept (d.armAsLease e n) := by
  unfold DeadlineUnit.armAsLease
  split
  · exact d.arm_clockKept ..
  · exact d.arm_clockKept ..
  · exact .refl d

theorem DeadlineUnit.atGrant_clockKept (d : DeadlineUnit) (q : PendingRequest) : d.ClockKept (d.atGrant q) := by
  unfold DeadlineUnit.atGrant
  split
  · exact d.armAsLease_clockKept ..
  · exact d.free_clockKept _
  · exact .refl d

/-- R94, R95: the entries after one is armed. -/
theorem DeadlineUnit.arm_entry (d : DeadlineUnit) (e : EntryNum) (k : EntryKind) (a : Agent) (l : LockNum) (n : Nat)
    (x : EntryNum) :
    (d.arm e k a l n).entries.get x = if x = e then .armed k a l n d.nextArming else d.entries.get x := get_setRow ..

/-- R95: the entries after one is freed. -/
theorem DeadlineUnit.free_entry (d : DeadlineUnit) (e x : EntryNum) :
    (d.free e).entries.get x = if x = e then .free else d.entries.get x := get_setRow ..

/-- R94: the entries after one is reserved. -/
theorem DeadlineUnit.reserve_entry (d : DeadlineUnit) (e : EntryNum) (a : Agent) (l : LockNum) (x : EntryNum) :
    (d.reserve e a l).entries.get x = if x = e then .reserved a l else d.entries.get x := get_setRow ..

/-- R89: the entry found is FREE. -/
theorem DeadlineUnit.findFree_free {d : DeadlineUnit} {e : EntryNum} (h : d.findFree = some e) :
    d.entries.get e = .free := by
  have := List.find?_some h
  simpa using this

/-- R96: with no entry found, none is FREE. -/
theorem DeadlineUnit.findFree_none {d : DeadlineUnit} (h : d.findFree = none) (e : EntryNum) :
    d.entries.get e ≠ .free := by
  have := List.find?_eq_none.mp h e (mem_allEntries e)
  simpa using this

/-- R90: the members of the armed list after an arming. -/
theorem mem_insertArmed (count : EntryNum → Nat) (e : EntryNum) (n : Nat) (xs : List EntryNum) (x : EntryNum) :
    x ∈ insertArmed count e n xs ↔ x = e ∨ x ∈ xs := by
  induction xs with
  | nil => simp [insertArmed]
  | cons y ys ih =>
    unfold insertArmed
    split
    · simp only [List.mem_cons, ih]; tauto
    · simp only [List.mem_cons]

/-- R97: an entry after a tick advance. -/
theorem DeadlineUnit.tick_entry (d : DeadlineUnit) (x : EntryNum) :
    d.tick.entries.get x =
      if x ∈ d.armedList ∧ (d.entries.get x).remaining ≠ 1 then (d.entries.get x).countDown else d.entries.get x := by
  unfold DeadlineUnit.tick
  simp only [get_ofTable, List.mem_filter, bne_iff_ne]

end Sys2Proof.Machine
end

