-- ==== Sys2Proof/Laws/Grant.lean ====
section
/-! SUPPORT. What the grant step can do, said once: an induction principle over its runs, and the frame of every event
at the Lock Engine. -/

namespace Sys2Proof.Machine

/-! ### Induction over the grant step -/

/-- A property that one run's grants, a conversion, bypass counting and promotion keep is kept by the runs of the grant
step (R54, R57, R58, R59, R60). -/
theorem State.grantRuns_induct {P : State → Prop} (l : LockNum)
    (grant : ∀ s r a, P s → P (s.grantWaiter l r a)) (convert : ∀ s a, P s → P (s.convert l a))
    (count : ∀ s ns, P s → P (s.countPassed l ns)) (promote : ∀ s ps, P s → P (s.promote l ps)) :
    ∀ fuel s, P s → P (State.grantRuns fuel l s).1 := by
  intro fuel
  induction fuel with
  | zero => intro s h; exact h
  | succ fuel ih =>
    intro s h
    unfold State.grantRuns
    cases s.headTest l with
    | nothing => exact h
    | convert a => exact convert s a h
    | grant batch =>
      have hb : ∀ (bs : List Agent) (t : State), P t →
          P (bs.foldl (fun t a => t.grantWaiter l (s.lock l).recovered a) t) := by
        intro bs
        induction bs with
        | nil => intro t ht; exact ht
        | cons b bs ihb => intro t ht; exact ihb _ (grant t _ b ht)
      have hc := count _ (batch.flatMap s.arrivalOf) (hb batch s h)
      simp only
      split
      · exact hc
      · exact ih _ (promote _ _ hc)

/-- The same of the grant step (R53). -/
theorem State.grantStep_induct {P : State → Prop} (l : LockNum)
    (grant : ∀ s r a, P s → P (s.grantWaiter l r a)) (convert : ∀ s a, P s → P (s.convert l a))
    (count : ∀ s ns, P s → P (s.countPassed l ns)) (promote : ∀ s ps, P s → P (s.promote l ps))
    {s : State} (h : P s) : P (s.grantStep l) :=
  State.grantRuns_induct l grant convert count promote _ s h

theorem State.grantStepCounted_fst (s : State) (l : LockNum) : (s.grantStepCounted l).1 = s.grantStep l := rfl

/-! ### The frame of an event at the Lock Engine -/

theorem State.EngineFrame.refl (s : State) : s.EngineFrame s := ⟨rfl, rfl, rfl, rfl, .refl _, fun _ => rfl⟩

theorem State.EngineFrame.trans {s t u : State} (h : s.EngineFrame t) (g : t.EngineFrame u) : s.EngineFrame u where
  port := g.port.trans h.port
  nextArrival := g.nextArrival.trans h.nextArrival
  purge := g.purge.trans h.purge
  pending := g.pending.trans h.pending
  clock := h.clock.trans g.clock
  agents b := by rw [g.agents b, h.agents b]

theorem State.EngineFrame.agent_state {s t : State} (h : s.EngineFrame t) (b : Agent) :
    (t.agent b).state = (s.agent b).state := by rw [h.agents b]

theorem State.EngineFrame.agent_cls {s t : State} (h : s.EngineFrame t) (b : Agent) :
    (t.agent b).cls = (s.agent b).cls := by rw [h.agents b]

theorem State.EngineFrame.agent_record {s t : State} (h : s.EngineFrame t) (b : Agent) :
    (t.agent b).record = (s.agent b).record := by rw [h.agents b]

theorem State.EngineFrame.now {s t : State} (h : s.EngineFrame t) : t.now = s.now := by
  unfold State.now; rw [h.clock.1]

theorem State.post_frame (s : State) (a : Agent) (n : Notice) : s.EngineFrame (s.post a n) :=
  ⟨by simp, by simp, by simp, by simp, by simp [DeadlineUnit.ClockKept.refl], s.post_agent_kept a n⟩

theorem State.setLock_frame (s : State) (l : LockNum) (r : LockRecord) : s.EngineFrame (s.setLock l r) :=
  ⟨rfl, rfl, rfl, rfl, .refl _, fun _ => rfl⟩

theorem State.setRequest_frame (s : State) (a : Agent) (q : Option PendingRequest) :
    s.EngineFrame (s.setRequest a q) := ⟨rfl, rfl, rfl, rfl, .refl _, fun _ => rfl⟩

theorem State.withDu_frame {s : State} {f : DeadlineUnit → DeadlineUnit} (h : s.du.ClockKept (f s.du)) :
    s.EngineFrame (s.withDu f) := ⟨rfl, rfl, rfl, rfl, h, fun _ => rfl⟩

theorem State.leaveQueue_frame (s : State) (l : LockNum) (a : Agent) : s.EngineFrame (s.leaveQueue l a) :=
  (s.setLock_frame l _).trans (State.setRequest_frame _ a none)

theorem State.dequeue_frame (s : State) (a : Agent) : s.EngineFrame (s.dequeue a) := by
  unfold State.dequeue
  split
  · exact (s.leaveQueue_frame _ a).trans (State.withDu_frame (DeadlineUnit.freeOwned_clockKept ..))
  · exact .refl s

theorem State.removeHold_frame (s : State) (a : Agent) (l : LockNum) : s.EngineFrame (s.removeHold a l) :=
  (s.setLock_frame l _).trans (State.withDu_frame (DeadlineUnit.freeOwned_clockKept ..))

theorem State.setRecovered_frame (s : State) (l : LockNum) : s.EngineFrame (s.setRecovered l) := s.setLock_frame l _

theorem State.seatWaiter_frame (s : State) (l : LockNum) (a : Agent) (q : PendingRequest) :
    s.EngineFrame (s.seatWaiter l a q) := by
  unfold State.seatWaiter
  exact ((s.leaveQueue_frame l a).trans (State.setLock_frame _ l _)).trans
    (State.withDu_frame (DeadlineUnit.atGrant_clockKept ..))

theorem State.seatUpgrade_frame (s : State) (l : LockNum) (a : Agent) (q : PendingRequest) :
    s.EngineFrame (s.seatUpgrade l a q) := by
  unfold State.seatUpgrade
  exact ((s.leaveQueue_frame l a).trans (State.setLock_frame _ l _)).trans
    (State.withDu_frame (DeadlineUnit.freeOwned_clockKept ..))

theorem State.grantWaiter_frame (s : State) (l : LockNum) (r : Bool) (a : Agent) :
    s.EngineFrame (s.grantWaiter l r a) := by
  unfold State.grantWaiter
  split
  · exact .refl s
  · exact (s.seatWaiter_frame l a _).trans (State.post_frame ..)

theorem State.convert_frame (s : State) (l : LockNum) (a : Agent) : s.EngineFrame (s.convert l a) := by
  unfold State.convert
  split
  · exact .refl s
  · exact (s.seatUpgrade_frame l a _).trans (State.post_frame ..)

theorem State.countPassed_frame (s : State) (l : LockNum) (ns : List Nat) : s.EngineFrame (s.countPassed l ns) :=
  ⟨rfl, rfl, rfl, rfl, .refl _, fun _ => rfl⟩

theorem State.promote_frame (s : State) (l : LockNum) (ps : List Agent) : s.EngineFrame (s.promote l ps) :=
  ⟨rfl, rfl, rfl, rfl, .refl _, fun _ => rfl⟩

/-- R53: the grant step changes lock records, pending requests, deadline entries and notice queues alone. -/
theorem State.grantStep_frame (s : State) (l : LockNum) : s.EngineFrame (s.grantStep l) :=
  State.grantStep_induct (P := fun t => s.EngineFrame t) l (fun t r a h => h.trans (t.grantWaiter_frame l r a))
    (fun t a h => h.trans (t.convert_frame l a)) (fun t ns h => h.trans (t.countPassed_frame l ns))
    (fun t ps h => h.trans (t.promote_frame l ps)) (.refl s)

/-! ### The lock named by the event, and no other (R53) -/

/-- R55: a waiter seated: its lock has left its queue and gained a holder; no other lock record changes. -/
theorem State.seatWaiter_lock (s : State) (l : LockNum) (a : Agent) (q : PendingRequest) (k : LockNum) :
    (s.seatWaiter l a q).lock k =
      if k = l then
        ({ s.lock l with queue := (s.lock l).queue.filter (· != a) }).withHolder a q.mode.lockState q.grantedLease
      else s.lock k := by
  unfold State.seatWaiter
  simp only [State.withDu_lock]
  rw [State.setLock_lock]
  split
  · unfold State.leaveQueue; simp
  · next h => unfold State.leaveQueue; rw [State.setRequest_lock, State.setLock_lock_ne _ h]

/-- R57: an upgrade seated: its lock is EXCLUSIVE, the holders unchanged; no other lock record changes. -/
theorem State.seatUpgrade_lock (s : State) (l : LockNum) (a : Agent) (q : PendingRequest) (k : LockNum) :
    (s.seatUpgrade l a q).lock k =
      if k = l then { s.lock l with queue := (s.lock l).queue.filter (· != a), state := .exclusive }
      else s.lock k := by
  unfold State.seatUpgrade
  simp only [State.withDu_lock]
  rw [State.setLock_lock]
  split
  · unfold State.leaveQueue; simp
  · next h => unfold State.leaveQueue; rw [State.setRequest_lock, State.setLock_lock_ne _ h]

theorem State.seatWaiter_request (s : State) (l : LockNum) (a : Agent) (q : PendingRequest) (b : Agent) :
    (s.seatWaiter l a q).request b = if b = a then none else s.request b := s.leaveQueue_request l a b

theorem State.seatUpgrade_request (s : State) (l : LockNum) (a : Agent) (q : PendingRequest) (b : Agent) :
    (s.seatUpgrade l a q).request b = if b = a then none else s.request b := s.leaveQueue_request l a b

@[simp] theorem State.seatWaiter_du (s : State) (l : LockNum) (a : Agent) (q : PendingRequest) :
    (s.seatWaiter l a q).du = s.du.atGrant q := rfl

@[simp] theorem State.seatUpgrade_du (s : State) (l : LockNum) (a : Agent) (q : PendingRequest) :
    (s.seatUpgrade l a q).du = s.du.freeOwned q.entry := rfl

theorem State.seatWaiter_agents (s : State) (l : LockNum) (a : Agent) (q : PendingRequest) :
    (s.seatWaiter l a q).agents = s.agents := rfl

theorem State.seatUpgrade_agents (s : State) (l : LockNum) (a : Agent) (q : PendingRequest) :
    (s.seatUpgrade l a q).agents = s.agents := rfl

/-- R55: a granted waiter, its request present. -/
theorem State.grantWaiter_of_some {s : State} {a : Agent} {q : PendingRequest} (h : s.request a = some q)
    (l : LockNum) (r : Bool) :
    s.grantWaiter l r a = (s.seatWaiter l a q).post a (.granted l q.mode r false s.now) := by
  simp [State.grantWaiter, h]

/-- R57: a converted upgrade, its request present. -/
theorem State.convert_of_some {s : State} {a : Agent} {q : PendingRequest} (h : s.request a = some q)
    (l : LockNum) : s.convert l a = (s.seatUpgrade l a q).post a (.granted l .upgrade false true s.now) := by
  simp [State.convert, h]

theorem State.grantWaiter_of_none {s : State} {a : Agent} (h : s.request a = none) (l : LockNum) (r : Bool) :
    s.grantWaiter l r a = s := by simp [State.grantWaiter, h]

theorem State.convert_of_none {s : State} {a : Agent} (h : s.request a = none) (l : LockNum) :
    s.convert l a = s := by simp [State.convert, h]

theorem State.grantWaiter_onlyLock (s : State) (l : LockNum) (r : Bool) (a : Agent) :
    State.OnlyLock l s (s.grantWaiter l r a) := by
  intro k hk
  cases h : s.request a with
  | none => rw [State.grantWaiter_of_none h]
  | some q => rw [State.grantWaiter_of_some h, State.post_lock, State.seatWaiter_lock, if_neg hk]

theorem State.convert_onlyLock (s : State) (l : LockNum) (a : Agent) : State.OnlyLock l s (s.convert l a) := by
  intro k hk
  cases h : s.request a with
  | none => rw [State.convert_of_none h]
  | some q => rw [State.convert_of_some h, State.post_lock, State.seatUpgrade_lock, if_neg hk]

theorem State.promote_onlyLock (s : State) (l : LockNum) (ps : List Agent) :
    State.OnlyLock l s (s.promote l ps) := by
  intro k hk
  unfold State.promote
  rw [State.setLock_lock_ne _ hk]
  rfl

/-- R53: the grant step runs on the lock named and on no other. -/
theorem State.grantStep_onlyLock (s : State) (l : LockNum) : State.OnlyLock l s (s.grantStep l) :=
  State.grantStep_induct (P := fun t => State.OnlyLock l s t) l
    (fun t r a h k hk => (t.grantWaiter_onlyLock l r a k hk).trans (h k hk))
    (fun t a h k hk => (t.convert_onlyLock l a k hk).trans (h k hk))
    (fun _ _ h k hk => h k hk)
    (fun t ps h k hk => (t.promote_onlyLock l ps k hk).trans (h k hk)) (fun _ _ => rfl)

/-! ### The grant step of an event -/

/-- What holds as the grant step of an event finds its state, and what the grant step keeps, holds after it. -/
theorem State.grantIf_induct {P : State → Prop} {s : State} {l : LockNum} {b : Bool} (stays : b = false → P s)
    (grants : P (s.grantStep l)) : P (s.grantIf b l) := by
  unfold State.grantIf
  cases b
  · exact stays rfl
  · exact grants

@[simp] theorem State.grantIf_true (s : State) (l : LockNum) : s.grantIf true l = s.grantStep l := rfl

@[simp] theorem State.grantIf_false (s : State) (l : LockNum) : s.grantIf false l = s := rfl

theorem State.grantIf_frame (s : State) (b : Bool) (l : LockNum) : s.EngineFrame (s.grantIf b l) :=
  State.grantIf_induct (fun _ => .refl s) (s.grantStep_frame l)

theorem State.grantIf_onlyLock (s : State) (b : Bool) (l : LockNum) : State.OnlyLock l s (s.grantIf b l) :=
  State.grantIf_induct (P := fun t => State.OnlyLock l s t) (fun _ _ _ => rfl) (s.grantStep_onlyLock l)

/-- What holds with the request gone, and what the grant step on its lock keeps, holds of a request dropped (R67). -/
theorem State.dropRequest_induct {P : State → Prop} {s : State} {a : Agent} (gone : P (s.dequeue a))
    (grants : ∀ q, s.request a = some q → P ((s.dequeue a).grantStep q.lock)) : P (s.dropRequest a) := by
  cases hq : s.request a with
  | none =>
    rw [State.dequeue_of_none hq] at gone
    simpa only [State.dropRequest, hq] using gone
  | some q =>
    simp only [State.dropRequest, hq]
    exact State.grantIf_induct (fun _ => gone) (grants q hq)

theorem State.dropRequest_frame (s : State) (a : Agent) : s.EngineFrame (s.dropRequest a) :=
  State.dropRequest_induct (P := fun t => s.EngineFrame t) (s.dequeue_frame a)
    fun q _ => (s.dequeue_frame a).trans (State.grantStep_frame _ q.lock)

/-- R41, R106, R138: the grant step after a hold is the grant step, unless it finds a SHARED head on a SHARED lock. -/
theorem State.grantAfterHold_eq (s : State) (l : LockNum)
    (h : (s.lock l).state ≠ .shared ∨ ∀ b, s.headTest l ≠ .grant b) : s.grantAfterHold l = s.grantStep l := by
  unfold State.grantAfterHold State.grantsAfterHold
  split
  · next hs hg => exact absurd hg (h.resolve_left (fun hn => hn hs) _)
  all_goals rfl

/-- R41, R106, R138: a SHARED head of a lock still SHARED is not granted after a hold. -/
theorem State.grantAfterHold_of_shared {s : State} {l : LockNum} (hs : (s.lock l).state = .shared) {b : List Agent}
    (hg : s.headTest l = .grant b) : s.grantAfterHold l = s := by
  unfold State.grantAfterHold State.grantsAfterHold
  rw [hs, hg]
  rfl

/-- R41, R106, R138: the grant step after a hold is held back on a SHARED lock alone. -/
theorem State.grantsAfterHold_false {s : State} {l : LockNum} (h : s.grantsAfterHold l = false) :
    (s.lock l).state = .shared := by
  unfold State.grantsAfterHold at h
  split at h <;> first | assumption | exact absurd h (by decide)

end Sys2Proof.Machine
end

