-- ==== Sys2Proof/Laws/Expiry.lean ====
section
/-! SUPPORT. Expiries and held ticks, said once: an induction principle over what is taken before a request, and its
frame. -/

namespace Sys2Proof.Machine

/-! ### Induction -/

theorem State.takeExpiry_induct {P : State → Prop} (expiry : ∀ s e, P s → P (s.expiryOf e)) {s : State} (h : P s) :
    P s.takeExpiry := by
  unfold State.takeExpiry
  split
  · exact h
  · exact expiry s _ h

theorem State.takeExpiries_induct {P : State → Prop} (expiry : ∀ s e, P s → P (s.expiryOf e)) :
    ∀ n s, P s → P (State.takeExpiries n s) := by
  intro n
  induction n with
  | zero => intro s h; exact h
  | succ n ih => intro s h; exact ih _ (State.takeExpiry_induct expiry h)

theorem State.drain_induct {P : State → Prop} (expiry : ∀ s e, P s → P (s.expiryOf e)) {s : State} (h : P s) :
    P s.drain := State.takeExpiries_induct expiry _ s h

/-- A property that every expiry and every held tick keep is kept by what is taken before a request (R98). -/
theorem State.settle_induct {P : State → Prop} (expiry : ∀ s e, P s → P (s.expiryOf e))
    (tick : ∀ s, P s → P s.heldTick) {s : State} (h : P s) : P s.settle := by
  have key : ∀ n t, P t → P (State.settleTicks n t) := by
    intro n
    induction n with
    | zero => intro t ht; exact State.drain_induct expiry ht
    | succ n ih => intro t ht; exact ih _ (tick _ (State.drain_induct expiry ht))
  exact key _ s h

/-- With no expiry awaited and no tick held, nothing is taken before a request. -/
theorem State.settle_of_quiet {s : State} (he : s.du.expiries = []) (ht : s.du.heldTicks = 0) : s.settle = s := by
  simp [State.settle, ht, State.settleTicks, State.drain, he, State.takeExpiries]

/-- A property that a held tick keeps when no expiry is awaited is kept by the held ticks of a period (R98). -/
theorem State.catchUp_induct {P : State → Prop} (tick : ∀ s, P s → s.du.expiries = [] → P s.heldTick) {s : State}
    (h : P s) : P s.catchUp := by
  have key : ∀ n t, P t → P (State.takeHeldTicks n t) := by
    intro n
    induction n with
    | zero => exact fun t ht => ht
    | succ n ih =>
      intro t ht
      unfold State.takeHeldTicks
      split
      · next he => exact ih _ (tick t ht (by simpa using he))
      · exact ht
  exact key _ s h

/-- R98: after the held ticks of a period none is held, unless one of them has presented an expiry. -/
theorem State.catchUp_caughtUp (s : State) : s.catchUp.du.heldTicks = 0 ∨ s.catchUp.du.expiries ≠ [] := by
  have key : ∀ n t, t.du.heldTicks ≤ n →
      (State.takeHeldTicks n t).du.heldTicks = 0 ∨ (State.takeHeldTicks n t).du.expiries ≠ [] := by
    intro n
    induction n with
    | zero => exact fun t ht => Or.inl (Nat.le_zero.mp ht)
    | succ n ih =>
      intro t ht
      unfold State.takeHeldTicks
      split
      · exact ih _ (Nat.sub_le_of_le_add ht)
      · next he => exact Or.inr (by simpa using he)
  exact key _ s (Nat.le_refl _)

theorem State.catchUp_heldLaw (s : State) : s.catchUp.HeldLaw := fun _ hp =>
  s.catchUp_caughtUp.resolve_left (Nat.ne_of_gt hp)

/-! ### Frames -/

theorem State.timeOut_frame (s : State) (a : Agent) (q : PendingRequest) : s.EngineFrame (s.timeOut a q) :=
  ((s.dequeue_frame a).trans (State.post_frame ..)).trans (State.grantIf_frame ..)

/-- R65: a WAIT expiry is an event at the Lock Engine. -/
theorem State.waitExpired_frame (s : State) (e : EntryNum) (a : Agent) : s.EngineFrame (s.waitExpired e a) := by
  have h0 : s.EngineFrame (s.withDu (·.free e)) := State.withDu_frame (DeadlineUnit.free_clockKept ..)
  unfold State.waitExpired
  simp only
  split
  · exact h0
  · exact h0.trans (State.timeOut_frame ..)

theorem State.reportRevocation_frame (s : State) (a : Agent) (l : LockNum) (m : Mode) :
    s.EngineFrame (s.reportRevocation a l m) := by
  unfold State.reportRevocation
  split
  · exact State.post_frame ..
  · exact .refl s

theorem State.revokeHold_frame (s : State) (a : Agent) (l : LockNum) : s.EngineFrame (s.revokeHold a l) := by
  have h1 := s.removeHold_frame a l
  unfold State.revokeHold
  simp only
  split <;> split
  · exact (h1.trans (State.dequeue_frame _ a)).trans (State.setRecovered_frame _ l)
  · exact h1.trans (State.setRecovered_frame _ l)
  · exact h1.trans (State.dequeue_frame _ a)
  · exact h1

theorem State.revokeHold_agents (s : State) (a : Agent) (l : LockNum) : (s.revokeHold a l).agents = s.agents := by
  unfold State.revokeHold
  simp only
  split <;> split <;> simp [State.setRecovered]

/-- What a REVOKED notice and the REVOKE_REPORT keep holds of a revoked and reported hold. -/
theorem State.revokeReported_induct {P : State → Prop} {s : State} {a : Agent} {l : LockNum}
    (revoked : P (s.revokeHold a l)) (post : ∀ t b n, P t → P (t.post b n)) : P (s.revokeReported a l) := by
  unfold State.revokeReported State.reportRevocation
  split
  · exact post _ _ _ (post _ _ _ revoked)
  · exact post _ _ _ revoked

theorem State.revokeLease_frame (s : State) (a : Agent) (l : LockNum) : s.EngineFrame (s.revokeLease a l) :=
  (State.revokeReported_induct (P := fun t => s.EngineFrame t) (s.revokeHold_frame a l)
    fun t b n h => h.trans (t.post_frame b n)).trans (State.grantIf_frame ..)

/-- R106, R107: a LEASE expiry is an event at the Lock Engine. -/
theorem State.leaseExpired_frame (s : State) (e : EntryNum) (a : Agent) (l : LockNum) :
    s.EngineFrame (s.leaseExpired e a l) := by
  have h0 : s.EngineFrame (s.withDu (·.free e)) := State.withDu_frame (DeadlineUnit.free_clockKept ..)
  unfold State.leaseExpired
  simp only
  split
  · exact h0.trans (State.revokeLease_frame ..)
  · exact h0

/-- R98: the expiry taken is an event at the Lock Engine. -/
theorem State.expiryOf_frame (s : State) (e : EntryNum) : s.EngineFrame (s.expiryOf e) := by
  unfold State.expiryOf
  split
  · exact s.waitExpired_frame ..
  · exact s.leaseExpired_frame ..
  all_goals exact State.withDu_frame ⟨rfl, rfl, rfl, rfl, rfl, rfl⟩

theorem State.takeExpiry_frame (s : State) : s.EngineFrame s.takeExpiry :=
  State.takeExpiry_induct (P := fun t => s.EngineFrame t) (fun t e h => h.trans (t.expiryOf_frame e)) (.refl s)

theorem State.drain_frame (s : State) : s.EngineFrame s.drain :=
  State.drain_induct (P := fun t => s.EngineFrame t) (fun t e h => h.trans (t.expiryOf_frame e)) (.refl s)

theorem State.SettleFrame.refl (s : State) : s.SettleFrame s := ⟨rfl, rfl, rfl, rfl, rfl, rfl, rfl, rfl, fun _ => rfl⟩

theorem State.SettleFrame.engine {s t u : State} (h : s.SettleFrame t) (g : t.EngineFrame u) : s.SettleFrame u where
  port := g.port.trans h.port
  nextArrival := g.nextArrival.trans h.nextArrival
  purge := g.purge.trans h.purge
  pending := g.pending.trans h.pending
  divider := g.clock.2.1.trans h.divider
  activeDivider := g.clock.2.2.1.trans h.activeDivider
  dividerCount := g.clock.2.2.2.1.trans h.dividerCount
  snapshots := g.clock.2.2.2.2.2.trans h.snapshots
  agents b := by rw [g.agents b, h.agents b]

theorem State.SettleFrame.tick {s t : State} (h : s.SettleFrame t) : s.SettleFrame t.heldTick :=
  ⟨h.port, h.nextArrival, h.purge, h.pending, h.divider, h.activeDivider, h.dividerCount, h.snapshots, h.agents⟩

/-- R98: what is taken before a request changes lock records, pending requests, entries, the timebase, held ticks and
notice queues alone. -/
theorem State.settle_frame (s : State) : s.SettleFrame s.settle :=
  State.settle_induct (P := fun t => s.SettleFrame t) (fun t e h => h.engine (t.expiryOf_frame e))
    (fun _ h => h.tick) (.refl s)

/-- R98: the held ticks of a period change entries, expiries, the timebase and their own number alone. -/
theorem State.catchUp_frame (s : State) :
    s.SettleFrame s.catchUp ∧ s.catchUp.locks = s.locks ∧ s.catchUp.requests = s.requests ∧
      s.catchUp.agents = s.agents :=
  State.catchUp_induct (P := fun t => s.SettleFrame t ∧ t.locks = s.locks ∧ t.requests = s.requests ∧
    t.agents = s.agents) (fun _ h _ => ⟨h.1.tick, h.2⟩) ⟨.refl s, rfl, rfl, rfl⟩

@[simp] theorem State.settle_port (s : State) : s.settle.port = s.port := s.settle_frame.port
@[simp] theorem State.settle_pending (s : State) : s.settle.pending = s.pending := s.settle_frame.pending
@[simp] theorem State.settle_purge (s : State) : s.settle.purge = s.purge := s.settle_frame.purge
@[simp] theorem State.settle_nextArrival (s : State) : s.settle.nextArrival = s.nextArrival := s.settle_frame.nextArrival
@[simp] theorem State.settle_argsOf (s : State) (a : Agent) : s.settle.argsOf a = s.argsOf a := by
  simp [State.argsOf]
@[simp] theorem State.settle_ready (s : State) : s.settle.ready = s.ready := by
  simp [State.ready, State.inReset]
theorem State.settle_agent_state (s : State) (a : Agent) : (s.settle.agent a).state = (s.agent a).state := by
  rw [s.settle_frame.agents a]
theorem State.settle_agent_record (s : State) (a : Agent) : (s.settle.agent a).record = (s.agent a).record := by
  rw [s.settle_frame.agents a]

end Sys2Proof.Machine
end

