-- ==== Sys2Proof/Laws/Port.lean ====
section
/-! SUPPORT. The Bus Port, said once: the ends that a command write, another write, and a read can meet. -/

namespace Sys2Proof.Machine

/-! ### A command write -/

/-- R151: a command write that is taken. -/
theorem State.commandWrite_taken {s : State} {c : Command} {a : Agent} {w : WriteData} (h : s.Takes c a w)
    (take : State → State × CmdOutcome) : s.commandWrite c a w take = (take s).1.answers a w (take s).2 := by
  have hsup : (c.supervisor && a != Config.supervisor) = false := by
    by_cases hc : c.supervisor = true
    · simp [h.allowed hc]
    · simp [hc]
  simp [State.commandWrite, State.writeAccess, h.ready, h.parity, State.takeCommand, h.fresh, hsup, State.answers,
    State.recordOutcome, State.answerWrite]

/-- R154, R155: a write while the port is not READY. -/
theorem State.writeAccess_notReady {s : State} (h : s.ready = false) (a : Agent) (w : WriteData)
    (take : State → State) : s.writeAccess a w take = s.answerWrite .retry := by
  simp [State.writeAccess, h]

/-- R147: a write with bad parity. -/
theorem State.writeAccess_badParity {s : State} {w : WriteData} (h : s.ready = true) (hp : w.parityGood = false)
    (a : Agent) (take : State → State) : s.writeAccess a w take = s.refuseWrite a .parity := by
  simp [State.writeAccess, h, hp]

/-- R146: a write that is taken. -/
theorem State.writeAccess_taken {s : State} {w : WriteData} (h : s.ready = true) (hp : w.parityGood = true)
    (a : Agent) (take : State → State) : s.writeAccess a w take = take s := by
  simp [State.writeAccess, h, hp]

/-- R154, R155: a read while the port is not READY. -/
theorem State.readAccess_notReady {s : State} (h : s.ready = false) (take : State → State) :
    s.readAccess take = s.answerRead .retry 0 := by
  simp [State.readAccess, h]

/-- R146: a read that is taken. -/
theorem State.readAccess_taken {s : State} (h : s.ready = true) (take : State → State) : s.readAccess take = take s := by
  simp [State.readAccess, h]

/-- R150: a command write that is a replay. -/
theorem State.commandWrite_replay {s : State} {a : Agent} {w : WriteData} (h : s.ready = true)
    (hp : w.parityGood = true) (hr : s.isReplay a w.tag = true) (c : Command) (take : State → State × CmdOutcome) :
    s.commandWrite c a w take = (s.markReplayed a).answerWrite .ok := by
  simp [State.commandWrite, State.writeAccess, h, hp, State.takeCommand, hr]

/-- R152: a supervisor command of agent 1 to 7. -/
theorem State.commandWrite_notSupervisor {s : State} {c : Command} {a : Agent} {w : WriteData} (h : s.ready = true)
    (hp : w.parityGood = true) (hr : s.isReplay a w.tag = false) (hc : c.supervisor = true)
    (ha : a ≠ Config.supervisor) (take : State → State × CmdOutcome) :
    s.commandWrite c a w take = s.answers a w ⟨.notSupervisor, 0⟩ := by
  simp [State.commandWrite, State.writeAccess, h, hp, State.takeCommand, hr, hc, ha, State.answers,
    State.recordOutcome, State.answerWrite]

/-- A property that the owner's part keeps, and the answers and records of the port keep, is kept by a command write.
-/
theorem State.commandWrite_induct {P : State → Prop} {s : State} (c : Command) (a : Agent) (w : WriteData)
    {take : State → State × CmdOutcome} (h : P s) (taken : P s → P (take s).1)
    (respond : ∀ t b, P t → P (t.respond b))
    (record : ∀ t a r, P t → P (t.setAgent a { t.agent a with record := r }))
    (error : ∀ t a k, P t → P (t.recordError a k)) : P (s.commandWrite c a w take) := by
  unfold State.commandWrite State.writeAccess
  split
  · split
    · apply respond
      unfold State.takeCommand
      split
      · exact record _ _ _ h
      · split
        · exact record _ _ _ h
        · exact record _ _ _ (taken h)
    · exact respond _ _ (error _ _ _ h)
  · exact respond _ _ h

/-- The same of a write to another word. -/
theorem State.writeAccess_induct {P : State → Prop} {s : State} (a : Agent) (w : WriteData) {take : State → State}
    (h : P s) (taken : P s → P (take s)) (respond : ∀ t b, P t → P (t.respond b))
    (error : ∀ t a k, P t → P (t.recordError a k)) : P (s.writeAccess a w take) := by
  unfold State.writeAccess
  split
  · split
    · exact taken h
    · exact respond _ _ (error _ _ _ h)
  · exact respond _ _ h

/-- The same of a read. -/
theorem State.readAccess_induct {P : State → Prop} {s : State} {take : State → State} (h : P s)
    (taken : P s → P (take s)) (respond : ∀ t b, P t → P (t.respond b)) : P (s.readAccess take) := by
  unfold State.readAccess
  split
  · exact taken h
  · exact respond _ _ h

/-! ### Parity (R147) -/

/-- Line `k` of a word with correct parity is the parity bit of byte `k`. -/
theorem evenParity_line (d : Word) (k : Fin 4) : (evenParity d).getLsbD k.val = evenParityBit (byteOf d k.val) := by
  have h : ∀ (x y z u : Bool) (k : Fin 4),
      (BitVec.ofBool x ++ BitVec.ofBool y ++ BitVec.ofBool z ++ BitVec.ofBool u).getLsbD k.val =
        match k with
        | 0 => u
        | 1 => z
        | 2 => y
        | 3 => x := by decide
  unfold evenParity
  rw [h]
  fin_cases k <;> rfl

/-- A read that returns 0 drives its parity lines 0. -/
theorem evenParity_zero : evenParity 0#32 = 0#4 := by decide

/-! ### The row of an access (R145) -/

theorem windowWord_tryWord (l : LockNum) : windowWord (BitVec.ofNat 8 l.val) = .tryWord l := by
  have hl : (BitVec.ofNat 8 l.val).toNat = l.val := by
    rw [BitVec.toNat_ofNat]; exact Nat.mod_eq_of_lt (by omega)
  have h : 4 * l.val < 0x100 := by omega
  simp [windowWord, hl, h]

theorem windowWord_command (c : Command) : windowWord c.offset = .command c := by
  cases c <;> decide +kernel

end Sys2Proof.Machine
end

