-- ==== Sys2Proof/Laws/AgentLaw.lean ====
section
/-! SUPPORT. The laws of the Agent Table and the Purge Engine (R119, R125, R134) under each operation. -/

namespace Sys2Proof.Machine

/-! ### The law of the notice queue under what posts and what does not -/

theorem State.NoticeLaw.of_agents {s t : State} (h : s.NoticeLaw) (e : t.agents = s.agents) : t.NoticeLaw := by
  intro a
  have := h a
  rwa [State.agent, ← e] at this

/-- R124 keeps the law: a full queue takes no notice, and no notice is kept for an agent not ONLINE. -/
theorem State.NoticeLaw.post {s : State} (h : s.NoticeLaw) (a : Agent) (n : Notice) : (s.post a n).NoticeLaw := by
  intro b
  rcases s.post_agent a n b with e | ⟨rfl, hon, hroom, e⟩ | ⟨rfl, hon, -, e⟩
  · rw [e]; exact h b
  · rw [e]
    refine ⟨?_, fun hne => absurd hon hne⟩
    simp only [List.length_append, List.length_singleton]
    omega
  · rw [e]
    exact ⟨(h b).1, fun hne => absurd hon hne⟩

theorem State.NoticeLaw.setAgent {s : State} (h : s.NoticeLaw) (a : Agent) {r : AgentRecord} (hr : r.NoticeLaw) :
    (s.setAgent a r).NoticeLaw := by
  intro b
  rw [State.setAgent_agent]
  split
  · exact hr
  · exact h b

theorem State.NoticeLaw.grantWaiter {s : State} (h : s.NoticeLaw) (l : LockNum) (r : Bool) (a : Agent) :
    (s.grantWaiter l r a).NoticeLaw := by
  unfold State.grantWaiter
  split
  · exact h
  · exact State.NoticeLaw.post (h.of_agents (State.seatWaiter_agents ..)) _ _

theorem State.NoticeLaw.convert {s : State} (h : s.NoticeLaw) (l : LockNum) (a : Agent) :
    (s.convert l a).NoticeLaw := by
  unfold State.convert
  split
  · exact h
  · exact State.NoticeLaw.post (h.of_agents (State.seatUpgrade_agents ..)) _ _

theorem State.NoticeLaw.grantStep {s : State} (h : s.NoticeLaw) (l : LockNum) : (s.grantStep l).NoticeLaw :=
  State.grantStep_induct (P := State.NoticeLaw) l (fun _ r a h => h.grantWaiter l r a) (fun _ a h => h.convert l a)
    (fun _ _ h => h.of_agents rfl) (fun _ _ h => h.of_agents rfl) h

theorem State.NoticeLaw.dequeue {s : State} (h : s.NoticeLaw) (a : Agent) : (s.dequeue a).NoticeLaw :=
  h.of_agents (by simp)

theorem State.NoticeLaw.revokeLease {s : State} (h : s.NoticeLaw) (a : Agent) (l : LockNum) :
    (s.revokeLease a l).NoticeLaw := by
  have h1 : (s.revokeReported a l).NoticeLaw :=
    State.revokeReported_induct (h.of_agents (s.revokeHold_agents a l)) fun _ _ _ h => h.post _ _
  exact State.grantIf_induct (fun _ => h1) (h1.grantStep l)

theorem State.NoticeLaw.timeOut {s : State} (h : s.NoticeLaw) (a : Agent) (q : PendingRequest) :
    (s.timeOut a q).NoticeLaw :=
  have h1 := (h.dequeue a).post a _
  State.grantIf_induct (fun _ => h1) (h1.grantStep _)

theorem State.NoticeLaw.expiryOf {s : State} (h : s.NoticeLaw) (e : EntryNum) : (s.expiryOf e).NoticeLaw := by
  have h0 : (s.withDu (·.free e)).NoticeLaw := h.of_agents rfl
  unfold State.expiryOf
  split
  · unfold State.waitExpired
    simp only
    split
    · exact h0
    · exact h0.timeOut _ _
  · unfold State.leaseExpired
    simp only
    split
    · exact h0.revokeLease _ _
    · exact h0
  all_goals exact h.of_agents rfl

theorem State.NoticeLaw.settle {s : State} (h : s.NoticeLaw) : s.settle.NoticeLaw :=
  State.settle_induct (P := State.NoticeLaw) (fun _ e h => h.expiryOf e) (fun _ h => h.of_agents rfl) h

/-! ### The laws together -/

/-- The laws are kept where agent states and Purge Engine stay. -/
theorem State.AgentLaw.of_kept {s t : State} (h : s.AgentLaw) (n : t.NoticeLaw) (p : t.purge = s.purge)
    (st : ∀ b, (t.agent b).state = (s.agent b).state) : t.AgentLaw where
  notices := n
  supervisor := (st Config.supervisor).trans h.supervisor
  purge :=
    { sweeping := by rw [p]; exact h.purge.sweeping
      purging := fun a => by rw [p, st a]; exact h.purge.purging a
      count := by rw [p]; exact h.purge.count
      pointer := by rw [p]; exact h.purge.pointer }

theorem State.AgentLaw.engine {s t : State} (h : s.AgentLaw) (f : s.EngineFrame t) (n : t.NoticeLaw) : t.AgentLaw :=
  h.of_kept n f.purge f.agent_state

theorem State.AgentLaw.settle {s : State} (h : s.AgentLaw) : s.settle.AgentLaw :=
  h.of_kept h.notices.settle s.settle_frame.purge s.settle_agent_state

theorem State.AgentLaw.grantStep {s : State} (h : s.AgentLaw) (l : LockNum) : (s.grantStep l).AgentLaw :=
  h.engine (s.grantStep_frame l) (h.notices.grantStep l)

theorem State.AgentLaw.dequeue {s : State} (h : s.AgentLaw) (a : Agent) : (s.dequeue a).AgentLaw :=
  h.engine (s.dequeue_frame a) (h.notices.dequeue a)

theorem State.AgentLaw.dropRequest {s : State} (h : s.AgentLaw) (a : Agent) : (s.dropRequest a).AgentLaw :=
  State.dropRequest_induct (h.dequeue a) fun q _ => (h.dequeue a).grantStep q.lock

theorem State.AgentLaw.post {s : State} (h : s.AgentLaw) (a : Agent) (n : Notice) : (s.post a n).AgentLaw :=
  h.engine (s.post_frame a n) (h.notices.post a n)

theorem State.AgentLaw.expiryOf {s : State} (h : s.AgentLaw) (e : EntryNum) : (s.expiryOf e).AgentLaw :=
  h.engine (s.expiryOf_frame e) (h.notices.expiryOf e)

theorem State.AgentLaw.takeExpiry {s : State} (h : s.AgentLaw) : s.takeExpiry.AgentLaw :=
  State.takeExpiry_induct (fun _ e h => h.expiryOf e) h

theorem State.AgentLaw.drain {s : State} (h : s.AgentLaw) : s.drain.AgentLaw :=
  State.drain_induct (fun _ e h => h.expiryOf e) h

/-- The laws depend on the agent records and the Purge Engine alone. -/
theorem State.AgentLaw.of_eq {s t : State} (h : s.AgentLaw) (a : t.agents = s.agents) (p : t.purge = s.purge) :
    t.AgentLaw :=
  h.of_kept (h.notices.of_agents a) p fun b => by simp [State.agent, a]

theorem State.AgentLaw.respond {s : State} (h : s.AgentLaw) (b : BusResponse) : (s.respond b).AgentLaw :=
  h.of_eq rfl rfl

/-- A change of an agent record that keeps its state, and its notice law, keeps the laws. -/
theorem State.AgentLaw.setAgent {s : State} (h : s.AgentLaw) (a : Agent) {r : AgentRecord} (hr : r.NoticeLaw)
    (st : r.state = (s.agent a).state) : (s.setAgent a r).AgentLaw :=
  h.of_kept (h.notices.setAgent a hr) rfl fun b => by
    rw [State.setAgent_agent]
    split
    · next e => subst e; exact st
    · rfl

theorem State.AgentLaw.record {s : State} (h : s.AgentLaw) (a : Agent) (r : CommandRecord) :
    (s.setAgent a { s.agent a with record := r }).AgentLaw := h.setAgent a (h.notices a) rfl

theorem State.AgentLaw.recordError {s : State} (h : s.AgentLaw) (a : Agent) (k : ErrorKind) :
    (s.recordError a k).AgentLaw := h.setAgent a (h.notices a) rfl

/-! ### The owners' parts of the commands -/

theorem State.AgentLaw.grantNow {s : State} (h : s.AgentLaw) (a : Agent) (l : LockNum) (m : Mode) (d : Option Nat)
    (e : Option EntryNum) : (s.grantNow a l m d e).AgentLaw := by
  unfold State.grantNow
  simp only
  split
  · exact h.of_eq rfl rfl
  · exact h.of_eq rfl rfl

theorem State.AgentLaw.joinQueue {s : State} (h : s.AgentLaw) (a : Agent) (l : LockNum) (m : Mode)
    (d d' : Option Nat) (e : Option EntryNum) : (s.joinQueue a l m d d' e).AgentLaw := h.of_eq rfl rfl

theorem State.AgentLaw.acquireTaken {s : State} (h : s.AgentLaw) (a : Agent) : (s.acquireTaken a).1.AgentLaw := by
  unfold State.acquireTaken
  simp only
  split
  · exact h.settle
  · exact h.settle.grantNow ..
  · exact h.settle.joinQueue ..

theorem State.AgentLaw.giveUp {s : State} (h : s.AgentLaw) (a : Agent) (l : LockNum) : (s.giveUp a l).AgentLaw :=
  have h1 : (s.removeHold a l).AgentLaw := h.of_eq rfl rfl
  State.grantIf_induct (fun _ => h1) (h1.grantStep l)

theorem State.AgentLaw.releaseTaken {s : State} (h : s.AgentLaw) (a : Agent) : (s.releaseTaken a).1.AgentLaw := by
  unfold State.releaseTaken
  simp only
  split
  · exact h.settle
  · exact h.settle.giveUp ..

theorem State.AgentLaw.upgradeTaken {s : State} (h : s.AgentLaw) (a : Agent) : (s.upgradeTaken a).1.AgentLaw := by
  unfold State.upgradeTaken
  simp only
  split
  · exact h.settle
  · exact h.settle.of_eq rfl rfl
  · exact h.settle.joinQueue ..

theorem State.AgentLaw.downgradeTaken {s : State} (h : s.AgentLaw) (a : Agent) :
    (s.downgradeTaken a).1.AgentLaw := by
  unfold State.downgradeTaken
  simp only
  split
  · exact h.settle
  · exact State.AgentLaw.grantStep (s := s.settle.toShared _) (h.settle.of_eq rfl rfl) _

theorem State.AgentLaw.cancelTaken {s : State} (h : s.AgentLaw) (a : Agent) : (s.cancelTaken a).1.AgentLaw := by
  unfold State.cancelTaken
  simp only
  split
  · exact h.settle
  · split
    · exact h.settle
    · exact h.settle.dropRequest a

theorem State.AgentLaw.renewTaken {s : State} (h : s.AgentLaw) (a : Agent) : (s.renewTaken a).1.AgentLaw := by
  unfold State.renewTaken
  simp only
  split
  · exact h.settle
  · exact h.settle.of_eq rfl rfl

theorem State.AgentLaw.setLockTaken {s : State} (h : s.AgentLaw) : s.setLockTaken.1.AgentLaw := by
  unfold State.setLockTaken
  simp only
  split
  · exact h.settle
  · split
    · exact h.settle
    · exact h.settle.of_eq rfl rfl

theorem State.removeHolds_induct {P : State → Prop} {l : LockNum} (remove : ∀ s a, P s → P (s.removeHold a l))
    {s : State} (h : P s) : P (s.removeHolds l) := by
  have hfold : ∀ (bs : List Agent) (t : State), P t → P (bs.foldl (fun t a => t.removeHold a l) t) := by
    intro bs
    induction bs with
    | nil => intro t ht; exact ht
    | cons b bs ih => intro t ht; exact ih _ (remove t b ht)
  exact hfold _ s h

theorem State.dropUpgrade_frame (s : State) (l : LockNum) : s.EngineFrame (s.dropUpgrade l) := by
  unfold State.dropUpgrade
  split
  · exact s.dequeue_frame _
  · exact .refl s

theorem State.toFree_frame (s : State) (l : LockNum) (b : Bool) : s.EngineFrame (s.toFree l b) := by
  unfold State.toFree
  simp only
  split
  · exact (s.setLock_frame ..).trans (State.setRecovered_frame ..)
  · exact s.setLock_frame ..

/-- R112, steps 1 to 3, are an event at the Lock Engine that posts nothing. -/
theorem State.stripLock_frame (s : State) (l : LockNum) : s.EngineFrame (s.stripLock l) :=
  ((State.removeHolds_induct (P := fun t => s.EngineFrame t) (fun t a h => h.trans (t.removeHold_frame a l))
    (.refl s)).trans (State.dropUpgrade_frame ..)).trans (State.toFree_frame ..)

theorem State.stripLock_agents (s : State) (l : LockNum) : (s.stripLock l).agents = s.agents := by
  have h1 : (s.removeHolds l).agents = s.agents :=
    State.removeHolds_induct (P := fun t => t.agents = s.agents) (fun _ _ h => h) rfl
  have h2 : ((s.removeHolds l).dropUpgrade l).agents = s.agents := by
    unfold State.dropUpgrade
    split <;> simp [h1]
  unfold State.stripLock State.toFree
  simp only
  split <;> simp [State.setRecovered, h2]

/-- R112, step 4: the posts. -/
theorem State.postAll_frame (s : State) (bs : List Agent) (n : Agent → Notice) :
    s.EngineFrame (bs.foldl (fun t a => t.post a (n a)) s) := by
  have hfold : ∀ (bs : List Agent) (t : State), s.EngineFrame t →
      s.EngineFrame (bs.foldl (fun t a => t.post a (n a)) t) := by
    intro bs
    induction bs with
    | nil => intro t ht; exact ht
    | cons b bs ih => intro t ht; exact ih _ (ht.trans (t.post_frame b _))
  exact hfold bs s (.refl s)

theorem State.NoticeLaw.postAll {s : State} (h : s.NoticeLaw) (bs : List Agent) (n : Agent → Notice) :
    (bs.foldl (fun t a => t.post a (n a)) s).NoticeLaw := by
  induction bs generalizing s with
  | nil => exact h
  | cons b bs ih => exact ih (h.post b _)

theorem State.AgentLaw.forceHeld {s : State} (h : s.AgentLaw) (l : LockNum) : (s.forceHeld l).AgentLaw := by
  unfold State.forceHeld
  apply State.AgentLaw.grantStep
  have h1 : (s.stripLock l).AgentLaw := h.engine (s.stripLock_frame l) (h.notices.of_agents (s.stripLock_agents l))
  exact h1.engine (State.postAll_frame ..) (State.NoticeLaw.postAll h1.notices _ _)

theorem State.AgentLaw.forceReleaseTaken {s : State} (h : s.AgentLaw) : s.forceReleaseTaken.1.AgentLaw := by
  unfold State.forceReleaseTaken
  simp only
  split
  · exact h.settle
  · split
    · exact h.settle.of_eq rfl rfl
    · exact h.settle.forceHeld _

theorem State.AgentLaw.setTimeTaken {s : State} (h : s.AgentLaw) : s.setTimeTaken.1.AgentLaw := h.settle.of_eq rfl rfl

theorem State.AgentLaw.setDividerTaken {s : State} (h : s.AgentLaw) : s.setDividerTaken.1.AgentLaw := by
  unfold State.setDividerTaken
  simp only
  split
  · exact h
  · exact h.of_eq rfl rfl

end Sys2Proof.Machine
end

