-- ==== Sys2Proof/Laws/PoolLaw.lean ====
section
/-! SUPPORT. The law of the deadline pool (R91) under each operation of the Deadline Unit, and under each event that asks
for one. -/

namespace Sys2Proof.Machine

/-! ### The armed list -/

theorem DeadlineUnit.Before.iff {d : DeadlineUnit} {x y : EntryNum} {k k' : EntryKind} {a a' : Agent}
    {l l' : LockNum} {n m o p : Nat} (hx : d.entries.get x = .armed k a l n o)
    (hy : d.entries.get y = .armed k' a' l' m p) : d.Before x y ↔ n < m ∨ (n = m ∧ o < p) := by
  simp [DeadlineUnit.Before, hx, hy]

/-- An order on entries depends on the two entries alone. -/
theorem DeadlineUnit.Before.congr {d d' : DeadlineUnit} {x y : EntryNum}
    (hx : d'.entries.get x = d.entries.get x) (hy : d'.entries.get y = d.entries.get y) (h : d.Before x y) :
    d'.Before x y := by
  unfold DeadlineUnit.Before at *
  rw [hx, hy]
  exact h

theorem DeadlineUnit.Before.irrefl (d : DeadlineUnit) (x : EntryNum) : ¬ d.Before x x := by
  unfold DeadlineUnit.Before
  split
  · next h1 h2 =>
    rw [h1] at h2
    injection h2 with _ _ _ hn ho
    omega
  · exact id

theorem DeadlineUnit.PoolLaw.nodup {d : DeadlineUnit} (h : d.PoolLaw) : d.armedList.Nodup :=
  h.ordered.imp fun {x y} hb e => by subst e; exact DeadlineUnit.Before.irrefl d x hb

/-- R90: inserting an entry keeps the order. -/
theorem insertArmed_pairwise {R : EntryNum → EntryNum → Prop} {count : EntryNum → Nat} {e : EntryNum} {n : Nat} :
    ∀ {xs : List EntryNum}, xs.Pairwise R → (∀ x ∈ xs, count x ≤ n → R x e) → (∀ x ∈ xs, n < count x → R e x) →
      (xs.Pairwise fun x y => count x ≤ count y) → (insertArmed count e n xs).Pairwise R := by
  intro xs
  induction xs with
  | nil => intro _ _ _ _; simp [insertArmed]
  | cons x xs ih =>
    intro hp hle hgt hm
    rw [List.pairwise_cons] at hp hm
    unfold insertArmed
    split
    · next hx =>
      rw [List.pairwise_cons]
      refine ⟨fun y hy => ?_, ih hp.2 (fun y hy => hle y (List.mem_cons_of_mem _ hy))
        (fun y hy => hgt y (List.mem_cons_of_mem _ hy)) hm.2⟩
      rcases (mem_insertArmed ..).mp hy with rfl | hy
      · exact hle x List.mem_cons_self hx
      · exact hp.1 y hy
    · next hx =>
      rw [List.pairwise_cons, List.pairwise_cons]
      refine ⟨fun y hy => hgt y hy ?_, hp.1, hp.2⟩
      rcases List.mem_cons.mp hy with rfl | hy
      · omega
      · have := hm.1 y hy; omega

/-! ### Operations of the Deadline Unit -/

/-- R94, R95: arming or re-arming any entry with a duration keeps the law. -/
theorem DeadlineUnit.PoolLaw.arm {d : DeadlineUnit} (h : d.PoolLaw) (e : EntryNum) (k : EntryKind) (a : Agent)
    (l : LockNum) {n : Nat} (hn : DurationLaw n) : (d.arm e k a l n).PoolLaw := by
  have hget := d.arm_entry e k a l n
  have hself : (d.arm e k a l n).entries.get e = .armed k a l n d.nextArming := by rw [hget, if_pos rfl]
  have hne : ∀ {x}, x ≠ e → (d.arm e k a l n).entries.get x = d.entries.get x := fun hx => by rw [hget, if_neg hx]
  have hmem : ∀ {x}, x ∈ d.armedList.filter (· != e) → x ∈ d.armedList ∧ x ≠ e := fun hx => by simpa using hx
  have hlist : ∀ x, x ∈ (d.arm e k a l n).armedList ↔ x = e ∨ x ∈ d.armedList.filter (· != e) :=
    fun x => mem_insertArmed ..
  refine ⟨?_, ?_, ?_, ?_, h.once.filter _, ?_⟩
  · intro x k' a' l' m o hx
    by_cases hxe : x = e
    · subst hxe
      rw [hself] at hx
      injection hx with _ _ _ h4 h5
      subst h4 h5
      exact ⟨hn, Nat.lt_succ_self _⟩
    · rw [hne hxe] at hx
      exact ⟨(h.counts _ _ _ _ _ _ hx).1, Nat.lt_succ_of_lt (h.counts _ _ _ _ _ _ hx).2⟩
  · apply insertArmed_pairwise
    · refine (List.Pairwise.and_mem.mp (h.ordered.filter _)).imp ?_
      intro x y ⟨hx, hy, hb⟩
      exact hb.congr (hne (hmem hx).2) (hne (hmem hy).2)
    · intro x hx hle
      obtain ⟨k', a', l', m, o, hxe⟩ := h.listed x (hmem hx).1
      have ho := (h.counts _ _ _ _ _ _ hxe).2
      simp only [hxe, DeadlineEntry.remaining] at hle
      rw [DeadlineUnit.Before.iff ((hne (hmem hx).2).trans hxe) hself]
      omega
    · intro x hx hlt
      obtain ⟨k', a', l', m, o, hxe⟩ := h.listed x (hmem hx).1
      simp only [hxe, DeadlineEntry.remaining] at hlt
      rw [DeadlineUnit.Before.iff hself ((hne (hmem hx).2).trans hxe)]
      omega
    · refine (List.Pairwise.and_mem.mp (h.ordered.filter _)).imp ?_
      intro x y ⟨hx, hy, hb⟩
      obtain ⟨k1, a1, l1, m1, o1, e1⟩ := h.listed x (hmem hx).1
      obtain ⟨k2, a2, l2, m2, o2, e2⟩ := h.listed y (hmem hy).1
      rw [DeadlineUnit.Before.iff e1 e2] at hb
      simp only [e1, e2, DeadlineEntry.remaining]
      omega
  · intro x hx
    rcases (hlist x).mp hx with rfl | hx
    · exact ⟨_, _, _, _, _, hself⟩
    · rw [hne (hmem hx).2]; exact h.listed x (hmem hx).1
  · intro x hx
    have hx' : x ∈ d.expiries ∧ x ≠ e := by simpa [DeadlineUnit.arm] using hx
    refine ⟨fun hin => ?_, by rw [hne hx'.2]; exact (h.runOut x hx'.1).2⟩
    rcases (hlist x).mp hin with he | hin
    · exact hx'.2 he
    · exact (h.runOut x hx'.1).1 (hmem hin).1
  · intro x k' a' l' m o hx
    by_cases hxe : x = e
    · exact Or.inl ((hlist x).mpr (Or.inl hxe))
    · rw [hne hxe] at hx
      rcases h.complete _ _ _ _ _ _ hx with hin | hin
      · exact Or.inl ((hlist x).mpr (Or.inr (by simp [hin, hxe])))
      · exact Or.inr (by simp [DeadlineUnit.arm, hin, hxe])

/-- R95: freeing any entry keeps the law. -/
theorem DeadlineUnit.PoolLaw.free {d : DeadlineUnit} (h : d.PoolLaw) (e : EntryNum) : (d.free e).PoolLaw := by
  have hget := d.free_entry e
  have hne : ∀ {x}, x ≠ e → (d.free e).entries.get x = d.entries.get x := fun hx => by rw [hget, if_neg hx]
  have hmem : ∀ {x}, x ∈ (d.free e).armedList → x ∈ d.armedList ∧ x ≠ e := fun hx => by
    simpa [DeadlineUnit.free] using hx
  have harm : ∀ {x k a l n o}, (d.free e).entries.get x = .armed k a l n o →
      x ≠ e ∧ d.entries.get x = .armed k a l n o := fun {x k a l n o} hx => by
    by_cases hxe : x = e
    · rw [hget, if_pos hxe] at hx; exact absurd hx (by simp)
    · exact ⟨hxe, by rwa [hne hxe] at hx⟩
  refine ⟨?_, ?_, ?_, ?_, h.once.filter _, ?_⟩
  · intro x k a l n o hx
    exact h.counts _ _ _ _ _ _ (harm hx).2
  · refine (List.Pairwise.and_mem.mp (h.ordered.filter _)).imp ?_
    intro x y ⟨hx, hy, hb⟩
    exact hb.congr (hne (hmem hx).2) (hne (hmem hy).2)
  · intro x hx
    rw [hne (hmem hx).2]
    exact h.listed x (hmem hx).1
  · intro x hx
    have hx' : x ∈ d.expiries ∧ x ≠ e := by simpa [DeadlineUnit.free] using hx
    refine ⟨fun hin => (h.runOut x hx'.1).1 (hmem hin).1, ?_⟩
    rw [hne hx'.2]
    exact (h.runOut x hx'.1).2
  · intro x k a l n o hx
    rcases h.complete _ _ _ _ _ _ (harm hx).2 with hin | hin
    · exact Or.inl (by simp [DeadlineUnit.free, hin, (harm hx).1])
    · exact Or.inr (by simp [DeadlineUnit.free, hin, (harm hx).1])

theorem DeadlineUnit.PoolLaw.freeOwned {d : DeadlineUnit} (h : d.PoolLaw) (o : Option EntryNum) :
    (d.freeOwned o).PoolLaw := by
  cases o
  · exact h
  · exact h.free _

/-- R94: reserving a FREE entry keeps the law. -/
theorem DeadlineUnit.PoolLaw.reserve {d : DeadlineUnit} (h : d.PoolLaw) {e : EntryNum}
    (he : d.entries.get e = .free) (a : Agent) (l : LockNum) : (d.reserve e a l).PoolLaw := by
  have hget := d.reserve_entry e a l
  have hne : ∀ {x}, x ≠ e → (d.reserve e a l).entries.get x = d.entries.get x := fun hx => by rw [hget, if_neg hx]
  have harm : ∀ {x k a' l' n o}, (d.reserve e a l).entries.get x = .armed k a' l' n o →
      x ≠ e ∧ d.entries.get x = .armed k a' l' n o := fun {x k a' l' n o} hx => by
    by_cases hxe : x = e
    · rw [hget, if_pos hxe] at hx; exact absurd hx (by simp)
    · exact ⟨hxe, by rwa [hne hxe] at hx⟩
  have hin : ∀ {x}, x ∈ d.armedList → x ≠ e := fun {x} hx hxe => by
    obtain ⟨k', a', l', n, o, hx⟩ := h.listed x hx
    rw [hxe, he] at hx; exact absurd hx (by simp)
  have hex : ∀ {x}, x ∈ d.expiries → x ≠ e := fun {x} hx hxe => by
    obtain ⟨-, k', a', l', o, hx⟩ := h.runOut x hx
    rw [hxe, he] at hx; exact absurd hx (by simp)
  refine ⟨?_, ?_, ?_, ?_, h.once, ?_⟩
  · intro x k' a' l' n o hx
    exact h.counts _ _ _ _ _ _ (harm hx).2
  · refine (List.Pairwise.and_mem.mp h.ordered).imp ?_
    intro x y ⟨hx, hy, hb⟩
    exact hb.congr (hne (hin hx)) (hne (hin hy))
  · intro x hx
    rw [hne (hin hx)]
    exact h.listed x hx
  · intro x hx
    refine ⟨(h.runOut x hx).1, ?_⟩
    rw [hne (hex hx)]
    exact (h.runOut x hx).2
  · intro x k' a' l' n o hx
    exact h.complete _ _ _ _ _ _ (harm hx).2

theorem DeadlineUnit.PoolLaw.armAsLease {d : DeadlineUnit} (h : d.PoolLaw) (e : EntryNum) {n : Nat}
    (hn : DurationLaw n) : (d.armAsLease e n).PoolLaw := by
  unfold DeadlineUnit.armAsLease
  split
  · exact h.arm _ _ _ _ hn
  · exact h.arm _ _ _ _ hn
  · exact h

theorem DeadlineUnit.PoolLaw.atGrant {d : DeadlineUnit} (h : d.PoolLaw) {q : PendingRequest}
    (hq : ∀ n, q.lease = some n → DurationLaw n) : (d.atGrant q).PoolLaw := by
  unfold DeadlineUnit.atGrant
  split
  · next hl _ => exact h.armAsLease _ (hq _ hl)
  · exact h.free _
  · exact h

/-- R97: a tick advance keeps the law. -/
theorem DeadlineUnit.PoolLaw.tick {d : DeadlineUnit} (h : d.PoolLaw) : d.tick.PoolLaw := by
  have hget := d.tick_entry
  have hstay : ∀ {x}, x ∈ d.tick.armedList ↔ x ∈ d.armedList ∧ (d.entries.get x).remaining ≠ 1 := fun {x} => by
    simp [DeadlineUnit.tick]
  have hrun : ∀ {x}, x ∈ d.tick.expiries ↔
      x ∈ d.expiries ∨ (x ∈ d.armedList ∧ (d.entries.get x).remaining = 1) := fun {x} => by
    simp [DeadlineUnit.tick]
  have hdown : ∀ {x}, x ∈ d.tick.armedList → ∃ k a l n o, d.entries.get x = .armed k a l n o ∧
      1 < n ∧ d.tick.entries.get x = .armed k a l (n - 1) o := fun {x} hx => by
    obtain ⟨hin, hr⟩ := hstay.mp hx
    obtain ⟨k, a, l, n, o, he⟩ := h.listed x hin
    refine ⟨k, a, l, n, o, he, ?_, ?_⟩
    · have := (h.counts _ _ _ _ _ _ he).1.1
      simp only [he, DeadlineEntry.remaining] at hr
      omega
    · rw [hget, if_pos ⟨hin, hr⟩, he]; rfl
  have hkeep : ∀ {x}, x ∉ d.tick.armedList → d.tick.entries.get x = d.entries.get x := fun {x} hx => by
    rw [hget, if_neg fun hc => hx (hstay.mpr hc)]
  refine ⟨?_, ?_, ?_, ?_, ?_, ?_⟩
  · intro x k a l n o hx
    by_cases hin : x ∈ d.tick.armedList
    · obtain ⟨k', a', l', n', o', he, hn', ht⟩ := hdown hin
      rw [ht] at hx
      injection hx with _ _ _ h4 h5
      have := h.counts _ _ _ _ _ _ he
      have hd := this.1
      subst h4 h5
      exact ⟨⟨by omega, by have := hd.2; omega⟩, this.2⟩
    · rw [hkeep hin] at hx
      exact h.counts _ _ _ _ _ _ hx
  · refine (List.Pairwise.and_mem.mp (h.ordered.filter _)).imp ?_
    intro x y ⟨hx, hy, hb⟩
    obtain ⟨k1, a1, l1, n1, o1, e1, hn1, t1⟩ := hdown hx
    obtain ⟨k2, a2, l2, n2, o2, e2, hn2, t2⟩ := hdown hy
    rw [DeadlineUnit.Before.iff e1 e2] at hb
    rw [DeadlineUnit.Before.iff t1 t2]
    omega
  · intro x hx
    obtain ⟨k, a, l, n, o, -, -, ht⟩ := hdown hx
    exact ⟨_, _, _, _, _, ht⟩
  · intro x hx
    rcases hrun.mp hx with hx | ⟨hin, hr⟩
    · have hnot : x ∉ d.tick.armedList := fun hc => (h.runOut x hx).1 (hstay.mp hc).1
      exact ⟨hnot, by rw [hkeep hnot]; exact (h.runOut x hx).2⟩
    · have hnot : x ∉ d.tick.armedList := fun hc => (hstay.mp hc).2 hr
      obtain ⟨k, a, l, n, o, he⟩ := h.listed x hin
      simp only [he, DeadlineEntry.remaining] at hr
      subst hr
      exact ⟨hnot, by rw [hkeep hnot]; exact ⟨_, _, _, _, he⟩⟩
  · show (d.expiries ++ d.armedList.filter _).Nodup
    rw [List.nodup_append]
    refine ⟨h.once, h.nodup.filter _, ?_⟩
    rintro x hx y hy rfl
    exact (h.runOut x hx).1 (List.mem_filter.mp hy).1
  · intro x k a l n o hx
    by_cases hin : x ∈ d.tick.armedList
    · exact Or.inl hin
    · rw [hkeep hin] at hx
      rcases h.complete _ _ _ _ _ _ hx with hc | hc
      · by_cases hr : (d.entries.get x).remaining = 1
        · exact Or.inr (hrun.mpr (Or.inr ⟨hc, hr⟩))
        · exact absurd (hstay.mpr ⟨hc, hr⟩) hin
      · exact Or.inr (hrun.mpr (Or.inl hc))

/-- R100: the emptied pool has the law. -/
theorem DeadlineUnit.PoolLaw.emptied (d : DeadlineUnit) : d.emptied.PoolLaw := by
  have hget : ∀ x, d.emptied.entries.get x = .free := fun x => get_replicate ..
  refine ⟨?_, List.Pairwise.nil, ?_, ?_, List.nodup_nil, ?_⟩
  · intro x k a l n o hx; rw [hget] at hx; exact absurd hx (by simp)
  · intro x hx; exact absurd hx (by simp [DeadlineUnit.emptied])
  · intro x hx; exact absurd hx (by simp [DeadlineUnit.emptied])
  · intro x k a l n o hx; rw [hget] at hx; exact absurd hx (by simp)

/-- The law depends on entries, armed list, expiries and arming order alone. -/
theorem DeadlineUnit.PoolLaw.of_eq {d d' : DeadlineUnit} (h : d.PoolLaw) (he : d'.entries = d.entries)
    (ha : d'.armedList = d.armedList) (hx : d'.expiries = d.expiries) (hn : d'.nextArming = d.nextArming) :
    d'.PoolLaw where
  counts e k a l n o h' := by rw [hn]; exact h.counts e k a l n o (by rwa [he] at h')
  ordered := by
    rw [ha]
    exact h.ordered.imp fun hb => hb.congr (by rw [he]) (by rw [he])
  listed e hin := by rw [he]; exact h.listed e (by rwa [ha] at hin)
  runOut e hin := by rw [he, ha]; exact h.runOut e (by rwa [hx] at hin)
  once := by rw [hx]; exact h.once
  complete e k a l n o h' := by rw [ha, hx]; exact h.complete e k a l n o (by rwa [he] at h')

/-- R98: an expiry that is not taken leaves the expiries awaited, when its entry is not ARMED. -/
theorem DeadlineUnit.PoolLaw.dropExpiry {d : DeadlineUnit} (h : d.PoolLaw) {e : EntryNum}
    (he : ∀ k a l n o, d.entries.get e ≠ .armed k a l n o) :
    ({ d with expiries := d.expiries.filter (· != e) } : DeadlineUnit).PoolLaw where
  counts := h.counts
  ordered := h.ordered
  listed := h.listed
  runOut x hx := h.runOut x (List.mem_filter.mp hx).1
  once := h.once.filter _
  complete x k a l n o hx := by
    rcases h.complete _ _ _ _ _ _ hx with hin | hin
    · exact Or.inl hin
    · refine Or.inr (List.mem_filter.mpr ⟨hin, ?_⟩)
      simp only [bne_iff_ne]
      rintro rfl
      exact he _ _ _ _ _ hx

/-! ### The durations that requests carry -/

/-- The durations of `t`'s pending requests are those of `s`'s, or the requests are gone. -/
theorem State.RequestDurations.of_sub {s t : State} (h : s.RequestDurations)
    (sub : ∀ a q, t.request a = some q → ∃ p, s.request a = some p ∧ q.timeout = p.timeout ∧ q.lease = p.lease) :
    t.RequestDurations := by
  intro a q hq
  obtain ⟨p, hp, ht, hl⟩ := sub a q hq
  rw [ht, hl]
  exact h a p hp

theorem State.RequestDurations.of_requests {s t : State} (h : s.RequestDurations)
    (e : t.requests = s.requests) : t.RequestDurations :=
  h.of_sub fun a q hq => ⟨q, by rwa [State.request, ← e], rfl, rfl⟩

theorem State.RequestDurations.of_removed {s t : State} (h : s.RequestDurations) (a : Agent)
    (e : ∀ b, t.request b = if b = a then none else s.request b) : t.RequestDurations :=
  h.of_sub fun b q hq => by
    rw [e] at hq
    split at hq
    · exact absurd hq (by simp)
    · exact ⟨q, hq, rfl, rfl⟩

/-! ### The law under the events of the Lock Engine -/

theorem State.PoolLaw.of_du {s t : State} (h : s.PoolLaw) (d : t.du.PoolLaw) (r : t.requests = s.requests) :
    t.PoolLaw := ⟨d, h.durations.of_requests r⟩

theorem State.PoolLaw.of_eq {s t : State} (h : s.PoolLaw) (d : t.du = s.du) (r : t.requests = s.requests) :
    t.PoolLaw := h.of_du (by rw [d]; exact h.pool) r

theorem State.PoolLaw.post {s : State} (h : s.PoolLaw) (a : Agent) (n : Notice) : (s.post a n).PoolLaw :=
  h.of_eq (by simp) (by simp)

theorem State.PoolLaw.grantWaiter {s : State} (h : s.PoolLaw) (l : LockNum) (r : Bool) (a : Agent) :
    (s.grantWaiter l r a).PoolLaw := by
  cases hq : s.request a with
  | none => rw [State.grantWaiter_of_none hq]; exact h
  | some q =>
    rw [State.grantWaiter_of_some hq]
    refine State.PoolLaw.post ⟨?_, h.durations.of_removed a (s.seatWaiter_request l a q)⟩ _ _
    exact h.pool.atGrant (h.durations a q hq).2

theorem State.PoolLaw.convert {s : State} (h : s.PoolLaw) (l : LockNum) (a : Agent) : (s.convert l a).PoolLaw := by
  cases hq : s.request a with
  | none => rw [State.convert_of_none hq]; exact h
  | some q =>
    rw [State.convert_of_some hq]
    refine State.PoolLaw.post ⟨?_, h.durations.of_removed a (s.seatUpgrade_request l a q)⟩ _ _
    exact h.pool.freeOwned _

/-- The pending request of `a` after bypass counting. -/
theorem State.countPassed_request (s : State) (l : LockNum) (ns : List Nat) (a : Agent) :
    (s.countPassed l ns).request a =
      if a ∈ (s.lock l).queue then
        (s.request a).map fun q =>
          if q.passedBy ns then { q with bypass := bypassNext (s.lock l).bypassLimit q.bypass } else q
      else s.request a := get_ofTable ..

/-- The pending request of `a` after the promotion of `ps`. -/
theorem State.toClassZero_request (s : State) (ps : List Agent) (a : Agent) :
    (s.toClassZero ps).request a =
      if a ∈ ps then (s.request a).map fun q => { q with effClass := 0 } else s.request a := get_ofTable ..

@[simp] theorem State.promote_request (s : State) (l : LockNum) (ps : List Agent) (a : Agent) :
    (s.promote l ps).request a = (s.toClassZero ps).request a := rfl

@[simp] theorem State.countPassed_lock (s : State) (l : LockNum) (ns : List Nat) (k : LockNum) :
    (s.countPassed l ns).lock k = s.lock k := rfl

@[simp] theorem State.toClassZero_lock (s : State) (ps : List Agent) (k : LockNum) :
    (s.toClassZero ps).lock k = s.lock k := rfl

theorem State.PoolLaw.countPassed {s : State} (h : s.PoolLaw) (l : LockNum) (ns : List Nat) :
    (s.countPassed l ns).PoolLaw := by
  refine ⟨h.pool, h.durations.of_sub fun a q hq => ?_⟩
  rw [State.countPassed_request] at hq
  split at hq
  · rw [Option.map_eq_some_iff] at hq
    obtain ⟨p, hp, rfl⟩ := hq
    refine ⟨p, hp, ?_, ?_⟩ <;> split <;> rfl
  · exact ⟨q, hq, rfl, rfl⟩

theorem State.PoolLaw.promote {s : State} (h : s.PoolLaw) (l : LockNum) (ps : List Agent) :
    (s.promote l ps).PoolLaw := by
  refine ⟨h.pool, h.durations.of_sub fun a q hq => ?_⟩
  rw [State.promote_request, State.toClassZero_request] at hq
  split at hq
  · rw [Option.map_eq_some_iff] at hq
    obtain ⟨p, hp, rfl⟩ := hq
    exact ⟨p, hp, rfl, rfl⟩
  · exact ⟨q, hq, rfl, rfl⟩

theorem State.PoolLaw.grantStep {s : State} (h : s.PoolLaw) (l : LockNum) : (s.grantStep l).PoolLaw :=
  State.grantStep_induct (P := State.PoolLaw) l (fun _ r a h => h.grantWaiter l r a) (fun _ a h => h.convert l a)
    (fun _ ns h => h.countPassed l ns) (fun _ ps h => h.promote l ps) h

theorem State.PoolLaw.withFree {s : State} (h : s.PoolLaw) (e : EntryNum) : (s.withDu (·.free e)).PoolLaw :=
  h.of_du (h.pool.free e) rfl

theorem State.PoolLaw.removeHold {s : State} (h : s.PoolLaw) (a : Agent) (l : LockNum) :
    (s.removeHold a l).PoolLaw := h.of_du (h.pool.freeOwned _) rfl

theorem State.PoolLaw.setLock {s : State} (h : s.PoolLaw) (l : LockNum) (r : LockRecord) :
    (s.setLock l r).PoolLaw := h.of_eq rfl rfl

theorem State.PoolLaw.dequeue {s : State} (h : s.PoolLaw) (a : Agent) : (s.dequeue a).PoolLaw := by
  cases hq : s.request a with
  | none => rw [State.dequeue_of_none hq]; exact h
  | some q =>
    rw [State.dequeue_of_some hq]
    exact ⟨h.pool.freeOwned _, h.durations.of_removed a (s.leaveQueue_request q.lock a)⟩

theorem State.PoolLaw.timeOut {s : State} (h : s.PoolLaw) (a : Agent) (q : PendingRequest) :
    (s.timeOut a q).PoolLaw :=
  have h1 := (h.dequeue a).post a _
  State.grantIf_induct (fun _ => h1) (h1.grantStep _)

theorem State.PoolLaw.revokeHold {s : State} (h : s.PoolLaw) (a : Agent) (l : LockNum) :
    (s.revokeHold a l).PoolLaw := by
  unfold State.revokeHold
  simp only
  split <;> split
  · exact ((h.removeHold a l).dequeue a).setLock _ _
  · exact (h.removeHold a l).setLock _ _
  · exact (h.removeHold a l).dequeue a
  · exact h.removeHold a l

theorem State.PoolLaw.revokeLease {s : State} (h : s.PoolLaw) (a : Agent) (l : LockNum) :
    (s.revokeLease a l).PoolLaw := by
  have h1 : (s.revokeReported a l).PoolLaw := State.revokeReported_induct (h.revokeHold a l) fun _ _ _ h => h.post _ _
  exact State.grantIf_induct (fun _ => h1) (h1.grantStep l)

theorem State.PoolLaw.expiryOf {s : State} (h : s.PoolLaw) (e : EntryNum) : (s.expiryOf e).PoolLaw := by
  unfold State.expiryOf
  split
  · unfold State.waitExpired
    simp only
    split
    · exact h.withFree e
    · exact (h.withFree e).timeOut _ _
  · unfold State.leaseExpired
    simp only
    split
    · exact (h.withFree e).revokeLease _ _
    · exact h.withFree e
  · next he => exact h.of_du (h.pool.dropExpiry fun _ _ _ _ _ hc => by rw [he] at hc; exact absurd hc (by simp)) rfl
  · next he => exact h.of_du (h.pool.dropExpiry fun _ _ _ _ _ hc => by rw [he] at hc; exact absurd hc (by simp)) rfl

theorem State.PoolLaw.heldTick {s : State} (h : s.PoolLaw) : s.heldTick.PoolLaw :=
  h.of_du (h.pool.tick.of_eq rfl rfl rfl rfl) rfl

theorem State.PoolLaw.settle {s : State} (h : s.PoolLaw) : s.settle.PoolLaw :=
  State.settle_induct (P := State.PoolLaw) (fun _ e h => h.expiryOf e) (fun _ h => h.heldTick) h

theorem State.PoolLaw.drain {s : State} (h : s.PoolLaw) : s.drain.PoolLaw :=
  State.drain_induct (P := State.PoolLaw) (fun _ e h => h.expiryOf e) h

theorem State.PoolLaw.takeExpiry {s : State} (h : s.PoolLaw) : s.takeExpiry.PoolLaw :=
  State.takeExpiry_induct (fun _ e h => h.expiryOf e) h

/-! ### The durations that a command can carry -/

/-- A duration field of 20 bits that asks a duration asks one in range (00_scope.md, Durations and time). -/
theorem duration_law {b : BitVec 20} {n : Nat} (h : duration b.toNat = some n) : DurationLaw n := by
  unfold duration at h
  split at h
  · exact absurd h (by simp)
  · injection h with h
    have := b.isLt
    constructor
    · omega
    · show n ≤ 1048575
      omega

theorem State.PoolLaw.grantNow {s : State} (h : s.PoolLaw) (a : Agent) (l : LockNum) (m : Mode) {d : Option Nat}
    (hd : ∀ n, d = some n → DurationLaw n) (e : Option EntryNum) : (s.grantNow a l m d e).PoolLaw := by
  unfold State.grantNow
  simp only
  split
  · exact h.of_du (h.pool.arm _ _ _ _ (hd _ rfl)) rfl
  · exact h.of_eq rfl rfl

theorem State.PoolLaw.joinQueue {s : State} (h : s.PoolLaw) (a : Agent) (l : LockNum) (m : Mode)
    {timeout lease : Option Nat} (ht : ∀ n, timeout = some n → DurationLaw n)
    (hl : ∀ n, lease = some n → DurationLaw n) {e : Option EntryNum}
    (he : ∀ x, e = some x → s.du.entries.get x = .free) : (s.joinQueue a l m timeout lease e).PoolLaw := by
  refine ⟨?_, ?_⟩
  · show (s.du.atQueue e timeout a l).PoolLaw
    unfold DeadlineUnit.atQueue
    split
    · exact h.pool.arm _ _ _ _ (ht _ rfl)
    · exact h.pool.reserve (he _ rfl) _ _
    · exact h.pool
  · intro b q hq
    change ((s.setRequest a _).request b) = some q at hq
    rw [State.setRequest_request] at hq
    split at hq
    · injection hq with hq
      subst hq
      exact ⟨ht, hl⟩
    · exact h.durations b q hq

end Sys2Proof.Machine
end

