-- ==== Sys2Proof/Laws/LockTable.lean ====
section
/-! SUPPORT. The laws of the lock table and of queue order (R2, R7, R45, R48, R50 to R52, R58, R118) in the middle of an
event, and under the grant step. -/

namespace Sys2Proof.Machine

/-- The laws of the lock table in the middle of an event: lock `x`, if any, may be FREE with waiters (R52). -/
structure State.MidLaw (x : Option LockNum) (s : State) : Prop where
  records : ∀ l, (s.lock l).Law
  once : ∀ l, (s.lock l).queue.Nodup
  joined : ∀ l a, a ∈ (s.lock l).queue ↔ ∃ q, s.request a = some q ∧ q.lock = l
  upgrade : ∀ a q, s.request a = some q → q.mode = .upgrade →
    (s.lock q.lock).queue.head? = some a ∧ (s.lock q.lock).holds a = true ∧ (s.lock q.lock).state = .shared
  waiter : ∀ a q, s.request a = some q → q.mode ≠ .upgrade → (s.lock q.lock).holds a = false
  shared : ∀ a q, s.request a = some q → q.mode = .shared → (s.lock q.lock).sharedAllowed = true
  free : ∀ l, x ≠ some l → (s.lock l).state = .free → (s.lock l).queue = []
  bypass : ∀ a q, s.request a = some q → q.bypass ≤ (s.lock q.lock).bypassCap
  members : s.MemberLaw
  order : s.OrderLaw

/-- Between events the laws are those of Safety.lean. -/
theorem State.midLaw_iff (s : State) : s.MidLaw none ↔ s.LockTableLaw ∧ s.OrderLaw := by
  constructor
  · intro h
    exact ⟨⟨h.records, ⟨h.once, h.joined, h.upgrade, h.waiter, h.shared, fun l => h.free l (by simp), h.bypass⟩,
      h.members⟩, h.order⟩
  · rintro ⟨⟨hr, hq, hm⟩, ho⟩
    exact ⟨hr, hq.once, hq.joined, hq.upgrade, hq.waiter, hq.shared, fun l _ => hq.free l, hq.bypass, hm, ho⟩

theorem State.MidLaw.weaken {s : State} (h : s.MidLaw none) (x : Option LockNum) : s.MidLaw x :=
  { h with free := fun l _ => h.free l (by simp) }

/-- The lock `l` settles: the law of a FREE lock holds of it too. -/
theorem State.MidLaw.close {s : State} {l : LockNum} (h : s.MidLaw (some l))
    (hl : (s.lock l).state = .free → (s.lock l).queue = []) : s.MidLaw none :=
  { h with
    free := fun k _ => by
      by_cases hk : l = k
      · subst hk; exact hl
      · exact h.free k (by simpa using hk) }

/-- What the laws of the lock table read. -/
structure State.SameTable (s t : State) : Prop where
  locks : ∀ l, t.lock l = s.lock l
  requests : ∀ a, t.request a = s.request a
  states : ∀ a, (t.agent a).state = (s.agent a).state
  pointer : t.purge.pointer = s.purge.pointer
  arrival : t.nextArrival = s.nextArrival

theorem State.SameTable.refl (s : State) : s.SameTable s := ⟨fun _ => rfl, fun _ => rfl, fun _ => rfl, rfl, rfl⟩

/-- An event at the Lock Engine that keeps locks and requests keeps the table. -/
theorem State.EngineFrame.sameTable {s t : State} (f : s.EngineFrame t) (hl : ∀ l, t.lock l = s.lock l)
    (hr : ∀ a, t.request a = s.request a) : s.SameTable t :=
  ⟨hl, hr, f.agent_state, by rw [f.purge], f.nextArrival⟩

/-- Two waiters keep their order when their records keep rank and arrival. -/
theorem State.precedes_congr {s t : State} {a b : Agent} (ha : t.request a = s.request a)
    (hb : t.request b = s.request b) : t.precedes a b = s.precedes a b := by
  unfold State.precedes; rw [ha, hb]

theorem State.MidLaw.congr {s t : State} {x : Option LockNum} (h : s.MidLaw x) (e : s.SameTable t) : t.MidLaw x where
  records l := by rw [e.locks]; exact h.records l
  once l := by rw [e.locks]; exact h.once l
  joined l a := by rw [e.locks, e.requests]; exact h.joined l a
  upgrade a q := by rw [e.locks, e.requests]; exact h.upgrade a q
  waiter a q := by rw [e.locks, e.requests]; exact h.waiter a q
  shared a q := by rw [e.locks, e.requests]; exact h.shared a q
  free l := by rw [e.locks]; exact h.free l
  bypass a q := by rw [e.locks, e.requests]; exact h.bypass a q
  members :=
    { waiting := fun a => by rw [e.requests, e.states]; exact h.members.waiting a
      offline := fun a ha l => by rw [e.locks]; exact h.members.offline a (by rwa [e.states] at ha) l
      purging := fun a ha l hl => by
        rw [e.locks]
        exact h.members.purging a (by rwa [e.states] at ha) l (by rwa [e.pointer] at hl) }
  order :=
    { ordered := fun l => by
        rw [e.locks]
        exact (h.order.ordered l).imp fun hp => by
          rwa [State.precedes_congr (e.requests _) (e.requests _)]
      early := fun a q => by rw [e.requests, e.arrival]; exact h.order.early a q
      apart := fun a b p q => by rw [e.requests, e.requests]; exact h.order.apart a b p q }

theorem State.post_sameTable (s : State) (a : Agent) (n : Notice) : s.SameTable (s.post a n) :=
  (s.post_frame a n).sameTable (fun l => s.post_lock a n l) (fun b => s.post_request a n b)

/-- Queues that only lose waiters keep their order (R48). -/
theorem State.OrderLaw.of_sub {s t : State} (h : s.OrderLaw)
    (hq : ∀ l, (t.lock l).queue.Sublist (s.lock l).queue)
    (hr : ∀ l b, b ∈ (t.lock l).queue → t.request b = s.request b)
    (he : ∀ b p, t.request b = some p → ∃ p', s.request b = some p' ∧ p'.arrival = p.arrival)
    (hn : t.nextArrival = s.nextArrival) : t.OrderLaw where
  ordered l := by
    refine (List.Pairwise.and_mem.mp ((h.ordered l).sublist (hq l))).imp ?_
    intro b c ⟨hb, hc, hp⟩
    rwa [State.precedes_congr (s := s) (hr l b hb) (hr l c hc)]
  early b p hb := by
    obtain ⟨p', hp', ha⟩ := he b p hb
    rw [hn, ← ha]
    exact h.early b p' hp'
  apart b c p p' hb hc ha := by
    obtain ⟨x, hx, hxa⟩ := he b p hb
    obtain ⟨y, hy, hya⟩ := he c p' hc
    exact h.apart b c x y hx hy (by rw [hxa, hya, ha])

/-! ### Facts of a state that has the laws -/

theorem State.MidLaw.request_lock {s : State} {x : Option LockNum} (h : s.MidLaw x) {l : LockNum} {a : Agent}
    (ha : a ∈ (s.lock l).queue) : ∃ q, s.request a = some q ∧ q.lock = l := (h.joined l a).mp ha

theorem State.MidLaw.mem_queue {s : State} {x : Option LockNum} (h : s.MidLaw x) {a : Agent} {q : PendingRequest}
    (hq : s.request a = some q) : a ∈ (s.lock q.lock).queue := (h.joined _ a).mpr ⟨q, hq, rfl⟩

/-- No request on lock `l` is an UPGRADE. -/
def State.NoUpgrade (s : State) (l : LockNum) : Prop :=
  ∀ a q, s.request a = some q → q.lock = l → q.mode ≠ .upgrade

/-- R50: an UPGRADE is queued only on a SHARED lock. -/
theorem State.MidLaw.noUpgrade_of_state {s : State} {x : Option LockNum} (h : s.MidLaw x) {l : LockNum}
    (hl : (s.lock l).state ≠ .shared) : s.NoUpgrade l := by
  rintro a q hq rfl hm
  exact hl (h.upgrade a q hq hm).2.2

/-- R50: with another request at the head, the queue holds no UPGRADE. -/
theorem State.MidLaw.noUpgrade_of_head {s : State} {x : Option LockNum} (h : s.MidLaw x) {a : Agent}
    {q : PendingRequest} (hq : s.request a = some q) (hm : q.mode ≠ .upgrade)
    (hh : (s.lock q.lock).queue.head? = some a) : s.NoUpgrade q.lock := by
  intro b p hp hl hpm
  have := (h.upgrade b p hp hpm).1
  rw [hl, hh] at this
  injection this with this
  subst this
  rw [hq] at hp
  injection hp with hp
  subst hp
  exact hm hpm

/-! ### A waiter is granted (R55) -/

theorem State.MidLaw.seatWaiter {s : State} {l : LockNum} (h : s.MidLaw (some l)) {a : Agent} {q : PendingRequest}
    (hq : s.request a = some q) (hl : q.lock = l) (hup : s.NoUpgrade l)
    (fits : (q.mode = .exclusive ∧ (s.lock l).state = .free) ∨ (q.mode = .shared ∧ (s.lock l).state ≠ .exclusive)) :
    (s.seatWaiter l a q).MidLaw (some l) := by
  have hlock := s.seatWaiter_lock l a q
  have hself : (s.seatWaiter l a q).lock l =
      ({ s.lock l with queue := (s.lock l).queue.filter (· != a) }).withHolder a q.mode.lockState q.grantedLease := by
    rw [hlock, if_pos rfl]
  have hne : ∀ {k}, k ≠ l → (s.seatWaiter l a q).lock k = s.lock k := fun hk => by rw [hlock, if_neg hk]
  have hreq := s.seatWaiter_request l a q
  have hrq : ∀ {b p}, (s.seatWaiter l a q).request b = some p → b ≠ a ∧ s.request b = some p := fun {b p} hb => by
    rw [hreq] at hb
    split at hb
    · exact absurd hb (by simp)
    · next hba => exact ⟨hba, hb⟩
  have hholds : ∀ b, ((s.seatWaiter l a q).lock l).holds b = ((s.lock l).holds b || b == a) := fun b => by
    rw [hself, LockRecord.withHolder_holds]; rfl
  have hstate : ((s.seatWaiter l a q).lock l).state = q.mode.lockState := by rw [hself]; rfl
  have hqueue : ((s.seatWaiter l a q).lock l).queue = (s.lock l).queue.filter (· != a) := by rw [hself]; rfl
  have hallow : ((s.seatWaiter l a q).lock l).sharedAllowed = (s.lock l).sharedAllowed := by rw [hself]; rfl
  have hcap : ((s.seatWaiter l a q).lock l).bypassCap = (s.lock l).bypassCap := by rw [hself]; rfl
  have hon : (s.agent a).state = .online := h.members.waiting a (by rw [hq]; simp)
  refine ⟨?_, ?_, ?_, ?_, ?_, ?_, ?_, ?_, ?_, ?_⟩
  · intro k
    by_cases hk : k = l
    · subst hk
      refine ⟨?_, ?_, ?_, ?_⟩
      · intro hf
        rw [hstate] at hf
        rcases fits with ⟨hm, -⟩ | ⟨hm, -⟩ <;> rw [hm] at hf <;> exact absurd hf (by decide)
      · intro he
        rw [hstate] at he
        rcases fits with ⟨hm, hf⟩ | ⟨hm, -⟩
        · refine ⟨a, fun b => ?_⟩
          rw [hholds, (h.records k).free hf b]
          simp
        · rw [hm] at he; exact absurd he (by decide)
      · intro hs
        rw [hstate] at hs
        refine ⟨⟨a, by rw [hholds]; simp⟩, ?_⟩
        rcases fits with ⟨hm, -⟩ | ⟨hm, -⟩
        · rw [hm] at hs; exact absurd hs (by decide)
        · rw [hallow, ← hl]; exact h.shared a q hq hm
      · intro hr
        rw [hself] at hr
        exact absurd hr (by simp)
    · rw [hne hk]; exact h.records k
  · intro k
    by_cases hk : k = l
    · subst hk; rw [hqueue]; exact (h.once k).filter _
    · rw [hne hk]; exact h.once k
  · intro k b
    rw [hreq]
    by_cases hk : k = l
    · subst hk
      rw [hqueue]
      by_cases hb : b = a
      · simp [hb]
      · simp [hb, h.joined]
    · rw [hne hk]
      by_cases hb : b = a
      · subst hb
        have : b ∉ (s.lock k).queue := fun hin => by
          obtain ⟨p, hp, hpl⟩ := (h.joined k b).mp hin
          rw [hq] at hp
          injection hp with hp
          subst hp
          exact hk (hpl.symm.trans hl)
        simp [this]
      · simp [hb, h.joined]
  · intro b p hb hm
    obtain ⟨hba, hp⟩ := hrq hb
    have hpl : p.lock ≠ l := fun hc => hup b p hp hc hm
    rw [hne hpl]
    exact h.upgrade b p hp hm
  · intro b p hb hm
    obtain ⟨hba, hp⟩ := hrq hb
    by_cases hpl : p.lock = l
    · rw [hpl, hholds]
      have := h.waiter b p hp hm
      rw [hpl] at this
      simp [this, hba]
    · rw [hne hpl]; exact h.waiter b p hp hm
  · intro b p hb hm
    obtain ⟨hba, hp⟩ := hrq hb
    by_cases hpl : p.lock = l
    · have := h.shared b p hp hm
      rw [hpl] at this ⊢
      rw [hallow]; exact this
    · rw [hne hpl]; exact h.shared b p hp hm
  · intro k hk hf
    have hk' : k ≠ l := fun hc => hk (by rw [hc])
    rw [hne hk'] at hf ⊢
    exact h.free k hk hf
  · intro b p hb
    obtain ⟨hba, hp⟩ := hrq hb
    by_cases hpl : p.lock = l
    · have := h.bypass b p hp
      rw [hpl] at this ⊢
      rw [hcap]; exact this
    · rw [hne hpl]; exact h.bypass b p hp
  · refine ⟨?_, ?_, ?_⟩
    · intro b hb
      rw [hreq] at hb
      split at hb
      · exact absurd rfl hb
      · exact h.members.waiting b hb
    · intro b hb k
      have hba : b ≠ a := fun hc => by
        subst hc
        have hb' : (s.agent b).state = .offline := hb
        rw [hon] at hb'
        exact absurd hb' (by decide)
      have := h.members.offline b hb k
      by_cases hk : k = l
      · subst hk; rw [hholds, this]; simp [hba]
      · rw [hne hk]; exact this
    · intro b hb k hkp
      have hba : b ≠ a := fun hc => by
        subst hc
        have hb' : (s.agent b).state = .purging := hb
        rw [hon] at hb'
        exact absurd hb' (by decide)
      have := h.members.purging b hb k hkp
      by_cases hk : k = l
      · subst hk; rw [hholds, this]; simp [hba]
      · rw [hne hk]; exact this
  · refine h.order.of_sub (fun k => ?_) (fun k b hb => ?_) (fun b p hb => ⟨p, (hrq hb).2, rfl⟩) rfl
    · by_cases hk : k = l
      · subst hk; rw [hqueue]; exact List.filter_sublist
      · rw [hne hk]
    · rw [hreq, if_neg]
      rintro rfl
      by_cases hk : k = l
      · subst hk; rw [hqueue] at hb; simp at hb
      · rw [hne hk] at hb
        obtain ⟨p, hp, hpl⟩ := (h.joined k b).mp hb
        rw [hq] at hp
        injection hp with hp
        subst hp
        exact hk (hpl.symm.trans hl)

end Sys2Proof.Machine
end

