-- ==== Sys2Proof/Laws/GrantLaw.lean ====
section
/-! SUPPORT. The laws of the lock table under the grant step: conversion (R57), bypass counting (R58), promotion (R59)
and the runs of R60; after it no FREE lock has a waiter (R52). -/

namespace Sys2Proof.Machine

/-! ### The order of R48 -/

theorem State.precedes_iff {s : State} {a b : Agent} : s.precedes a b = true ↔
    ∃ p q, s.request a = some p ∧ s.request b = some q ∧
      (p.rank < q.rank ∨ (p.rank = q.rank ∧ p.arrival < q.arrival)) := by
  unfold State.precedes
  constructor
  · intro h
    split at h
    · next p q hp hq =>
      refine ⟨p, q, hp, hq, ?_⟩
      simpa [PendingRequest.precedes] using h
    · exact absurd h (by simp)
  · rintro ⟨p, q, hp, hq, h⟩
    simp [hp, hq, PendingRequest.precedes, h]

theorem State.precedes_irrefl (s : State) (a : Agent) : s.precedes a a ≠ true := by
  rw [Ne, State.precedes_iff]
  rintro ⟨p, q, hp, hq, h⟩
  rw [hp] at hq
  injection hq with hq
  subst hq
  omega

theorem State.precedes_trans {s : State} {a b c : Agent} (h : s.precedes a b = true) (g : s.precedes b c = true) :
    s.precedes a c = true := by
  rw [State.precedes_iff] at *
  obtain ⟨p, q, hp, hq, h⟩ := h
  obtain ⟨q', r, hq', hr, g⟩ := g
  rw [hq] at hq'
  injection hq' with hq'
  subst hq'
  exact ⟨p, r, hp, hr, by omega⟩

/-- Two waiters of different arrival stand one ahead of the other. -/
theorem State.precedes_total {s : State} {a b : Agent} {p q : PendingRequest} (hp : s.request a = some p)
    (hq : s.request b = some q) (h : p.arrival ≠ q.arrival) : s.precedes a b = true ∨ s.precedes b a = true := by
  simp only [State.precedes_iff]
  by_cases hr : p.rank < q.rank ∨ (p.rank = q.rank ∧ p.arrival < q.arrival)
  · exact Or.inl ⟨p, q, hp, hq, hr⟩
  · exact Or.inr ⟨q, p, hq, hp, by omega⟩

/-- R49: the members of a queue after a placing. -/
theorem State.mem_place (s : State) (a b : Agent) (xs : List Agent) : b ∈ s.place a xs ↔ b = a ∨ b ∈ xs := by
  induction xs with
  | nil => simp [State.place]
  | cons x xs ih =>
    unfold State.place
    split
    · simp
    · simp only [List.mem_cons, ih]; tauto

/-- R49: placing keeps the order. -/
theorem State.place_pairwise (s : State) (a : Agent) : ∀ {xs : List Agent},
    (xs.Pairwise fun b c => s.precedes b c = true) →
    (∀ b ∈ xs, s.precedes a b = true ∨ s.precedes b a = true) →
    (s.place a xs).Pairwise fun b c => s.precedes b c = true := by
  intro xs
  induction xs with
  | nil => intro _ _; simp [State.place]
  | cons x xs ih =>
    intro hp ht
    unfold State.place
    split
    · next hax =>
      rw [List.pairwise_cons]
      refine ⟨fun y hy => ?_, hp⟩
      rcases List.mem_cons.mp hy with rfl | hy
      · exact hax
      · exact State.precedes_trans hax (List.rel_of_pairwise_cons hp hy)
    · next hax =>
      rw [List.pairwise_cons] at hp ⊢
      refine ⟨fun y hy => ?_, ih hp.2 fun b hb => ht b (List.mem_cons_of_mem _ hb)⟩
      rcases (State.mem_place ..).mp hy with rfl | hy
      · exact (ht x List.mem_cons_self).resolve_left hax
      · exact hp.1 y hy

theorem State.nodup_of_ordered {s : State} {xs : List Agent}
    (h : xs.Pairwise fun b c => s.precedes b c = true) : xs.Nodup :=
  h.imp fun {b c} hp he => by subst he; exact s.precedes_irrefl b hp

/-- R59: placing several waiters. -/
theorem State.foldl_place (s : State) : ∀ (ps xs : List Agent),
    (xs.Pairwise fun b c => s.precedes b c = true) → ps.Nodup → (∀ b ∈ ps, b ∉ xs) →
    (∀ b ∈ ps, ∀ c, (c ∈ xs ∨ c ∈ ps) → c ≠ b → s.precedes b c = true ∨ s.precedes c b = true) →
    ((ps.foldl (fun q a => s.place a q) xs).Pairwise fun b c => s.precedes b c = true) ∧
      ∀ b, b ∈ ps.foldl (fun q a => s.place a q) xs ↔ b ∈ ps ∨ b ∈ xs := by
  intro ps
  induction ps with
  | nil => intro xs h _ _ _; exact ⟨h, by simp⟩
  | cons p ps ih =>
    intro xs h hn hd ht
    rw [List.nodup_cons] at hn
    have h1 := s.place_pairwise p h fun b hb =>
      ht p List.mem_cons_self b (Or.inl hb) fun e => hd p List.mem_cons_self (e ▸ hb)
    have h2 := ih (s.place p xs) h1 hn.2
      (fun b hb hc => by
        rcases (State.mem_place ..).mp hc with rfl | hc
        · exact hn.1 hb
        · exact hd b (List.mem_cons_of_mem _ hb) hc)
      (fun b hb c hc hcb => by
        refine ht b (List.mem_cons_of_mem _ hb) c ?_ hcb
        rcases hc with hc | hc
        · rcases (State.mem_place ..).mp hc with rfl | hc
          · exact Or.inr List.mem_cons_self
          · exact Or.inl hc
        · exact Or.inr (List.mem_cons_of_mem _ hc))
    refine ⟨h2.1, fun b => ?_⟩
    rw [List.foldl_cons, h2.2, State.mem_place, List.mem_cons]
    tauto

/-! ### Conversion (R57) -/

theorem LockRecord.soleHolder_iff {r : LockRecord} {a : Agent} :
    r.soleHolder a = true ↔ ∀ b, r.holds b = true ↔ b = a := by
  unfold LockRecord.soleHolder
  simp only [Bool.and_eq_true, List.all_eq_true, mem_allAgents, Bool.or_eq_true, Bool.not_eq_true', beq_iff_eq,
    forall_true_left]
  constructor
  · rintro ⟨ha, h⟩ b
    constructor
    · intro hb
      rcases h b with h | h
      · rw [hb] at h; exact absurd h (by simp)
      · exact h
    · rintro rfl; exact ha
  · intro h
    refine ⟨(h a).mpr rfl, fun b => ?_⟩
    by_cases hb : r.holds b = true
    · exact Or.inr ((h b).mp hb)
    · exact Or.inl (by simpa using hb)

theorem State.MidLaw.seatUpgrade {s : State} {l : LockNum} (h : s.MidLaw (some l)) {a : Agent} {q : PendingRequest}
    (hq : s.request a = some q) (hl : q.lock = l) (hm : q.mode = .upgrade)
    (sole : (s.lock l).soleHolder a = true) : (s.seatUpgrade l a q).MidLaw none := by
  have hlock := s.seatUpgrade_lock l a q
  have hself : (s.seatUpgrade l a q).lock l =
      { s.lock l with queue := (s.lock l).queue.filter (· != a), state := .exclusive } := by
    rw [hlock, if_pos rfl]
  have hne : ∀ {k}, k ≠ l → (s.seatUpgrade l a q).lock k = s.lock k := fun hk => by rw [hlock, if_neg hk]
  have hreq := s.seatUpgrade_request l a q
  have hrq : ∀ {b p}, (s.seatUpgrade l a q).request b = some p → b ≠ a ∧ s.request b = some p := fun {b p} hb => by
    rw [hreq] at hb
    split at hb
    · exact absurd hb (by simp)
    · next hba => exact ⟨hba, hb⟩
  have hholds : ∀ k b, ((s.seatUpgrade l a q).lock k).holds b = (s.lock k).holds b := fun k b => by
    rw [hlock]; split
    · next hk => subst hk; rfl
    · rfl
  have hqueue : ((s.seatUpgrade l a q).lock l).queue = (s.lock l).queue.filter (· != a) := by rw [hself]
  have hallow : ∀ k, ((s.seatUpgrade l a q).lock k).sharedAllowed = (s.lock k).sharedAllowed := fun k => by
    rw [hlock]; split
    · next hk => subst hk; rfl
    · rfl
  have hcap : ∀ k, ((s.seatUpgrade l a q).lock k).bypassCap = (s.lock k).bypassCap := fun k => by
    rw [hlock]; split
    · next hk => subst hk; rfl
    · rfl
  have hup := h.upgrade a q hq hm
  rw [hl] at hup
  refine ⟨?_, ?_, ?_, ?_, ?_, ?_, ?_, ?_, ?_, ?_⟩
  · intro k
    by_cases hk : k = l
    · subst hk
      refine ⟨?_, fun _ => ⟨a, fun b => ?_⟩, ?_, ?_⟩
      · intro hf; rw [hself] at hf; exact absurd hf (by simp)
      · rw [hholds]; exact LockRecord.soleHolder_iff.mp sole b
      · intro hs; rw [hself] at hs; exact absurd hs (by simp)
      · intro hr
        rw [hself] at hr
        have := (h.records k).recovered hr
        rw [hup.2.2] at this
        exact absurd this (by simp)
    · rw [hne hk]; exact h.records k
  · intro k
    by_cases hk : k = l
    · subst hk; rw [hqueue]; exact (h.once k).filter _
    · rw [hne hk]; exact h.once k
  · intro k b
    rw [hreq]
    by_cases hk : k = l
    · subst hk
      rw [hqueue]
      by_cases hb : b = a
      · simp [hb]
      · simp [hb, h.joined]
    · rw [hne hk]
      by_cases hb : b = a
      · subst hb
        have : b ∉ (s.lock k).queue := fun hin => by
          obtain ⟨p, hp, hpl⟩ := (h.joined k b).mp hin
          rw [hq] at hp
          injection hp with hp
          subst hp
          exact hk (hpl.symm.trans hl)
        simp [this]
      · simp [hb, h.joined]
  · intro b p hb hpm
    obtain ⟨hba, hp⟩ := hrq hb
    have hpl : p.lock ≠ l := fun hc => by
      have := (h.upgrade b p hp hpm).1
      rw [hc, hup.1] at this
      injection this with this
      exact hba this.symm
    rw [hne hpl]
    exact h.upgrade b p hp hpm
  · intro b p hb hpm
    rw [hholds]
    exact h.waiter b p (hrq hb).2 hpm
  · intro b p hb hpm
    rw [hallow]
    exact h.shared b p (hrq hb).2 hpm
  · intro k _ hf
    by_cases hk : k = l
    · subst hk; rw [hself] at hf; exact absurd hf (by simp)
    · rw [hne hk] at hf ⊢
      exact h.free k (by simpa using fun hc => hk hc.symm) hf
  · intro b p hb
    rw [hcap]
    exact h.bypass b p (hrq hb).2
  · refine ⟨?_, ?_, ?_⟩
    · intro b hb
      rw [hreq] at hb
      split at hb
      · exact absurd rfl hb
      · exact h.members.waiting b hb
    · intro b hb k; rw [hholds]; exact h.members.offline b hb k
    · intro b hb k hkp; rw [hholds]; exact h.members.purging b hb k hkp
  · refine h.order.of_sub (fun k => ?_) (fun k b hb => ?_) (fun b p hb => ⟨p, (hrq hb).2, rfl⟩) rfl
    · by_cases hk : k = l
      · subst hk; rw [hqueue]; exact List.filter_sublist
      · rw [hne hk]
    · rw [hreq, if_neg]
      rintro rfl
      by_cases hk : k = l
      · subst hk; rw [hqueue] at hb; simp at hb
      · rw [hne hk] at hb
        obtain ⟨p, hp, hpl⟩ := (h.joined k b).mp hb
        rw [hq] at hp
        injection hp with hp
        subst hp
        exact hk (hpl.symm.trans hl)

/-! ### Bypass counting and promotion (R58, R59) -/

/-- A change of requests that keeps lock, mode, rank, arrival and the ceiling of the count keeps the laws. -/
theorem State.MidLaw.of_requests {s t : State} {x : Option LockNum} (h : s.MidLaw x)
    (hl : ∀ k, t.lock k = s.lock k) (hs : ∀ b, (t.agent b).state = (s.agent b).state)
    (hp : t.purge.pointer = s.purge.pointer) (hn : t.nextArrival = s.nextArrival)
    (back : ∀ b q, s.request b = some q → ∃ q', t.request b = some q')
    (forth : ∀ b q', t.request b = some q' → ∃ q, s.request b = some q ∧ q'.lock = q.lock ∧ q'.mode = q.mode ∧
      q'.rank = q.rank ∧ q'.arrival = q.arrival ∧ (q'.bypass ≤ (s.lock q.lock).bypassCap)) : t.MidLaw x := by
  have hprec : ∀ {b c}, s.precedes b c = true → t.precedes b c = true := fun {b c} hb => by
    rw [State.precedes_iff] at hb ⊢
    obtain ⟨p, q, hp, hq, hr⟩ := hb
    obtain ⟨p', hp'⟩ := back b p hp
    obtain ⟨q', hq'⟩ := back c q hq
    obtain ⟨p0, e0, -, -, r0, a0, -⟩ := forth b p' hp'
    obtain ⟨q0, e1, -, -, r1, a1, -⟩ := forth c q' hq'
    rw [hp] at e0; injection e0 with e0; subst e0
    rw [hq] at e1; injection e1 with e1; subst e1
    exact ⟨p', q', hp', hq', by rw [r0, r1, a0, a1]; exact hr⟩
  refine ⟨fun l => by rw [hl]; exact h.records l, fun l => by rw [hl]; exact h.once l, ?_, ?_, ?_, ?_,
    fun l => by rw [hl]; exact h.free l, ?_, ?_, ?_⟩
  · intro l a
    rw [hl, h.joined]
    constructor
    · rintro ⟨q, hq, hql⟩
      obtain ⟨q', hq'⟩ := back a q hq
      obtain ⟨q0, e0, l0, -⟩ := forth a q' hq'
      rw [hq] at e0; injection e0 with e0; subst e0
      exact ⟨q', hq', l0.trans hql⟩
    · rintro ⟨q', hq', hql⟩
      obtain ⟨q, hq, l0, -⟩ := forth a q' hq'
      exact ⟨q, hq, l0.symm.trans hql⟩
  · intro a q' hq' hm
    obtain ⟨q, hq, l0, m0, -⟩ := forth a q' hq'
    rw [hl, l0]
    exact h.upgrade a q hq (m0.symm.trans hm)
  · intro a q' hq' hm
    obtain ⟨q, hq, l0, m0, -⟩ := forth a q' hq'
    rw [hl, l0]
    exact h.waiter a q hq (by rwa [← m0])
  · intro a q' hq' hm
    obtain ⟨q, hq, l0, m0, -⟩ := forth a q' hq'
    rw [hl, l0]
    exact h.shared a q hq (m0.symm.trans hm)
  · intro a q' hq'
    obtain ⟨q, hq, l0, -, -, -, b0⟩ := forth a q' hq'
    rw [hl, l0]
    exact b0
  · refine ⟨?_, ?_, ?_⟩
    · intro a ha
      rw [hs]
      apply h.members.waiting
      intro hc
      cases hq' : t.request a with
      | none => exact ha hq'
      | some q' =>
        obtain ⟨q, hq, -⟩ := forth a q' hq'
        rw [hc] at hq
        exact absurd hq (by simp)
    · intro a ha l
      rw [hs] at ha
      rw [hl]
      exact h.members.offline a ha l
    · intro a ha l hlp
      rw [hs] at ha
      rw [hp] at hlp
      rw [hl]
      exact h.members.purging a ha l hlp
  · refine ⟨?_, ?_, ?_⟩
    · intro l
      rw [hl]
      exact (h.order.ordered l).imp hprec
    · intro a q' hq'
      obtain ⟨q, hq, -, -, -, a0, -⟩ := forth a q' hq'
      rw [hn, a0]
      exact h.order.early a q hq
    · intro a b p' q' hp' hq' ha
      obtain ⟨p, hp, -, -, -, a0, -⟩ := forth a p' hp'
      obtain ⟨q, hq, -, -, -, a1, -⟩ := forth b q' hq'
      exact h.order.apart a b p q hp hq (by rw [← a0, ← a1, ha])

theorem bypassNext_le (r : LockRecord) (n : Nat) : bypassNext r.bypassLimit n ≤ r.bypassCap := by
  unfold bypassNext LockRecord.bypassCap
  exact Nat.min_le_right ..

theorem State.MidLaw.countPassed {s : State} {x : Option LockNum} (h : s.MidLaw x) (l : LockNum) (ns : List Nat) :
    (s.countPassed l ns).MidLaw x := by
  refine h.of_requests (fun _ => rfl) (fun _ => rfl) rfl rfl ?_ ?_
  · intro b q hq
    rw [State.countPassed_request, hq]
    split
    · exact ⟨_, rfl⟩
    · exact ⟨q, rfl⟩
  · intro b q' hq'
    rw [State.countPassed_request] at hq'
    split at hq'
    · next hin =>
      rw [Option.map_eq_some_iff] at hq'
      obtain ⟨q, hq, rfl⟩ := hq'
      refine ⟨q, hq, ?_⟩
      obtain ⟨p, hp, hpl⟩ := h.request_lock hin
      rw [hq] at hp; injection hp with hp; subst hp
      split
      · refine ⟨rfl, rfl, ?_, rfl, ?_⟩
        · rfl
        · rw [hpl]; exact bypassNext_le ..
      · exact ⟨rfl, rfl, rfl, rfl, h.bypass b q hq⟩
    · exact ⟨q', hq', rfl, rfl, rfl, rfl, h.bypass b q' hq'⟩

theorem State.NoUpgrade.countPassed {s : State} {l : LockNum} (h : s.NoUpgrade l) (k : LockNum) (ns : List Nat) :
    (s.countPassed k ns).NoUpgrade l := by
  intro b q' hq' hl
  rw [State.countPassed_request] at hq'
  split at hq'
  · rw [Option.map_eq_some_iff] at hq'
    obtain ⟨q, hq, rfl⟩ := hq'
    split at hl
    · rw [if_pos ‹_›]; exact h b q hq hl
    · rw [if_neg ‹_›]; exact h b q hq hl
  · exact h b q' hq' hl

/-- The members of a lock's queue after a promotion. -/
theorem State.promote_lock (s : State) (l : LockNum) (ps : List Agent) (k : LockNum) :
    (s.promote l ps).lock k =
      if k = l then
        { s.lock l with
          queue := ps.foldl (fun q a => (s.toClassZero ps).place a q)
            ((s.lock l).queue.filter fun a => !ps.contains a) }
      else s.lock k := by
  unfold State.promote
  simp only
  rw [State.setLock_lock]
  rfl

theorem State.MidLaw.promote {s : State} {x : Option LockNum} (h : s.MidLaw x) {l : LockNum} (hup : s.NoUpgrade l)
    {ps : List Agent} (hps : ps.Sublist (s.lock l).queue) : (s.promote l ps).MidLaw x := by
  -- the requests after promotion
  have hz := s.toClassZero_request ps
  have back : ∀ b q, s.request b = some q → ∃ q', (s.toClassZero ps).request b = some q' := fun b q hq => by
    rw [hz, hq]
    split
    · exact ⟨_, rfl⟩
    · exact ⟨q, rfl⟩
  have forth : ∀ b q', (s.toClassZero ps).request b = some q' → ∃ q, s.request b = some q ∧ q'.lock = q.lock ∧
      q'.mode = q.mode ∧ q'.arrival = q.arrival ∧ q'.bypass = q.bypass ∧ (b ∉ ps → q' = q) := fun b q' hq' => by
    rw [hz] at hq'
    split at hq'
    · next hin =>
      rw [Option.map_eq_some_iff] at hq'
      obtain ⟨q, hq, rfl⟩ := hq'
      exact ⟨q, hq, rfl, rfl, rfl, rfl, fun hc => absurd hin hc⟩
    · exact ⟨q', hq', rfl, rfl, rfl, rfl, fun _ => rfl⟩
  have hmemps : ∀ {b}, b ∈ ps → b ∈ (s.lock l).queue := fun hb => hps.subset hb
  have houtside : ∀ {k b}, k ≠ l → b ∈ (s.lock k).queue → b ∉ ps := fun {k b} hk hb hc => by
    obtain ⟨p, hp, hpk⟩ := (h.joined k b).mp hb
    obtain ⟨q, hq, hql⟩ := (h.joined l b).mp (hmemps hc)
    rw [hp] at hq; injection hq with hq; subst hq
    exact hk (hpk.symm.trans hql)
  -- the queue after promotion
  have hothers : ((s.lock l).queue.filter fun a => !ps.contains a).Pairwise
      fun b c => (s.toClassZero ps).precedes b c = true := by
    refine (List.Pairwise.and_mem.mp ((h.order.ordered l).filter _)).imp ?_
    intro b c ⟨hb, hc, hp⟩
    have nb : b ∉ ps := by simpa using (List.mem_filter.mp hb).2
    have nc : c ∉ ps := by simpa using (List.mem_filter.mp hc).2
    rwa [State.precedes_congr (s := s) (by rw [hz, if_neg nb]) (by rw [hz, if_neg nc])]
  have hplace := State.foldl_place (s.toClassZero ps) ps _ hothers (hps.nodup (h.once l))
    (fun b hb hc => absurd hb (by simpa using (List.mem_filter.mp hc).2))
    (fun b hb c hc hcb => by
      have hcq : c ∈ (s.lock l).queue := by
        rcases hc with hc | hc
        · exact (List.mem_filter.mp hc).1
        · exact hmemps hc
      obtain ⟨p, hp, -⟩ := (h.joined l b).mp (hmemps hb)
      obtain ⟨q, hq, -⟩ := (h.joined l c).mp hcq
      obtain ⟨p', hp'⟩ := back b p hp
      obtain ⟨q', hq'⟩ := back c q hq
      obtain ⟨p0, e0, -, -, a0, -⟩ := forth b p' hp'
      obtain ⟨q0, e1, -, -, a1, -⟩ := forth c q' hq'
      refine State.precedes_total hp' hq' fun ha => hcb ?_
      exact (h.order.apart b c p0 q0 e0 e1 (by rw [← a0, ← a1, ha])).symm)
  have hlock := s.promote_lock l ps
  have hself : (s.promote l ps).lock l = { s.lock l with
      queue := ps.foldl (fun q a => (s.toClassZero ps).place a q)
        ((s.lock l).queue.filter fun a => !ps.contains a) } := by rw [hlock, if_pos rfl]
  have hne : ∀ {k}, k ≠ l → (s.promote l ps).lock k = s.lock k := fun hk => by rw [hlock, if_neg hk]
  have hmem : ∀ b, b ∈ ((s.promote l ps).lock l).queue ↔ b ∈ (s.lock l).queue := fun b => by
    rw [hself, hplace.2]
    simp only [List.mem_filter, Bool.not_eq_true']
    constructor
    · rintro (hb | hb)
      · exact hmemps hb
      · exact hb.1
    · intro hb
      by_cases hbp : b ∈ ps
      · exact Or.inl hbp
      · exact Or.inr ⟨hb, by simpa using hbp⟩
  have hholds : ∀ k b, ((s.promote l ps).lock k).holds b = (s.lock k).holds b := fun k b => by
    rw [hlock]; split
    · next hk => subst hk; rfl
    · rfl
  have hstate : ∀ k, ((s.promote l ps).lock k).state = (s.lock k).state := fun k => by
    rw [hlock]; split
    · next hk => subst hk; rfl
    · rfl
  have hallow : ∀ k, ((s.promote l ps).lock k).sharedAllowed = (s.lock k).sharedAllowed := fun k => by
    rw [hlock]; split
    · next hk => subst hk; rfl
    · rfl
  have hcap : ∀ k, ((s.promote l ps).lock k).bypassCap = (s.lock k).bypassCap := fun k => by
    rw [hlock]; split
    · next hk => subst hk; rfl
    · rfl
  have hrec : ∀ k, ((s.promote l ps).lock k).recovered = (s.lock k).recovered := fun k => by
    rw [hlock]; split
    · next hk => subst hk; rfl
    · rfl
  refine ⟨?_, ?_, ?_, ?_, ?_, ?_, ?_, ?_, ?_, ?_⟩
  · intro k
    have hr := h.records k
    refine ⟨?_, ?_, ?_, ?_⟩
    · intro hf a; rw [hholds]; exact hr.free (by rwa [hstate] at hf) a
    · intro he
      obtain ⟨a, ha⟩ := hr.exclusive (by rwa [hstate] at he)
      exact ⟨a, fun b => by rw [hholds]; exact ha b⟩
    · intro hs
      obtain ⟨⟨a, ha⟩, hal⟩ := hr.shared (by rwa [hstate] at hs)
      exact ⟨⟨a, by rw [hholds]; exact ha⟩, by rw [hallow]; exact hal⟩
    · intro hrv; rw [hstate]; exact hr.recovered (by rwa [hrec] at hrv)
  · intro k
    by_cases hk : k = l
    · subst hk; rw [hself]; exact State.nodup_of_ordered hplace.1
    · rw [hne hk]; exact h.once k
  · intro k a
    have hk : a ∈ ((s.promote l ps).lock k).queue ↔ a ∈ (s.lock k).queue := by
      by_cases hk : k = l
      · subst hk; exact hmem a
      · rw [hne hk]
    rw [hk, h.joined, State.promote_request]
    constructor
    · rintro ⟨q, hq, hql⟩
      obtain ⟨q', hq'⟩ := back a q hq
      obtain ⟨q0, e0, l0, -⟩ := forth a q' hq'
      rw [hq] at e0; injection e0 with e0; subst e0
      exact ⟨q', hq', l0.trans hql⟩
    · rintro ⟨q', hq', hql⟩
      obtain ⟨q, hq, l0, -⟩ := forth a q' hq'
      exact ⟨q, hq, l0.symm.trans hql⟩
  · intro a q' hq' hm
    obtain ⟨q, hq, l0, m0, -⟩ := forth a q' hq'
    have hql : q.lock ≠ l := fun hc => hup a q hq hc (m0.symm.trans hm)
    rw [l0, hne hql]
    exact h.upgrade a q hq (m0.symm.trans hm)
  · intro a q' hq' hm
    obtain ⟨q, hq, l0, m0, -⟩ := forth a q' hq'
    rw [l0, hholds]
    exact h.waiter a q hq (by rwa [← m0])
  · intro a q' hq' hm
    obtain ⟨q, hq, l0, m0, -⟩ := forth a q' hq'
    rw [l0, hallow]
    exact h.shared a q hq (m0.symm.trans hm)
  · intro k hk hf
    rw [hstate] at hf
    have := h.free k hk hf
    rw [List.eq_nil_iff_forall_not_mem] at this ⊢
    intro a ha
    by_cases hkl : k = l
    · subst hkl; exact this a ((hmem a).mp ha)
    · rw [hne hkl] at ha; exact this a ha
  · intro a q' hq'
    obtain ⟨q, hq, l0, -, -, b0, -⟩ := forth a q' hq'
    rw [l0, hcap, b0]
    exact h.bypass a q hq
  · refine ⟨?_, ?_, ?_⟩
    · intro a ha
      show (s.agent a).state = .online
      apply h.members.waiting
      intro hc
      rw [State.promote_request, hz, hc] at ha
      split at ha <;> exact absurd rfl ha
    · intro a ha k; rw [hholds]; exact h.members.offline a ha k
    · intro a ha k hk; rw [hholds]; exact h.members.purging a ha k hk
  · refine ⟨?_, ?_, ?_⟩
    · intro k
      by_cases hk : k = l
      · subst hk; rw [hself]
        exact hplace.1.imp fun {b c} hp => by
          rwa [State.precedes_congr (s := s.toClassZero ps) (t := s.promote k ps) rfl rfl]
      · rw [hne hk]
        refine (List.Pairwise.and_mem.mp (h.order.ordered k)).imp ?_
        intro b c ⟨hb, hc, hp⟩
        rwa [State.precedes_congr (s := s) (t := s.promote l ps)
          (by rw [State.promote_request, hz, if_neg (houtside hk hb)])
          (by rw [State.promote_request, hz, if_neg (houtside hk hc)])]
    · intro a q' hq'
      obtain ⟨q, hq, -, -, a0, -⟩ := forth a q' hq'
      rw [a0]
      exact h.order.early a q hq
    · intro a b p' q' hp' hq' ha
      obtain ⟨p, hp, -, -, a0, -⟩ := forth a p' hp'
      obtain ⟨q, hq, -, -, a1, -⟩ := forth b q' hq'
      exact h.order.apart a b p q hp hq (by rw [← a0, ← a1, ha])

/-! ### The runs of the grant step (R54, R56, R60) -/

theorem State.MidLaw.post {s : State} {x : Option LockNum} (h : s.MidLaw x) (a : Agent) (n : Notice) :
    (s.post a n).MidLaw x := h.congr (s.post_sameTable a n)

theorem State.NoUpgrade.seatWaiter {s : State} {l : LockNum} (h : s.NoUpgrade l) (k : LockNum) (a : Agent)
    (q : PendingRequest) : (s.seatWaiter k a q).NoUpgrade l := by
  intro b p hb
  rw [State.seatWaiter_request] at hb
  split at hb
  · exact absurd hb (by simp)
  · exact h b p hb

theorem State.NoUpgrade.post {s : State} {l : LockNum} (h : s.NoUpgrade l) (a : Agent) (n : Notice) :
    (s.post a n).NoUpgrade l := fun b p hb => h b p (by rwa [State.post_request] at hb)

/-- What a further property must keep, beside the laws of the lock table, to be kept by the grant step on lock `l`: a
waiter seated with its notice, an upgrade converted with its notice, bypass counting, promotion. -/
structure GrantClosed (l : LockNum) (P : State → Prop) : Prop where
  seat : ∀ s a q n, s.MidLaw (some l) → P s → s.request a = some q → q.lock = l → q.mode ≠ .upgrade →
    P ((s.seatWaiter l a q).post a n)
  convert : ∀ s a q n, s.MidLaw (some l) → P s → s.request a = some q → q.lock = l → q.mode = .upgrade →
    (s.lock l).soleHolder a = true → P ((s.seatUpgrade l a q).post a n)
  count : ∀ s ns, s.MidLaw (some l) → P s → P (s.countPassed l ns)
  promote : ∀ s ps, s.MidLaw (some l) → P s → ps.Sublist (s.lock l).queue → P (s.promote l ps)

/-- R56: the members of a batch are granted one after the other. -/
theorem State.MidLaw.grantBatch {l : LockNum} {P : State → Prop} (closed : GrantClosed l P) (r : Bool) :
    ∀ (bs : List Agent) (s : State), s.MidLaw (some l) → P s →
    s.NoUpgrade l → (s.lock l).state ≠ .exclusive → bs.Nodup →
    (∀ b ∈ bs, ∃ q, s.request b = some q ∧ q.mode = .shared ∧ q.lock = l) →
    (bs.foldl (fun t a => t.grantWaiter l r a) s).MidLaw (some l) ∧
      P (bs.foldl (fun t a => t.grantWaiter l r a) s) ∧
      (bs.foldl (fun t a => t.grantWaiter l r a) s).NoUpgrade l ∧
      (bs ≠ [] → ((bs.foldl (fun t a => t.grantWaiter l r a) s).lock l).state = .shared) := by
  intro bs
  induction bs with
  | nil => intro s h hP hu _ _ _; exact ⟨h, hP, hu, fun hc => absurd rfl hc⟩
  | cons b bs ih =>
    intro s h hP hu hs hn hb
    obtain ⟨q, hq, hm, hql⟩ := hb b List.mem_cons_self
    rw [List.nodup_cons] at hn
    rw [List.foldl_cons, State.grantWaiter_of_some hq]
    have h1 := (h.seatWaiter hq hql hu (Or.inr ⟨hm, hs⟩)).post b (.granted l q.mode r false s.now)
    have hP1 := closed.seat s b q (.granted l q.mode r false s.now) h hP hq hql (by rw [hm]; simp)
    have hstate : (((s.seatWaiter l b q).post b (.granted l q.mode r false s.now)).lock l).state = .shared := by
      rw [State.post_lock, State.seatWaiter_lock, if_pos rfl]
      simp [hm, Mode.lockState]
    have h2 := ih _ h1 hP1 ((hu.seatWaiter l b q).post b _) (by rw [hstate]; simp) hn.2 fun c hc => by
      obtain ⟨p, hp, hpm, hpl⟩ := hb c (List.mem_cons_of_mem _ hc)
      refine ⟨p, ?_, hpm, hpl⟩
      have hcb : c ≠ b := fun e => hn.1 (by rwa [e] at hc)
      rw [State.post_request, State.seatWaiter_request, if_neg hcb]
      exact hp
    refine ⟨h2.1, h2.2.1, h2.2.2.1, fun _ => ?_⟩
    by_cases hbs : bs = []
    · subst hbs; exact hstate
    · exact h2.2.2.2 hbs

theorem State.asksShared_iff {s : State} {a : Agent} :
    s.asksShared a = true ↔ ∃ q, s.request a = some q ∧ q.mode = .shared := by
  unfold State.asksShared
  cases s.request a <;> simp

/-- R54: what a head test that grants has found: the requests it grants, and a lock that takes them. -/
theorem State.MidLaw.headTest_grant {s : State} {l : LockNum} (h : s.MidLaw (some l)) {batch : List Agent}
    (ht : s.headTest l = .grant batch) : batch ≠ [] ∧ s.NoUpgrade l ∧
      ((∃ a q, batch = [a] ∧ s.request a = some q ∧ q.lock = l ∧ q.mode = .exclusive ∧ (s.lock l).state = .free) ∨
        ((s.lock l).state ≠ .exclusive ∧ batch.Nodup ∧
          ∀ b ∈ batch, ∃ q, s.request b = some q ∧ q.mode = .shared ∧ q.lock = l)) := by
  unfold State.headTest at ht
  cases hq : (s.lock l).queue with
  | nil => rw [hq] at ht; exact absurd ht (by simp)
  | cons a rest =>
    rw [hq] at ht
    obtain ⟨q, hr, hql⟩ := (h.joined l a).mp (by rw [hq]; exact List.mem_cons_self)
    simp only [hr] at ht
    have batchOk : q.mode = .shared → (s.lock l).state ≠ .exclusive → batch = (a :: rest).takeWhile s.asksShared →
        batch ≠ [] ∧ s.NoUpgrade l ∧ ((s.lock l).state ≠ .exclusive ∧ batch.Nodup ∧
          ∀ b ∈ batch, ∃ q, s.request b = some q ∧ q.mode = .shared ∧ q.lock = l) := by
      intro hm hst hb
      have hshared : s.asksShared a = true := State.asksShared_iff.mpr ⟨q, hr, hm⟩
      refine ⟨by rw [hb, List.takeWhile_cons, if_pos hshared]; simp, ?_, hst, ?_, ?_⟩
      · have := h.noUpgrade_of_head hr (by rw [hm]; simp) (by rw [hql, hq]; rfl)
        rwa [hql] at this
      · have hnd := h.once l
        rw [hq] at hnd
        rw [hb]
        exact (List.takeWhile_prefix _).sublist.nodup hnd
      · intro b hbm
        rw [hb] at hbm
        obtain ⟨p, hp, hpm⟩ := State.asksShared_iff.mp (List.mem_takeWhile_imp hbm)
        have hbq : b ∈ (s.lock l).queue := by
          rw [hq]; exact (List.takeWhile_prefix _).sublist.subset hbm
        obtain ⟨p', hp', hpl⟩ := (h.joined l b).mp hbq
        rw [hp] at hp'; injection hp' with hp'; subst hp'
        exact ⟨p, hp, hpm, hpl⟩
    cases hm : q.mode <;> cases hst : (s.lock l).state <;> simp only [hm, hst] at ht
    · injection ht with ht
      exact ⟨by rw [← ht]; simp, h.noUpgrade_of_state (by rw [hst]; simp), Or.inl ⟨a, q, ht.symm, hr, hql, hm, rfl⟩⟩
    · exact absurd ht (by simp)
    · exact absurd ht (by simp)
    · injection ht with ht
      obtain ⟨h1, h2, h3⟩ := batchOk hm (by rw [hst]; simp) ht.symm
      rw [hst] at h3
      exact ⟨h1, h2, Or.inr h3⟩
    · exact absurd ht (by simp)
    · injection ht with ht
      obtain ⟨h1, h2, h3⟩ := batchOk hm (by rw [hst]; simp) ht.symm
      rw [hst] at h3
      exact ⟨h1, h2, Or.inr h3⟩
    · exact absurd ht (by simp)
    · exact absurd ht (by simp)
    · split at ht <;> exact absurd ht (by simp)

/-- R54: what a head test that converts has found. -/
theorem State.MidLaw.headTest_convert {s : State} {l : LockNum} (h : s.MidLaw (some l)) {a : Agent}
    (ht : s.headTest l = .convert a) :
    ∃ q, s.request a = some q ∧ q.lock = l ∧ q.mode = .upgrade ∧ (s.lock l).soleHolder a = true := by
  unfold State.headTest at ht
  cases hq : (s.lock l).queue with
  | nil => rw [hq] at ht; exact absurd ht (by simp)
  | cons b rest =>
    rw [hq] at ht
    obtain ⟨q, hr, hql⟩ := (h.joined l b).mp (by rw [hq]; exact List.mem_cons_self)
    simp only [hr] at ht
    cases hm : q.mode <;> cases hst : (s.lock l).state <;> simp only [hm, hst] at ht
    all_goals first
      | exact absurd ht (by simp)
      | skip
    split at ht
    · next hs =>
      injection ht with ht
      subst ht
      exact ⟨q, hr, hql, hm, hs⟩
    · exact absurd ht (by simp)

/-- R52, R54: a head test that finds nothing to do on a FREE lock has found an empty queue. -/
theorem State.MidLaw.headTest_nothing {s : State} {l : LockNum} (h : s.MidLaw (some l))
    (ht : s.headTest l = .nothing) (hf : (s.lock l).state = .free) : (s.lock l).queue = [] := by
  unfold State.headTest at ht
  cases hq : (s.lock l).queue with
  | nil => rfl
  | cons b rest =>
    rw [hq] at ht
    obtain ⟨q, hr, hql⟩ := (h.joined l b).mp (by rw [hq]; exact List.mem_cons_self)
    simp only [hr] at ht
    cases hm : q.mode <;> simp only [hm, hf] at ht
    · exact absurd ht (by simp)
    · exact absurd ht (by simp)
    · exact absurd hm (h.noUpgrade_of_state (by rw [hf]; simp) b q hr hql)

/-- R59: those promoted are waiters of the lock. -/
theorem State.promotees_sublist (s : State) (l : LockNum) (ns : List Nat) :
    (s.promotees l ns).Sublist (s.lock l).queue := List.filter_sublist

/-- R52, R60: the runs of the grant step end with the laws, and with no waiter on a FREE lock. -/
theorem State.MidLaw.grantRuns {l : LockNum} {P : State → Prop} (closed : GrantClosed l P) :
    ∀ (fuel : Nat) (s : State), s.MidLaw (some l) → P s →
    ((s.lock l).state = .free → (s.lock l).queue.length ≤ fuel) →
    (State.grantRuns fuel l s).1.MidLaw none ∧ P (State.grantRuns fuel l s).1 := by
  intro fuel
  induction fuel with
  | zero =>
    intro s h hP hf
    exact ⟨h.close fun hfree => List.eq_nil_of_length_eq_zero (Nat.le_zero.mp (hf hfree)), hP⟩
  | succ fuel ih =>
    intro s h hP hf
    unfold State.grantRuns
    cases ht : s.headTest l with
    | nothing => exact ⟨h.close (h.headTest_nothing ht), hP⟩
    | convert a =>
      obtain ⟨q, hq, hql, hm, hs⟩ := h.headTest_convert ht
      simp only
      rw [State.convert_of_some hq]
      exact ⟨(h.seatUpgrade hq hql hm hs).post _ _, closed.convert s a q _ h hP hq hql hm hs⟩
    | grant batch =>
      obtain ⟨hb, hu, hcase⟩ := h.headTest_grant ht
      have key : (batch.foldl (fun t a => t.grantWaiter l (s.lock l).recovered a) s).MidLaw (some l) ∧
          P (batch.foldl (fun t a => t.grantWaiter l (s.lock l).recovered a) s) ∧
          (batch.foldl (fun t a => t.grantWaiter l (s.lock l).recovered a) s).NoUpgrade l ∧
          ((batch.foldl (fun t a => t.grantWaiter l (s.lock l).recovered a) s).lock l).state ≠ .free := by
        rcases hcase with ⟨a, q, rfl, hq, hql, hm, hst⟩ | ⟨hst, hn, hall⟩
        · rw [List.foldl_cons, List.foldl_nil, State.grantWaiter_of_some hq]
          refine ⟨(h.seatWaiter hq hql hu (Or.inl ⟨hm, hst⟩)).post _ _,
            closed.seat s a q _ h hP hq hql (by rw [hm]; simp), (hu.seatWaiter l a q).post _ _, ?_⟩
          rw [State.post_lock, State.seatWaiter_lock, if_pos rfl]
          simp [hm, Mode.lockState]
        · obtain ⟨h1, hP1, h2, h3⟩ :=
            State.MidLaw.grantBatch closed (s.lock l).recovered batch s h hP hu hst hn hall
          exact ⟨h1, hP1, h2, by rw [h3 hb]; simp⟩
      obtain ⟨h1, hP1, h2, h3⟩ := key
      have h4 := h1.countPassed l (batch.flatMap s.arrivalOf)
      have hP4 := closed.count _ (batch.flatMap s.arrivalOf) h1 hP1
      simp only
      split
      · exact ⟨h4.close fun hfree => absurd hfree h3, hP4⟩
      · refine ih _ (h4.promote (h2.countPassed l _) (State.promotees_sublist ..))
          (closed.promote _ _ h4 hP4 (State.promotees_sublist ..)) fun hfree => ?_
        rw [State.promote_lock, if_pos rfl] at hfree
        exact absurd hfree h3

/-- A property that the grant step's grants, conversion, counting and promotion keep is kept by the grant step. -/
theorem State.MidLaw.grantStep_keeps {s : State} {l : LockNum} (h : s.MidLaw (some l)) {P : State → Prop}
    (closed : GrantClosed l P) (hP : P s) : P (s.grantStep l) :=
  (State.MidLaw.grantRuns closed _ s h hP fun _ => Nat.le_refl _).2

theorem GrantClosed.trivial (l : LockNum) : GrantClosed l fun _ => True :=
  ⟨fun _ _ _ _ _ _ _ _ _ => ⟨⟩, fun _ _ _ _ _ _ _ _ _ _ => ⟨⟩, fun _ _ _ _ => ⟨⟩, fun _ _ _ _ _ => ⟨⟩⟩

/-- R52, R53: an event that ends in the grant step leaves the laws, and no FREE lock with a waiter. -/
theorem State.MidLaw.grantStep {s : State} {l : LockNum} (h : s.MidLaw (some l)) : (s.grantStep l).MidLaw none :=
  (State.MidLaw.grantRuns (GrantClosed.trivial l) _ s h ⟨⟩ fun _ => Nat.le_refl _).1

/-- R52 asks nothing of a SHARED lock. -/
theorem State.MidLaw.of_shared {s : State} {l : LockNum} (h : s.MidLaw (some l)) (hl : (s.lock l).state = .shared) :
    s.MidLaw none := h.close fun hf => absurd (hl.symm.trans hf) (by decide)

/-- R41, R106, R138: the grant step after a hold leaves no waiter on a FREE lock, whether it grants or not. -/
theorem State.MidLaw.grantAfterHold {s : State} {l : LockNum} (h : s.MidLaw (some l)) :
    (s.grantAfterHold l).MidLaw none :=
  State.grantIf_induct (fun hf => h.of_shared (State.grantsAfterHold_false hf)) h.grantStep

end Sys2Proof.Machine
end

