-- ==== Sys2Proof/Laws/TableEvents.lean ====
section
/-! SUPPORT. The laws of the lock table and of queue order under each event of the Lock Engine: removal of waiters and
holds, expiries, grants, queuing, and changes of one lock record. -/

namespace Sys2Proof.Machine

/-! ### A change of one lock record -/

/-- A change of lock `l` that keeps its queue, gives it a lawful record, adds no holder but to a lock without waiters,
and leaves an upgrader a shared holder. -/
theorem State.MidLaw.changeLock {s t : State} {l : LockNum} (h : s.MidLaw (some l))
    (ne : ∀ k, k ≠ l → t.lock k = s.lock k) (req : ∀ a, t.request a = s.request a)
    (st : ∀ a, (t.agent a).state = (s.agent a).state) (ptr : t.purge.pointer = s.purge.pointer)
    (arr : t.nextArrival = s.nextArrival) (law : (t.lock l).Law) (queue : (t.lock l).queue = (s.lock l).queue)
    (attributes : ((t.lock l).sharedAllowed = (s.lock l).sharedAllowed ∧
      (t.lock l).bypassCap = (s.lock l).bypassCap) ∨ (s.lock l).queue = [])
    (holds : ∀ b, (t.lock l).holds b = true → (s.lock l).holds b = true ∨
      ((s.agent b).state = .online ∧ (s.lock l).queue = []))
    (up : ∀ b q, s.request b = some q → q.lock = l → q.mode = .upgrade →
      (t.lock l).holds b = true ∧ (t.lock l).state = .shared) : t.MidLaw (some l) := by
  have qu : ∀ k, (t.lock k).queue = (s.lock k).queue := fun k => by
    by_cases hk : k = l
    · subst hk; exact queue
    · rw [ne k hk]
  have empty : ∀ {b q}, s.request b = some q → q.lock = l → (s.lock l).queue ≠ [] := fun {b q} hq hl hc => by
    have := h.mem_queue hq
    rw [hl, hc] at this
    exact absurd this (by simp)
  refine ⟨?_, fun k => by rw [qu]; exact h.once k, fun k a => by rw [qu, req]; exact h.joined k a, ?_, ?_, ?_, ?_,
    ?_, ?_, ?_⟩
  · intro k
    by_cases hk : k = l
    · subst hk; exact law
    · rw [ne k hk]; exact h.records k
  · intro a q hq hm
    rw [req] at hq
    rw [qu]
    by_cases hl : q.lock = l
    · rw [hl]
      have := (h.upgrade a q hq hm).1
      rw [hl] at this
      exact ⟨this, up a q hq hl hm⟩
    · rw [ne _ hl]; exact h.upgrade a q hq hm
  · intro a q hq hm
    rw [req] at hq
    by_cases hl : q.lock = l
    · have hw := h.waiter a q hq hm
      rw [hl] at hw ⊢
      by_contra hc
      rcases holds a (by simpa using hc) with ho | ⟨-, he⟩
      · rw [hw] at ho; exact absurd ho (by simp)
      · exact empty hq hl he
    · rw [ne _ hl]; exact h.waiter a q hq hm
  · intro a q hq hm
    rw [req] at hq
    by_cases hl : q.lock = l
    · have := h.shared a q hq hm
      rw [hl] at this ⊢
      rcases attributes with ⟨ha, -⟩ | he
      · rw [ha]; exact this
      · exact absurd he (empty hq hl)
    · rw [ne _ hl]; exact h.shared a q hq hm
  · intro k hk hf
    have hkl : k ≠ l := fun hc => hk (by rw [hc])
    rw [ne k hkl] at hf ⊢
    exact h.free k hk hf
  · intro a q hq
    rw [req] at hq
    by_cases hl : q.lock = l
    · have := h.bypass a q hq
      rw [hl] at this ⊢
      rcases attributes with ⟨-, ha⟩ | he
      · rw [ha]; exact this
      · exact absurd he (empty hq hl)
    · rw [ne _ hl]; exact h.bypass a q hq
  · refine ⟨fun a ha => by rw [st]; exact h.members.waiting a (by rwa [req] at ha), ?_, ?_⟩
    · intro a ha k
      rw [st] at ha
      by_cases hk : k = l
      · subst hk
        by_contra hc
        rcases holds a (by simpa using hc) with ho | ⟨ho, -⟩
        · rw [h.members.offline a ha k] at ho; exact absurd ho (by simp)
        · rw [ha] at ho; exact absurd ho (by simp)
      · rw [ne k hk]; exact h.members.offline a ha k
    · intro a ha k hp
      rw [st] at ha
      rw [ptr] at hp
      by_cases hk : k = l
      · subst hk
        by_contra hc
        rcases holds a (by simpa using hc) with ho | ⟨ho, -⟩
        · rw [h.members.purging a ha k hp] at ho; exact absurd ho (by simp)
        · rw [ha] at ho; exact absurd ho (by simp)
      · rw [ne k hk]; exact h.members.purging a ha k hp
  · exact h.order.of_sub (fun k => by rw [qu]) (fun _ b _ => req b)
      (fun b p hb => ⟨p, by rwa [req] at hb, rfl⟩) arr

/-! ### A waiter leaves without a grant (R48, R63) -/

theorem State.MidLaw.leaveQueue {s : State} {x : Option LockNum} (h : s.MidLaw x) {a : Agent} {q : PendingRequest}
    (hq : s.request a = some q) : (s.leaveQueue q.lock a).MidLaw x := by
  have hlock := s.leaveQueue_lock q.lock a
  have hqueue := s.leaveQueue_queue q.lock a
  have hreq := s.leaveQueue_request q.lock a
  have hrq : ∀ {b p}, (s.leaveQueue q.lock a).request b = some p → b ≠ a ∧ s.request b = some p := fun {b p} hb => by
    rw [hreq] at hb
    split at hb
    · exact absurd hb (by simp)
    · next hba => exact ⟨hba, hb⟩
  have hholds : ∀ k b, ((s.leaveQueue q.lock a).lock k).holds b = (s.lock k).holds b := fun k b => by
    rw [hlock]; rfl
  have hstate : ∀ k, ((s.leaveQueue q.lock a).lock k).state = (s.lock k).state := fun k => by rw [hlock]
  have hallow : ∀ k, ((s.leaveQueue q.lock a).lock k).sharedAllowed = (s.lock k).sharedAllowed := fun k => by
    rw [hlock]
  have hcap : ∀ k, ((s.leaveQueue q.lock a).lock k).bypassCap = (s.lock k).bypassCap := fun k => by
    rw [hlock]; rfl
  have hrec : ∀ k, ((s.leaveQueue q.lock a).lock k).recovered = (s.lock k).recovered := fun k => by rw [hlock]
  have hsub : ∀ k, ((s.leaveQueue q.lock a).lock k).queue.Sublist (s.lock k).queue := fun k => by
    rw [hqueue]; split
    · next hk => subst hk; exact List.filter_sublist
    · exact .refl _
  have hin : ∀ {k b}, b ∈ ((s.leaveQueue q.lock a).lock k).queue → b ≠ a := fun {k b} hb hba => by
    subst hba
    rw [hqueue] at hb
    split at hb
    · simp at hb
    · next hk =>
      obtain ⟨p, hp, hpl⟩ := (h.joined k b).mp hb
      rw [hq] at hp; injection hp with hp; subst hp
      exact hk hpl.symm
  refine ⟨?_, fun k => (hsub k).nodup (h.once k), ?_, ?_, ?_, ?_, ?_, ?_, ?_, ?_⟩
  · intro k
    have hr := h.records k
    refine ⟨?_, ?_, ?_, ?_⟩
    · intro hf b; rw [hholds]; exact hr.free (by rwa [hstate] at hf) b
    · intro he
      obtain ⟨b, hb⟩ := hr.exclusive (by rwa [hstate] at he)
      exact ⟨b, fun c => by rw [hholds]; exact hb c⟩
    · intro hs
      obtain ⟨⟨b, hb⟩, hal⟩ := hr.shared (by rwa [hstate] at hs)
      exact ⟨⟨b, by rw [hholds]; exact hb⟩, by rw [hallow]; exact hal⟩
    · intro hrv; rw [hstate]; exact hr.recovered (by rwa [hrec] at hrv)
  · intro k b
    rw [hreq]
    by_cases hb : b = a
    · subst hb
      simp only [if_true]
      exact ⟨fun hc => absurd rfl (hin hc), fun ⟨_, hc, _⟩ => absurd hc (by simp)⟩
    · rw [if_neg hb, ← h.joined, hqueue]
      split
      · next hk => subst hk; simp [hb]
      · rfl
  · intro b p hb hm
    obtain ⟨hba, hp⟩ := hrq hb
    obtain ⟨h1, h2, h3⟩ := h.upgrade b p hp hm
    refine ⟨?_, by rw [hholds]; exact h2, by rw [hstate]; exact h3⟩
    rw [hqueue]
    split
    · next hk =>
      rw [hk] at h1
      cases hl : (s.lock q.lock).queue with
      | nil => rw [hl] at h1; exact absurd h1 (by simp)
      | cons c cs =>
        rw [hl] at h1
        injection h1 with h1
        subst h1
        simp [hba]
    · exact h1
  · intro b p hb hm
    rw [hholds]
    exact h.waiter b p (hrq hb).2 hm
  · intro b p hb hm
    rw [hallow]
    exact h.shared b p (hrq hb).2 hm
  · intro k hk hf
    rw [hstate] at hf
    have := hsub k
    rw [h.free k hk hf] at this
    exact List.sublist_nil.mp this
  · intro b p hb
    rw [hcap]
    exact h.bypass b p (hrq hb).2
  · refine ⟨?_, fun b hb k => by rw [hholds]; exact h.members.offline b hb k,
      fun b hb k hk => by rw [hholds]; exact h.members.purging b hb k hk⟩
    intro b hb
    rw [hreq] at hb
    split at hb
    · exact absurd rfl hb
    · exact h.members.waiting b hb
  · exact h.order.of_sub hsub (fun k b hb => by rw [hreq, if_neg (hin hb)]) (fun b p hb => ⟨p, (hrq hb).2, rfl⟩) rfl

theorem State.MidLaw.withDu {s : State} {x : Option LockNum} (h : s.MidLaw x) (f : DeadlineUnit → DeadlineUnit) :
    (s.withDu f).MidLaw x := h.congr ⟨fun _ => rfl, fun _ => rfl, fun _ => rfl, rfl, rfl⟩

theorem State.MidLaw.dequeue {s : State} {x : Option LockNum} (h : s.MidLaw x) (a : Agent) :
    (s.dequeue a).MidLaw x := by
  cases hq : s.request a with
  | none => rw [State.dequeue_of_none hq]; exact h
  | some q => rw [State.dequeue_of_some hq]; exact (h.leaveQueue hq).withDu _

/-! ### A hold is removed (R3, R6) -/

theorem LockRecord.Law.withoutHolder {r : LockRecord} (h : r.Law) {a : Agent} (ha : r.holds a = true) :
    (r.withoutHolder a).Law := by
  have hh := r.withoutHolder_holds a
  have hfree : r.state ≠ .free := fun hf => by rw [h.free hf a] at ha; exact absurd ha (by simp)
  have hany : (allAgents.any fun b => ((setRow r.holders a none).get b).isSome) = true ↔
      ∃ b, (r.withoutHolder a).holds b = true := by
    simp only [List.any_eq_true, mem_allAgents, true_and]
    rfl
  have hst : (r.withoutHolder a).state =
      match r.state with
      | .shared => if allAgents.any fun b => ((setRow r.holders a none).get b).isSome then .shared else .free
      | .exclusive | .free => .free := rfl
  refine ⟨?_, ?_, ?_, ?_⟩
  · intro hf b
    cases hs : r.state with
    | free => exact absurd hs hfree
    | exclusive =>
      obtain ⟨c, hc⟩ := h.exclusive hs
      have hac := (hc a).mp ha
      rw [hh]
      by_cases hb : b = a
      · simp [hb]
      · have : r.holds b ≠ true := fun hc' => hb (((hc b).mp hc').trans hac.symm)
        simp [this]
    | shared =>
      rw [hst, hs] at hf
      simp only at hf
      split at hf
      · exact absurd hf (by simp)
      · next hn =>
        rw [hany] at hn
        simpa using fun hc => hn ⟨b, hc⟩
  · intro he
    rw [hst] at he
    cases hs : r.state <;> rw [hs] at he <;> simp only at he
    · exact absurd he (by simp)
    · exact absurd he (by simp)
    · split at he <;> exact absurd he (by simp)
  · intro hsh
    rw [hst] at hsh
    cases hs : r.state <;> rw [hs] at hsh <;> simp only at hsh
    · exact absurd hsh (by simp)
    · exact absurd hsh (by simp)
    · split at hsh
      · next hn => exact ⟨hany.mp hn, (h.shared hs).2⟩
      · exact absurd hsh (by simp)
  · intro hr
    exact absurd (h.recovered hr) hfree

/-- An agent that holds a lock that is not FREE and not with an upgrade of its own gives up its hold. -/
theorem State.MidLaw.removeHold {s : State} {l : LockNum} (h : s.MidLaw (some l)) {a : Agent}
    (ha : (s.lock l).holds a = true) (hup : s.upgradeQueued a l = false) : (s.removeHold a l).MidLaw (some l) := by
  have hlock := s.removeHold_lock a l
  have hself : (s.removeHold a l).lock l = (s.lock l).withoutHolder a := by rw [hlock, if_pos rfl]
  refine h.changeLock (fun k hk => by rw [hlock, if_neg hk]) (fun _ => rfl) (fun _ => rfl) rfl rfl ?_ ?_ ?_ ?_ ?_
  · rw [hself]; exact (h.records l).withoutHolder ha
  · rw [hself]; rfl
  · rw [hself]; exact Or.inl ⟨rfl, rfl⟩
  · intro b hb
    rw [hself, LockRecord.withoutHolder_holds] at hb
    exact Or.inl (by simp at hb; exact hb.1)
  · intro b q hq hl hm
    have hu := h.upgrade b q hq hm
    rw [hl] at hu
    have hba : b ≠ a := by
      rintro rfl
      simp [State.upgradeQueued, hq, hm, hl] at hup
    have hb : ((s.removeHold a l).lock l).holds b = true := by
      rw [hself, LockRecord.withoutHolder_holds, hu.2.1]; simp [hba]
    refine ⟨hb, ?_⟩
    rw [hself] at hb ⊢
    show (match (s.lock l).state with
      | .shared => if allAgents.any fun b => ((setRow (s.lock l).holders a none).get b).isSome then
          LockState.shared else .free
      | .exclusive | .free => .free) = .shared
    rw [hu.2.2]
    simp only
    rw [if_pos]
    simp only [List.any_eq_true, mem_allAgents, true_and]
    exact ⟨b, hb⟩

theorem State.MidLaw.setRecovered {s : State} {l : LockNum} (h : s.MidLaw (some l))
    (hf : (s.lock l).state = .free) : (s.setRecovered l).MidLaw (some l) := by
  have hlock := s.setRecovered_lock l
  have hself : (s.setRecovered l).lock l = { s.lock l with recovered := true } := by rw [hlock, if_pos rfl]
  refine h.changeLock (fun k hk => by rw [hlock, if_neg hk]) (fun _ => rfl) (fun _ => rfl) rfl rfl ?_ ?_ ?_ ?_ ?_
  · rw [hself]
    have hr := h.records l
    exact ⟨hr.free, hr.exclusive, hr.shared, fun _ => hf⟩
  · rw [hself]
  · rw [hself]; exact Or.inl ⟨rfl, rfl⟩
  · intro b hb; rw [hself] at hb; exact Or.inl hb
  · intro b q hq hl hm
    have hu := (h.upgrade b q hq hm).2.2
    rw [hl, hf] at hu
    exact absurd hu (by simp)

/-- An EXCLUSIVE lock whose holder has left is FREE. -/
theorem State.removeHold_state_of_exclusive {s : State} {a : Agent} {l : LockNum}
    (h : (s.lock l).state = .exclusive) : ((s.removeHold a l).lock l).state = .free := by
  rw [State.removeHold_lock, if_pos rfl]
  show (match (s.lock l).state with
      | .shared => if allAgents.any fun b => ((setRow (s.lock l).holders a none).get b).isSome then
          LockState.shared else .free
      | .exclusive | .free => .free) = .free
  rw [h]

/-- R138, steps 1 and 2. -/
theorem State.MidLaw.sweepHold {s : State} {l : LockNum} (h : s.MidLaw (some l)) {a : Agent}
    (ha : (s.lock l).holds a = true) (hup : s.upgradeQueued a l = false) : (s.sweepHold a l).MidLaw (some l) := by
  unfold State.sweepHold
  split
  · next he => exact (h.removeHold ha hup).setRecovered (State.removeHold_state_of_exclusive he)
  · exact h.removeHold ha hup

theorem State.upgradeQueued_of_none {s : State} {a : Agent} (h : s.request a = none) (l : LockNum) :
    s.upgradeQueued a l = false := by simp [State.upgradeQueued, h]

/-- Removing a hold and withdrawing the request of its holder leave the same table in either order. -/
theorem State.removeHold_dequeue (s : State) (a : Agent) (l : LockNum) :
    ((s.dequeue a).removeHold a l).SameTable ((s.removeHold a l).dequeue a) := by
  have f1 := (s.dequeue_frame a).trans (State.removeHold_frame (s.dequeue a) a l)
  have f2 := (s.removeHold_frame a l).trans (State.dequeue_frame (s.removeHold a l) a)
  refine ⟨fun k => ?_, fun b => ?_, fun b => by rw [f1.agent_state, f2.agent_state], by rw [f1.purge, f2.purge],
    by rw [f1.nextArrival, f2.nextArrival]⟩
  · cases hq : s.request a with
    | none =>
      rw [State.dequeue_of_none hq, State.dequeue_of_none (show (s.removeHold a l).request a = none from hq)]
    | some q =>
      rw [State.dequeue_of_some hq,
        State.dequeue_of_some (show (s.removeHold a l).request a = some q from hq), State.withDu_lock,
        State.removeHold_lock, State.leaveQueue_lock, State.leaveQueue_queue, State.removeHold_lock]
      simp only [State.withDu_lock]
      by_cases hk : k = l
      · subst hk
        simp only [if_true]
        rw [State.leaveQueue_lock, State.leaveQueue_queue]
        by_cases hl : k = q.lock
        · subst hl; simp [LockRecord.withoutHolder, State.removeHold_lock]
        · simp [hl, LockRecord.withoutHolder]
      · simp only [if_neg hk]
        rw [State.leaveQueue_lock s q.lock a k, State.leaveQueue_queue]
        by_cases hl : k = q.lock
        · subst hl; simp [State.removeHold_lock, hk]
        · simp [hl]
  · by_cases hb : b = a
    · subst hb; simp
    · rw [State.dequeue_request_ne _ hb, State.removeHold_request, State.removeHold_request,
        State.dequeue_request_ne _ hb]

/-- R106, R107: a hold revoked. -/
theorem State.MidLaw.revokeHold {s : State} (h : s.MidLaw none) {a : Agent} {l : LockNum}
    (ha : (s.lock l).holds a = true) : (s.revokeHold a l).MidLaw (some l) := by
  have hm : ∀ {t : State}, t.MidLaw (some l) → ((t.lock l).state = .free ∨ (s.lock l).state ≠ .exclusive) →
      (if (s.lock l).state = .exclusive then t.setRecovered l else t).MidLaw (some l) := fun {t} ht hs => by
    split
    · next he => exact ht.setRecovered (hs.resolve_right fun hc => hc he)
    · exact ht
  unfold State.revokeHold
  simp only
  by_cases hu : s.upgradeQueued a l = true
  · simp only [hu, if_true]
    have hq : ∃ q, s.request a = some q ∧ q.mode = .upgrade ∧ q.lock = l := by
      unfold State.upgradeQueued at hu
      split at hu
      · next q hq => exact ⟨q, hq, by simpa using hu⟩
      · exact absurd hu (by simp)
    obtain ⟨q, hq, hqm, hql⟩ := hq
    have hs := (h.upgrade a q hq hqm).2.2
    rw [hql] at hs
    refine hm ?_ (Or.inr (by rw [hs]; simp))
    have h1 := (h.dequeue a).weaken (some l)
    have ha' : ((s.dequeue a).lock l).holds a = true := by rw [State.dequeue_lock]; exact ha
    exact (h1.removeHold ha' (State.upgradeQueued_of_none (by simp) l)).congr (s.removeHold_dequeue a l)
  · have hu' : s.upgradeQueued a l = false := by simpa using hu
    simp only [hu', Bool.false_eq_true, if_false]
    refine hm ((h.weaken (some l)).removeHold ha hu') ?_
    by_cases he : (s.lock l).state = .exclusive
    · exact Or.inl (State.removeHold_state_of_exclusive he)
    · exact Or.inr he

/-! ### Expiries (R65, R98, R106, R107) -/

theorem State.MidLaw.timeOut {s : State} (h : s.MidLaw none) (a : Agent) (q : PendingRequest) :
    (s.timeOut a q).MidLaw none :=
  have h1 := (h.dequeue a).post a _
  State.grantIf_induct (fun _ => h1) (h1.weaken _).grantStep

theorem State.MidLaw.revokeLease {s : State} (h : s.MidLaw none) {a : Agent} {l : LockNum}
    (ha : (s.lock l).holds a = true) : (s.revokeLease a l).MidLaw none := by
  have h1 : (s.revokeReported a l).MidLaw (some l) :=
    State.revokeReported_induct (h.revokeHold ha) fun _ _ _ h => h.post _ _
  exact State.grantIf_induct
    (fun hf => h1.of_shared (State.grantsAfterHold_false (Bool.or_eq_false_iff.mp hf).2)) h1.grantStep

theorem State.MidLaw.expiryOf {s : State} (h : s.MidLaw none) (e : EntryNum) : (s.expiryOf e).MidLaw none := by
  unfold State.expiryOf
  split
  · unfold State.waitExpired
    simp only
    split
    · exact h.withDu _
    · exact (h.withDu _).timeOut _ _
  · unfold State.leaseExpired
    simp only
    split
    · next ha => exact (h.withDu _).revokeLease ha
    · exact h.withDu _
  · exact h.withDu _
  · exact h.withDu _

theorem State.MidLaw.settle {s : State} (h : s.MidLaw none) : s.settle.MidLaw none :=
  State.settle_induct (P := State.MidLaw none) (fun _ e h => h.expiryOf e) (fun _ h => h.withDu _) h

theorem State.MidLaw.drain {s : State} (h : s.MidLaw none) : s.drain.MidLaw none :=
  State.drain_induct (P := State.MidLaw none) (fun _ e h => h.expiryOf e) h

theorem State.MidLaw.takeExpiry {s : State} (h : s.MidLaw none) : s.takeExpiry.MidLaw none :=
  State.takeExpiry_induct (fun _ e h => h.expiryOf e) h

end Sys2Proof.Machine
end

