-- ==== Sys2Proof/Laws/TableCommands.lean ====
section
/-! SUPPORT. The laws of the lock table and of queue order under what the commands do: immediate grants, queuing,
conversion, downgrade, FORCE RELEASE, SET LOCK, purge start, sweep visits. -/

namespace Sys2Proof.Machine

/-! ### Immediate grants (R25, R27, R32) -/

theorem State.grantNow_lock (s : State) (a : Agent) (l : LockNum) (m : Mode) (d : Option Nat) (e : Option EntryNum)
    (k : LockNum) : (s.grantNow a l m d e).lock k =
      if k = l then (s.lock l).withHolder a m.lockState e else s.lock k := by
  unfold State.grantNow
  simp only
  split
  · rw [State.withDu_lock]; exact State.setLock_lock ..
  · exact State.setLock_lock ..

theorem State.grantNow_request (s : State) (a : Agent) (l : LockNum) (m : Mode) (d : Option Nat)
    (e : Option EntryNum) (b : Agent) : (s.grantNow a l m d e).request b = s.request b := by
  unfold State.grantNow
  simp only
  split <;> rfl

theorem State.grantNow_frame (s : State) (a : Agent) (l : LockNum) (m : Mode) (d : Option Nat)
    (e : Option EntryNum) : s.EngineFrame (s.grantNow a l m d e) := by
  unfold State.grantNow
  simp only
  split
  · exact (s.setLock_frame ..).trans (State.withDu_frame (DeadlineUnit.arm_clockKept ..))
  · exact s.setLock_frame ..

/-- R25, R27: an immediate grant to an ONLINE agent that does not hold the lock, on a FREE lock, or SHARED on a SHARED
lock whose queue is empty. -/
theorem State.MidLaw.grantNow {s : State} (h : s.MidLaw none) {a : Agent} {l : LockNum} {m : Mode}
    (hon : (s.agent a).state = .online) (hg : (s.lock l).grantableNow m = true)
    (hm : m = .shared → (s.lock l).sharedAllowed = true) (d : Option Nat) (e : Option EntryNum) :
    (s.grantNow a l m d e).MidLaw none := by
  have hlock := s.grantNow_lock a l m d e
  have hself : (s.grantNow a l m d e).lock l = (s.lock l).withHolder a m.lockState e := by rw [hlock, if_pos rfl]
  have hcase : (s.lock l).queue = [] ∧ ((m = .exclusive ∧ (s.lock l).state = .free) ∨ m = .shared) := by
    unfold LockRecord.grantableNow at hg
    split at hg
    · next hf => exact ⟨h.free l (by simp) hf, Or.inl ⟨rfl, hf⟩⟩
    · next hf => exact ⟨h.free l (by simp) hf, Or.inr rfl⟩
    · exact ⟨List.isEmpty_iff.mp hg, Or.inr rfl⟩
    all_goals exact absurd hg (by simp)
  have f := s.grantNow_frame a l m d e
  have hr := h.records l
  refine State.MidLaw.close (l := l) ((h.weaken (some l)).changeLock (fun k hk => by rw [hlock, if_neg hk])
    (s.grantNow_request a l m d e) f.agent_state (by rw [f.purge]) f.nextArrival ?_ ?_ (Or.inr hcase.1) ?_ ?_) ?_
  · rw [hself]
    have hh := (s.lock l).withHolder_holds a
    rcases hcase.2 with ⟨rfl, hf⟩ | rfl
    · refine ⟨fun hc => absurd hc (by simp [Mode.lockState]), fun _ => ⟨a, fun b => ?_⟩,
        fun hc => absurd hc (by simp [Mode.lockState]), fun hc => absurd hc (by simp)⟩
      rw [hh, hr.free hf b]
      simp
    · refine ⟨fun hc => absurd hc (by simp [Mode.lockState]), fun hc => absurd hc (by simp [Mode.lockState]),
        fun _ => ⟨⟨a, by rw [hh]; simp⟩, hm rfl⟩, fun hc => absurd hc (by simp)⟩
  · rw [hself]; rfl
  · intro b hb
    rw [hself, LockRecord.withHolder_holds] at hb
    simp only [Bool.or_eq_true, beq_iff_eq] at hb
    rcases hb with hb | rfl
    · exact Or.inl hb
    · exact Or.inr ⟨hon, hcase.1⟩
  · intro b q hq hl _
    have := h.mem_queue hq
    rw [hl, hcase.1] at this
    exact absurd this (by simp)
  · intro _
    rw [hself]
    exact hcase.1

/-! ### Queuing (R30, R49, R73) -/

theorem State.joinQueue_request (s : State) (a : Agent) (l : LockNum) (m : Mode) (timeout lease : Option Nat)
    (e : Option EntryNum) (b : Agent) : (s.joinQueue a l m timeout lease e).request b =
      if b = a then some
        { lock := l, mode := m, effClass := (s.agent a).cls, bypass := 0, arrival := s.nextArrival
          timeout := timeout, lease := lease, entry := e }
      else s.request b := get_setRow ..

/-- The requests as they stand when the place of the new one is found. -/
theorem State.joinQueue_lock (s : State) (a : Agent) (l : LockNum) (m : Mode) (timeout lease : Option Nat)
    (e : Option EntryNum) (k : LockNum) : (s.joinQueue a l m timeout lease e).lock k =
      if k = l then
        { s.lock l with queue := (s.joinQueue a l m timeout lease e).place a (s.lock l).queue }
      else s.lock k := by
  have hplace : ∀ (t u : State) (xs : List Agent), (∀ b, t.request b = u.request b) → t.place a xs = u.place a xs := by
    intro t u xs hb
    induction xs with
    | nil => rfl
    | cons x xs ih =>
      unfold State.place
      rw [State.precedes_congr (s := u) (t := t) (hb a) (hb x), ih]
  unfold State.joinQueue
  simp only
  rw [State.withDu_lock, State.setLock_lock]
  split
  · next hk =>
    subst hk
    congr 1
    exact hplace _ _ _ fun _ => rfl
  · rfl

theorem State.MidLaw.joinQueue {s : State} (h : s.MidLaw none) {a : Agent} {l : LockNum} {m : Mode}
    (hon : (s.agent a).state = .online) (hnone : s.request a = none)
    (hheld : (s.lock l).state ≠ .free)
    (hshared : m = .shared → (s.lock l).sharedAllowed = true)
    (hwait : m ≠ .upgrade → (s.lock l).holds a = false)
    (hup : m = .upgrade → (s.lock l).holds a = true ∧ (s.lock l).state = .shared ∧ s.NoUpgrade l)
    (timeout lease : Option Nat) (e : Option EntryNum) : (s.joinQueue a l m timeout lease e).MidLaw none := by
  have hreq := s.joinQueue_request a l m timeout lease e
  have hlock := s.joinQueue_lock a l m timeout lease e
  obtain ⟨t, ht⟩ : ∃ t, t = s.joinQueue a l m timeout lease e := ⟨_, rfl⟩
  rw [← ht] at hreq hlock ⊢
  have hagent : ∀ b, t.agent b = s.agent b := fun b => by rw [ht]; rfl
  have hptr : t.purge.pointer = s.purge.pointer := by rw [ht]; rfl
  have harr : t.nextArrival = s.nextArrival + 1 := by rw [ht]; rfl
  have hself : t.lock l = { s.lock l with queue := t.place a (s.lock l).queue } := by rw [hlock, if_pos rfl]
  have hne : ∀ {k}, k ≠ l → t.lock k = s.lock k := fun hk => by rw [hlock, if_neg hk]
  have hra : t.request a = some
      { lock := l, mode := m, effClass := (s.agent a).cls, bypass := 0, arrival := s.nextArrival
        timeout := timeout, lease := lease, entry := e } := by rw [hreq, if_pos rfl]
  have hrb : ∀ {b}, b ≠ a → t.request b = s.request b := fun hb => by rw [hreq, if_neg hb]
  have hnotin : ∀ k, a ∉ (s.lock k).queue := fun k hc => by
    obtain ⟨q, hq, -⟩ := (h.joined k a).mp hc
    rw [hnone] at hq
    exact absurd hq (by simp)
  have hin : ∀ {k b}, b ∈ (s.lock k).queue → b ≠ a := fun {k b} hb hba => hnotin k (hba ▸ hb)
  have hmem : ∀ b, b ∈ (t.lock l).queue ↔ b = a ∨ b ∈ (s.lock l).queue := fun b => by
    rw [hself]; exact State.mem_place ..
  have hold : (s.lock l).queue.Pairwise fun b c => t.precedes b c = true := by
    refine (List.Pairwise.and_mem.mp (h.order.ordered l)).imp ?_
    intro b c ⟨hb, hc, hp⟩
    rwa [State.precedes_congr (s := s) (hrb (hin hb)) (hrb (hin hc))]
  have hord : (t.place a (s.lock l).queue).Pairwise fun b c => t.precedes b c = true := by
    refine State.place_pairwise t a hold fun b hb => ?_
    obtain ⟨p, hp, -⟩ := (h.joined l b).mp hb
    refine State.precedes_total hra (by rw [hrb (hin hb)]; exact hp) ?_
    have := h.order.early b p hp
    simp only
    omega
  have hholds : ∀ k b, (t.lock k).holds b = (s.lock k).holds b := fun k b => by
    rw [hlock]; split
    · next hk => subst hk; rfl
    · rfl
  have hstate : ∀ k, (t.lock k).state = (s.lock k).state := fun k => by
    rw [hlock]; split
    · next hk => subst hk; rfl
    · rfl
  have hallow : ∀ k, (t.lock k).sharedAllowed = (s.lock k).sharedAllowed := fun k => by
    rw [hlock]; split
    · next hk => subst hk; rfl
    · rfl
  have hcap : ∀ k, (t.lock k).bypassCap = (s.lock k).bypassCap := fun k => by
    rw [hlock]; split
    · next hk => subst hk; rfl
    · rfl
  have hrec : ∀ k, (t.lock k).recovered = (s.lock k).recovered := fun k => by
    rw [hlock]; split
    · next hk => subst hk; rfl
    · rfl
  refine ⟨?_, ?_, ?_, ?_, ?_, ?_, ?_, ?_, ?_, ?_⟩
  · intro k
    have hr := h.records k
    refine ⟨?_, ?_, ?_, ?_⟩
    · intro hf b; rw [hholds]; exact hr.free (by rwa [hstate] at hf) b
    · intro he
      obtain ⟨b, hb⟩ := hr.exclusive (by rwa [hstate] at he)
      exact ⟨b, fun c => by rw [hholds]; exact hb c⟩
    · intro hs
      obtain ⟨⟨b, hb⟩, hal⟩ := hr.shared (by rwa [hstate] at hs)
      exact ⟨⟨b, by rw [hholds]; exact hb⟩, by rw [hallow]; exact hal⟩
    · intro hrv; rw [hstate]; exact hr.recovered (by rwa [hrec] at hrv)
  · intro k
    by_cases hk : k = l
    · subst hk; rw [hself]; exact State.nodup_of_ordered hord
    · rw [hne hk]; exact h.once k
  · intro k b
    by_cases hb : b = a
    · subst hb
      rw [hra]
      by_cases hk : k = l
      · subst hk
        exact ⟨fun _ => ⟨_, rfl, rfl⟩, fun _ => (hmem b).mpr (Or.inl rfl)⟩
      · rw [hne hk]
        constructor
        · intro hc; exact absurd hc (hnotin k)
        · rintro ⟨q, hq, hql⟩
          injection hq with hq
          subst hq
          exact absurd hql.symm hk
    · rw [hrb hb, ← h.joined]
      by_cases hk : k = l
      · subst hk; rw [hmem]; simp [hb]
      · rw [hne hk]
  · intro b q hq hqm
    by_cases hb : b = a
    · subst hb
      rw [hra] at hq
      injection hq with hq
      subst hq
      obtain ⟨h1, h2, h3⟩ := hup hqm
      refine ⟨?_, by rw [hholds]; exact h1, by rw [hstate]; exact h2⟩
      rw [hself]
      simp only
      cases hl : (s.lock l).queue with
      | nil => rfl
      | cons c cs =>
        have hcq : c ∈ (s.lock l).queue := by rw [hl]; exact List.mem_cons_self
        obtain ⟨p, hp, hpl⟩ := (h.joined l c).mp hcq
        have hpm := h3 c p hp hpl
        have hfirst : t.precedes b c = true := by
          rw [State.precedes_iff]
          refine ⟨_, p, hra, by rw [hrb (hin hcq)]; exact hp, Or.inl ?_⟩
          have hpr : 1 ≤ p.rank := by
            unfold PendingRequest.rank
            cases hc : p.mode
            · simp
            · simp
            · exact absurd hc hpm
          have har : ∀ (x : PendingRequest), x.mode = .upgrade → x.rank = 0 := fun x hx => by
            simp [PendingRequest.rank, hx]
          rw [har _ hqm]
          omega
        unfold State.place
        rw [if_pos hfirst]
        rfl
    · rw [hrb hb] at hq
      obtain ⟨h1, h2, h3⟩ := h.upgrade b q hq hqm
      refine ⟨?_, by rw [hholds]; exact h2, by rw [hstate]; exact h3⟩
      by_cases hk : q.lock = l
      · rw [hk] at h1 ⊢
        rw [hself]
        simp only
        cases hl : (s.lock l).queue with
        | nil => rw [hl] at h1; exact absurd h1 (by simp)
        | cons c cs =>
          rw [hl] at h1
          injection h1 with h1
          subst h1
          have hlast : t.precedes a c ≠ true := by
            rw [Ne, State.precedes_iff]
            rintro ⟨x, y, hx, hy, hxy⟩
            rw [hra] at hx
            rw [hrb hb, hq] at hy
            injection hy with hy
            subst hy
            have hyr : q.rank = 0 := by simp [PendingRequest.rank, hqm]
            have hxa : x.arrival = s.nextArrival := by injection hx with hx; subst hx; rfl
            have := h.order.early c q hq
            omega
          unfold State.place
          rw [if_neg hlast]
          rfl
      · rw [hne hk]; exact h1
  · intro b q hq hqm
    rw [hholds]
    by_cases hb : b = a
    · subst hb
      rw [hra] at hq
      injection hq with hq
      subst hq
      exact hwait hqm
    · rw [hrb hb] at hq; exact h.waiter b q hq hqm
  · intro b q hq hqm
    rw [hallow]
    by_cases hb : b = a
    · subst hb
      rw [hra] at hq
      injection hq with hq
      subst hq
      exact hshared hqm
    · rw [hrb hb] at hq; exact h.shared b q hq hqm
  · intro k _ hf
    rw [hstate] at hf
    by_cases hk : k = l
    · subst hk; exact absurd hf hheld
    · rw [hne hk]; exact h.free k (by simp) hf
  · intro b q hq
    rw [hcap]
    by_cases hb : b = a
    · subst hb
      rw [hra] at hq
      injection hq with hq
      subst hq
      exact Nat.zero_le _
    · rw [hrb hb] at hq; exact h.bypass b q hq
  · refine ⟨?_, ?_, ?_⟩
    · intro b hb
      rw [hagent]
      by_cases hba : b = a
      · subst hba; exact hon
      · rw [hrb hba] at hb; exact h.members.waiting b hb
    · intro b hb k
      rw [hagent] at hb
      rw [hholds]; exact h.members.offline b hb k
    · intro b hb k hk
      rw [hagent] at hb
      rw [hptr] at hk
      rw [hholds]; exact h.members.purging b hb k hk
  · refine ⟨?_, ?_, ?_⟩
    · intro k
      by_cases hk : k = l
      · subst hk; rw [hself]; exact hord
      · rw [hne hk]
        refine (List.Pairwise.and_mem.mp (h.order.ordered k)).imp ?_
        intro b c ⟨hb, hc, hp⟩
        rwa [State.precedes_congr (s := s) (hrb (hin hb)) (hrb (hin hc))]
    · intro b q hq
      rw [harr]
      by_cases hb : b = a
      · subst hb
        rw [hra] at hq
        injection hq with hq
        subst hq
        exact Nat.lt_succ_self _
      · rw [hrb hb] at hq
        exact Nat.lt_succ_of_lt (h.order.early b q hq)
    · intro b c p q hp hq hpq
      by_cases hb : b = a <;> by_cases hc : c = a
      · rw [hb, hc]
      · rw [hrb hc] at hq
        subst hb
        rw [hra] at hp
        injection hp with hp
        subst hp
        have := h.order.early c q hq
        simp only at hpq
        omega
      · rw [hrb hb] at hp
        subst hc
        rw [hra] at hq
        injection hq with hq
        subst hq
        have := h.order.early b p hp
        simp only at hpq
        omega
      · rw [hrb hb] at hp
        rw [hrb hc] at hq
        exact h.order.apart b c p q hp hq hpq

/-! ### Conversion, downgrade, attributes -/

/-- R71: an immediate conversion by the sole holder, which waits for nothing. -/
theorem State.MidLaw.convertNow {s : State} (h : s.MidLaw none) {a : Agent} {l : LockNum}
    (hnone : s.request a = none) (hs : (s.lock l).soleHolder a = true) : (s.convertNow l).MidLaw none := by
  have hlock : ∀ k, (s.convertNow l).lock k = if k = l then { s.lock l with state := .exclusive } else s.lock k :=
    fun k => State.setLock_lock ..
  have hself : (s.convertNow l).lock l = { s.lock l with state := .exclusive } := by rw [hlock, if_pos rfl]
  have hsole := LockRecord.soleHolder_iff.mp hs
  have hfree : (s.lock l).state ≠ .free := fun hc => by
    have := (h.records l).free hc a
    rw [(hsole a).mpr rfl] at this
    exact absurd this (by simp)
  have hr := h.records l
  refine State.MidLaw.close (l := l) ((h.weaken (some l)).changeLock (fun k hk => by rw [hlock, if_neg hk])
    (fun _ => rfl) (fun _ => rfl) rfl rfl ?_ ?_ ?_ ?_ ?_) ?_
  · rw [hself]
    exact ⟨fun hc => absurd hc (by simp), fun _ => ⟨a, hsole⟩, fun hc => absurd hc (by simp),
      fun hc => absurd (hr.recovered hc) hfree⟩
  · rw [hself]
  · rw [hself]; exact Or.inl ⟨rfl, rfl⟩
  · intro b hb; rw [hself] at hb; exact Or.inl hb
  · intro b q hq hl hm
    have hu := (h.upgrade b q hq hm).2.1
    rw [hl] at hu
    have hb := (hsole b).mp hu
    subst hb
    rw [hnone] at hq
    exact absurd hq (by simp)
  · rw [hself]; intro hc; exact absurd hc (by simp)

/-- R77, steps 1 to 3: a held EXCLUSIVE lock whose shared_allowed is set becomes SHARED. -/
theorem State.MidLaw.toShared {s : State} (h : s.MidLaw none) {l : LockNum}
    (he : (s.lock l).state = .exclusive) (hal : (s.lock l).sharedAllowed = true) :
    (s.toShared l).MidLaw (some l) := by
  have hlock : ∀ k, (s.toShared l).lock k = if k = l then { s.lock l with state := .shared } else s.lock k :=
    fun k => State.setLock_lock ..
  have hself : (s.toShared l).lock l = { s.lock l with state := .shared } := by rw [hlock, if_pos rfl]
  have hr := h.records l
  refine (h.weaken (some l)).changeLock (fun k hk => by rw [hlock, if_neg hk])
    (fun _ => rfl) (fun _ => rfl) rfl rfl ?_ ?_ ?_ ?_ ?_
  · rw [hself]
    obtain ⟨a, ha⟩ := hr.exclusive he
    exact ⟨fun hc => absurd hc (by simp), fun hc => absurd hc (by simp), fun _ => ⟨⟨a, (ha a).mpr rfl⟩, hal⟩,
      fun hc => absurd (hr.recovered hc) (by rw [he]; simp)⟩
  · rw [hself]
  · rw [hself]; exact Or.inl ⟨rfl, rfl⟩
  · intro b hb; rw [hself] at hb; exact Or.inl hb
  · intro b q hq hl hm
    have hu := (h.upgrade b q hq hm).2.2
    rw [hl, he] at hu
    exact absurd hu (by simp)

/-- R11, R113: a change of a FREE lock with an empty queue that leaves it FREE, and its holders and queue. -/
theorem State.MidLaw.setFreeLock {s : State} (h : s.MidLaw none) {l : LockNum} {r : LockRecord}
    (hf : (s.lock l).state = .free) (hs : r.state = .free) (hh : r.holders = (s.lock l).holders)
    (hq : r.queue = (s.lock l).queue) : (s.setLock l r).MidLaw none := by
  have hempty := h.free l (by simp) hf
  have hholds : ∀ b, r.holds b = (s.lock l).holds b := fun b => by unfold LockRecord.holds; rw [hh]
  have hr := h.records l
  refine State.MidLaw.close (l := l) ((h.weaken (some l)).changeLock (fun k hk => State.setLock_lock_ne _ hk _)
    (fun _ => rfl) (fun _ => rfl) rfl rfl ?_ ?_ (Or.inr hempty) ?_ ?_) ?_
  · rw [State.setLock_lock_self]
    exact ⟨fun _ b => by rw [hholds]; exact hr.free hf b, fun hc => absurd hc (by rw [hs]; simp),
      fun hc => absurd hc (by rw [hs]; simp), fun _ => hs⟩
  · rw [State.setLock_lock_self]; exact hq
  · intro b hb; rw [State.setLock_lock_self, hholds] at hb; exact Or.inl hb
  · intro b q hq' hl hm
    have hu := (h.upgrade b q hq' hm).2.2
    rw [hl, hf] at hu
    exact absurd hu (by simp)
  · rw [State.setLock_lock_self]; intro _; rw [hq]; exact hempty

/-! ### FORCE RELEASE (R112) -/

/-- R112, step 1: what the removal of every hold leaves of a lock record. -/
theorem State.removeHolds_lock (s : State) (l : LockNum) :
    (∀ k, k ≠ l → (s.removeHolds l).lock k = s.lock k) ∧
      (∀ b, ((s.removeHolds l).lock l).holds b = false) ∧
      ((s.removeHolds l).lock l).queue = (s.lock l).queue ∧
      ((s.removeHolds l).lock l).SameAttributes (s.lock l) ∧
      ((s.removeHolds l).lock l).recovered = (s.lock l).recovered := by
  have key : ∀ (bs : List Agent) (t : State),
      (∀ k, k ≠ l → (bs.foldl (fun t a => t.removeHold a l) t).lock k = t.lock k) ∧
      (∀ b, ((bs.foldl (fun t a => t.removeHold a l) t).lock l).holds b =
        ((t.lock l).holds b && decide (b ∉ bs))) ∧
      ((bs.foldl (fun t a => t.removeHold a l) t).lock l).queue = (t.lock l).queue ∧
      ((bs.foldl (fun t a => t.removeHold a l) t).lock l).SameAttributes (t.lock l) ∧
      ((bs.foldl (fun t a => t.removeHold a l) t).lock l).recovered = (t.lock l).recovered := by
    intro bs
    induction bs with
    | nil => intro t; exact ⟨fun _ _ => rfl, fun b => by simp, rfl, ⟨rfl, rfl, rfl, rfl⟩, rfl⟩
    | cons a bs ih =>
      intro t
      obtain ⟨h1, h2, h3, h4, h5⟩ := ih (t.removeHold a l)
      have hself : (t.removeHold a l).lock l = (t.lock l).withoutHolder a := by
        rw [State.removeHold_lock, if_pos rfl]
      refine ⟨fun k hk => ?_, fun b => ?_, ?_, ?_, ?_⟩
      · rw [List.foldl_cons, h1 k hk, State.removeHold_lock, if_neg hk]
      · rw [List.foldl_cons, h2 b, hself, LockRecord.withoutHolder_holds]
        by_cases hb : b = a <;> by_cases hbs : b ∈ bs <;> simp [hb, hbs]
      · rw [List.foldl_cons, h3, hself]; rfl
      · rw [List.foldl_cons]; rw [hself] at h4; exact h4
      · rw [List.foldl_cons, h5, hself]; rfl
  obtain ⟨h1, h2, h3, h4, h5⟩ := key (s.lock l).holderList s
  refine ⟨h1, fun b => ?_, h3, h4, h5⟩
  unfold State.removeHolds
  rw [h2 b]
  by_cases hb : (s.lock l).holds b = true
  · simp [LockRecord.mem_holderList, hb]
  · simp [hb]

theorem State.removeHolds_request (s : State) (l : LockNum) (b : Agent) :
    (s.removeHolds l).request b = s.request b :=
  State.removeHolds_induct (P := fun t => t.request b = s.request b) (fun _ _ h => h) rfl

/-- R72: the upgrader found is in the queue, with an UPGRADE on that lock. -/
theorem State.upgraderOf_some {s : State} {l : LockNum} {a : Agent} (h : s.upgraderOf l = some a) :
    a ∈ (s.lock l).queue ∧ ∃ q, s.request a = some q ∧ q.mode = .upgrade ∧ q.lock = l := by
  refine ⟨List.mem_of_find?_eq_some h, ?_⟩
  have := List.find?_some h
  unfold State.upgradeQueued at this
  split at this
  · next q hq => exact ⟨q, hq, by simpa using this⟩
  · exact absurd this (by simp)

/-- R72: with no upgrader found, no request on the lock is an UPGRADE. -/
theorem State.MidLaw.noUpgrade_of_upgraderOf {s : State} {x : Option LockNum} (h : s.MidLaw x) {l : LockNum}
    (hu : s.upgraderOf l = none) : s.NoUpgrade l := by
  rintro a q hq rfl hm
  have := List.find?_eq_none.mp hu a (h.mem_queue hq)
  exact this (by simp [State.upgradeQueued, hq, hm])

theorem State.MidLaw.dropUpgrade {s : State} (h : s.MidLaw none) (l : LockNum) :
    (s.dropUpgrade l).MidLaw none ∧ (s.dropUpgrade l).NoUpgrade l := by
  unfold State.dropUpgrade
  split
  · next a ha =>
    obtain ⟨-, q, hq, hm, hl⟩ := State.upgraderOf_some ha
    refine ⟨h.dequeue a, fun b p hp hpl hpm => ?_⟩
    by_cases hb : b = a
    · subst hb; rw [State.dequeue_request_self] at hp; exact absurd hp (by simp)
    · rw [State.dequeue_request_ne _ hb] at hp
      have h1 := (h.upgrade b p hp hpm).1
      have h2 := (h.upgrade a q hq hm).1
      rw [hpl] at h1
      rw [hl, h1] at h2
      injection h2 with h2
      exact hb h2
  · next hn => exact ⟨h, h.noUpgrade_of_upgraderOf hn⟩

theorem State.removeHolds_upgraderOf (s : State) (l : LockNum) : (s.removeHolds l).upgraderOf l = s.upgraderOf l := by
  unfold State.upgraderOf
  rw [(s.removeHolds_lock l).2.2.1]
  congr 1
  funext a
  unfold State.upgradeQueued
  rw [State.removeHolds_request]

/-- The requests after the upgrade is dropped. -/
theorem State.dropUpgrade_request (s : State) (l : LockNum) (b : Agent) :
    (s.dropUpgrade l).request b = if s.upgraderOf l = some b then none else s.request b := by
  unfold State.dropUpgrade
  split
  · next a ha =>
    rw [ha]
    by_cases hb : b = a
    · subst hb; simp
    · rw [State.dequeue_request_ne _ hb, if_neg]
      intro hc; injection hc with hc; exact hb hc.symm
  · next hn => rw [hn]; simp

/-- The lock records after the upgrade is dropped: the upgrader leaves its queue. -/
theorem State.dropUpgrade_lock (s : State) (l k : LockNum) :
    (s.dropUpgrade l).lock k =
      { s.lock k with
        queue := if k = l then (s.lock l).queue.filter fun b => s.upgraderOf l != some b else (s.lock k).queue } := by
  unfold State.dropUpgrade
  split
  · next a ha =>
    obtain ⟨-, q, hq, -, hl⟩ := State.upgraderOf_some ha
    rw [State.dequeue_lock, State.dequeue_of_some hq, State.withDu_lock, State.leaveQueue_queue, hl, ha]
    by_cases hk : k = l
    · subst hk
      have hf : (s.lock k).queue.filter (· != a) = (s.lock k).queue.filter fun b => some a != some b := by
        apply List.filter_congr
        intro b _
        rw [Bool.eq_iff_iff]
        simp only [bne_iff_ne, ne_eq, Option.some.injEq]
        exact not_congr eq_comm
      rw [if_pos rfl, if_pos rfl, hf]
    · simp [hk]
  · next hn =>
    by_cases hk : k = l
    · subst hk
      have hf : (s.lock k).queue.filter (fun b => (none : Option Agent) != some b) = (s.lock k).queue :=
        List.filter_eq_self.mpr fun _ _ => rfl
      simp only [if_true]
      rw [hn, hf]
    · simp [hk]

/-- R112, steps 1 to 3: lock `l` is FREE with no holder and no upgrade queued; recovered is set if it was EXCLUSIVE. -/
theorem State.MidLaw.stripLock {s : State} (h : s.MidLaw none) (l : LockNum) : (s.stripLock l).MidLaw (some l) := by
  obtain ⟨hu, hno⟩ := h.dropUpgrade l
  obtain ⟨hk, hh, hq, hat, hrv⟩ := s.removeHolds_lock l
  have f := s.stripLock_frame l
  have g := s.dropUpgrade_frame l
  -- the record of `l`
  have hfree : ∀ (t : State) (b : Bool), ((t.toFree l b).lock l) =
      { t.lock l with state := .free, recovered := b || (t.lock l).recovered } ∧
      (∀ k, k ≠ l → (t.toFree l b).lock k = t.lock k) ∧ ∀ a, (t.toFree l b).request a = t.request a := by
    intro t b
    unfold State.toFree
    cases b
    · simp only [Bool.false_eq_true, if_false, Bool.false_or]
      exact ⟨State.setLock_lock_self .., fun k hk => State.setLock_lock_ne _ hk _, fun _ => rfl⟩
    · simp only [if_true, Bool.true_or]
      refine ⟨?_, fun k hk => ?_, fun _ => rfl⟩
      · rw [State.setRecovered_lock, if_pos rfl, State.setLock_lock_self]
      · rw [State.setRecovered_lock, if_neg hk, State.setLock_lock_ne _ hk]
  obtain ⟨h1, h2, h3⟩ := hfree ((s.removeHolds l).dropUpgrade l) ((s.lock l).state == .exclusive)
  have hself : (s.stripLock l).lock l =
      { ((s.removeHolds l).dropUpgrade l).lock l with
        state := .free
        recovered := (s.lock l).state == .exclusive || (((s.removeHolds l).dropUpgrade l).lock l).recovered } := h1
  have hholds : ∀ b, ((s.stripLock l).lock l).holds b = false := fun b => by
    rw [hself, State.dropUpgrade_lock]; exact hh b
  have hqueue : ((s.stripLock l).lock l).queue = ((s.dropUpgrade l).lock l).queue := by
    rw [hself, State.dropUpgrade_lock, State.dropUpgrade_lock]
    simp only [if_true]
    rw [hq, State.removeHolds_upgraderOf]
  refine (hu.weaken (some l)).changeLock ?_ ?_ ?_ ?_ ?_ ?_ hqueue ?_ ?_ ?_
  · intro k hkl
    show ((((s.removeHolds l).dropUpgrade l).toFree l _).lock k) = _
    rw [h2 k hkl, State.dropUpgrade_lock, State.dropUpgrade_lock, if_neg hkl, if_neg hkl, hk k hkl]
  · intro a
    show ((((s.removeHolds l).dropUpgrade l).toFree l _).request a) = _
    rw [h3, State.dropUpgrade_request, State.dropUpgrade_request, State.removeHolds_upgraderOf,
      State.removeHolds_request]
  · intro a; rw [f.agent_state, g.agent_state]
  · rw [f.purge, g.purge]
  · rw [f.nextArrival, g.nextArrival]
  · refine ⟨fun _ b => hholds b, ?_, ?_, ?_⟩
    · intro hc; rw [hself] at hc; exact absurd hc (by simp)
    · intro hc; rw [hself] at hc; exact absurd hc (by simp)
    · intro _; rw [hself]
  · refine Or.inl ⟨?_, ?_⟩
    · rw [hself, State.dropUpgrade_lock, State.dropUpgrade_lock]; exact hat.1.symm
    · unfold LockRecord.bypassCap
      rw [hself, State.dropUpgrade_lock, State.dropUpgrade_lock]
      simp only
      rw [hat.2.2.1]
  · intro b hb; rw [hholds] at hb; exact absurd hb (by simp)
  · intro b q hq' hl hm
    exact absurd hm (hno b q hq' hl)

theorem State.MidLaw.postAll {s : State} {x : Option LockNum} (h : s.MidLaw x) (bs : List Agent)
    (n : Agent → Notice) : (bs.foldl (fun t a => t.post a (n a)) s).MidLaw x := by
  induction bs generalizing s with
  | nil => exact h
  | cons b bs ih => exact ih (h.post b _)

theorem State.MidLaw.forceHeld {s : State} (h : s.MidLaw none) (l : LockNum) : (s.forceHeld l).MidLaw none := by
  unfold State.forceHeld
  exact State.MidLaw.grantStep ((h.stripLock l).postAll _ _)

/-! ### Giving up a hold -/

/-- R36: a hold given up, when no upgrade of the holder is queued on the lock. -/
theorem State.MidLaw.giveUp {s : State} (h : s.MidLaw none) {a : Agent} {l : LockNum}
    (ha : (s.lock l).holds a = true) (hup : s.upgradeQueued a l = false) : (s.giveUp a l).MidLaw none :=
  ((h.weaken (some l)).removeHold ha hup).grantAfterHold

end Sys2Proof.Machine
end

