-- ==== Sys2Proof/Laws/Deadlock.lean ====
section
/-! SUPPORT. The waits-for relation (R79): the walk of R80 finds exactly the agents reachable, and each event keeps the
relation free of cycles (R81). -/

namespace Sys2Proof.Machine

/-! ### The walk (R80) -/

theorem State.mem_pointsTo {s : State} {w h : Agent} : h ∈ s.pointsTo w ↔ s.WaitsFor w h := by
  unfold State.pointsTo State.WaitsFor
  cases hq : s.request w with
  | none => simp
  | some q =>
    simp only [List.mem_filter, LockRecord.mem_holderList, bne_iff_ne, ne_eq, Option.some.injEq]
    constructor
    · rintro ⟨h1, h2⟩; exact ⟨q, rfl, h1, h2⟩
    · rintro ⟨p, rfl, h1, h2⟩; exact ⟨h1, h2⟩

theorem State.mem_reachMore {s : State} {r : List Agent} {h : Agent} :
    h ∈ s.reachMore r ↔ h ∈ r ∨ ∃ w ∈ r, s.WaitsFor w h := by
  unfold State.reachMore
  simp only [List.mem_filter, mem_allAgents, true_and, Bool.or_eq_true, List.any_eq_true, List.contains_iff_mem,
    State.mem_pointsTo]

theorem State.walk_succ (s : State) : ∀ (k : Nat) (r : List Agent), s.walk (k + 1) r = s.reachMore (s.walk k r) := by
  intro k
  induction k with
  | zero => intro r; rfl
  | succ k ih => intro r; exact ih (s.reachMore r)

/-- Every agent the walk reaches is reachable. -/
theorem State.walk_sound {s : State} {h : Agent} : ∀ (k : Nat) (a : Agent), a ∈ s.walk k [h] →
    Relation.ReflTransGen s.WaitsFor h a := by
  intro k
  induction k with
  | zero =>
    intro a ha
    simp only [State.walk, List.mem_singleton] at ha
    subst ha
    exact .refl
  | succ k ih =>
    intro a ha
    rw [State.walk_succ, State.mem_reachMore] at ha
    rcases ha with ha | ⟨w, hw, hwa⟩
    · exact ih a ha
    · exact (ih w hw).tail hwa

/-- A round that reaches no new agent ends the walk. -/
theorem State.walk_progress (s : State) (h : Agent) (k : Nat) :
    (∀ a, a ∈ s.walk (k + 1) [h] → a ∈ s.walk k [h]) ∨ k + 2 ≤ (s.walk (k + 1) [h]).toFinset.card := by
  induction k with
  | zero =>
    by_cases hc : ∀ a, a ∈ s.walk (0 + 1) [h] → a ∈ s.walk 0 [h]
    · exact Or.inl hc
    · refine Or.inr ?_
      obtain ⟨a, ha, hn⟩ : ∃ a, a ∈ s.walk (0 + 1) [h] ∧ a ∉ s.walk 0 [h] := by simpa using hc
      have hh : h ∈ s.walk (0 + 1) [h] := by
        rw [State.walk_succ, State.mem_reachMore]; exact Or.inl (by simp [State.walk])
      have hne : a ≠ h := fun e => hn (by simp [State.walk, e])
      have hsub : ({a, h} : Finset Agent) ⊆ (s.walk (0 + 1) [h]).toFinset := by
        intro x hx
        simp only [Finset.mem_insert, Finset.mem_singleton] at hx
        rw [List.mem_toFinset]
        rcases hx with rfl | rfl
        · exact ha
        · exact hh
      have := Finset.card_le_card hsub
      rw [Finset.card_pair hne] at this
      exact this
  | succ k ih =>
    by_cases hc : ∀ a, a ∈ s.walk (k + 1 + 1) [h] → a ∈ s.walk (k + 1) [h]
    · exact Or.inl hc
    · refine Or.inr ?_
      obtain ⟨a, ha, hn⟩ : ∃ a, a ∈ s.walk (k + 1 + 1) [h] ∧ a ∉ s.walk (k + 1) [h] := by simpa using hc
      have hcard : k + 2 ≤ (s.walk (k + 1) [h]).toFinset.card := by
        refine ih.resolve_left fun hs => hn ?_
        rw [State.walk_succ, State.mem_reachMore] at ha
        rcases ha with ha | ⟨w, hw, hwa⟩
        · exact ha
        · rw [State.walk_succ, State.mem_reachMore]; exact Or.inr ⟨w, hs w hw, hwa⟩
      have hlt : (s.walk (k + 1) [h]).toFinset ⊂ (s.walk (k + 1 + 1) [h]).toFinset := by
        refine Finset.ssubset_iff_subset_ne.mpr ⟨?_, ?_⟩
        · intro x hx
          rw [List.mem_toFinset] at hx ⊢
          rw [State.walk_succ, State.mem_reachMore]; exact Or.inl hx
        · intro e
          have : a ∈ (s.walk (k + 1 + 1) [h]).toFinset := List.mem_toFinset.mpr ha
          rw [← e, List.mem_toFinset] at this
          exact hn this
      have := Finset.card_lt_card hlt
      omega

/-- Eight rounds reach all that can be reached: there are eight agents. -/
theorem State.walk_complete {s : State} {h a : Agent} (ha : Relation.ReflTransGen s.WaitsFor h a) :
    a ∈ s.walk 8 [h] := by
  have hclosed : ∀ b, b ∈ s.walk 8 [h] → b ∈ s.walk 7 [h] := by
    refine (s.walk_progress h 7).resolve_right fun hc => ?_
    have := Finset.card_le_univ (s.walk (7 + 1) [h]).toFinset
    rw [Fintype.card_fin] at this
    omega
  induction ha with
  | refl =>
    have : ∀ k, h ∈ s.walk k [h] := by
      intro k
      induction k with
      | zero => simp [State.walk]
      | succ k ih => rw [State.walk_succ, State.mem_reachMore]; exact Or.inl ih
    exact this 8
  | tail _ hbc ih =>
    rw [State.walk_succ, State.mem_reachMore]
    exact Or.inr ⟨_, hclosed _ ih, hbc⟩

/-- R80: what the walk answers of another agent. -/
theorem State.reaches_iff {s : State} {h a : Agent} (hne : h ≠ a) :
    s.reaches h a = true ↔ Relation.TransGen s.WaitsFor h a := by
  unfold State.reaches
  rw [List.contains_iff_mem]
  constructor
  · intro ha
    rcases Relation.reflTransGen_iff_eq_or_transGen.mp (State.walk_sound 8 a ha) with he | ht
    · exact absurd he.symm hne
    · exact ht
  · intro ha; exact State.walk_complete ha.to_reflTransGen

/-- R80: with no such holder found, the requester is reachable from no other holder. -/
theorem State.deadlockHolder_none {s : State} {a : Agent} {l : LockNum} (hd : s.deadlockHolder a l = none)
    {h : Agent} (hh : (s.lock l).holds h = true) (hne : h ≠ a) : ¬ Relation.TransGen s.WaitsFor h a := by
  rw [← State.reaches_iff hne]
  have := List.find?_eq_none.mp hd h (by simp [LockRecord.mem_holderList, hh, hne])
  simpa using this

/-! ### The law of the relation (R81) -/

/-- A relation each of whose edges leads to an agent with no edge of its own, or is an edge of a relation without a
cycle, has no cycle. -/
theorem acyclic_of_edges {R S : Agent → Agent → Prop} (h : ∀ a, ¬ Relation.TransGen R a a)
    (sub : ∀ x y z, S x y → S y z → R x y) : ∀ a, ¬ Relation.TransGen S a a := by
  have key : ∀ x y, Relation.TransGen S x y → (∃ z, S y z) → Relation.TransGen R x y := by
    intro x y hxy
    induction hxy with
    | single hxy => rintro ⟨z, hyz⟩; exact .single (sub _ _ _ hxy hyz)
    | tail _ hbc ih => rintro ⟨z, hyz⟩; exact (ih ⟨_, hbc⟩).tail (sub _ _ _ hbc hyz)
  intro a ha
  obtain ⟨b, hab⟩ : ∃ b, S a b := by
    rcases Relation.TransGen.head'_iff.mp ha with ⟨b, hab, -⟩
    exact ⟨b, hab⟩
  exact h a (key a a ha ⟨b, hab⟩)

theorem State.Acyclic.of_sub {s t : State} (h : s.Acyclic) (sub : ∀ x y, t.WaitsFor x y → s.WaitsFor x y) :
    t.Acyclic := acyclic_of_edges h fun x y _ hxy _ => sub x y hxy

theorem State.Acyclic.congr {s t : State} (h : s.Acyclic) (hl : ∀ k b, (t.lock k).holds b = (s.lock k).holds b)
    (hr : ∀ a q, t.request a = some q → ∃ p, s.request a = some p ∧ p.lock = q.lock) : t.Acyclic :=
  h.of_sub fun x y ⟨q, hq, hy, hne⟩ => by
    obtain ⟨p, hp, hpl⟩ := hr x q hq
    exact ⟨p, hp, by rw [hpl, ← hl]; exact hy, hne⟩

/-- Edges that start at an agent that pointed nowhere close no cycle, when that agent is reachable from none of the
agents they lead to. -/
theorem acyclic_of_join {R S : Agent → Agent → Prop} {a : Agent} {H : Agent → Prop}
    (h : ∀ x, ¬ Relation.TransGen R x x) (sub : ∀ x y, S x y → R x y ∨ (x = a ∧ H y))
    (apart : ∀ y, H y → ¬ Relation.ReflTransGen R y a) : ∀ x, ¬ Relation.TransGen S x x := by
  have key : ∀ x y, Relation.TransGen S x y →
      Relation.TransGen R x y ∨ (Relation.ReflTransGen R x a ∧ ∃ z, H z ∧ Relation.ReflTransGen R z y) := by
    intro x y hxy
    induction hxy with
    | single hxy =>
      rcases sub _ _ hxy with hr | ⟨rfl, hy⟩
      · exact Or.inl (.single hr)
      · exact Or.inr ⟨.refl, _, hy, .refl⟩
    | tail _ hbc ih =>
      rcases sub _ _ hbc with hr | ⟨rfl, hy⟩
      · rcases ih with ih | ⟨h1, z, hz, h2⟩
        · exact Or.inl (ih.tail hr)
        · exact Or.inr ⟨h1, z, hz, h2.tail hr⟩
      · rcases ih with ih | ⟨h1, -⟩
        · exact Or.inr ⟨ih.to_reflTransGen, _, hy, .refl⟩
        · exact Or.inr ⟨h1, _, hy, .refl⟩
  intro x hx
  rcases key x x hx with hr | ⟨h1, z, hz, h2⟩
  · exact h x hr
  · exact apart z hz (h2.trans h1)

/-! ### The relation under each event (Table 4-4) -/

theorem State.Acyclic.post {s : State} (h : s.Acyclic) (a : Agent) (n : Notice) : (s.post a n).Acyclic :=
  h.congr (fun k b => by rw [State.post_lock]) fun b q hq => ⟨q, by rwa [State.post_request] at hq, rfl⟩

theorem State.Acyclic.withDu {s : State} (h : s.Acyclic) (f : DeadlineUnit → DeadlineUnit) : (s.withDu f).Acyclic :=
  h.congr (fun _ _ => rfl) fun _ q hq => ⟨q, hq, rfl⟩

theorem State.Acyclic.seatWaiter {s : State} (h : s.Acyclic) (l : LockNum) (a : Agent) (q : PendingRequest) :
    (s.seatWaiter l a q).Acyclic := by
  refine acyclic_of_edges h fun x y z hxy hyz => ?_
  obtain ⟨p, hp, hy, hne⟩ := hxy
  obtain ⟨p', hp', -, -⟩ := hyz
  rw [State.seatWaiter_request] at hp hp'
  have hya : y ≠ a := fun e => by rw [if_pos e] at hp'; exact absurd hp' (by simp)
  split at hp
  · exact absurd hp (by simp)
  · refine ⟨p, hp, ?_, hne⟩
    rw [State.seatWaiter_lock] at hy
    split at hy
    · next hk =>
      rw [LockRecord.withHolder_holds] at hy
      rw [hk]
      simp only [Bool.or_eq_true, beq_iff_eq] at hy
      exact hy.resolve_right hya
    · exact hy

theorem State.Acyclic.seatUpgrade {s : State} (h : s.Acyclic) (l : LockNum) (a : Agent) (q : PendingRequest) :
    (s.seatUpgrade l a q).Acyclic := by
  refine h.congr (fun k b => ?_) fun b p hp => ?_
  · rw [State.seatUpgrade_lock]
    split
    · next hk => subst hk; rfl
    · rfl
  · rw [State.seatUpgrade_request] at hp
    split at hp
    · exact absurd hp (by simp)
    · exact ⟨p, hp, rfl⟩

theorem State.Acyclic.countPassed {s : State} (h : s.Acyclic) (l : LockNum) (ns : List Nat) :
    (s.countPassed l ns).Acyclic :=
  h.congr (fun _ _ => rfl) fun b q' hq' => by
    rw [State.countPassed_request] at hq'
    split at hq'
    · rw [Option.map_eq_some_iff] at hq'
      obtain ⟨q, hq, rfl⟩ := hq'
      exact ⟨q, hq, by split <;> rfl⟩
    · exact ⟨q', hq', rfl⟩

theorem State.Acyclic.promote {s : State} (h : s.Acyclic) (l : LockNum) (ps : List Agent) :
    (s.promote l ps).Acyclic :=
  h.congr (fun k b => by
    rw [State.promote_lock]
    split
    · next hk => subst hk; rfl
    · rfl) fun b q' hq' => by
    rw [State.promote_request, State.toClassZero_request] at hq'
    split at hq'
    · rw [Option.map_eq_some_iff] at hq'
      obtain ⟨q, hq, rfl⟩ := hq'
      exact ⟨q, hq, rfl⟩
    · exact ⟨q', hq', rfl⟩

theorem State.Acyclic.grantStep {s : State} (h : s.Acyclic) (l : LockNum) : (s.grantStep l).Acyclic := by
  refine State.grantStep_induct (P := State.Acyclic) l ?_ ?_ (fun _ ns h => h.countPassed l ns)
    (fun _ ps h => h.promote l ps) h
  · intro t r a ht
    cases hq : t.request a with
    | none => rw [State.grantWaiter_of_none hq]; exact ht
    | some q => rw [State.grantWaiter_of_some hq]; exact (ht.seatWaiter l a q).post _ _
  · intro t a ht
    cases hq : t.request a with
    | none => rw [State.convert_of_none hq]; exact ht
    | some q => rw [State.convert_of_some hq]; exact (ht.seatUpgrade l a q).post _ _

theorem State.Acyclic.dequeue {s : State} (h : s.Acyclic) (a : Agent) : (s.dequeue a).Acyclic :=
  h.congr (fun k b => by rw [State.dequeue_lock]; rfl) fun b q hq => by
    by_cases hb : b = a
    · subst hb; rw [State.dequeue_request_self] at hq; exact absurd hq (by simp)
    · rw [State.dequeue_request_ne _ hb] at hq; exact ⟨q, hq, rfl⟩

theorem State.Acyclic.removeHold {s : State} (h : s.Acyclic) (a : Agent) (l : LockNum) :
    (s.removeHold a l).Acyclic :=
  h.of_sub fun x y ⟨q, hq, hy, hne⟩ => by
    refine ⟨q, hq, ?_, hne⟩
    rw [State.removeHold_lock] at hy
    split at hy
    · next hk =>
      rw [LockRecord.withoutHolder_holds] at hy
      rw [hk]
      simp only [Bool.and_eq_true] at hy
      exact hy.1
    · exact hy

/-- A change of a lock record that keeps its holders. -/
theorem State.Acyclic.setLock {s : State} (h : s.Acyclic) (l : LockNum) {r : LockRecord}
    (hr : r.holders = (s.lock l).holders) : (s.setLock l r).Acyclic :=
  h.congr (fun k b => by
    rw [State.setLock_lock]
    split
    · next hk => subst hk; unfold LockRecord.holds; rw [hr]
    · rfl) fun _ q hq => ⟨q, hq, rfl⟩

theorem State.Acyclic.timeOut {s : State} (h : s.Acyclic) (a : Agent) (q : PendingRequest) : (s.timeOut a q).Acyclic :=
  have h1 := (h.dequeue a).post a _
  State.grantIf_induct (fun _ => h1) (h1.grantStep _)

theorem State.Acyclic.revokeHold {s : State} (h : s.Acyclic) (a : Agent) (l : LockNum) :
    (s.revokeHold a l).Acyclic := by
  unfold State.revokeHold
  simp only
  split <;> split
  · exact ((h.removeHold a l).dequeue a).setLock l rfl
  · exact (h.removeHold a l).setLock l rfl
  · exact (h.removeHold a l).dequeue a
  · exact h.removeHold a l

theorem State.Acyclic.revokeLease {s : State} (h : s.Acyclic) (a : Agent) (l : LockNum) :
    (s.revokeLease a l).Acyclic := by
  have h1 : (s.revokeReported a l).Acyclic := State.revokeReported_induct (h.revokeHold a l) fun _ _ _ h => h.post _ _
  exact State.grantIf_induct (fun _ => h1) (h1.grantStep l)

theorem State.Acyclic.expiryOf {s : State} (h : s.Acyclic) (e : EntryNum) : (s.expiryOf e).Acyclic := by
  unfold State.expiryOf
  split
  · unfold State.waitExpired
    simp only
    split
    · exact h.withDu _
    · exact (h.withDu _).timeOut _ _
  · unfold State.leaseExpired
    simp only
    split
    · exact (h.withDu _).revokeLease _ _
    · exact h.withDu _
  · exact h.withDu _
  · exact h.withDu _

theorem State.Acyclic.settle {s : State} (h : s.Acyclic) : s.settle.Acyclic :=
  State.settle_induct (P := State.Acyclic) (fun _ e h => h.expiryOf e) (fun _ h => h.withDu _) h

/-- An immediate grant is made on a lock without waiters, so it adds no edge. -/
theorem State.Acyclic.grantNow {s : State} (h : s.Acyclic) {a : Agent} {l : LockNum}
    (hw : ∀ b q, s.request b = some q → q.lock ≠ l) (m : Mode) (d : Option Nat) (e : Option EntryNum) :
    (s.grantNow a l m d e).Acyclic :=
  h.of_sub fun x y ⟨q, hq, hy, hne⟩ => by
    rw [State.grantNow_request] at hq
    rw [State.grantNow_lock, if_neg (hw x q hq)] at hy
    exact ⟨q, hq, hy, hne⟩

/-- R81: a request that the deadlock check passes closes no cycle. -/
theorem State.Acyclic.joinQueue {s : State} (h : s.Acyclic) {a : Agent} {l : LockNum}
    (hd : s.deadlockHolder a l = none) (m : Mode) (timeout lease : Option Nat) (e : Option EntryNum) :
    (s.joinQueue a l m timeout lease e).Acyclic := by
  refine acyclic_of_join (a := a) (H := fun y => (s.lock l).holds y = true ∧ y ≠ a) h ?_ ?_
  · rintro x y ⟨q, hq, hy, hne⟩
    have hholds : ∀ k, ((s.joinQueue a l m timeout lease e).lock k).holds y = (s.lock k).holds y := fun k => by
      rw [State.joinQueue_lock]
      split
      · next hk => subst hk; rfl
      · rfl
    rw [hholds] at hy
    rw [State.joinQueue_request] at hq
    split at hq
    · next hx =>
      subst hx
      injection hq with hq
      subst hq
      exact Or.inr ⟨rfl, hy, hne⟩
    · exact Or.inl ⟨q, hq, hy, hne⟩
  · rintro y ⟨hy, hne⟩ hr
    rcases Relation.reflTransGen_iff_eq_or_transGen.mp hr with he | ht
    · exact hne he.symm
    · exact State.deadlockHolder_none hd hy hne ht

end Sys2Proof.Machine
end

