-- ==== Sys2Proof/Laws/Exec.lean ====
section
/-! SUPPORT. exec and step, said once: a command write is `commandWrite` of its owner's part, and a property that every
part of the machine keeps is kept by every command and every step. -/

namespace Sys2Proof.Machine

/-- What the owner of a command does (Table 9-3). -/
def Command.taken : Command → Agent → State → State × CmdOutcome
  | .nop, _ => State.nopTaken
  | .acquire, a => State.acquireTaken a
  | .release, a => State.releaseTaken a
  | .upgrade, a => State.upgradeTaken a
  | .downgrade, a => State.downgradeTaken a
  | .cancel, a => State.cancelTaken a
  | .renew, a => State.renewTaken a
  | .setAgent, _ => State.setAgentTaken
  | .setLock, _ => State.setLockTaken
  | .forceRelease, _ => State.forceReleaseTaken
  | .purge, _ => State.purgeTaken
  | .setTime, _ => State.setTimeTaken
  | .setDivider, _ => State.setDividerTaken
  | .resetTables, _ => State.resetTablesTaken

/-- R149: the row of a command word is a command write. -/
theorem exec_row (c : Command) (a : Agent) (w : WriteData) (s : State) :
    exec (c.row a w) s = .next (s.commandWrite c a w (c.taken a)) := by
  cases c <;> rfl

theorem execCommand_eq (c : Command) (a : Agent) (w : WriteData) (s : State) :
    execCommand c a w s = .next (s.commandWrite c a w (c.taken a)) := by
  cases c <;> rfl

/-- R151: the row of a command word, when its owner takes it. -/
theorem exec_row_taken {c : Command} {a : Agent} {w : WriteData} {s : State} (h : s.Takes c a w) :
    exec (c.row a w) s = .next ((c.taken a s).1.answers a w (c.taken a s).2) := by
  rw [exec_row, State.commandWrite_taken h]

/-- What every part of the machine must keep for every step to keep `P`. -/
structure Kept (P : State → Prop) : Prop where
  port : ∀ s p, P s → P { s with port := p }
  pending : ∀ s p, P s → P { s with pending := p }
  fields : ∀ s a rec ne ee ek es, P s → P (s.setAgent a
    { s.agent a with record := rec, noticeEnable := ne, errorEnable := ee, errorKind := ek, errorSeen := es })
  notices : ∀ s a p c, P s → P (s.setAgent a ((s.agent a).noticeControl p c))
  snapshots : ∀ s v, P s → P (s.withDu fun d => { d with snapshots := v })
  taken : ∀ s c a, P s → P (Command.taken c a s).1
  tryGrant : ∀ s a l, P s → P s.settle ∧ (s.settle.tryRefusal a l = none → P (s.settle.grantNow a l .exclusive none none))
  tryRelease : ∀ s a l, P s → s.settle.tryWriteRefusal a l = none → P (s.settle.giveUp a l)
  powerOn : ∀ s, P s → P s.powerOnAsserted
  busReset : ∀ s, P s → P s.busResetAsserted
  tick : ∀ s, P s → P s.tickTaken
  expiry : ∀ s, P s → P s.takeExpiry
  sweepVisit : ∀ s, P s → P s.sweepVisit
  sweepEnd : ∀ s, P s → P s.sweepEnd
  period : ∀ s, P s → P (s.withDu (·.countPeriod))
  heldTick : ∀ s, P s → s.du.expiries = [] → P s.heldTick

namespace Kept

variable {P : State → Prop} {s : State}

theorem respond (h : Kept P) (hs : P s) (b : BusResponse) : P (s.respond b) := h.port _ _ hs

theorem error (h : Kept P) (hs : P s) (a : Agent) (k : ErrorKind) : P (s.recordError a k) :=
  h.fields s a _ _ _ _ _ hs

theorem command (h : Kept P) (hs : P s) (c : Command) (a : Agent) (w : WriteData) :
    P (s.commandWrite c a w (c.taken a)) :=
  State.commandWrite_induct c a w hs (fun _ => h.taken s c a hs) (fun _ b ht => h.respond ht b)
    (fun t a r ht => h.fields t a r _ _ _ _ ht) fun _ a k ht => h.error ht a k

theorem write (h : Kept P) (hs : P s) (a : Agent) (w : WriteData) {take : State → State} (ht : P (take s)) :
    P (s.writeAccess a w take) :=
  State.writeAccess_induct a w hs (fun _ => ht) (fun _ b ht => h.respond ht b) fun _ a k ht => h.error ht a k

theorem read (h : Kept P) (hs : P s) {take : State → State} (ht : P (take s)) : P (s.readAccess take) :=
  State.readAccess_induct hs (fun _ => ht) fun _ b ht => h.respond ht b

theorem tryRead (h : Kept P) (hs : P s) (a : Agent) (l : LockNum) : P (s.tryReadTaken a l) := by
  unfold State.tryReadTaken
  simp only
  split
  · exact h.respond (h.tryGrant s a l hs).1 _
  · next hn => exact h.respond ((h.tryGrant s a l hs).2 hn) _

theorem tryWrite (h : Kept P) (hs : P s) (a : Agent) (l : LockNum) : P (s.tryWriteTaken a l) := by
  unfold State.tryWriteTaken
  simp only
  split
  · exact h.respond (h.error (h.tryGrant s a l hs).1 _ _) _
  · next hn => exact h.respond (h.tryRelease s a l hs hn) _

/-- A write of any word. -/
theorem registerWrite (h : Kept P) (hs : P s) (a : Agent) (off : WordOffset) (w : WriteData) {t : State}
    (ht : execRegisterWrite a off w s = .next t) : P t := by
  have refused : ∀ k, P (s.writeRefused a k) := fun k => by
    unfold State.writeRefused
    split
    · exact h.respond (h.error hs a k) _
    · exact h.respond hs _
  unfold execRegisterWrite at ht
  split at ht
  all_goals first
    | (rw [execCommand_eq] at ht; cases ht; exact h.command hs _ _ _)
    | (cases ht; first
        | exact refused _
        | exact h.write hs a w (h.respond (h.port _ _ hs) _)
        | exact h.write hs a w (h.respond (h.notices _ _ _ _ hs) _)
        | exact h.write hs a w (h.tryWrite hs _ _)
        | exact h.write hs a w (h.respond (h.fields _ _ _ _ _ _ _ hs) _))

/-- A read of any word. -/
theorem refusedRead (h : Kept P) (hs : P s) (a : Agent) (off : WordOffset) {t : State}
    (ht : execRefusedRead a off s = .next t) : P t := by
  unfold execRefusedRead at ht
  split at ht <;> cases ht
  all_goals first
    | exact h.read hs (h.respond (h.error hs _ _) _)
    | exact h.read hs (h.tryRead hs _ _)
    | exact h.read hs (h.respond hs _)
    | exact h.read hs (h.respond (h.snapshots _ _ hs) _)
    | (split <;> exact h.respond hs _)

/-- The held ticks that are taken as the expiries before them have been. -/
theorem catchUp (h : Kept P) (hs : P s) : P s.catchUp := State.catchUp_induct h.heldTick hs

/-- Every command keeps what every part keeps. -/
theorem exec (h : Kept P) (hs : P s) {i : Instr} {t : State} (ht : exec i s = .next t) : P t := by
  cases i
  case registerWrite a off w => exact h.registerWrite hs a off w ht
  case refusedRead a off => exact h.refusedRead hs a off ht
  case tryRead a l => cases ht; exact h.read hs (h.tryRead hs _ _)
  case tryWrite a l w => cases ht; exact h.write hs a w (h.tryWrite hs _ _)
  case timeLowRead a => cases ht; exact h.read hs (h.respond (h.snapshots _ _ hs) _)
  case pop a w => cases ht; exact h.write hs a w (h.respond (h.notices _ _ _ _ hs) _)
  case clearOverrun a w => cases ht; exact h.write hs a w (h.respond (h.notices _ _ _ _ hs) _)
  case errorStatusWrite a w => cases ht; exact h.write hs a w (h.respond (h.fields _ _ _ _ _ _ _ hs) _)
  case interruptEnableWrite a w => cases ht; exact h.write hs a w (h.respond (h.fields _ _ _ _ _ _ _ hs) _)
  case powerOnReset => cases ht; exact h.powerOn s hs
  case busReset => cases ht; split; exacts [h.port _ _ hs, h.busReset s hs]
  case powerOnResetRelease =>
    simp only [Machine.exec, execPowerOnResetRelease] at ht
    split at ht <;> cases ht
    · split
      · exact h.port _ _ hs
      · exact h.port _ _ (h.port _ _ hs)
    · exact hs
  case busResetRelease =>
    simp only [Machine.exec, execBusResetRelease] at ht
    split at ht <;> cases ht
    · split
      · exact h.port _ _ hs
      · exact h.port _ _ (h.port _ _ hs)
    · exact hs
  case initializationComplete =>
    simp only [Machine.exec, execInitializationComplete] at ht
    split at ht <;> cases ht
    · exact h.catchUp (h.port _ _ hs)
    · exact hs
  case tickAdvance => cases ht; exact h.tick s hs
  case waitExpiry => cases ht; split; exacts [h.catchUp (h.expiry s hs), hs]
  case leaseExpiry => cases ht; split; exacts [h.catchUp (h.expiry s hs), hs]
  case sweepVisit => cases ht; exact h.sweepVisit s hs
  case sweepEnd => cases ht; exact h.sweepEnd s hs
  all_goals (cases ht; exact h.command hs _ _ _)

/-- Every step keeps what every part keeps. -/
theorem step (h : Kept P) (hs : P s) {t : State} (ht : step s = .next t) : P t := by
  unfold Machine.step at ht
  split at ht
  · exact h.exec (h.pending _ _ hs) ht
  · cases ht
    unfold State.busClock
    split
    · exact hs
    · refine h.catchUp ?_
      have h1 : P ((s.withDu (·.countPeriod)).countInitialization) := by
        have hp := h.period s hs
        unfold State.countInitialization
        split
        · split <;> exact h.port _ _ hp
        · exact hp
      generalize (s.withDu (·.countPeriod)).countInitialization = u at h1
      unfold State.ownEvent
      split
      · exact h.expiry u h1
      · split
        · exact h.sweepEnd u h1
        · exact h.sweepVisit u h1

end Kept
end Sys2Proof.Machine
end

