-- ==== Sys2Proof/Laws/Ownership.lean ====
section
/-! SUPPORT. The law of entry ownership (R92) under each request of the Lock Engine to the Deadline Unit (R93). -/

namespace Sys2Proof.Machine

/-! ### What the law reads -/

/-- What the law of ownership reads of a state: the leases of the holds, the requests but for class and count, and the
entries. -/
structure State.SameOwners (s t : State) : Prop where
  leases : ∀ l a, (t.lock l).leaseOf a = (s.lock l).leaseOf a
  requests : ∀ a q, s.request a = some q → ∃ p, t.request a = some p ∧ p.lock = q.lock ∧ p.timeout = q.timeout ∧
    p.lease = q.lease ∧ p.entry = q.entry
  back : ∀ a p, t.request a = some p → ∃ q, s.request a = some q ∧ p.lock = q.lock ∧ p.timeout = q.timeout ∧
    p.lease = q.lease ∧ p.entry = q.entry
  entries : ∀ e, t.du.entries.get e = s.du.entries.get e

theorem State.OwnsEntry.congr {s t : State} {a : Agent} {q p : PendingRequest} (h : s.OwnsEntry a q)
    (hl : p.lock = q.lock) (ht : p.timeout = q.timeout) (hd : p.lease = q.lease) (he : p.entry = q.entry)
    (hs : ∀ e, q.entry = some e → t.du.entries.get e = s.du.entries.get e) : t.OwnsEntry a p := by
  unfold State.OwnsEntry at *
  rw [ht, hd, he, hl]
  rcases h1 : q.timeout with _ | n <;> rcases h2 : q.lease with _ | d <;> simp only [h1, h2] at h ⊢
  · exact h
  · obtain ⟨e, h3, h4⟩ := h
    exact ⟨e, h3, by rw [hs e h3]; exact h4⟩
  all_goals
    obtain ⟨e, n, o, h3, h4⟩ := h
    exact ⟨e, n, o, h3, by rw [hs e h3]; exact h4⟩

theorem State.OwnershipLaw.congr {s t : State} (h : s.OwnershipLaw) (e : s.SameOwners t) : t.OwnershipLaw where
  hold l a x hx := by rw [e.leases] at hx; rw [e.entries]; exact h.hold l a x hx
  request a p hp := by
    obtain ⟨q, hq, h1, h2, h3, h4⟩ := e.back a p hp
    exact (h.request a q hq).congr h1 h2 h3 h4 fun x _ => e.entries x
  waitOwner x a l n o hx := by
    rw [e.entries] at hx
    obtain ⟨q, hq, h1, h2, h3⟩ := h.waitOwner x a l n o hx
    obtain ⟨p, hp, g1, g2, g3, g4⟩ := e.requests a q hq
    exact ⟨p, hp, g1.trans h1, g4.trans h2, by rw [g2]; exact h3⟩
  leaseOwner x a l n o hx := by rw [e.entries] at hx; rw [e.leases]; exact h.leaseOwner x a l n o hx
  reservedOwner x a l hx := by
    rw [e.entries] at hx
    obtain ⟨q, hq, h1, h2, h3, h4⟩ := h.reservedOwner x a l hx
    obtain ⟨p, hp, g1, g2, g3, g4⟩ := e.requests a q hq
    exact ⟨p, hp, g1.trans h1, g4.trans h2, g2.trans h3, by rw [g3]; exact h4⟩

theorem State.OwnershipLaw.of_eq {s t : State} (h : s.OwnershipLaw)
    (hl : ∀ l a, (t.lock l).leaseOf a = (s.lock l).leaseOf a) (hr : ∀ a, t.request a = s.request a)
    (he : ∀ e, t.du.entries.get e = s.du.entries.get e) : t.OwnershipLaw :=
  h.congr ⟨hl, fun a q hq => ⟨q, by rw [hr]; exact hq, rfl, rfl, rfl, rfl⟩,
    fun a p hp => ⟨p, by rw [← hr]; exact hp, rfl, rfl, rfl, rfl⟩, he⟩

theorem State.OwnershipLaw.post {s : State} (h : s.OwnershipLaw) (a : Agent) (n : Notice) : (s.post a n).OwnershipLaw :=
  h.of_eq (fun _ _ => by rw [State.post_lock]) (fun _ => State.post_request ..) fun _ => by rw [State.post_du]

/-- A change of a lock record that keeps the leases. -/
theorem State.OwnershipLaw.setLock {s : State} (h : s.OwnershipLaw) (l : LockNum) {r : LockRecord}
    (hr : r.holders = (s.lock l).holders) : (s.setLock l r).OwnershipLaw :=
  h.of_eq (fun k a => by
    rw [State.setLock_lock]
    split
    · next hk => subst hk; unfold LockRecord.leaseOf; rw [hr]
    · rfl) (fun _ => rfl) fun _ => rfl

/-! ### Facts of the law -/

/-- The entry of a pending request, and whether it is armed. -/
theorem State.OwnershipLaw.entry_of_request {s : State} (h : s.OwnershipLaw) {a : Agent} {q : PendingRequest}
    (hq : s.request a = some q) {e : EntryNum} (he : q.entry = some e) :
    (∃ n o, s.du.entries.get e = .armed .wait a q.lock n o) ∨ s.du.entries.get e = .reserved a q.lock := by
  have := h.request a q hq
  unfold State.OwnsEntry at this
  split at this
  · rw [he] at this; exact absurd this (by simp)
  · obtain ⟨x, n, o, hx, hd⟩ := this
    rw [he] at hx; injection hx with hx; subst hx
    exact Or.inl ⟨n, o, hd⟩
  · obtain ⟨x, hx, hd⟩ := this
    rw [he] at hx; injection hx with hx; subst hx
    exact Or.inr hd

/-- A pending request with a lease or a timeout has an entry. -/
theorem State.OwnershipLaw.entry_isSome {s : State} (h : s.OwnershipLaw) {a : Agent} {q : PendingRequest}
    (hq : s.request a = some q) (hx : q.timeout.isSome = true ∨ q.lease.isSome = true) : ∃ e, q.entry = some e := by
  have := h.request a q hq
  unfold State.OwnsEntry at this
  split at this
  · next h1 h2 => rw [h1, h2] at hx; simp at hx
  · obtain ⟨x, n, o, hx, hd⟩ := this; exact ⟨x, hx⟩
  · obtain ⟨x, hx, hd⟩ := this; exact ⟨x, hx⟩

/-- No two pending requests own the same entry. -/
theorem State.OwnershipLaw.entry_apart {s : State} (h : s.OwnershipLaw) {a b : Agent} {q p : PendingRequest}
    {e : EntryNum} (hq : s.request a = some q) (hp : s.request b = some p) (he : q.entry = some e)
    (he' : p.entry = some e) : a = b := by
  rcases h.entry_of_request hq he with ⟨n, o, h1⟩ | h1 <;> rcases h.entry_of_request hp he' with ⟨n', o', h2⟩ | h2 <;>
    rw [h1] at h2 <;> injection h2

/-- No hold's lease is the entry of a pending request. -/
theorem State.OwnershipLaw.lease_apart {s : State} (h : s.OwnershipLaw) {a b : Agent} {l : LockNum}
    {q : PendingRequest} {e : EntryNum} (hq : s.request a = some q) (he : q.entry = some e)
    (hl : (s.lock l).leaseOf b = some e) : False := by
  obtain ⟨n, o, h1⟩ := h.hold l b e hl
  rcases h.entry_of_request hq he with ⟨n', o', h2⟩ | h2 <;> rw [h1] at h2 <;> injection h2
  next hk _ _ _ _ => exact absurd hk (by simp)

/-- No two holds have the same lease. -/
theorem State.OwnershipLaw.hold_apart {s : State} (h : s.OwnershipLaw) {a b : Agent} {l k : LockNum} {e : EntryNum}
    (ha : (s.lock l).leaseOf a = some e) (hb : (s.lock k).leaseOf b = some e) : l = k ∧ a = b := by
  obtain ⟨n, o, h1⟩ := h.hold l a e ha
  obtain ⟨n', o', h2⟩ := h.hold k b e hb
  rw [h1] at h2
  injection h2 with _ h3 h4
  exact ⟨h4, h3⟩

/-! ### An owner leaves with its entry -/

theorem DeadlineUnit.freeOwned_entry (d : DeadlineUnit) (x : Option EntryNum) (e : EntryNum) :
    (d.freeOwned x).entries.get e = if x = some e then .free else d.entries.get e := by
  cases x with
  | none => simp [DeadlineUnit.freeOwned]
  | some y =>
    show (d.free y).entries.get e = _
    rw [DeadlineUnit.free_entry]
    by_cases h : e = y
    · simp [h]
    · have : (some y : Option EntryNum) ≠ some e := by simpa using fun hc => h hc.symm
      rw [if_neg h, if_neg this]

/-- R63, R93: a request leaves with its entry. -/
theorem State.OwnershipLaw.dropRequest {s t : State} (h : s.OwnershipLaw) {a : Agent} {q : PendingRequest}
    (hq : s.request a = some q) (hl : ∀ l b, (t.lock l).leaseOf b = (s.lock l).leaseOf b)
    (hr : ∀ b, t.request b = if b = a then none else s.request b)
    (he : ∀ e, t.du.entries.get e = if q.entry = some e then .free else s.du.entries.get e) : t.OwnershipLaw := by
  have hrb : ∀ {b p}, t.request b = some p → b ≠ a ∧ s.request b = some p := fun {b p} hp => by
    rw [hr] at hp
    split at hp
    · exact absurd hp (by simp)
    · next hb => exact ⟨hb, hp⟩
  have hsome : ∀ {e k b l n o}, t.du.entries.get e = .armed k b l n o →
      q.entry ≠ some e ∧ s.du.entries.get e = .armed k b l n o := fun {e k b l n o} hx => by
    rw [he] at hx
    split at hx
    · exact absurd hx (by simp)
    · next hne => exact ⟨hne, hx⟩
  refine ⟨?_, ?_, ?_, ?_, ?_⟩
  · intro l b e hb
    rw [hl] at hb
    rw [he, if_neg fun hc => h.lease_apart hq hc hb]
    exact h.hold l b e hb
  · intro b p hp
    obtain ⟨hb, hp⟩ := hrb hp
    refine (h.request b p hp).congr rfl rfl rfl rfl fun e hpe => ?_
    rw [he, if_neg fun hc => hb (h.entry_apart hp hq hpe hc)]
  · intro e b l n o hx
    obtain ⟨hne, hx⟩ := hsome hx
    obtain ⟨p, hp, h1, h2, h3⟩ := h.waitOwner e b l n o hx
    refine ⟨p, ?_, h1, h2, h3⟩
    rw [hr, if_neg]
    · exact hp
    · rintro rfl
      rw [hq] at hp; injection hp with hp; subst hp
      exact hne h2
  · intro e b l n o hx
    rw [hl]
    exact h.leaseOwner e b l n o (hsome hx).2
  · intro e b l hx
    rw [he] at hx
    split at hx
    · exact absurd hx (by simp)
    · next hne =>
      obtain ⟨p, hp, h1, h2, h3, h4⟩ := h.reservedOwner e b l hx
      refine ⟨p, ?_, h1, h2, h3, h4⟩
      rw [hr, if_neg]
      · exact hp
      · rintro rfl
        rw [hq] at hp; injection hp with hp; subst hp
        exact hne h2

/-- R36, R93: a hold leaves with its lease entry. -/
theorem State.OwnershipLaw.dropHold {s t : State} (h : s.OwnershipLaw) {a : Agent} {l : LockNum}
    (hl : ∀ k b, (t.lock k).leaseOf b = if k = l ∧ b = a then none else (s.lock k).leaseOf b)
    (hr : ∀ b, t.request b = s.request b)
    (he : ∀ e, t.du.entries.get e = if (s.lock l).leaseOf a = some e then .free else s.du.entries.get e) :
    t.OwnershipLaw := by
  have hsome : ∀ {e k b j n o}, t.du.entries.get e = .armed k b j n o →
      (s.lock l).leaseOf a ≠ some e ∧ s.du.entries.get e = .armed k b j n o := fun {e k b j n o} hx => by
    rw [he] at hx
    split at hx
    · exact absurd hx (by simp)
    · next hne => exact ⟨hne, hx⟩
  refine ⟨?_, ?_, ?_, ?_, ?_⟩
  · intro k b e hb
    rw [hl] at hb
    split at hb
    · exact absurd hb (by simp)
    · next hne =>
      rw [he, if_neg fun hc => hne ((h.hold_apart hb hc))]
      exact h.hold k b e hb
  · intro b p hp
    rw [hr] at hp
    refine (h.request b p hp).congr rfl rfl rfl rfl fun e hpe => ?_
    rw [he, if_neg fun hc => h.lease_apart hp hpe hc]
  · intro e b k n o hx
    obtain ⟨-, hx⟩ := hsome hx
    obtain ⟨p, hp, h1⟩ := h.waitOwner e b k n o hx
    exact ⟨p, by rw [hr]; exact hp, h1⟩
  · intro e b k n o hx
    obtain ⟨hne, hx⟩ := hsome hx
    have := h.leaseOwner e b k n o hx
    rw [hl, if_neg]
    · exact this
    · rintro ⟨rfl, rfl⟩; exact hne this
  · intro e b k hx
    rw [he] at hx
    split at hx
    · exact absurd hx (by simp)
    · obtain ⟨p, hp, h1⟩ := h.reservedOwner e b k hx
      exact ⟨p, by rw [hr]; exact hp, h1⟩

theorem State.OwnershipLaw.dequeue {s : State} (h : s.OwnershipLaw) (a : Agent) : (s.dequeue a).OwnershipLaw := by
  cases hq : s.request a with
  | none => rw [State.dequeue_of_none hq]; exact h
  | some q =>
    refine h.dropRequest hq (fun l b => by rw [State.dequeue_lock]; rfl) (fun b => ?_) fun e => ?_
    · rw [State.dequeue_of_some hq, State.withDu_request, State.leaveQueue_request]
    · rw [State.dequeue_of_some hq]
      exact DeadlineUnit.freeOwned_entry ..

theorem State.OwnershipLaw.removeHold {s : State} (h : s.OwnershipLaw) (a : Agent) (l : LockNum) :
    (s.removeHold a l).OwnershipLaw := by
  refine h.dropHold (a := a) (l := l) (fun k b => ?_) (fun _ => rfl) fun e => ?_
  · rw [State.removeHold_lock]
    by_cases hk : k = l
    · subst hk
      rw [if_pos rfl, LockRecord.withoutHolder_leaseOf]
      by_cases hb : b = a <;> simp [hb]
    · simp [hk]
  · exact DeadlineUnit.freeOwned_entry ..

theorem State.OwnershipLaw.seatUpgrade {s : State} (h : s.OwnershipLaw) {l : LockNum} {a : Agent}
    {q : PendingRequest} (hq : s.request a = some q) : (s.seatUpgrade l a q).OwnershipLaw := by
  refine h.dropRequest hq (fun k b => ?_) (fun b => s.seatUpgrade_request l a q b) fun e => ?_
  · rw [State.seatUpgrade_lock]
    split
    · next hk => subst hk; rfl
    · rfl
  · exact DeadlineUnit.freeOwned_entry ..

/-! ### A waiter's entry becomes the lease of its hold (R47, R92) -/

theorem DeadlineUnit.armAsLease_entry {d : DeadlineUnit} {e : EntryNum} {a : Agent} {l : LockNum}
    (he : d.entries.get e = .reserved a l ∨ ∃ k n o, d.entries.get e = .armed k a l n o) (n : Nat) (x : EntryNum) :
    (d.armAsLease e n).entries.get x =
      if x = e then .armed .lease a l n d.nextArming else d.entries.get x := by
  unfold DeadlineUnit.armAsLease
  rcases he with he | ⟨k, m, o, he⟩ <;> rw [he] <;> exact DeadlineUnit.arm_entry ..

theorem State.OwnershipLaw.seatWaiter {s : State} (h : s.OwnershipLaw) {l : LockNum} {a : Agent} {q : PendingRequest}
    (hq : s.request a = some q) (hql : q.lock = l) (hno : (s.lock l).leaseOf a = none) :
    (s.seatWaiter l a q).OwnershipLaw := by
  have hlease : ∀ k b, ((s.seatWaiter l a q).lock k).leaseOf b =
      if k = l ∧ b = a then q.grantedLease else (s.lock k).leaseOf b := fun k b => by
    rw [State.seatWaiter_lock]
    by_cases hk : k = l
    · subst hk
      rw [if_pos rfl, LockRecord.withHolder_leaseOf]
      by_cases hb : b = a
      · simp [hb]
      · simp [hb, LockRecord.leaseOf]
    · simp [hk]
  have hreq := s.seatWaiter_request l a q
  by_cases hd : ∃ n e, q.lease = some n ∧ q.entry = some e
  · obtain ⟨n, e, hn, he⟩ := hd
    have hg : q.grantedLease = some e := by simp [PendingRequest.grantedLease, hn, he]
    have hown := h.entry_of_request hq he
    have hent : ∀ x, (s.seatWaiter l a q).du.entries.get x =
        if x = e then .armed .lease a l n s.du.nextArming else s.du.entries.get x := fun x => by
      rw [State.seatWaiter_du]
      unfold DeadlineUnit.atGrant
      rw [hn, he]
      simp only
      refine DeadlineUnit.armAsLease_entry ?_ n x
      rw [hql] at hown
      rcases hown with ⟨m, o, hx⟩ | hx
      · exact Or.inr ⟨_, _, _, hx⟩
      · exact Or.inl hx
    refine ⟨?_, ?_, ?_, ?_, ?_⟩
    · intro k b x hx
      rw [hlease] at hx
      split at hx
      · next hkb =>
        rw [hg] at hx; injection hx with hx; subst hx
        rw [hent, if_pos rfl, hkb.1, hkb.2]
        exact ⟨_, _, rfl⟩
      · rw [hent, if_neg fun hc => h.lease_apart hq he (by rw [← hc]; exact hx)]
        exact h.hold k b x hx
    · intro b p hp
      rw [hreq] at hp
      split at hp
      · exact absurd hp (by simp)
      · next hb =>
        refine (h.request b p hp).congr rfl rfl rfl rfl fun x hpx => ?_
        rw [hent, if_neg fun hc => hb (h.entry_apart hp hq (by rw [← hc]; exact hpx) he)]
    · intro x b k m o hx
      rw [hent] at hx
      split at hx
      · injection hx with hk; exact absurd hk (by simp)
      · next hxe =>
        obtain ⟨p, hp, h1, h2, h3⟩ := h.waitOwner x b k m o hx
        refine ⟨p, ?_, h1, h2, h3⟩
        rw [hreq, if_neg]
        · exact hp
        · rintro rfl
          rw [hq] at hp; injection hp with hp; subst hp
          rw [he] at h2; injection h2 with h2; exact hxe h2.symm
    · intro x b k m o hx
      rw [hent] at hx
      rw [hlease]
      split at hx
      · next hxe =>
        injection hx with _ h1 h2
        rw [if_pos ⟨h2.symm, h1.symm⟩, hg, hxe]
      · have := h.leaseOwner x b k m o hx
        rw [if_neg]
        · exact this
        · rintro ⟨rfl, rfl⟩
          rw [hno] at this; exact absurd this (by simp)
    · intro x b k hx
      rw [hent] at hx
      split at hx
      · exact absurd hx (by simp)
      · next hxe =>
        obtain ⟨p, hp, h1, h2, h3, h4⟩ := h.reservedOwner x b k hx
        refine ⟨p, ?_, h1, h2, h3, h4⟩
        rw [hreq, if_neg]
        · exact hp
        · rintro rfl
          rw [hq] at hp; injection hp with hp; subst hp
          rw [he] at h2; injection h2 with h2; exact hxe h2.symm
  · have hnl : q.lease = none := by
      by_contra hc
      obtain ⟨e, he⟩ := h.entry_isSome hq (Or.inr (Option.isSome_iff_ne_none.mpr hc))
      obtain ⟨n, hn⟩ := Option.ne_none_iff_exists'.mp hc
      exact hd ⟨n, e, hn, he⟩
    refine h.dropRequest hq (fun k b => ?_) hreq fun e => ?_
    · rw [hlease]
      split
      · next hkb =>
        rw [hkb.1, hkb.2, hno]
        simp [PendingRequest.grantedLease, hnl]
      · rfl
    · rw [State.seatWaiter_du, ← DeadlineUnit.freeOwned_entry]
      unfold DeadlineUnit.atGrant
      rw [hnl]
      cases q.entry <;> rfl

/-! ### The grant step and the expiries -/

theorem LockRecord.leaseOf_of_not_holds {r : LockRecord} {a : Agent} (h : r.holds a = false) : r.leaseOf a = none := by
  unfold LockRecord.holds at h
  unfold LockRecord.leaseOf
  cases hx : r.holders.get a with
  | none => rfl
  | some x => rw [hx] at h; simp at h

theorem LockRecord.holds_of_leaseOf {r : LockRecord} {a : Agent} {e : EntryNum} (h : r.leaseOf a = some e) :
    r.holds a = true := by
  by_contra hc
  rw [LockRecord.leaseOf_of_not_holds (by simpa using hc)] at h
  exact absurd h (by simp)

theorem State.OwnershipLaw.countPassed {s : State} (h : s.OwnershipLaw) (l : LockNum) (ns : List Nat) :
    (s.countPassed l ns).OwnershipLaw := by
  refine h.congr ⟨fun _ _ => rfl, fun a q hq => ?_, fun a p hp => ?_, fun _ => rfl⟩
  · rw [State.countPassed_request, hq]
    split
    · refine ⟨_, rfl, ?_⟩
      simp only
      split <;> exact ⟨rfl, rfl, rfl, rfl⟩
    · exact ⟨q, rfl, rfl, rfl, rfl, rfl⟩
  · rw [State.countPassed_request] at hp
    split at hp
    · rw [Option.map_eq_some_iff] at hp
      obtain ⟨q, hq, rfl⟩ := hp
      refine ⟨q, hq, ?_⟩
      split <;> exact ⟨rfl, rfl, rfl, rfl⟩
    · exact ⟨p, hp, rfl, rfl, rfl, rfl⟩

theorem State.OwnershipLaw.promote {s : State} (h : s.OwnershipLaw) (l : LockNum) (ps : List Agent) :
    (s.promote l ps).OwnershipLaw := by
  refine h.congr ⟨fun k b => ?_, fun a q hq => ?_, fun a p hp => ?_, fun _ => rfl⟩
  · rw [State.promote_lock]
    split
    · next hk => subst hk; rfl
    · rfl
  · rw [State.promote_request, State.toClassZero_request, hq]
    split
    · exact ⟨_, rfl, rfl, rfl, rfl, rfl⟩
    · exact ⟨q, rfl, rfl, rfl, rfl, rfl⟩
  · rw [State.promote_request, State.toClassZero_request] at hp
    split at hp
    · rw [Option.map_eq_some_iff] at hp
      obtain ⟨q, hq, rfl⟩ := hp
      exact ⟨q, hq, rfl, rfl, rfl, rfl⟩
    · exact ⟨p, hp, rfl, rfl, rfl, rfl⟩

theorem ownershipClosed (l : LockNum) : GrantClosed l State.OwnershipLaw where
  seat s a q n hm h hq hl hup := by
    have hw := hm.waiter a q hq hup
    rw [hl] at hw
    exact (h.seatWaiter hq hl (LockRecord.leaseOf_of_not_holds hw)).post _ _
  convert s a q n _ h hq _ _ _ := (h.seatUpgrade hq).post _ _
  count s ns _ h := h.countPassed l ns
  promote s ps _ h _ := h.promote l ps

theorem State.OwnershipLaw.grantStep {s : State} {l : LockNum} (h : s.OwnershipLaw) (hm : s.MidLaw (some l)) :
    (s.grantStep l).OwnershipLaw := hm.grantStep_keeps (ownershipClosed l) h

/-- Freeing an entry twice frees it once. -/
theorem DeadlineUnit.free_free (d : DeadlineUnit) (e : EntryNum) : (d.free e).free e = d.free e := by
  unfold DeadlineUnit.free
  simp only [List.filter_filter, Bool.and_self]
  congr 1
  apply table_ext
  intro i
  rw [get_setRow]
  split
  · next hi => subst hi; simp
  · rfl

/-- R65: with its entry, the request of a WAIT expiry leaves as any other. -/
theorem State.dequeue_withFree {s : State} {a : Agent} {q : PendingRequest} {e : EntryNum}
    (hq : s.request a = some q) (he : q.entry = some e) : (s.withDu (·.free e)).dequeue a = s.dequeue a := by
  rw [State.dequeue_of_some hq, State.dequeue_of_some (s := s.withDu (·.free e)) hq, he]
  show ({ s.leaveQueue q.lock a with du := (s.du.free e).free e } : State) =
    { s.leaveQueue q.lock a with du := s.du.free e }
  rw [DeadlineUnit.free_free]

/-- R106: with its entry, the hold of a LEASE expiry is removed as any other. -/
theorem State.removeHold_withFree {s : State} {a : Agent} {l : LockNum} {e : EntryNum}
    (he : (s.lock l).leaseOf a = some e) : (s.withDu (·.free e)).removeHold a l = s.removeHold a l := by
  unfold State.removeHold
  show ({ s.setLock l _ with du := (s.du.free e).freeOwned ((s.lock l).leaseOf a) } : State) =
    { s.setLock l _ with du := s.du.freeOwned ((s.lock l).leaseOf a) }
  rw [he]
  show ({ s.setLock l _ with du := (s.du.free e).free e } : State) = { s.setLock l _ with du := s.du.free e }
  rw [DeadlineUnit.free_free]
  rfl

/-- R65: the WAIT expiry of an owned entry is the time-out of its request. -/
theorem State.waitExpired_eq {s : State} {a : Agent} {q : PendingRequest} {e : EntryNum}
    (hq : s.request a = some q) (he : q.entry = some e) : s.waitExpired e a = s.timeOut a q := by
  unfold State.waitExpired
  simp only [hq]
  unfold State.timeOut
  rw [State.dequeue_withFree hq he]
  rfl

/-- R106, R107: the LEASE expiry of an owned entry is the revocation of its hold. -/
theorem State.leaseExpired_eq {s : State} {a : Agent} {l : LockNum} {e : EntryNum}
    (he : (s.lock l).leaseOf a = some e) : s.leaseExpired e a l = s.revokeLease a l := by
  unfold State.leaseExpired
  rw [if_pos (LockRecord.holds_of_leaseOf he)]
  have h1 : (s.withDu (·.free e)).revokeHold a l = s.revokeHold a l := by
    unfold State.revokeHold
    rw [State.removeHold_withFree he]
    rfl
  unfold State.revokeLease State.revokeReported
  rw [h1]
  rfl

theorem State.OwnershipLaw.timeOut {s : State} (h : s.OwnershipLaw) (hm : s.MidLaw none) (a : Agent)
    (q : PendingRequest) : (s.timeOut a q).OwnershipLaw :=
  have h1 := (h.dequeue a).post a _
  State.grantIf_induct (fun _ => h1) (h1.grantStep (((hm.dequeue a).post _ _).weaken _))

theorem State.OwnershipLaw.revokeHold {s : State} (h : s.OwnershipLaw) (a : Agent) (l : LockNum) :
    (s.revokeHold a l).OwnershipLaw := by
  unfold State.revokeHold
  simp only
  split <;> split
  · exact ((h.removeHold a l).dequeue a).setLock l rfl
  · exact (h.removeHold a l).setLock l rfl
  · exact (h.removeHold a l).dequeue a
  · exact h.removeHold a l

theorem State.OwnershipLaw.revokeLease {s : State} (h : s.OwnershipLaw) (hm : s.MidLaw none) {a : Agent}
    {l : LockNum} (ha : (s.lock l).holds a = true) : (s.revokeLease a l).OwnershipLaw := by
  have h1 : (s.revokeReported a l).OwnershipLaw :=
    State.revokeReported_induct (h.revokeHold a l) fun _ _ _ h => h.post _ _
  have m1 : (s.revokeReported a l).MidLaw (some l) :=
    State.revokeReported_induct (hm.revokeHold ha) fun _ _ _ h => h.post _ _
  exact State.grantIf_induct (fun _ => h1) (h1.grantStep m1)

theorem State.OwnershipLaw.expiryOf {s : State} (h : s.OwnershipLaw) (hm : s.MidLaw none) (e : EntryNum) :
    (s.expiryOf e).OwnershipLaw := by
  unfold State.expiryOf
  split
  · next a l n o he =>
    obtain ⟨q, hq, -, hqe, -⟩ := h.waitOwner e a l n o he
    rw [State.waitExpired_eq hq hqe]
    exact h.timeOut hm a q
  · next a l n o he =>
    have hl := h.leaseOwner e a l n o he
    rw [State.leaseExpired_eq hl]
    exact h.revokeLease hm (LockRecord.holds_of_leaseOf hl)
  · exact h.of_eq (fun _ _ => rfl) (fun _ => rfl) fun _ => rfl
  · exact h.of_eq (fun _ _ => rfl) (fun _ => rfl) fun _ => rfl

/-- R97: a tick advance leaves owners and kinds as they are. -/
theorem State.OwnershipLaw.tick {s t : State} (h : s.OwnershipLaw) (hl : ∀ l, t.lock l = s.lock l)
    (hr : ∀ a, t.request a = s.request a) (he : ∀ e, t.du.entries.get e = s.du.tick.entries.get e) :
    t.OwnershipLaw := by
  have key : ∀ e, (∃ k a l n o, s.du.entries.get e = .armed k a l n o ∧
      ∃ m, t.du.entries.get e = .armed k a l m o) ∨
      ((∀ k a l n o, s.du.entries.get e ≠ .armed k a l n o) ∧ t.du.entries.get e = s.du.entries.get e) := by
    intro e
    rw [he, DeadlineUnit.tick_entry]
    cases hx : s.du.entries.get e with
    | free => exact Or.inr ⟨by simp, by split <;> rfl⟩
    | reserved a l => exact Or.inr ⟨by simp, by split <;> rfl⟩
    | armed k a l n o =>
      refine Or.inl ⟨k, a, l, n, o, rfl, ?_⟩
      split
      · exact ⟨_, rfl⟩
      · exact ⟨_, rfl⟩
  have back : ∀ {e k a l m p}, t.du.entries.get e = .armed k a l m p →
      ∃ n o, s.du.entries.get e = .armed k a l n o := fun {e k a l m p} hx => by
    rcases key e with ⟨k', a', l', n, o, h1, m', h2⟩ | ⟨h1, h2⟩
    · rw [h2] at hx
      injection hx with e1 e2 e3 _ _
      subst e1 e2 e3
      exact ⟨n, o, h1⟩
    · rw [h2] at hx; exact absurd hx (h1 _ _ _ _ _)
  have forth : ∀ {e k a l n o}, s.du.entries.get e = .armed k a l n o →
      ∃ m p, t.du.entries.get e = .armed k a l m p := fun {e k a l n o} hx => by
    rcases key e with ⟨k', a', l', n', o', h1, m', h2⟩ | ⟨h1, h2⟩
    · rw [hx] at h1
      injection h1 with e1 e2 e3 _ _
      subst e1 e2 e3
      exact ⟨m', o', h2⟩
    · exact absurd hx (h1 _ _ _ _ _)
  have res : ∀ {e a l}, t.du.entries.get e = .reserved a l ↔ s.du.entries.get e = .reserved a l := fun {e a l} => by
    rcases key e with ⟨k', a', l', n', o', h1, m', h2⟩ | ⟨h1, h2⟩
    · rw [h1, h2]; simp
    · rw [h2]
  refine ⟨?_, ?_, ?_, ?_, ?_⟩
  · intro l a e ha
    rw [hl] at ha
    obtain ⟨n, o, hx⟩ := h.hold l a e ha
    exact forth hx
  · intro a q hq
    rw [hr] at hq
    have := h.request a q hq
    unfold State.OwnsEntry at *
    split
    · next h1 h2 => simpa only [h1, h2] using this
    · next h1 =>
      simp only [h1] at this
      obtain ⟨e, n, o, h3, h4⟩ := this
      obtain ⟨m, p, h5⟩ := forth h4
      exact ⟨e, m, p, h3, h5⟩
    · next h1 h2 =>
      simp only [h1, h2] at this
      obtain ⟨e, h3, h4⟩ := this
      exact ⟨e, h3, res.mpr h4⟩
  · intro e a l n o hx
    obtain ⟨m, p, hy⟩ := back hx
    obtain ⟨q, hq, h1⟩ := h.waitOwner e a l m p hy
    exact ⟨q, by rw [hr]; exact hq, h1⟩
  · intro e a l n o hx
    obtain ⟨m, p, hy⟩ := back hx
    rw [hl]
    exact h.leaseOwner e a l m p hy
  · intro e a l hx
    obtain ⟨q, hq, h1⟩ := h.reservedOwner e a l (res.mp hx)
    exact ⟨q, by rw [hr]; exact hq, h1⟩

theorem State.OwnershipLaw.settle {s : State} (h : s.OwnershipLaw) (hm : s.MidLaw none) : s.settle.OwnershipLaw :=
  (State.settle_induct (P := fun t => t.MidLaw none ∧ t.OwnershipLaw)
    (fun _ e h => ⟨h.1.expiryOf e, h.2.expiryOf h.1 e⟩)
    (fun _ h => ⟨h.1.withDu _, h.2.tick (fun _ => rfl) (fun _ => rfl) fun _ => rfl⟩) ⟨hm, h⟩).2

/-! ### New owners -/

/-- R26: an immediate grant with a lease arms a FREE entry for the new hold. -/
theorem State.OwnershipLaw.grantNow {s : State} (h : s.OwnershipLaw) {a : Agent} {l : LockNum}
    (hno : (s.lock l).holds a = false) (m : Mode) {d : Option Nat} {e : Option EntryNum}
    (he : ∀ x, e = some x → s.du.entries.get x = .free ∧ d.isSome = true) : (s.grantNow a l m d e).OwnershipLaw := by
  have hlease : ∀ k b, ((s.grantNow a l m d e).lock k).leaseOf b =
      if k = l ∧ b = a then e else (s.lock k).leaseOf b := fun k b => by
    rw [State.grantNow_lock]
    by_cases hk : k = l
    · subst hk
      rw [if_pos rfl, LockRecord.withHolder_leaseOf]
      by_cases hb : b = a <;> simp [hb]
    · simp [hk]
  have hreq := s.grantNow_request a l m d e
  have hnone := LockRecord.leaseOf_of_not_holds hno
  cases hex : e with
  | none =>
    subst hex
    refine h.of_eq (fun k b => ?_) hreq fun x => ?_
    · rw [hlease]
      split
      · next hkb => rw [hkb.1, hkb.2, hnone]
      · rfl
    · rfl
  | some x =>
    subst hex
    obtain ⟨hfree, hd⟩ := he x rfl
    obtain ⟨n, rfl⟩ := Option.isSome_iff_exists.mp hd
    have hent : ∀ y, (s.grantNow a l m (some n) (some x)).du.entries.get y =
        if y = x then .armed .lease a l n s.du.nextArming else s.du.entries.get y :=
      fun y => DeadlineUnit.arm_entry ..
    have hxne : ∀ {y k b j n o}, s.du.entries.get y = .armed k b j n o → y ≠ x := fun {y k b j n o} hy hc => by
      rw [hc, hfree] at hy; exact absurd hy (by simp)
    refine ⟨?_, ?_, ?_, ?_, ?_⟩
    · intro k b y hy
      rw [hlease] at hy
      split at hy
      · next hkb =>
        injection hy with hy
        subst hy
        rw [hent, if_pos rfl, hkb.1, hkb.2]
        exact ⟨_, _, rfl⟩
      · obtain ⟨n', o, h1⟩ := h.hold k b y hy
        rw [hent, if_neg (hxne h1)]
        exact ⟨n', o, h1⟩
    · intro b p hp
      rw [hreq] at hp
      refine (h.request b p hp).congr rfl rfl rfl rfl fun y hpy => ?_
      rw [hent, if_neg]
      rintro rfl
      rcases h.entry_of_request hp hpy with ⟨n', o', h2⟩ | h2 <;> rw [hfree] at h2 <;> exact absurd h2 (by simp)
    · intro y b k n' o hy
      rw [hent] at hy
      split at hy
      · injection hy with hk; exact absurd hk (by simp)
      · obtain ⟨q, hq, h1⟩ := h.waitOwner y b k n' o hy
        exact ⟨q, by rw [hreq]; exact hq, h1⟩
    · intro y b k n' o hy
      rw [hent] at hy
      rw [hlease]
      split at hy
      · next hyx =>
        injection hy with _ h1 h2
        rw [if_pos ⟨h2.symm, h1.symm⟩, hyx]
      · have := h.leaseOwner y b k n' o hy
        rw [if_neg]
        · exact this
        · rintro ⟨rfl, rfl⟩
          rw [hnone] at this; exact absurd this (by simp)
    · intro y b k hy
      rw [hent] at hy
      split at hy
      · exact absurd hy (by simp)
      · obtain ⟨q, hq, h1⟩ := h.reservedOwner y b k hy
        exact ⟨q, by rw [hreq]; exact hq, h1⟩

/-- R30, R73: a request that queues takes a FREE entry when it carries a timeout or a lease, and none otherwise. -/
theorem State.OwnershipLaw.joinQueue {s : State} (h : s.OwnershipLaw) {a : Agent} {l : LockNum} {m : Mode}
    (hnone : s.request a = none) {timeout lease : Option Nat} {e : Option EntryNum}
    (he : ∀ x, e = some x → s.du.entries.get x = .free)
    (hs : e.isSome = (timeout.isSome || lease.isSome)) : (s.joinQueue a l m timeout lease e).OwnershipLaw := by
  have hreq := s.joinQueue_request a l m timeout lease e
  have hlease : ∀ k b, ((s.joinQueue a l m timeout lease e).lock k).leaseOf b = (s.lock k).leaseOf b := fun k b => by
    rw [State.joinQueue_lock]
    split
    · next hk => subst hk; rfl
    · rfl
  have hdu : (s.joinQueue a l m timeout lease e).du = s.du.atQueue e timeout a l := rfl
  have hent : ∀ y, (s.joinQueue a l m timeout lease e).du.entries.get y =
      if e = some y then
        (match (generalizing := false) timeout with
          | some n => .armed .wait a l n s.du.nextArming
          | none => .reserved a l)
      else s.du.entries.get y := fun y => by
    rw [hdu]
    unfold DeadlineUnit.atQueue
    cases e with
    | none => simp
    | some x =>
      cases timeout with
      | none =>
        simp only
        rw [DeadlineUnit.reserve_entry]
        by_cases hy : y = x
        · simp [hy]
        · have : (some x : Option EntryNum) ≠ some y := by simpa using fun hc => hy hc.symm
          rw [if_neg hy, if_neg this]
      | some n =>
        simp only
        rw [DeadlineUnit.arm_entry]
        by_cases hy : y = x
        · simp [hy]
        · have : (some x : Option EntryNum) ≠ some y := by simpa using fun hc => hy hc.symm
          rw [if_neg hy, if_neg this]
  have hfree : ∀ {y}, s.du.entries.get y ≠ .free → e ≠ some y := fun {y} hy hc => hy (he y hc)
  have hra : (s.joinQueue a l m timeout lease e).request a = some
      { lock := l, mode := m, effClass := (s.agent a).cls, bypass := 0, arrival := s.nextArrival
        timeout := timeout, lease := lease, entry := e } := by rw [hreq, if_pos rfl]
  refine ⟨?_, ?_, ?_, ?_, ?_⟩
  · intro k b y hy
    rw [hlease] at hy
    obtain ⟨n', o, h1⟩ := h.hold k b y hy
    rw [hent, if_neg (hfree (by rw [h1]; simp))]
    exact ⟨n', o, h1⟩
  · intro b p hp
    by_cases hb : b = a
    · subst hb
      rw [hra] at hp
      injection hp with hp
      subst hp
      unfold State.OwnsEntry
      cases timeout with
      | none =>
        cases lease with
        | none =>
          simp only [Option.isSome_none, Bool.or_false, Option.isSome_eq_false_iff, Option.isNone_iff_eq_none] at hs
          exact hs
        | some d =>
          simp only [Option.isSome_none, Option.isSome_some, Bool.or_true] at hs
          obtain ⟨x, rfl⟩ := Option.isSome_iff_exists.mp hs
          exact ⟨x, rfl, by rw [hent, if_pos rfl]⟩
      | some n =>
        simp only [Option.isSome_some, Bool.true_or] at hs
        obtain ⟨x, rfl⟩ := Option.isSome_iff_exists.mp hs
        exact ⟨x, n, s.du.nextArming, rfl, by rw [hent, if_pos rfl]⟩
    · rw [hreq, if_neg hb] at hp
      refine (h.request b p hp).congr rfl rfl rfl rfl fun y hpy => ?_
      rw [hent, if_neg (hfree ?_)]
      rcases h.entry_of_request hp hpy with ⟨n', o', h2⟩ | h2 <;> rw [h2] <;> simp
  · intro y b k n' o hy
    rw [hent] at hy
    split at hy
    · next hey =>
      split at hy
      · next n hn =>
        injection hy with _ h1 h2 _ _
        subst h1 h2
        exact ⟨_, hra, rfl, hey, rfl⟩
      · exact absurd hy (by simp)
    · obtain ⟨q, hq, h1⟩ := h.waitOwner y b k n' o hy
      have hb : b ≠ a := by rintro rfl; rw [hnone] at hq; exact absurd hq (by simp)
      exact ⟨q, by rw [hreq, if_neg hb]; exact hq, h1⟩
  · intro y b k n' o hy
    rw [hent] at hy
    rw [hlease]
    split at hy
    · split at hy
      · injection hy with h0; exact absurd h0 (by simp)
      · exact absurd hy (by simp)
    · exact h.leaseOwner y b k n' o hy
  · intro y b k hy
    rw [hent] at hy
    split at hy
    · next hey =>
      split at hy
      · exact absurd hy (by simp)
      · next hn =>
        injection hy with h1 h2
        subst h1 h2
        refine ⟨_, hra, rfl, hey, rfl, ?_⟩
        rw [hey] at hs
        simpa using hs.symm
    · obtain ⟨q, hq, h1⟩ := h.reservedOwner y b k hy
      have hb : b ≠ a := by rintro rfl; rw [hnone] at hq; exact absurd hq (by simp)
      exact ⟨q, by rw [hreq, if_neg hb]; exact hq, h1⟩

end Sys2Proof.Machine
end

