-- ==== Sys2Proof/Laws/PerInstr.lean ====
section
/-! SUPPORT. Facts about every command as syntax, one lemma for each constructor: the access that a command within its
row is, decoded by the window map, is that command again (R145, Tables 10-1 and 10-2). -/

namespace Sys2Proof.Laws.AccessRoundTrip

/-- The access that command `i` is, decoded by the window map, is `i`. -/
def Statement (i : Instr) : Prop := i.wf = true → ∀ b, i.access = some b → b.command = i

theorem powerOnReset : Statement .powerOnReset := fun _ _ h => nomatch h
theorem powerOnResetRelease : Statement .powerOnResetRelease := fun _ _ h => nomatch h
theorem busReset : Statement .busReset := fun _ _ h => nomatch h
theorem busResetRelease : Statement .busResetRelease := fun _ _ h => nomatch h
theorem initializationComplete : Statement .initializationComplete := fun _ _ h => nomatch h
theorem tickAdvance : Statement .tickAdvance := fun _ _ h => nomatch h
theorem waitExpiry : Statement .waitExpiry := fun _ _ h => nomatch h
theorem leaseExpiry : Statement .leaseExpiry := fun _ _ h => nomatch h
theorem sweepVisit : Statement .sweepVisit := fun _ _ h => nomatch h
theorem sweepEnd : Statement .sweepEnd := fun _ _ h => nomatch h

/-- A write of a command word is decoded as that command. -/
theorem command_row (c : Machine.Command) (a : Agent) (w : WriteData) :
    BusAccess.command ⟨a, c.offset, some w⟩ = c.row a w := by
  simp only [BusAccess.command, writeRow, Machine.windowWord_command]

theorem nop (a : Agent) (w : WriteData) : Statement (.nop a w) := by
  rintro - b ⟨⟩; exact command_row .nop a w
theorem acquire (a : Agent) (w : WriteData) : Statement (.acquire a w) := by
  rintro - b ⟨⟩; exact command_row .acquire a w
theorem release (a : Agent) (w : WriteData) : Statement (.release a w) := by
  rintro - b ⟨⟩; exact command_row .release a w
theorem upgrade (a : Agent) (w : WriteData) : Statement (.upgrade a w) := by
  rintro - b ⟨⟩; exact command_row .upgrade a w
theorem downgrade (a : Agent) (w : WriteData) : Statement (.downgrade a w) := by
  rintro - b ⟨⟩; exact command_row .downgrade a w
theorem cancel (a : Agent) (w : WriteData) : Statement (.cancel a w) := by
  rintro - b ⟨⟩; exact command_row .cancel a w
theorem renew (a : Agent) (w : WriteData) : Statement (.renew a w) := by
  rintro - b ⟨⟩; exact command_row .renew a w
theorem setAgent (a : Agent) (w : WriteData) : Statement (.setAgent a w) := by
  rintro - b ⟨⟩; exact command_row .setAgent a w
theorem setLock (a : Agent) (w : WriteData) : Statement (.setLock a w) := by
  rintro - b ⟨⟩; exact command_row .setLock a w
theorem forceRelease (a : Agent) (w : WriteData) : Statement (.forceRelease a w) := by
  rintro - b ⟨⟩; exact command_row .forceRelease a w
theorem purge (a : Agent) (w : WriteData) : Statement (.purge a w) := by
  rintro - b ⟨⟩; exact command_row .purge a w
theorem setTime (a : Agent) (w : WriteData) : Statement (.setTime a w) := by
  rintro - b ⟨⟩; exact command_row .setTime a w
theorem setDivider (a : Agent) (w : WriteData) : Statement (.setDivider a w) := by
  rintro - b ⟨⟩; exact command_row .setDivider a w
theorem resetTables (a : Agent) (w : WriteData) : Statement (.resetTables a w) := by
  rintro - b ⟨⟩; exact command_row .resetTables a w

/-- TIME LOW, NOTICE CONTROL, ERROR STATUS and INTERRUPT ENABLE stand at their offsets (Table 10-1). -/
theorem windowWord_named : Machine.windowWord 0x98 = .timeLow ∧ Machine.windowWord 0xA5 = .noticeControl ∧
    Machine.windowWord 0xA6 = .errorStatus ∧ Machine.windowWord 0xA7 = .interruptEnable := by decide +kernel

theorem tryRead (a : Agent) (l : LockNum) : Statement (.tryRead a l) := by
  rintro - b ⟨⟩; simp only [BusAccess.command, readRow, Machine.windowWord_tryWord]
theorem tryWrite (a : Agent) (l : LockNum) (w : WriteData) : Statement (.tryWrite a l w) := by
  rintro - b ⟨⟩; simp only [BusAccess.command, writeRow, Machine.windowWord_tryWord]
theorem timeLowRead (a : Agent) : Statement (.timeLowRead a) := by
  rintro - b ⟨⟩; simp only [BusAccess.command, readRow, windowWord_named.1]

theorem pop (a : Agent) (w : WriteData) : Statement (.pop a w) := by
  rintro hw b ⟨⟩
  have h : w.popFlag = true := hw
  simp only [BusAccess.command, writeRow, windowWord_named.2.1, h, if_pos]
theorem clearOverrun (a : Agent) (w : WriteData) : Statement (.clearOverrun a w) := by
  rintro hw b ⟨⟩
  have h : w.clearOverrunFlag = true ∧ w.popFlag = false := by simpa [Instr.wf] using hw
  simp only [BusAccess.command, writeRow, windowWord_named.2.1, h.1, h.2, if_pos, if_false, Bool.false_eq_true]
theorem errorStatusWrite (a : Agent) (w : WriteData) : Statement (.errorStatusWrite a w) := by
  rintro - b ⟨⟩; simp only [BusAccess.command, writeRow, windowWord_named.2.2.1]
theorem interruptEnableWrite (a : Agent) (w : WriteData) : Statement (.interruptEnableWrite a w) := by
  rintro - b ⟨⟩; simp only [BusAccess.command, writeRow, windowWord_named.2.2.2]

theorem registerWrite (a : Agent) (off : WordOffset) (w : WriteData) : Statement (.registerWrite a off w) := by
  rintro hw b ⟨⟩
  have h : registerWriteRow off w = true := hw
  unfold registerWriteRow at h
  simp only [BusAccess.command, writeRow]
  cases hk : Machine.windowWord off <;> simp_all
theorem refusedRead (a : Agent) (off : WordOffset) : Statement (.refusedRead a off) := by
  rintro hw b ⟨⟩
  have h : refusedReadRow off = true := hw
  unfold refusedReadRow at h
  simp only [BusAccess.command, readRow]
  cases hk : Machine.windowWord off <;> simp_all

end Sys2Proof.Laws.AccessRoundTrip
end

