-- ==== Sys2Proof/Tests/Slice0.lean ====
section
/-! SUPPORT. Tests: ill-formed commands, the window map, the code tables, the words of Section 10.8, one step of each
command on a small state (rows of the manual's examples), and for each statement with hypotheses a state and operands
that meet them. -/

namespace Sys2Proof.Tests.Slice0

open Sys2Proof.Machine

set_option Elab.async false

/-! ### Small states -/

/-- The state that one command leaves. -/
def after (i : Instr) (s : State) : State :=
  match exec i s with
  | .next t => t
  | .fault _ | .refused _ => s

/-- The port READY, and every agent ONLINE with the class after reset. -/
def idle : State :=
  { State.reset with
    port := { BusPort.reset with state := .ready }
    agents := ofTable fun a => { AgentRecord.reset a with state := .online } }

/-- A command write with this tag and good parity. -/
def tagged (tag : BitVec 8) : WriteData := .good (tag.zeroExtend 32)

/-- ARG0 of a request: lock, mode code, wait flag, timeout (Table 10-3). -/
def request (lock mode : Nat) (wait : Bool) (timeout : Nat) : Word :=
  BitVec.ofNat 32 (lock + 256 * mode + (if wait then 1024 else 0) + 4096 * timeout)

/-- Agent `a` has stored its argument words. -/
def args (a : Agent) (arg0 arg1 : Word) (s : State) : State := s.setArgs a ⟨arg0, arg1⟩

/-- Agent `a` joins the holders of lock `l`, which is then in state `st`. -/
def hold (l : LockNum) (a : Agent) (st : LockState) (lease : Option EntryNum) (s : State) : State :=
  s.setLock l { s.lock l with holders := setRow (s.lock l).holders a (some ⟨lease⟩), state := st }

/-- Agent `a` joins the queue of lock `l` as its last waiter. -/
def wait (l : LockNum) (a : Agent) (m : Mode) (timeout lease : Option Nat) (e : Option EntryNum) (s : State) : State :=
  let t := s.setLock l { s.lock l with queue := (s.lock l).queue ++ [a] }
  { t.setRequest a (some ⟨l, m, (s.agent a).cls, 0, s.nextArrival, timeout, lease, e⟩) with
    nextArrival := s.nextArrival + 1 }

/-- Entry `e` is ARMED behind the others of the armed list. -/
def armed (e : EntryNum) (k : EntryKind) (a : Agent) (l : LockNum) (n : Nat) (s : State) : State :=
  s.withDu fun d => { d with
    entries := setRow d.entries e (.armed k a l n d.nextArming), armedList := d.armedList ++ [e]
    nextArming := d.nextArming + 1 }

/-- The entries of the armed list have run out and are presented. -/
def presented (s : State) : State := s.withDu fun d => { d with armedList := [], expiries := d.armedList }

/-- Every deadline entry is taken. -/
def full (s : State) : State := s.withDu fun d => { d with entries := Vector.replicate 24 (.reserved 7 0) }

/-- The outcome in the command record of agent `a`. -/
def outcome (s : State) (a : Agent) : OutcomeCode × Nat := ((s.agent a).record.code, (s.agent a).record.detail.toNat)

/-! ### Commands outside their row -/

theorem test_wf_pop : (Instr.pop 3 (.good 2)).wf = false := by decide +kernel
theorem test_wf_clearOverrun : (Instr.clearOverrun 3 (.good 3)).wf = false := by decide +kernel
theorem test_wf_clearOverrun_neither : (Instr.clearOverrun 3 (.good 0)).wf = false := by decide +kernel
theorem test_wf_registerWrite_command : (Instr.registerWrite 3 0xC1 (.good 1)).wf = false := by decide +kernel
theorem test_wf_registerWrite_try : (Instr.registerWrite 3 0x3F (.good 1)).wf = false := by decide +kernel
theorem test_wf_registerWrite_pop : (Instr.registerWrite 3 0xA5 (.good 1)).wf = false := by decide +kernel
theorem test_wf_refusedRead_try : (Instr.refusedRead 3 0x00).wf = false := by decide +kernel
theorem test_wf_refusedRead_timeLow : (Instr.refusedRead 3 0x98).wf = false := by decide +kernel
theorem test_wf_good : (Instr.pop 3 (.good 3)).wf = true ∧ (Instr.clearOverrun 3 (.good 2)).wf = true ∧
    (Instr.registerWrite 3 0xA0 (.good 1)).wf = true ∧ (Instr.refusedRead 3 0x40).wf = true := by decide +kernel

/-! ### The window map (Tables 10-1 and 10-2), byte offsets divided by 4 -/

theorem test_window_pages : windowWord 0x3F = .tryWord 63 ∧ windowWord 0x40 = .lockView 0 ∧
    windowWord 0x7F = .lockView 63 ∧ windowWord 0x80 = .agentView 0 ∧ windowWord 0x87 = .agentView 7 ∧
    windowWord 0x88 = .heldMapLow 0 ∧ windowWord 0x89 = .heldMapHigh 0 ∧ windowWord 0x97 = .heldMapHigh 7 ∧
    windowWord 0x98 = .timeLow ∧ windowWord 0x99 = .timeHigh ∧ windowWord 0x9A = .unmapped ∧
    windowWord 0x9F = .unmapped := by decide +kernel

theorem test_window_banked : (List.range 9).map (fun k => windowWord (BitVec.ofNat 8 (0xA0 + k))) =
    [.arg0, .arg1, .result, .noticeHead, .noticeTime, .noticeControl, .errorStatus, .interruptEnable, .unmapped] := by
  decide +kernel

theorem test_window_commands : (List.range 17).map (fun k => windowWord (BitVec.ofNat 8 (0xC0 + k))) =
    [.command .nop, .command .acquire, .command .release, .command .upgrade, .command .downgrade, .command .cancel,
      .command .renew, .unmapped, .command .setAgent, .command .setLock, .command .forceRelease, .command .purge,
      .command .setTime, .command .setDivider, .command .resetTables, .unmapped, .unmapped] := by decide +kernel

theorem test_window_identification : windowWord 0xFB = .unmapped ∧ windowWord 0xFC = .identification 0 ∧
    windowWord 0xFF = .identification 3 ∧ windowWord 0xBF = .unmapped := by decide +kernel

/-- R145: the access that spells RELEASE, written out: agent 5, word offset 0x308, tag 0x29. -/
theorem test_access_release : BusAccess.command ⟨5, 0xC2, some ⟨0x00000029, 0b0001⟩⟩ = .release 5 ⟨0x29, 1⟩ := by
  decide +kernel

/-- R147: three ones in byte 0, none above: DP0 is 1. -/
theorem test_parity : evenParity 0x00000029 = 0b0001 ∧ evenParity 0x01030700 = 0b1010 ∧
    WriteData.parityGood ⟨0x29, 0⟩ = false := by decide +kernel

/-! ### Section 10.8: one word of each kind -/

/-- Agent 4 as Section 10.8 has it. -/
def words : State :=
  let s := hold 7 4 .shared none { idle with agents := setRow idle.agents 4 { idle.agent 4 with
    cls := 1, noticeEnable := true, record := ⟨0x29, .queued, 2, false⟩
    notices := [.revoked 5 .exclusive true false .lease 0x77, .timedOut 9 .shared false 0x78] } }
  (hold 12 2 .exclusive none s).setRequest 4 (some ⟨12, .exclusive, 1, 3, 0, none, none, none⟩)

theorem test_word_agentView : words.agentView 4 = 0x52814C35 := by decide +kernel
theorem test_word_noticeHead : (words.agent 4).noticeHead = 0x10004553 := by decide +kernel
theorem test_word_result : (words.agent 4).record.word = 0x00020229 := by decide +kernel
theorem test_word_lockView : (wait 12 4 .exclusive none none none words).lockView 12 = 0x41140419 := by decide +kernel

/-! ### Resets, initialization, bus clock periods -/

theorem test_powerOnReset : after .powerOnReset words =
    { State.reset with port := { words.port with powerOnReset := true, args := BusPort.reset.args } } := by
  decide +kernel

theorem test_powerOnResetRelease :
    (after .powerOnResetRelease { idle with port := { idle.port with powerOnReset := true } }).port.state =
      .initializing := by decide +kernel

theorem test_busReset : let t := after .busReset words
    t.port.busReset = true ∧ (t.lock 7).state = .free ∧ t.request 4 = none ∧
      t.agent 4 = { idle.agent 4 with cls := 1 } ∧ t.du.divider = 1000 := by decide +kernel

theorem test_busResetRelease :
    (after .busResetRelease { idle with port := { idle.port with busReset := true } }).port.state =
      .initializing := by decide +kernel

theorem test_initializationComplete : (after .initializationComplete State.reset).port.state = .ready := by
  decide +kernel

theorem test_step_idle : step idle = .next { idle with du := { idle.du with dividerCount := 1 } } := rfl

/-! ### The part's own events -/

/-- Table 5-5 before row 7: entries 1 and 3 have one tick left and entry 0 three. -/
def pool : State :=
  let s := hold 9 6 .exclusive (some 3) (hold 3 2 .exclusive (some 0) idle)
  let s := wait 3 4 .exclusive (some 4) (some 10) (some 1) s
  let s := armed 0 .lease 2 3 3 (armed 3 .lease 6 9 1 (armed 1 .wait 4 3 1 s))
  s.withDu fun d => { d with timebase := 5003 }

theorem test_tickAdvance : let d := (after .tickAdvance pool).du
    d.timebase = 5004 ∧ d.armedList = [0] ∧ d.expiries = [1, 3] ∧ (d.entries.get 0).remaining = 2 := by
  decide +kernel

theorem test_waitExpiry : let t := after .waitExpiry (after .tickAdvance pool)
    (t.lock 3).queue = [] ∧ t.request 4 = none ∧ (t.agent 4).notices = [.timedOut 3 .exclusive false 5004] ∧
      t.du.entries.get 1 = .free ∧ t.du.expiries = [3] := by decide +kernel

/-- R98: of two held ticks the first presents two expiries, and the second is taken as soon as the last of them is. -/
theorem test_heldTick : let t := after .tickAdvance (pool.withDu fun d => { d with heldTicks := 2 })
    let u := after .waitExpiry t
    let v := after .leaseExpiry u
    (t.du.expiries = [1, 3] ∧ t.du.heldTicks = 1) ∧ (u.du.heldTicks = 1 ∧ u.du.timebase = 5004) ∧
      v.du.expiries = [] ∧ v.du.heldTicks = 0 ∧ v.du.timebase = 5005 := by decide +kernel

/-- Table 6-6 before row 4: the lease of agent 3 on lock 14 has run out. -/
def ring : State :=
  let s := hold 14 3 .exclusive (some 0) idle
  let s := s.setLock 14 { s.lock 14 with leaseRequired := true, report := true }
  let s := wait 14 6 .shared (some 1000) (some 100) (some 2) (wait 14 5 .exclusive none (some 200) (some 1) s)
  let s := armed 2 .wait 6 14 560 (presented (armed 0 .lease 3 14 1 s))
  s.withDu fun d => { d with entries := setRow d.entries 1 (.reserved 5 14), timebase := 10500 }

theorem test_leaseExpiry : let t := after .leaseExpiry ring
    (t.lock 14).state = .exclusive ∧ (t.lock 14).holderList = [5] ∧ (t.lock 14).queue = [6] ∧
      (t.agent 3).notices = [.revoked 14 .exclusive true false .lease 10500] ∧
      (t.agent 0).notices = [.revokeReport 14 .exclusive .lease 3 10500] ∧
      (t.agent 5).notices = [.granted 14 .exclusive true false 10500] ∧
      t.du.armedList = [1, 2] ∧ t.du.entries.get 0 = .free ∧ (t.du.entries.get 1).remaining = 200 := by
  decide +kernel

/-- Table 8-4 before the visit to lock 17. -/
def sweep : State :=
  let s := wait 17 2 .upgrade none none none (hold 17 6 .shared none (hold 17 2 .shared none idle))
  { s.setAgent 6 { s.agent 6 with state := .purging } with purge := ⟨.sweeping, some 6, 17, 1⟩ }

theorem test_sweepVisit : let t := after .sweepVisit sweep
    (t.lock 17).state = .exclusive ∧ (t.lock 17).holderList = [2] ∧ (t.lock 17).queue = [] ∧
      (t.agent 2).notices = [.granted 17 .upgrade false true 0] ∧ t.purge = ⟨.sweeping, some 6, 18, 2⟩ := by
  decide +kernel

/-- Table 8-4 before row 9. -/
def sweepDone : State := { sweep with purge := ⟨.sweeping, some 6, 64, 2⟩ }

theorem test_sweepEnd : let t := after .sweepEnd sweepDone
    (t.agent 6).state = .offline ∧ (t.agent 0).notices = [.purgeDone 6 2 0] ∧ t.purge.state = .idle := by
  decide +kernel

/-- A sweep goes on with tick divider 1, where every period is a tick. -/
theorem test_step_sweep : let s := sweep.withDu fun d => { d with divider := 1, activeDivider := 1 }
    s.busClock.purge.pointer = 18 ∧ s.busClock.du.timebase = 1 ∧ s.busClock.busClock.purge.pointer = 19 ∧
      ({ s with purge := sweepDone.purge } : State).busClock.purge.state = .idle := by decide +kernel

/-! ### The commands any agent may write -/

theorem test_nop : outcome (after (.nop 5 (tagged 1)) idle) 5 = (.done, 0) := by decide +kernel

/-- Table 5-5, row 1. -/
theorem test_acquire_grants : let t := after (.acquire 2 (tagged 1)) (args 2 (request 3 1 false 0) 6 idle)
    outcome t 2 = (.granted, 0) ∧ (t.lock 3).holderList = [2] ∧ t.du.armedList = [0] ∧
      t.du.entries.get 0 = .armed .lease 2 3 6 0 := by decide +kernel

/-- Table 4-5 after row 4. -/
def cycle : State :=
  let s := hold 9 3 .exclusive none (hold 8 2 .shared none (hold 8 1 .shared none idle))
  wait 9 2 .exclusive none none none
    (wait 8 4 .shared none none none (armed 0 .wait 1 8 800 (wait 8 1 .upgrade (some 800) none (some 0) s)))

/-- Table 4-5, row 5. -/
theorem test_acquire_deadlock :
    outcome (after (.acquire 3 (tagged 1)) (args 3 (request 8 1 true 0) 0 cycle)) 3 = (.wouldDeadlock, 1) := by
  decide +kernel

/-- Table 3-6 after row 5. -/
def promotion : State :=
  let s := hold 20 1 .exclusive none idle
  let s := s.setLock 20 { s.lock 20 with bypassLimit := 2, queue := [4, 5, 3] }
  let s := s.setRequest 3 (some ⟨20, .shared, 2, 1, 0, none, none, none⟩)
  let s := s.setRequest 4 (some ⟨20, .shared, 0, 0, 2, none, none, none⟩)
  let s := s.setRequest 5 (some ⟨20, .exclusive, 0, 0, 3, some 1000, none, some 0⟩)
  { armed 0 .wait 5 20 1000 s with nextArrival := 4 }

/-- Table 3-6, row 6. -/
theorem test_release_promotes : let t := after (.release 1 (tagged 1)) (args 1 20 0 promotion)
    outcome t 1 = (.released, 1) ∧ (t.lock 20).state = .shared ∧ (t.lock 20).holderList = [3, 4] ∧
      (t.lock 20).queue = [5] ∧ (t.agent 3).notices = [.granted 20 .shared false false 0] ∧
      t.du.armedList = [0] := by decide +kernel

/-- Table 4-5, rows 1 and 3. -/
theorem test_upgrade_queues : let t := after (.upgrade 1 (tagged 1)) (args 1 (request 8 0 true 800) 0
      (hold 8 2 .shared none (hold 8 1 .shared none idle)))
    outcome t 1 = (.queued, 1) ∧ (t.lock 8).queue = [1] ∧ t.du.entries.get 0 = .armed .wait 1 8 800 0 := by
  decide +kernel
theorem test_upgrade_conflict : outcome (after (.upgrade 2 (tagged 1))
    (args 2 (request 8 0 true 0) 0 { cycle with requests := setRow cycle.requests 2 none })) 2 =
      (.upgradeConflict, 1) := by decide +kernel

/-- Table 4-5, before row 9: two SHARED waiters behind an EXCLUSIVE holder. -/
def readers : State :=
  wait 8 5 .shared none none none (wait 8 4 .shared none none none (hold 8 1 .exclusive none idle))

theorem test_downgrade : let t := after (.downgrade 1 (tagged 1)) (args 1 8 0 readers)
    outcome t 1 = (.downgraded, 2) ∧ (t.lock 8).state = .shared ∧ (t.lock 8).holderList = [1, 4, 5] := by
  decide +kernel

/-- Table 3-7, row 0. -/
def writer : State :=
  let s := hold 41 3 .shared none (hold 41 2 .shared none idle)
  let s := armed 0 .wait 4 41 500 (wait 41 4 .exclusive (some 500) none (some 0) s)
  wait 41 6 .shared none none none (wait 41 5 .shared none none none s)

theorem test_cancel : let t := after (.cancel 4 (tagged 1)) writer
    outcome t 4 = (.cancelled, 41) ∧ (t.lock 41).holderList = [2, 3, 5, 6] ∧ (t.lock 41).queue = [] ∧
      t.du.entries.get 0 = .free ∧ t.du.armedList = [] := by decide +kernel

/-- R25, R49: agents 1 and 2 share lock 8, agent 4 of class 2 waits to write, and agent 3 of class 0 asks to read. -/
def urgent : State :=
  let s := wait 8 4 .exclusive none none none (hold 8 2 .shared none (hold 8 1 .shared none idle))
  after (.acquire 3 (tagged 1)) (args 3 (request 8 2 true 0) 0 (s.setAgent 3 { s.agent 3 with cls := 0 }))

/-- R41, R63: neither the release that leaves the lock SHARED nor the withdrawal behind it grants the SHARED head; the
last release does. -/
theorem test_sharedHead : let t := after (.release 1 (tagged 1)) (args 1 8 0 urgent)
    let u := after (.release 2 (tagged 1)) (args 2 8 0 t)
    let v := after (.cancel 4 (tagged 1)) urgent
    (outcome urgent 3 = (.queued, 1) ∧ (urgent.lock 8).queue = [3, 4]) ∧
      ((t.lock 8).holderList = [2] ∧ (t.lock 8).queue = [3, 4]) ∧
      ((u.lock 8).holderList = [3] ∧ (u.lock 8).state = .shared ∧ (u.lock 8).queue = [4]) ∧
      (v.lock 8).holderList = [1, 2] ∧ (v.lock 8).queue = [3] := by decide +kernel

/-- Table 5-5, before row 9. -/
def leases : State :=
  armed 1 .lease 7 10 2 (armed 0 .lease 2 3 2 (hold 10 7 .exclusive (some 1) (hold 3 2 .exclusive (some 0) idle)))

theorem test_renew : let t := after (.renew 2 (tagged 1)) (args 2 3 2 leases)
    outcome t 2 = (.renewed, 1) ∧ t.du.armedList = [1, 0] := by decide +kernel

/-! ### The supervisor commands -/

theorem test_setAgent_busy : outcome (after (.setAgent 0 (tagged 1)) (args 0 0x0002 0 leases)) 0 = (.agentBusy, 3) ∧
    ((after (.setAgent 0 (tagged 1)) (args 0 0x3105 0 idle)).agent 5).cls = 3 := by decide +kernel

theorem test_setLock : (after (.setLock 0 (tagged 1)) (args 0 5 0x406 idle)).lock 5 =
    { LockRecord.reset with sharedAllowed := false, leaseRequired := true, report := true } := by decide +kernel

/-- Table 6-7, before. -/
def forced : State :=
  let s := hold 22 4 .shared none (hold 22 1 .shared none idle)
  let s := armed 0 .wait 1 22 50 (wait 22 1 .upgrade (some 50) none (some 0) s)
  wait 22 7 .shared none none none (wait 22 2 .exclusive none none none s)

theorem test_forceRelease : let t := after (.forceRelease 0 (tagged 1)) (args 0 22 0 forced)
    outcome t 0 = (.done, 2) ∧ (t.lock 22).state = .exclusive ∧ (t.lock 22).holderList = [2] ∧
      (t.lock 22).queue = [7] ∧ (t.lock 22).recovered = false ∧
      (t.agent 1).notices = [.revoked 22 .shared false true .forced 0] ∧
      (t.agent 4).notices = [.revoked 22 .shared false false .forced 0] ∧
      (t.agent 2).notices = [.granted 22 .exclusive false false 0] ∧ t.du.entries.get 0 = .free := by decide +kernel

/-- Table 8-4, row 0, locks 3 and 9. -/
def silent : State :=
  let s := hold 9 3 .shared none (hold 3 6 .exclusive none idle)
  let s := armed 0 .wait 6 9 20 (wait 9 6 .exclusive (some 20) none (some 0) s)
  wait 9 5 .shared none none none s

theorem test_purge : let t := after (.purge 0 (tagged 1)) (args 0 6 0 silent)
    outcome t 0 = (.started, 1) ∧ (t.agent 6).state = .purging ∧ (t.lock 9).holderList = [3, 5] ∧
      (t.lock 9).queue = [] ∧ t.du.entries.get 0 = .free ∧ t.purge = ⟨.sweeping, some 6, 0, 0⟩ := by decide +kernel

theorem test_setTime : (after (.setTime 0 (tagged 1)) (args 0 0 1 leases)).du.timebase = 4294967296 := by
  decide +kernel

theorem test_setDivider : (after (.setDivider 0 (tagged 1)) (args 0 65536 0 idle)).du.divider = 65536 ∧
    outcome (after (.setDivider 0 (tagged 1)) (args 0 65537 0 idle)) 0 = (.badArgument, 3) := by decide +kernel

theorem test_resetTables : let t := after (.resetTables 0 (tagged 9)) words
    t.port.state = .initializing ∧ t.locks = State.reset.locks ∧ (t.agent 4).notices = [] ∧
      (t.agent 4).noticeEnable = true ∧ (t.agent 0).record.tag = 9 := by decide +kernel

/-! ### The quick path and the other words -/

theorem test_tryRead : (after (.tryRead 2 5) idle).port.response = .read .ok 0x00000100 0b0010 ∧
    (after (.tryRead 3 12) words).port.response = .read .ok 0x00011000 0b0110 := by decide +kernel

theorem test_tryWrite : ((after (.tryWrite 4 7 (tagged 0)) words).lock 7).state = .free ∧
    (after (.tryWrite 3 7 (tagged 0)) words).port.response = .write .error := by decide +kernel

theorem test_timeLowRead :
    let t := after (.timeLowRead 3) (idle.withDu fun d => { d with timebase := 0x1234_89ABCDEF })
    t.port.response = .read .ok 0x89ABCDEF 0b1111 ∧ t.timeHigh 3 = 0x1234 := by decide +kernel

theorem test_pop : ((after (.pop 4 (.good 1)) words).agent 4).notices = [.timedOut 9 .shared false 0x78] := by
  decide +kernel

theorem test_clearOverrun : ((after (.clearOverrun 4 (.good 2))
    (words.setAgent 4 { words.agent 4 with overrun := true })).agent 4).overrun = false := by decide +kernel

theorem test_errorStatusWrite : let s := after (.registerWrite 5 0x68 (.good 0)) idle
    (s.agent 5).errorStatus = 0xB ∧ ((after (.errorStatusWrite 5 (.good 0)) s).agent 5).errorStatus = 0 := by
  decide +kernel

theorem test_interruptEnableWrite :
    ((after (.interruptEnableWrite 5 (.good 3)) idle).agent 5).interruptEnable = 3 := by decide +kernel

theorem test_registerWrite : ((after (.registerWrite 3 0xA1 (.good 500)) idle).argsOf 3) = ⟨0, 500⟩ ∧
    (after (.registerWrite 3 0xA1 ⟨500, 0⟩) idle).argsOf 3 = ⟨0, 0⟩ := by decide +kernel

theorem test_refusedRead : (after (.refusedRead 3 0xFC) State.reset).port.response =
      .read .ok 0x47414E54 (evenParity 0x47414E54) ∧
    ((after (.refusedRead 3 0xC0) idle).agent 3).errorKind = .writeOnly := by decide +kernel

/-! ### Witnesses: states and operands that meet the hypotheses of the statements, clause by clause -/

theorem exec_busReset (s : State) : exec .busReset s = .next (after .busReset s) := rfl
theorem exec_sweepVisit (s : State) : exec .sweepVisit s = .next (after .sweepVisit s) := rfl
theorem exec_resetTables (a : Agent) (w : WriteData) (s : State) :
    exec (.resetTables a w) s = .next (after (.resetTables a w) s) := rfl
theorem exec_forceRelease (a : Agent) (w : WriteData) (s : State) :
    exec (.forceRelease a w) s = .next (after (.forceRelease a w) s) := rfl

/-- What `State.Takes` asks, as a test. -/
def takes (s : State) (c : Command) (a : Agent) (w : WriteData) : Bool :=
  s.ready && w.parityGood && !s.isReplay a w.tag && (!c.supervisor || a == 0)

theorem takes_of {s : State} {c : Command} {a : Agent} {w : WriteData} (h : takes s c a w = true) :
    s.Takes c a w := by
  simp only [takes, Bool.and_eq_true, Bool.or_eq_true, Bool.not_eq_true', beq_iff_eq] at h
  exact ⟨h.1.1.1, h.1.1.2, h.1.2, fun hc => h.2.resolve_left (by simp [hc])⟩

/-- What `State.Asks` asks, as a test. -/
theorem asks_of {u : State} {a : Agent} {l : LockNum}
    (h : (u.agent a).state = .online ∧ u.lockArg a = l.val) : u.Asks a l := ⟨h.1, h.2⟩

/-- What `State.PassesAcquire` asks beside its first checks, as a test. -/
theorem passes_of {u : State} {a : Agent} {l : LockNum} {m : Mode}
    (h : ((u.agent a).state = .online ∧ u.lockArg a = l.val) ∧ (m ≠ .upgrade ∧
      codeField (u.argsOf a).arg0 = m.code) ∧ u.request a = none ∧ (m = .shared → (u.lock l).sharedAllowed = true) ∧
      ((u.lock l).leaseRequired = true → leaseField (u.argsOf a).arg1 ≠ 0) ∧ (u.lock l).holds a = false) :
    u.PassesAcquire a l m := by
  obtain ⟨hq, ⟨hm, hc⟩, hi, hs, hl, hh⟩ := h
  exact { toAsks := asks_of hq, asked := hm, mode := hc, idle := hi, allowed := hs, leased := hl, stranger := hh }

/-- The state with the clock of the Deadline Unit at this divider count. -/
def counted (n : Nat) : State := { idle with du := { idle.du with dividerCount := n } }

/-- The state with the reset inputs as given. -/
def inputs (powerOn bus : Bool) (s : State) : State :=
  { s with port := { s.port with powerOnReset := powerOn, busReset := bus } }

theorem test_witness_IdleStepCountsOnePeriod :
    (inputs true false idle).pending = [] ∧ (inputs true false idle).port.powerOnReset = true ∧
    (∀ n ∈ [998, 999], (counted n).pending = [] ∧ (counted n).port.powerOnReset = false ∧
      (counted n).port.state = .ready ∧ (counted n).du.expiries = [] ∧ (counted n).du.heldTicks = 0 ∧
      (counted n).purge.state = .idle) ∧
    (counted 998).du.dividerCount + 1 < (counted 998).du.activeDivider ∧
    (counted 999).du.dividerCount + 1 = (counted 999).du.activeDivider ∧
    (ring.pending = [] ∧ ring.port.powerOnReset = false ∧ ring.du.expiries ≠ []) ∧
    (∀ s ∈ [sweep, sweepDone], s.pending = [] ∧ s.port.powerOnReset = false ∧ s.du.expiries = [] ∧
      s.purge.state = .sweeping) ∧
    State.reset.pending = [] ∧ State.reset.port.state = .initializing ∧ State.reset.purge.state = .idle := by
  decide +kernel

theorem test_witness_Resets : (inputs true false idle).port.powerOnReset = true ∧ idle.port.powerOnReset = false ∧
    (inputs true true idle).port.busReset = true ∧ (inputs false true idle).port.busReset = true ∧
    State.reset.inReset = false ∧ State.reset.port.state = .initializing := by decide +kernel

theorem test_witness_ResetTablesValues : words.Takes .resetTables 0 (tagged 9) := takes_of (by decide +kernel)

/-- Not READY: a read that is no identification word, a write, and an identification word with an input asserted. -/
theorem test_witness_NotReadyAnswersRetry :
    State.reset.ready = false ∧ (Instr.refusedRead 3 0xFB).access = some ⟨3, 0xFB, none⟩ ∧
    windowWord 0xFB = .unmapped ∧ (Instr.registerWrite 3 0xFC (.good 0)).access = some ⟨3, 0xFC, some (.good 0)⟩ ∧
    (inputs false true idle).ready = false ∧ (inputs false true idle).inReset = true ∧
    (Instr.refusedRead 3 0xFC).access = some ⟨3, 0xFC, none⟩ := by decide +kernel

theorem test_witness_IdentificationWords : idle.inReset = false ∧ (inputs true false idle).inReset = true ∧
    idle.ready = true ∧ State.reset.ready = false := by decide +kernel

theorem test_witness_ParityOfWritesAndReads : idle.ready = true ∧ WriteData.parityGood ⟨7, 0⟩ = false ∧
    (Instr.acquire 3 ⟨7, 0⟩).access = some ⟨3, 0xC1, some ⟨7, 0⟩⟩ ∧
    (windowWord 0xC1).direction = .writeOnly ∧ (windowWord 0xA0).direction = .readWrite ∧
    (Instr.tryRead 3 63).access = some ⟨3, 0x3F, none⟩ := by decide +kernel

/-- A replay, a zero tag equal to the last one, and a new tag. -/
theorem test_witness_ReplayTest : words.ready = true ∧ (tagged 0x29).parityGood = true ∧ (tagged 0x29).tag ≠ 0 ∧
    (tagged 0x29).tag = (words.agent 4).record.tag ∧ (tagged 0).tag = (idle.agent 4).record.tag ∧
    (tagged 0x2A).tag ≠ (words.agent 4).record.tag := by decide +kernel

theorem test_witness_SupervisorCheckAndNop : idle.ready = true ∧ (tagged 1).parityGood = true ∧
    idle.isReplay 7 (tagged 1).tag = false ∧ idle.isReplay 0 (tagged 1).tag = false ∧
    Command.purge.supervisor = true ∧ Command.renew.supervisor = false := by decide +kernel

theorem test_witness_RefusedAccesses : idle.ready = true ∧
    (∀ off ∈ [0x9A, 0x9F, 0xA8, 0xBF, 0xC7, 0xCF, 0xFB], windowWord off = .unmapped) ∧
    (∀ off ∈ [0x40, 0x7F, 0x80, 0x99, 0xA2, 0xA4, 0xFC, 0xFF], (windowWord off).direction = .readOnly) ∧
    ∀ off ∈ [0xA5, 0xC0, 0xC6, 0xC8, 0xCE], (windowWord off).direction = .writeOnly := by decide +kernel

theorem test_witness_PlainReads : idle.ready = true ∧ windowWord 0x40 = .lockView 0 ∧ windowWord 0x87 = .agentView 7 ∧
    windowWord 0x96 = .heldMapLow 7 ∧ windowWord 0x97 = .heldMapHigh 7 ∧ windowWord 0xA2 = .result := by decide +kernel

theorem test_witness_ViewLayouts : (readers.lock 8).queue = 4 :: [5] ∧ (readers.request 4).isSome = true ∧
    (idle.lock 8).queue = [] ∧ idle.request 4 = none ∧ (sweep.agent 6).state = .purging ∧
    (words.agent 4).notices.head?.isSome = true ∧ (idle.agent 4).notices = [] := by decide +kernel

theorem test_witness_ArgumentWords : idle.ready = true ∧ (WriteData.good 500).parityGood = true ∧
    WriteData.parityGood ⟨500, 0⟩ = false ∧ idle.port.powerOnReset = false ∧ windowWord 0xA2 ≠ .arg0 ∧
    windowWord 0xA2 ≠ .arg1 := by decide +kernel

theorem test_witness_SettleTakesExpiriesFirst : idle.du.expiries = [] ∧ idle.du.heldTicks = 0 ∧
    ring.du.expiries ≠ [] ∧ 0 < (idle.withDu fun d => { d with heldTicks := 1 }).du.heldTicks := by decide +kernel

theorem test_witness_FirstChecksOfLockCommands : (args 3 64 0 idle).Takes .release 3 (tagged 1) ∧
    ((args 3 64 0 idle).settle.agent 3).state = .online ∧ (args 3 64 0 idle).settle.lockArg 3 = 64 ∧
    sweep.Takes .cancel 6 (tagged 1) ∧ (sweep.settle.agent 6).state = .purging ∧
    (after .sweepEnd sweepDone).Takes .renew 6 (tagged 1) ∧
    ((after .sweepEnd sweepDone).settle.agent 6).state = .offline :=
  ⟨takes_of (by decide +kernel), by decide +kernel, by decide +kernel, takes_of (by decide +kernel),
    by decide +kernel, takes_of (by decide +kernel), by decide +kernel⟩

/-- Agent 3 asks for lock 63 in the mode `m`, with this lease. -/
def asks (m : Nat) (w : Bool) (lease : Word) (s : State) : State := args 3 (request 63 m w 0) lease s

theorem test_witness_AcquireRefusals : (asks 1 false 0 idle).Takes .acquire 3 (tagged 1) ∧
    (asks 1 false 0 idle).settle.Asks 3 63 ∧
    (∀ m ∈ [0, 3], codeField ((asks m false 0 idle).settle.argsOf 3).arg0 ≠ 1 ∧
      codeField ((asks m false 0 idle).settle.argsOf 3).arg0 ≠ 2) ∧
    codeField ((asks 2 false 0 idle).settle.argsOf 3).arg0 = 2 ∧
    ((asks 1 false 0 (wait 9 3 .exclusive none none none idle)).settle.request 3).isSome = true ∧
    ((asks 1 false 0 (idle.setLock 63 { idle.lock 63 with leaseRequired := true })).settle.lock 63).leaseRequired =
      true ∧
    ((asks 2 false 0 (idle.setLock 63 { idle.lock 63 with sharedAllowed := false })).settle.lock 63).sharedAllowed =
      false ∧
    ((asks 1 false 0 (hold 63 3 .shared none idle)).settle.lock 63).holds 3 = true :=
  ⟨takes_of (by decide +kernel), asks_of (by decide +kernel), by decide +kernel⟩

/-- Without a lease, with a lease and entry 0 FREE, with a lease and no entry FREE. -/
theorem test_witness_AcquireGrants :
    ((asks 1 false 0 idle).Takes .acquire 3 (tagged 1) ∧ (asks 1 false 0 idle).settle.PassesAcquire 3 63 .exclusive ∧
      ((asks 1 false 0 idle).settle.lock 63).Grantable .exclusive) ∧
    ((asks 2 false 1 (hold 63 5 .shared none idle)).settle.PassesAcquire 3 63 .shared ∧
      ((asks 2 false 1 (hold 63 5 .shared none idle)).settle.lock 63).Grantable .shared ∧
      (asks 2 false 1 (hold 63 5 .shared none idle)).settle.du.FirstFree 0) ∧
    (full (asks 1 false 1 idle)).settle.PassesAcquire 3 63 .exclusive ∧ (full (asks 1 false 1 idle)).settle.du.Full :=
  ⟨⟨takes_of (by decide +kernel), passes_of (by decide +kernel), .inl (by decide +kernel)⟩,
    ⟨passes_of (by decide +kernel), .inr (by decide +kernel), by unfold DeadlineUnit.FirstFree; decide +kernel⟩,
    passes_of (by decide +kernel), by unfold DeadlineUnit.Full; decide +kernel⟩

/-- No agent waits: no agent is reachable from another. -/
theorem no_blocks {s : State} (h : ∀ a, s.request a = none) (a : Agent) (l : LockNum) (b : Agent) :
    ¬ s.Blocks a l b := by
  rintro ⟨-, -, p⟩
  obtain ⟨c, ⟨q, hq, -⟩, -⟩ := Relation.TransGen.head'_iff.mp p
  rw [h] at hq
  exact nomatch hq

/-- Agent 3 asks, with or without the wait flag, for a lock that agent 5 holds: refused, and queued. -/
theorem test_witness_AcquireQueues :
    ((asks 1 false 0 (hold 63 5 .shared none idle)).Takes .acquire 3 (tagged 1) ∧
      (asks 1 false 0 (hold 63 5 .shared none idle)).settle.PassesAcquire 3 63 .exclusive ∧
      ¬ ((asks 1 false 0 (hold 63 5 .shared none idle)).settle.lock 63).Grantable .exclusive) ∧
    waitField ((asks 1 true 0 (hold 63 5 .shared none idle)).settle.argsOf 3).arg0 = true ∧
    (∀ h, ¬ (asks 1 true 0 (hold 63 5 .shared none idle)).settle.Blocks 3 63 h) ∧
    (asks 1 true 0 (hold 63 5 .shared none idle)).settle.du.FirstFree 0 ∧
    (full (asks 1 true 1 (hold 63 5 .shared none idle))).settle.du.Full :=
  ⟨⟨takes_of (by decide +kernel), passes_of (by decide +kernel), by unfold LockRecord.Grantable; decide +kernel⟩,
    by decide +kernel, no_blocks (by decide +kernel) 3 63, by unfold DeadlineUnit.FirstFree; decide +kernel,
    by unfold DeadlineUnit.Full; decide +kernel⟩

/-- Agent 1 of Table 4-5, from which agent 3 is reachable through agent 2, is the first blocker of agent 3 on lock 8.
-/
theorem test_witness_FirstBlocker : (args 3 (request 8 1 true 0) 0 cycle).settle.FirstBlocker 3 8 1 := by
  refine ⟨⟨by decide +kernel, by decide, .trans (b := 2) (.single ?_) (.single ?_)⟩, fun k hk => ?_⟩
  · exact ⟨⟨8, .upgrade, 2, 0, 0, some 800, none, some 0⟩, by decide +kernel, by decide +kernel, by decide⟩
  · exact ⟨⟨9, .exclusive, 2, 0, 2, none, none, none⟩, by decide +kernel, by decide +kernel, by decide⟩
  · exact (by decide +kernel : ∀ k, ((args 3 (request 8 1 true 0) 0 cycle).settle.lock 8).holds k = true → 1 ≤ k)
      k hk.1

theorem test_witness_JoiningAQueue : readers.OrderLaw ∧ readers.Queued 8 ∧ readers.request 3 = none :=
  ⟨⟨by decide +kernel,
    fun a q h => (by decide +kernel : ∀ a, ∀ q ∈ readers.request a, q.arrival < readers.nextArrival) a q h,
    fun a b p q h k e => (by decide +kernel : ∀ a b, ∀ p ∈ readers.request a, ∀ q ∈ readers.request b,
      p.arrival = q.arrival → a = b) a b p h q k e⟩,
    fun a h => (by decide +kernel : ∀ a ∈ (readers.lock 8).queue, ∃ q, readers.request a = some q ∧ q.lock = 8) a h,
    by decide +kernel⟩

theorem test_witness_ReleaseOutcomes : (args 1 20 0 promotion).Takes .release 1 (tagged 1) ∧
    (args 1 20 0 promotion).settle.Asks 1 20 ∧ ((args 1 20 0 promotion).settle.lock 20).holds 1 = true ∧
    (args 1 20 0 promotion).settle.upgradeQueued 1 20 = false ∧
    ((args 1 63 0 promotion).settle.lock 63).holds 1 = false ∧
    ((args 1 8 0 cycle).settle.lock 8).holds 1 = true ∧ (args 1 8 0 cycle).settle.upgradeQueued 1 8 = true :=
  ⟨takes_of (by decide +kernel), asks_of (by decide +kernel), by decide +kernel⟩

/-- The last of two SHARED holders stays, an EXCLUSIVE holder leaves; with a lease and without one. -/
theorem test_witness_HoldRemoval : ((cycle.lock 8).state = .shared ∧ ∃ b, b ≠ 1 ∧ (cycle.lock 8).holds b = true) ∧
    (leases.lock 3).state = .exclusive ∧ (leases.lock 3).leaseOf 2 = some 0 ∧ (cycle.lock 8).leaseOf 1 = none := by
  decide +kernel

/-- A sole holder, a holder beside a queued upgrade, an EXCLUSIVE holder, an agent that waits, a stranger. -/
theorem test_witness_UpgradeOutcomes : (args 3 9 0 cycle).Takes .upgrade 3 (tagged 1) ∧
    (args 3 9 0 cycle).settle.Asks 3 9 ∧ (args 3 9 0 cycle).settle.request 3 = none ∧
    ((args 3 9 0 cycle).settle.lock 9).holds 3 = true ∧ ((args 3 9 0 cycle).settle.lock 9).state = .exclusive ∧
    (cycle.settle.request 2).isSome = true ∧ (cycle.settle.lock 8).holds 3 = false ∧
    ((hold 9 3 .shared none idle).settle.lock 9).state = .shared ∧
    (∀ b, ((hold 9 3 .shared none idle).settle.lock 9).holds b = true → b = 3) ∧
    (∃ b, b ≠ 2 ∧ (cycle.settle.lock 8).holds b = true) ∧ (cycle.settle.lock 8).queue.head? = some 1 ∧
    ∃ q, cycle.settle.request 1 = some q ∧ q.mode = .upgrade ∧ q.lock = 8 :=
  ⟨takes_of (by decide +kernel), asks_of (by decide +kernel), by decide +kernel⟩

/-- Two SHARED holders of lock 8, agents 1 and 2. -/
def pair : State := hold 8 2 .shared none (hold 8 1 .shared none idle)

/-- Agent 1 of the two asks for an upgrade; agent 4 waits behind with no upgrade. -/
theorem test_witness_UpgradeQueues :
    let s := args 1 (request 8 0 true 1048575) 0 (wait 8 4 .exclusive none none none pair)
    s.Takes .upgrade 1 (tagged 1) ∧ s.settle.Asks 1 8 ∧ s.settle.request 1 = none ∧
    (s.settle.lock 8).holds 1 = true ∧ (s.settle.lock 8).state = .shared ∧
    (∃ b, b ≠ 1 ∧ (s.settle.lock 8).holds b = true) ∧
    (∀ b ∈ (s.settle.lock 8).queue, ∃ q, s.settle.request b = some q ∧ q.mode ≠ .upgrade) ∧
    waitField (s.settle.argsOf 1).arg0 = true ∧ timeoutField (s.settle.argsOf 1).arg0 = 1048575 ∧
    s.settle.du.FirstFree 0 ∧ (full s).settle.du.Full :=
  ⟨takes_of (by decide +kernel), asks_of (by decide +kernel),
    by unfold DeadlineUnit.FirstFree DeadlineUnit.Full; decide +kernel⟩

/-- Agent 1 of the two asks for an upgrade, and no agent waits; or agent 2 waits for a lock that agent 1 holds. -/
theorem test_witness_UpgradeQueues_deadlock :
    (∀ h, ¬ (args 1 (request 8 0 true 0) 0 pair).settle.Blocks 1 8 h) ∧
    State.FirstBlocker
      (args 1 (request 8 0 true 0) 0 (wait 9 2 .exclusive none none none (hold 9 1 .exclusive none pair))).settle
      1 8 2 := by
  refine ⟨no_blocks (by decide +kernel) 1 8, ⟨by decide +kernel, by decide, .single ?_⟩, fun k hk => ?_⟩
  · exact ⟨⟨9, .exclusive, 2, 0, 0, none, none, none⟩, by decide +kernel, by decide +kernel, by decide⟩
  · exact (by decide +kernel : ∀ k, ((args 1 (request 8 0 true 0) 0
      (wait 9 2 .exclusive none none none (hold 9 1 .exclusive none pair))).settle.lock 8).holds k = true → k ≠ 1 →
        2 ≤ k) k hk.1 hk.2.1

theorem test_witness_DowngradeOutcomes : (args 1 8 0 readers).Takes .downgrade 1 (tagged 1) ∧
    (args 1 8 0 readers).settle.Asks 1 8 ∧ ((args 1 8 0 readers).settle.lock 8).holds 1 = true ∧
    ((args 1 8 0 readers).settle.lock 8).state = .exclusive ∧
    ((args 1 8 0 readers).settle.lock 8).sharedAllowed = true ∧
    ((args 1 8 0 readers).settle.lock 8).queue.Nodup ∧ (args 1 8 0 readers).settle.Queued 8 ∧
    (pair.settle.lock 8).state = .shared ∧ (pair.settle.lock 8).holds 3 = false ∧
    ((readers.setLock 8 { readers.lock 8 with sharedAllowed := false }).settle.lock 8).state = .exclusive :=
  ⟨takes_of (by decide +kernel), asks_of (by decide +kernel), by unfold State.Queued; decide +kernel⟩

theorem test_witness_CancelOutcomes : writer.Takes .cancel 4 (tagged 1) ∧ (writer.settle.agent 4).state = .online ∧
    writer.settle.request 0 = none ∧
    (∃ q, writer.settle.request 4 = some q ∧ q.lock = 41 ∧ q.entry = some 0) ∧
    (∃ q, writer.settle.request 5 = some q ∧ q.lock = 41 ∧ q.entry = none) ∧
    (writer.settle.lock 41).queue = 4 :: [5, 6] :=
  ⟨takes_of (by decide +kernel), by decide +kernel⟩

theorem test_witness_RenewOutcomes : (args 2 3 1048575 leases).Takes .renew 2 (tagged 1) ∧
    (args 2 3 1048575 leases).settle.Asks 2 3 ∧ ((args 2 3 1048575 leases).settle.lock 3).leaseOf 2 = some 0 ∧
    leaseField ((args 2 3 1048575 leases).settle.argsOf 2).arg1 = 1048575 ∧
    (args 2 3 1048575 leases).settle.du.entries.get 0 = .armed .lease 2 3 2 0 ∧
    leaseField ((args 2 3 0 leases).settle.argsOf 2).arg1 = 0 ∧ (leases.settle.lock 3).holds 7 = false ∧
    (cycle.settle.lock 9).holds 3 = true ∧ (cycle.settle.lock 9).leaseOf 3 = none :=
  ⟨takes_of (by decide +kernel), asks_of (by decide +kernel), by decide +kernel⟩

/-- Agent numbers 7 and 8, targets 0, 1 and 2, and an agent PURGING, waiting, holding, and with none of these. -/
theorem test_witness_SetAgentOutcomes : (args 0 8 0 cycle).Takes .setAgent 0 (tagged 1) ∧
    numberField ((args 0 8 0 cycle).argsOf 0).arg0 = 8 ∧ numberField ((args 0 7 0 cycle).argsOf 0).arg0 = 7 ∧
    codeField (0x207 : Word) = 2 ∧ codeField (0x107 : Word) = 1 ∧ codeField (0x007 : Word) = 0 ∧
    (sweep.agent 6).state = .purging ∧ cycle.request 2 ≠ none ∧
    (cycle.request 3 = none ∧ ∃ l, (cycle.lock l).holds 3 = true) ∧
    (cycle.request 7 = none ∧ (cycle.agent 7).state = .online ∧ ∀ l, (cycle.lock l).holds 7 = false) :=
  ⟨takes_of (by decide +kernel), by decide +kernel⟩

theorem test_witness_SetLockOutcomes : (args 0 63 0 idle).ready = true ∧ (tagged 1).parityGood = true ∧
    (args 0 63 0 idle).isReplay 0 (tagged 1).tag = false ∧ (args 0 63 0 idle).settle.lockArg 0 = 63 ∧
    ((args 0 63 0 idle).settle.lock 63).state = .free ∧ ((args 0 63 0 idle).settle.lock 63).queue = [] ∧
    (args 0 64 0 idle).settle.lockArg 0 = 64 ∧ (cycle.settle.lock 8).state ≠ .free := by decide +kernel

/-- The supervisor is about to force lock 8 free, which agents 1 and 2 share. -/
def forcing : State := args 0 8 0 pair

theorem settle_forcing : forcing.settle = forcing := by decide +kernel
theorem request_forcing : ∀ a, forcing.request a = none := by decide +kernel
theorem agent_forcing : ∀ a, (forcing.agent a).state = .online := by decide +kernel
theorem queue_forcing : ∀ l, (forcing.lock l).queue = [] := by decide +kernel

/-- The laws of the lock table in a state where a lock is held and no agent waits. -/
theorem lockTableLaw_forcing : forcing.LockTableLaw := by
  refine ⟨fun l => ⟨?_, ?_, ?_, ?_⟩, ⟨?_, ?_, ?_, ?_, ?_, fun l _ => queue_forcing l, ?_⟩, ⟨?_, ?_, ?_⟩⟩
  · exact (by decide +kernel : ∀ l, (forcing.lock l).state = .free → ∀ a, (forcing.lock l).holds a = false) l
  · exact (by decide +kernel : ∀ l, (forcing.lock l).state = .exclusive →
      ∃ a, ∀ b, (forcing.lock l).holds b = true ↔ b = a) l
  · exact (by decide +kernel : ∀ l, (forcing.lock l).state = .shared →
      (∃ a, (forcing.lock l).holds a = true) ∧ (forcing.lock l).sharedAllowed = true) l
  · exact (by decide +kernel : ∀ l, (forcing.lock l).recovered = true → (forcing.lock l).state = .free) l
  · intro l; rw [queue_forcing]; exact List.nodup_nil
  · intro l a; simp [queue_forcing, request_forcing]
  all_goals simp [request_forcing, agent_forcing]

theorem test_witness_ForceReleaseOutcomes : forcing.Takes .forceRelease 0 (tagged 1) ∧
    forcing.settle.lockArg 0 = 8 ∧ (forcing.settle.lock 8).state ≠ .free ∧ forcing.settle.LockTableLaw ∧
    (args 0 64 0 pair).settle.lockArg 0 = 64 ∧ (pair.settle.lock 63).state = .free :=
  ⟨takes_of (by decide +kernel), by decide +kernel, by decide +kernel, settle_forcing ▸ lockTableLaw_forcing,
    by decide +kernel, by decide +kernel⟩

/-- A subject that waits at the head, one that waits behind it, one that does not wait; a sweep in progress. -/
theorem test_witness_PurgeOutcomes : (args 0 6 0 silent).Takes .purge 0 (tagged 1) ∧
    numberField ((args 0 6 0 silent).argsOf 0).arg0 = 6 ∧ silent.purge.state = .idle ∧
    (silent.agent 6).state = .online ∧ (silent.settle.request 6).isSome = true ∧
    (silent.settle.lock 9).queue.head? = some 6 ∧ (silent.settle.request 5).isSome = true ∧
    silent.settle.request 7 = none ∧ numberField (8 : Word) = 8 ∧ numberField (0 : Word) = 0 ∧
    sweep.purge.state = .sweeping ∧ sweep.purge.subject = some 6 ∧
    ((after .sweepEnd sweepDone).agent 6).state ≠ .online ∧ (after .sweepEnd sweepDone).purge.state = .idle :=
  ⟨takes_of (by decide +kernel), by decide +kernel⟩

theorem test_witness_SetTimeAndSetDivider : idle.Takes .setTime 0 (tagged 1) ∧ idle.Takes .setDivider 0 (tagged 1) ∧
    (∀ n ∈ [1, 65536], ((BitVec.ofNat 32 n).extractLsb' 0 17).toNat = n) ∧
    ((65537 : Word).extractLsb' 0 17).toNat = 65537 :=
  ⟨takes_of (by decide +kernel), takes_of (by decide +kernel), by decide, by decide⟩

/-! ### Witnesses: events, accesses, the grant step and the laws -/

theorem test_witness_TickAdvanceCounts : idle.port.powerOnReset = false ∧ ring.du.expiries ≠ [] ∧
    pool.du.expiries = [] ∧ pool.du.heldTicks = 0 ∧
    0 < (pool.withDu fun d => { d with heldTicks := 1 }).du.heldTicks := by decide +kernel

/-- The timeout of a waiter behind the head has run out. -/
def behind : State :=
  presented (armed 0 .wait 5 8 1 (wait 8 5 .exclusive (some 1) none (some 0) (wait 8 4 .exclusive none none none pair)))

theorem test_witness_WaitExpiryTimesOut : let s := after .tickAdvance pool
    (s.du.expiries = 1 :: [3] ∧ s.du.entries.get 1 = .armed .wait 4 3 1 0 ∧ (s.lock 3).queue.head? = some 4 ∧
      ∃ q, s.request 4 = some q ∧ q.lock = 3 ∧ q.entry = some 1) ∧
    behind.du.expiries = 0 :: [] ∧ behind.du.entries.get 0 = .armed .wait 5 8 1 0 ∧
      (behind.lock 8).queue.head? ≠ some 5 ∧ ∃ q, behind.request 5 = some q ∧ q.lock = 8 ∧ q.entry = some 0 := by
  decide +kernel

/-- The lease of an agent whose upgrade is queued has run out. -/
def upgrading : State :=
  let s := presented (armed 0 .lease 1 8 1 (hold 8 2 .shared none (hold 8 1 .shared (some 0) idle)))
  wait 8 1 .upgrade none none none s

theorem test_witness_LeaseExpiryRevokes :
    (ring.du.expiries = 0 :: [] ∧ ring.du.entries.get 0 = .armed .lease 3 14 1 0 ∧
      (ring.lock 14).leaseOf 3 = some 0 ∧ ring.upgradeQueued 3 14 = false) ∧
    upgrading.du.expiries = 0 :: [] ∧ upgrading.du.entries.get 0 = .armed .lease 1 8 1 0 ∧
      (upgrading.lock 8).leaseOf 1 = some 0 ∧ upgrading.upgradeQueued 1 8 = true := by decide +kernel

theorem test_witness_SweepVisitRemoves : sweep.purge.state = .sweeping ∧ sweep.purge.subject = some 6 ∧
    sweep.purge.pointer = (17 : LockNum).val ∧ (sweep.settle.lock 17).holds 6 = true ∧
    ({ sweep with purge := ⟨.sweeping, some 6, 63, 1⟩ }.settle.lock 63).holds 6 = false := by decide +kernel

theorem test_witness_SweepEndReports : sweepDone.purge.state = .sweeping ∧ sweepDone.purge.subject = some 6 ∧
    sweepDone.purge.pointer = 64 ∧ (6 : Agent) ≠ 0 := by decide +kernel

theorem test_witness_TryAccesses : pair.ready = true ∧ (tagged 0).parityGood = true ∧
    (pair.settle.agent 3).state = .online ∧ (pair.settle.lock 63).leaseRequired = false ∧
    (pair.settle.lock 63).holds 3 = false ∧ (pair.settle.lock 63).state = .free ∧
    (pair.settle.lock 8).holds 1 = true ∧ pair.settle.upgradeQueued 1 8 = false ∧
    (pair.settle.lock 8).holds 3 = false ∧ (pair.settle.lock 8).state ≠ .free ∧
    cycle.settle.upgradeQueued 1 8 = true ∧ (ring.settle.lock 14).leaseRequired = true ∧
    (sweep.settle.agent 6).state = .purging := by decide +kernel

theorem test_witness_TimeWords : idle.ready = true ∧ State.reset.ready = false := by decide +kernel

theorem test_witness_BankedWrites : idle.ready = true ∧
    ([0, 1, 2, 3].all fun d => (WriteData.good d).parityGood) = true ∧ (WriteData.good 1).data.getLsbD 0 = true ∧
    (WriteData.good 2).data.getLsbD 0 = false ∧ (WriteData.good 2).data.getLsbD 1 = true := by decide +kernel

theorem test_witness_InterruptLines : idle.port.powerOnReset = false ∧ idle.Takes .resetTables 0 (tagged 1) ∧
    words.line 4 = true ∧ exec .busReset words = .next (after .busReset words) ∧
    exec (.resetTables 0 (tagged 1)) idle = .next (after (.resetTables 0 (tagged 1)) idle) :=
  ⟨by decide +kernel, takes_of (by decide +kernel), by decide +kernel, exec_busReset _, exec_resetTables _ _ _⟩

/-- Agent 1 is the sole holder of lock 8 and has an upgrade queued on it. -/
def alone : State := wait 8 1 .upgrade none none none (hold 8 1 .shared none idle)

/-- A conversion, and the heads that are not grantable: an upgrade beside another holder, an EXCLUSIVE waiter of a held
lock, a SHARED waiter of an EXCLUSIVE lock; and a hold that leaves its lock SHARED, with a head that is not SHARED. -/
theorem test_witness_GrantStepNothingOrConversion : (idle.lock 8).queue = [] ∧
    ((alone.lock 8).queue = 1 :: [] ∧ (∃ q, alone.request 1 = some q ∧ q.mode = .upgrade) ∧
      (alone.lock 8).state = .shared ∧ ∀ b, (alone.lock 8).holds b = true ↔ b = 1) ∧
    ((cycle.lock 8).queue = 1 :: [4] ∧ (∃ q, cycle.request 1 = some q ∧ q.mode = .upgrade) ∧
      (cycle.lock 8).state = .shared ∧ ∃ b, b ≠ 1 ∧ (cycle.lock 8).holds b = true) ∧
    ((cycle.lock 9).queue = 2 :: [] ∧ (∃ q, cycle.request 2 = some q ∧ q.mode = .exclusive) ∧
      (cycle.lock 9).state ≠ .free) ∧
    ((readers.lock 8).queue = 4 :: [5] ∧ (∃ q, readers.request 4 = some q ∧ q.mode = .shared) ∧
      (readers.lock 8).state = .exclusive) ∧
    (cycle.lock 8).queue.head? = some 1 ∧ ((cycle.removeHold 1 8).lock 8).state = .shared ∧
      ((cycle.removeHold 2 8).lock 8).state = .shared ∧ ((behind.removeHold 2 8).lock 8).state = .shared ∧
      (∃ q, behind.request 4 = some q ∧ q.mode = .exclusive) ∧ (behind.lock 8).queue.head? = some 4 ∧
    (urgent.lock 8).queue = 3 :: [4] ∧ (∃ q, urgent.request 3 = some q ∧ q.mode = .shared) ∧
      (urgent.lock 8).state = .shared := by decide +kernel

/-- Lock 20 FREE with an EXCLUSIVE head of class 0 and a SHARED waiter of class 2 that came before it. -/
def vacant : State :=
  let s := idle.setLock 20 { idle.lock 20 with queue := [1, 3] }
  { (s.setRequest 3 (some ⟨20, .shared, 2, 0, 0, none, none, none⟩)).setRequest 1
    (some ⟨20, .exclusive, 0, 0, 1, none, none, none⟩) with nextArrival := 2 }

theorem test_witness_GrantStepExclusive : (vacant.lock 20).queue = 1 :: [3] ∧ [(1 : Agent), 3].Nodup ∧
    vacant.Queued 20 ∧ (∃ q, vacant.request 1 = some q ∧ q.mode = .exclusive) ∧ (vacant.lock 20).state = .free ∧
    (∀ b, (vacant.lock 20).holds b = false) ∧ vacant.OrderLaw :=
  ⟨by decide +kernel, by decide, by unfold State.Queued; decide +kernel, by decide +kernel, by decide +kernel,
    by decide +kernel, by decide +kernel,
    fun a q h => (by decide +kernel : ∀ a, ∀ q ∈ vacant.request a, q.arrival < vacant.nextArrival) a q h,
    fun a b p q h k e => (by decide +kernel : ∀ a b, ∀ p ∈ vacant.request a, ∀ q ∈ vacant.request b,
      p.arrival = q.arrival → a = b) a b p h q k e⟩

/-- A batch of two SHARED waiters ahead of an EXCLUSIVE one, on a FREE lock with bypass_limit 0. -/
def batch : State :=
  let s := idle.setLock 20 { idle.lock 20 with bypassLimit := 0 }
  wait 20 3 .exclusive none none none (wait 20 2 .shared none none none (wait 20 1 .shared none none none s))

theorem test_witness_GrantStepBatch : (batch.lock 20).queue = [1, 2] ++ [3] ∧ [(1 : Agent), 2] ≠ [] ∧
    ([(1 : Agent), 2] ++ [3]).Nodup ∧ batch.Queued 20 ∧
    (∀ b ∈ [(1 : Agent), 2], ∃ q, batch.request b = some q ∧ q.mode = .shared) ∧
    (∀ q ∈ batch.request 3, q.mode ≠ .shared) ∧ (batch.lock 20).state ≠ .exclusive ∧
    (batch.lock 20).bypassLimit = 0 := by unfold State.Queued; decide +kernel

/-- Table 3-6, row 6, with lock 20 FREE: the batch of agent 4 promotes agent 3, and the grant step goes on. -/
def rerun : State := promotion.removeHold 1 20

theorem test_witness_GrantStepBatch_promoted : (rerun.lock 20).queue = [4] ++ [5, 3] ∧ rerun.Queued 20 ∧
    ([(4 : Agent)] ++ [5, 3]).Nodup ∧ (∃ q, rerun.request 4 = some q ∧ q.mode = .shared) ∧
    (∃ q, rerun.request 5 = some q ∧ q.mode = .exclusive) ∧ (rerun.lock 20).state = .free ∧
    (rerun.lock 20).bypassLimit = 2 ∧ (∃ q, rerun.request 3 = some q ∧ q.bypass = 1 ∧ q.effClass = 2) ∧
    (rerun.grantStep 20).request 3 = none := by unfold State.Queued; decide +kernel

theorem test_witness_NoticePost : (sweep.agent 6).state ≠ .online ∧ (idle.agent 6).state = .online ∧
    (idle.agent 6).notices.length < 8 ∧
    8 ≤ ({ idle.agent 6 with notices := List.replicate 8 (.purgeDone 1 0 0) } : AgentRecord).notices.length := by
  decide +kernel

theorem test_witness_GrantStepFrame : readers.Queued 8 ∧ ∃ q, cycle.request 2 = some q ∧ q.lock ≠ 8 := by
  unfold State.Queued; decide +kernel

theorem test_witness_RegisterFrames : Instr.sweepVisit.wf = true ∧
    exec .sweepVisit sweep = .next (after .sweepVisit sweep) ∧ Instr.sweepVisit ≠ .powerOnReset :=
  ⟨rfl, exec_sweepVisit _, by decide⟩

/-- A state with two SHARED holders and a command waiting. -/
def busy : State := { forcing with pending := [.forceRelease 0 (tagged 1)] }

theorem test_witness_step : step busy = .next (after (.forceRelease 0 (tagged 1)) { forcing with pending := [] }) :=
  exec_forceRelease _ _ _

theorem test_witness_StepKeepsAgentLaw : busy.AgentLaw := by
  refine ⟨?_, by unfold State.SupervisorLaw; decide +kernel, by decide +kernel, ?_, by decide +kernel,
    by decide +kernel⟩
  · exact (by decide +kernel : ∀ a, (forcing.agent a).notices.length ≤ 8 ∧ ((forcing.agent a).state ≠ .online →
      (forcing.agent a).notices = [] ∧ (forcing.agent a).overrun = false))
  · decide +kernel

theorem test_witness_StepKeepsHeldLaw : (ring.withDu fun d => { d with heldTicks := 2 }).HeldLaw ∧ ring.ready = true :=
  ⟨fun _ _ => (by decide +kernel : ring.du.expiries ≠ []), by decide +kernel⟩

theorem test_witness_StepKeepsDeadlineLaws : busy.DividerLaw ∧ busy.PoolLaw := by
  have he : ∀ e, busy.du.entries.get e = .free := by decide +kernel
  refine ⟨by unfold State.DividerLaw; decide +kernel, ⟨?_, ?_, ?_, ?_, ?_, ?_⟩, ?_⟩
  · simp [he]
  · rw [show busy.du.armedList = [] from rfl]; exact .nil
  · rw [show busy.du.armedList = [] from rfl]; simp
  · rw [show busy.du.expiries = [] from rfl]; simp
  · rw [show busy.du.expiries = [] from rfl]; exact .nil
  · simp [he]
  · intro a q h
    exact nomatch (request_forcing a).symm.trans h

theorem test_witness_StepKeepsTableLaws : busy.LockTableLaw ∧ busy.OrderLaw ∧ busy.OwnershipLaw ∧ busy.Acyclic := by
  have he : ∀ e, busy.du.entries.get e = .free := by decide +kernel
  have hq : ∀ a, busy.request a = none := request_forcing
  have hl : ∀ l a, (busy.lock l).leaseOf a = none := by decide +kernel
  have h := lockTableLaw_forcing
  refine ⟨⟨h.records, ⟨h.queues.once, h.queues.joined, h.queues.upgrade, h.queues.waiter, h.queues.shared,
    h.queues.free, h.queues.bypass⟩, ⟨h.members.waiting, h.members.offline, h.members.purging⟩⟩,
    ⟨by decide +kernel, by simp [hq], by simp [hq]⟩, ⟨by simp [hl], by simp [hq], by simp [he], by simp [he],
    by simp [he]⟩, fun a p => ?_⟩
  obtain ⟨c, ⟨q, h, -⟩, -⟩ := Relation.TransGen.head'_iff.mp p
  exact nomatch (hq a).symm.trans h

theorem test_witness_DeadlineEntryRequests : writer.du.entries.get 0 = .armed .wait 4 41 500 0 ∧
    ring.du.entries.get 1 = .reserved 5 14 ∧ (∃ q, ring.request 5 = some q ∧ q.entry = some 1 ∧ q.lease = some 200) ∧
    (∃ q, writer.request 4 = some q ∧ q.entry = some 0 ∧ q.lease = none) ∧
    ∃ q, writer.request 5 = some q ∧ q.entry = none := by decide +kernel

/-- Accesses answered OK with another behind, RETRY and ERROR; a step without an access; and the levels of a line that
is asserted. -/
theorem test_witness_SignalLevels :
    (Instr.tryRead 3 5).access = some ⟨3, 5, none⟩ ∧ Instr.sweepEnd.access = none ∧
    ({ words with pending := [.tryRead 3 5, .tryRead 4 6] } : State).answerLevels = [0, 1] ∧
    ({ State.reset with pending := [.tryRead 3 5] } : State).answerLevels = [0, 2] ∧
    ({ words with pending := [.refusedRead 3 0xC0] } : State).answerLevels = [0, 3] ∧
    ({ after (.tryRead 3 5) words with pending := [.sweepEnd, .tryRead 4 6] } : State).answerLevels = [1] ∧
    words.interruptLevel 4 = false ∧ words.interruptLevel 3 = true ∧ words.port.porstLevel = true ∧
    (inputs false true idle).port.brstLevel = false ∧
    BusAccess.ofLines true false 5 3 0 0 = some ⟨3, 5, none⟩ := by decide +kernel

theorem test_witness_AccessRoundTrip : (Instr.pop 7 (.good 3)).wf = true ∧
    (Instr.pop 7 (.good 3)).access = some ⟨7, 0xA5, some (.good 3)⟩ ∧ (Instr.refusedRead 7 0xFF).wf = true := by
  decide +kernel

end Sys2Proof.Tests.Slice0
end

section
/-! The Agent Table and the Purge Engine keep their laws under every command and step (R119, R125, R134). -/

namespace Sys2Proof.Machine

/-! ### What the checks of SET AGENT and PURGE let pass -/

/-- R121, Table 7-3: the target passed is ONLINE or OFFLINE, the agent is not PURGING, and one that is to go OFFLINE is
not the supervisor, waits for nothing and holds nothing. -/
theorem State.setAgentCheck_passed {s : State} {arg0 : Word} {n : Agent} {t : AgentState}
    (h : s.setAgentCheck arg0 = .inr (n, t)) :
    t ≠ .purging ∧ (s.agent n).state ≠ .purging ∧
      (t = .offline → n ≠ Config.supervisor ∧ s.request n = none ∧ ∀ l, (s.lock l).holds n = false) := by
  have target : ∀ {c : BitVec 2} {u : AgentState}, targetState c = some u → u ≠ .purging := by
    unfold targetState
    intro c u hu
    split_ifs at hu <;> cases hu <;> decide
  unfold State.setAgentCheck at h
  split at h
  · cases h
  · cases h
  · next n' t' _ ht =>
    split_ifs at h with hsup hpurging hwaits hholds
    cases h
    refine ⟨target ht, by simpa using hpurging, fun hoff => ?_⟩
    subst hoff
    have hnone : s.holdCount n = 0 := by simpa using hholds
    exact ⟨by simpa using hsup, by simpa using hwaits,
      fun l => by simpa using List.countP_eq_zero.mp hnone l (mem_allLocks l)⟩

/-- R135, Table 8-2: the agent passed is ONLINE and not the supervisor, and the Purge Engine is IDLE. -/
theorem State.purgeCheck_passed {s : State} {arg0 : Word} {a : Agent} (h : s.purgeCheck arg0 = .inr a) :
    a ≠ Config.supervisor ∧ s.purge.state = .idle ∧ (s.agent a).state = .online := by
  unfold State.purgeCheck at h
  split at h
  · cases h
  · next b _ =>
    by_cases hsup : (b == Config.supervisor) = true
    · rw [if_pos hsup] at h; cases h
    · rw [if_neg hsup] at h
      cases hidle : s.purge.state with
      | sweeping => cases hs : s.purge.subject <;> rw [hidle, hs] at h <;> cases h
      | idle =>
        simp only [hidle] at h
        split at h
        · cases h
        · next hon =>
          cases h
          exact ⟨by simpa using hsup, rfl, by simpa using hon⟩

/-! ### Changes of an agent's state -/

/-- R127: a write of NOTICE CONTROL keeps the law of the notice queue. -/
theorem AgentRecord.NoticeLaw.noticeControl {r : AgentRecord} (h : r.NoticeLaw) (p c : Bool) :
    (r.noticeControl p c).NoticeLaw := by
  obtain ⟨hlen, hoff⟩ := h
  constructor
  · cases p
    · exact hlen
    · exact (List.length_tail.trans_le (Nat.sub_le ..)).trans hlen
  · intro hst
    obtain ⟨hn, ho⟩ := hoff hst
    simp [AgentRecord.noticeControl, hn, ho]

/-- R122: SET AGENT keeps the law of the notice queue: an agent that leaves ONLINE loses its notices. -/
theorem AgentRecord.NoticeLaw.withState {r : AgentRecord} (h : r.NoticeLaw) {t : AgentState} (ht : t ≠ .purging)
    (cls : BitVec 2) : (r.withState t cls).NoticeLaw := by
  unfold AgentRecord.withState
  split_ifs with hleave
  · exact ⟨Nat.zero_le _, fun _ => ⟨rfl, rfl⟩⟩
  · refine ⟨h.1, fun hst => h.2 fun hon => ?_⟩
    cases t
    · simp [hon] at hleave
    · exact hst rfl
    · exact ht rfl

@[simp] theorem AgentRecord.withState_state (r : AgentRecord) (t : AgentState) (cls : BitVec 2) :
    (r.withState t cls).state = t := by
  unfold AgentRecord.withState
  split_ifs <;> rfl

/-- An agent that neither is nor becomes PURGING may change its state, but agent 0 stays ONLINE. -/
theorem State.AgentLaw.changeState {s : State} (h : s.AgentLaw) {a : Agent} {r : AgentRecord} (hr : r.NoticeLaw)
    (hsup : a = Config.supervisor → r.state = .online) (hold : (s.agent a).state ≠ .purging)
    (hnew : r.state ≠ .purging) : (s.setAgent a r).AgentLaw where
  notices := h.notices.setAgent a hr
  supervisor := by
    unfold State.SupervisorLaw
    rw [State.setAgent_agent]
    split
    · next e => exact hsup e.symm
    · exact h.supervisor
  purge :=
    { h.purge with
      purging := fun b => by
        rw [State.setAgent_agent]
        split
        · next e =>
          subst e
          exact ⟨fun hb => absurd hb hnew, fun hb => absurd ((h.purge.purging b).mpr hb) hold⟩
        · exact h.purge.purging b }

theorem State.AgentLaw.setAgentTaken {s : State} (h : s.AgentLaw) : s.setAgentTaken.1.AgentLaw := by
  unfold State.setAgentTaken
  simp only
  split
  · exact h
  · next n t hcheck =>
    obtain ⟨ht, hn, hoff⟩ := State.setAgentCheck_passed hcheck
    refine h.changeState ((h.notices n).withState ht _) (fun hsup => ?_) hn (by simpa using ht)
    cases t
    · exact absurd hsup (hoff rfl).1
    · simp
    · exact absurd rfl ht

/-! ### Purge start (R136) -/

/-- The record of agent `a` and the Purge Engine replaced by `r` and `p`. -/
def State.overlay (s : State) (a : Agent) (r : AgentRecord) (p : PurgeEngine) : State :=
  { s.setAgent a r with purge := p }

theorem setRow_setRow {n : Nat} {α : Type} (v : Vector α n) (i : Fin n) (x y : α) :
    setRow (setRow v i x) i y = setRow v i y :=
  table_ext fun j => by simp only [get_setRow]; split <;> rfl

theorem setRow_comm {n : Nat} {α : Type} (v : Vector α n) {i j : Fin n} (h : i ≠ j) (x y : α) :
    setRow (setRow v i x) j y = setRow (setRow v j y) i x :=
  table_ext fun k => by
    simp only [get_setRow]
    by_cases hi : k = i
    · simp [hi, h]
    · simp [hi]

/-- R124: what is posted to an agent whose record is overlaid by one that is not ONLINE leaves no trace. -/
theorem State.overlay_post {r : AgentRecord} (hr : r.state ≠ .online) (s : State) (a : Agent) (p : PurgeEngine)
    (b : Agent) (n : Notice) : (s.overlay a r p).post b n = (s.post b n).overlay a r p := by
  by_cases hb : b = a
  · subst hb
    have hself : ((s.overlay b r p).agent b).state ≠ .online := by
      show ((s.setAgent b r).agent b).state ≠ .online
      rwa [State.setAgent_agent_self]
    rw [State.post_of_not_online hself]
    unfold State.post State.overlay State.setAgent
    simp only
    split
    · split <;> simp [setRow_setRow]
    · rfl
    · rfl
  · have hagent : (s.overlay a r p).agent b = s.agent b := by
      show (s.setAgent a r).agent b = _
      rw [State.setAgent_agent, if_neg hb]
    unfold State.post
    simp only [hagent]
    unfold State.overlay State.setAgent
    split
    · split <;> simp [setRow_comm _ (Ne.symm hb)]
    · rfl
    · rfl

theorem State.overlay_grantWaiter {r : AgentRecord} (hr : r.state ≠ .online) (s : State) (a : Agent)
    (p : PurgeEngine) (l : LockNum) (rec : Bool) (b : Agent) :
    (s.overlay a r p).grantWaiter l rec b = (s.grantWaiter l rec b).overlay a r p := by
  cases hq : s.request b with
  | none =>
    rw [State.grantWaiter_of_none hq, State.grantWaiter_of_none (s := s.overlay a r p) hq]
  | some q =>
    rw [State.grantWaiter_of_some hq, State.grantWaiter_of_some (s := s.overlay a r p) hq, ← State.overlay_post hr]
    rfl

theorem State.overlay_convert {r : AgentRecord} (hr : r.state ≠ .online) (s : State) (a : Agent)
    (p : PurgeEngine) (l : LockNum) (b : Agent) :
    (s.overlay a r p).convert l b = (s.convert l b).overlay a r p := by
  cases hq : s.request b with
  | none => rw [State.convert_of_none hq, State.convert_of_none (s := s.overlay a r p) hq]
  | some q =>
    rw [State.convert_of_some hq, State.convert_of_some (s := s.overlay a r p) hq, ← State.overlay_post hr]
    rfl

/-- R49: the place of a waiter depends on the pending requests alone. -/
theorem State.place_congr {s t : State} (h : ∀ b, t.request b = s.request b) (a : Agent) (xs : List Agent) :
    t.place a xs = s.place a xs := by
  induction xs with
  | nil => rfl
  | cons x xs ih =>
    unfold State.place
    rw [State.precedes_congr (h a) (h x), ih]

theorem State.overlay_countPassed (s : State) (a : Agent) (r : AgentRecord) (p : PurgeEngine) (l : LockNum)
    (ns : List Nat) : (s.overlay a r p).countPassed l ns = (s.countPassed l ns).overlay a r p := rfl

theorem State.overlay_promote (s : State) (a : Agent) (r : AgentRecord) (p : PurgeEngine) (l : LockNum)
    (ps : List Agent) : (s.overlay a r p).promote l ps = (s.promote l ps).overlay a r p := by
  have hplace : ((s.overlay a r p).toClassZero ps).place = (s.toClassZero ps).place :=
    funext fun b => funext fun xs =>
      State.place_congr (s := s.toClassZero ps) (t := (s.overlay a r p).toClassZero ps) (fun _ => rfl) b xs
  unfold State.promote
  simp only [hplace]
  rfl

/-- The runs of the grant step read no agent record and no Purge Engine, and write no record that is not ONLINE. -/
theorem State.overlay_grantRuns {r : AgentRecord} (hr : r.state ≠ .online) (a : Agent) (p : PurgeEngine)
    (l : LockNum) : ∀ (fuel : Nat) (s : State), State.grantRuns fuel l (s.overlay a r p) =
      ((State.grantRuns fuel l s).1.overlay a r p, (State.grantRuns fuel l s).2) := by
  have batch : ∀ (rec : Bool) (bs : List Agent) (s : State),
      bs.foldl (fun t b => t.grantWaiter l rec b) (s.overlay a r p) =
        (bs.foldl (fun t b => t.grantWaiter l rec b) s).overlay a r p := by
    intro rec bs
    induction bs with
    | nil => intro s; rfl
    | cons b bs ih => intro s; rw [List.foldl_cons, State.overlay_grantWaiter hr, ih]; rfl
  intro fuel
  induction fuel with
  | zero => intro s; rfl
  | succ fuel ih =>
    intro s
    unfold State.grantRuns
    rw [show (s.overlay a r p).headTest l = s.headTest l from rfl]
    cases s.headTest l with
    | nothing => rfl
    | convert b => simp only [State.overlay_convert hr]
    | grant bs =>
      simp only
      rw [show ((s.overlay a r p).lock l) = s.lock l from rfl,
        show (s.overlay a r p).arrivalOf = s.arrivalOf from rfl, batch]
      generalize bs.foldl (fun t b => t.grantWaiter l (s.lock l).recovered b) s = t
      rw [show (t.overlay a r p).promotees l (bs.flatMap s.arrivalOf) = t.promotees l (bs.flatMap s.arrivalOf) from rfl]
      split
      · rfl
      · rw [State.overlay_countPassed, State.overlay_promote, ih]

theorem State.overlay_grantIf {r : AgentRecord} (hr : r.state ≠ .online) (s : State) (a : Agent) (p : PurgeEngine)
    (b : Bool) (l : LockNum) : (s.overlay a r p).grantIf b l = (s.grantIf b l).overlay a r p := by
  cases b
  · rfl
  · exact congrArg Prod.fst (State.overlay_grantRuns hr a p l _ s)

/-- The record of a subject at purge start: PURGING, without notices (R136). -/
def AgentRecord.purged (r : AgentRecord) : AgentRecord := { r with state := .purging, notices := [], overrun := false }

/-- R136: with its pending request withdrawn, the agent is PURGING and the Purge Engine SWEEPING with it as subject. -/
def State.purgeBegun (s : State) (a : Agent) : State :=
  (s.dequeue a).overlay a (s.agent a).purged ⟨.sweeping, some a, 0, 0⟩

/-- R136: purge start is the beginning of the purge, and the grant step where the request withdrawn was at a head. -/
theorem State.purgeStart_eq (s : State) (a : Agent) :
    s.purgeStart a = s.purgeBegun a ∨
      ∃ q, s.request a = some q ∧ s.purgeStart a = (s.purgeBegun a).grantStep q.lock := by
  obtain ⟨u, hu⟩ : ∃ u, u = s.setAgent a { s.agent a with state := .purging } := ⟨_, rfl⟩
  have hrecord : { (u.dropRequest a).agent a with notices := [], overrun := false } = (s.agent a).purged := by
    rw [(u.dropRequest_frame a).agents a, hu, State.setAgent_agent_self]
    rfl
  have hstart : s.purgeStart a = (u.dropRequest a).overlay a (s.agent a).purged ⟨.sweeping, some a, 0, 0⟩ := by
    rw [← hrecord, hu]
    rfl
  have hbegun : (u.dequeue a).overlay a (s.agent a).purged ⟨.sweeping, some a, 0, 0⟩ = s.purgeBegun a := by
    rw [hu]
    unfold State.purgeBegun State.dequeue
    rw [State.setAgent_request]
    split <;> simp [State.overlay, State.setAgent, State.leaveQueue, State.setLock, State.setRequest, State.withDu,
      State.lock, setRow_setRow]
  rw [hstart]
  cases hq : s.request a with
  | none =>
    left
    have hqu : u.request a = none := by rw [hu]; exact hq
    rw [← hbegun, State.dequeue_of_none hqu]
    simp only [State.dropRequest, hqu]
  | some q =>
    have hqu : u.request a = some q := by rw [hu]; exact hq
    simp only [State.dropRequest, hqu]
    rw [← State.overlay_grantIf (by simp [AgentRecord.purged]), hbegun]
    cases u.atHead a q.lock
    · exact Or.inl rfl
    · exact Or.inr ⟨q, rfl, rfl⟩

/-- What holds as the purge begins, and what the grant step on the lock of the request withdrawn keeps, holds after
purge start. -/
theorem State.purgeStart_induct {P : State → Prop} {s : State} {a : Agent} (begun : P (s.purgeBegun a))
    (grants : ∀ q, s.request a = some q → P ((s.purgeBegun a).grantStep q.lock)) : P (s.purgeStart a) := by
  rcases s.purgeStart_eq a with h | ⟨q, hq, h⟩ <;> rw [h]
  · exact begun
  · exact grants q hq

theorem State.purgeBegun_agent (s : State) (a b : Agent) :
    (s.purgeBegun a).agent b = if b = a then (s.agent a).purged else s.agent b := by
  show ((s.dequeue a).setAgent a _).agent b = _
  rw [State.setAgent_agent, State.dequeue_agent]

/-- R134, R136: purge start for an agent other than the supervisor by an IDLE Purge Engine. -/
theorem State.AgentLaw.purgeBegun {s : State} (h : s.AgentLaw) {a : Agent} (hsup : a ≠ Config.supervisor)
    (hidle : s.purge.state = .idle) : (s.purgeBegun a).AgentLaw := by
  have hnone : ∀ b, (s.agent b).state ≠ .purging := fun b hb => by
    have hsome : s.purge.subject.isSome = true := by rw [(h.purge.purging b).mp hb]; rfl
    exact absurd ((h.purge.sweeping.mpr hsome).symm.trans hidle) (by decide)
  refine ⟨fun b => ?_, ?_, ⟨?_, fun b => ?_, Nat.zero_le _, Nat.zero_le _⟩⟩
  · rw [State.purgeBegun_agent]
    split
    · exact ⟨Nat.zero_le _, fun _ => ⟨rfl, rfl⟩⟩
    · exact h.notices b
  · rw [State.SupervisorLaw, State.purgeBegun_agent, if_neg (Ne.symm hsup)]
    exact h.supervisor
  · exact ⟨fun _ => rfl, fun _ => rfl⟩
  · rw [State.purgeBegun_agent]
    show _ ↔ some a = some b
    split
    · next hb => simp [hb, AgentRecord.purged]
    · next hb => simp [hnone b, Ne.symm hb]

theorem State.AgentLaw.purgeTaken {s : State} (h : s.AgentLaw) : s.purgeTaken.1.AgentLaw := by
  unfold State.purgeTaken
  split
  · exact h
  · next a hcheck =>
    obtain ⟨hsup, hidle, -⟩ := State.purgeCheck_passed hcheck
    have hbegun := h.settle.purgeBegun hsup (by rwa [State.settle_purge])
    exact State.purgeStart_induct hbegun fun q _ => hbegun.grantStep q.lock

/-! ### The sweep (R138, R139) -/

/-- A subject that is visited or whose sweep ends is PURGING. -/
theorem State.AgentLaw.subject_purging {s : State} (h : s.AgentLaw) {a : Agent} (ha : s.purge.subject = some a) :
    (s.agent a).state = .purging := (h.purge.purging a).mpr ha

theorem State.AgentLaw.setSweep {s : State} (h : s.AgentLaw) {n p : Nat} (hn : n ≤ p) (hp : p ≤ 64) :
    (s.setSweep n p).AgentLaw :=
  ⟨h.notices, h.supervisor, h.purge.sweeping, h.purge.purging, hn, hp⟩

theorem State.sweepHold_frame (s : State) (a : Agent) (k : LockNum) : s.EngineFrame (s.sweepHold a k) := by
  unfold State.sweepHold
  split
  · exact (s.removeHold_frame a k).trans (State.setRecovered_frame ..)
  · exact s.removeHold_frame a k

theorem State.sweepHold_agents (s : State) (a : Agent) (k : LockNum) : (s.sweepHold a k).agents = s.agents := by
  unfold State.sweepHold
  split <;> rfl

theorem State.grantAfterHold_frame (s : State) (l : LockNum) : s.EngineFrame (s.grantAfterHold l) :=
  s.grantIf_frame _ l

theorem State.AgentLaw.grantAfterHold {s : State} (h : s.AgentLaw) (l : LockNum) : (s.grantAfterHold l).AgentLaw :=
  State.grantIf_induct (fun _ => h) (h.grantStep l)

/-- R138: a visit to the lock at the sweep pointer. -/
theorem State.AgentLaw.visitLock {s : State} (h : s.AgentLaw) (a : Agent) {k : LockNum} (hk : s.purge.pointer = k.val) :
    (s.visitLock a k).AgentLaw := by
  have hcount : s.purge.count ≤ k.val := by rw [← hk]; exact h.purge.count
  unfold State.visitLock
  split
  · have hswept : (s.sweepHold a k).AgentLaw :=
      h.engine (s.sweepHold_frame a k) (h.notices.of_agents (s.sweepHold_agents a k))
    exact (hswept.grantAfterHold k).setSweep (by omega) (by omega)
  · exact h.setSweep (by omega) (by omega)

theorem lockOf_eq_some {n : Nat} {l : LockNum} (h : lockOf n = some l) : n = l.val := by
  unfold lockOf at h
  split at h
  · cases h; rfl
  · cases h

/-- R138: what a visit is: nothing, or the visit to the lock at the pointer for the subject of the sweep, after the
expiries that stand before it. -/
theorem State.sweepVisit_cases (s : State) : s.sweepVisit = s ∨ ∃ a k, s.purge.state = .sweeping ∧
    s.purge.subject = some a ∧ s.purge.pointer = k.val ∧ s.sweepVisit = s.settle.visitLock a k := by
  unfold State.sweepVisit
  split
  · next a k hs ha hk => exact Or.inr ⟨a, k, hs, ha, lockOf_eq_some hk, rfl⟩
  · exact Or.inl rfl

/-- The subject of a sweep that has ended is OFFLINE and the Purge Engine IDLE (R139, steps 1 and 2). -/
def State.sweepClosed (s : State) (a : Agent) : State :=
  s.overlay a { s.agent a with state := .offline } { s.purge with state := .idle, subject := none }

/-- R139: what a sweep end is: nothing, or the end of a sweep whose pointer is 64, reported to the supervisor. -/
theorem State.sweepEnd_cases (s : State) : s.sweepEnd = s ∨ ∃ a, s.purge.state = .sweeping ∧
    s.purge.subject = some a ∧ s.purge.pointer = 64 ∧
    s.sweepEnd = (s.sweepClosed a).post Config.supervisor (.purgeDone a s.purge.count s.now) := by
  unfold State.sweepEnd
  split
  · next a hs ha =>
    split
    · next hp => exact Or.inr ⟨a, hs, ha, hp, rfl⟩
    · exact Or.inl rfl
  · exact Or.inl rfl

theorem State.sweepClosed_agent (s : State) (a b : Agent) :
    (s.sweepClosed a).agent b = if b = a then { s.agent a with state := .offline } else s.agent b :=
  s.setAgent_agent a b _

theorem State.AgentLaw.sweepClosed {s : State} (h : s.AgentLaw) {a : Agent} (ha : s.purge.subject = some a) :
    (s.sweepClosed a).AgentLaw := by
  have hpurging := h.subject_purging ha
  have hsup : a ≠ Config.supervisor := by
    rintro rfl
    exact absurd (hpurging.symm.trans h.supervisor) (by decide)
  refine ⟨fun b => ?_, ?_, ⟨?_, fun b => ?_, h.purge.count, h.purge.pointer⟩⟩
  · rw [State.sweepClosed_agent]
    split
    · exact ⟨(h.notices a).1, fun _ => (h.notices a).2 (by rw [hpurging]; decide)⟩
    · exact h.notices b
  · rw [State.SupervisorLaw, State.sweepClosed_agent, if_neg (Ne.symm hsup)]
    exact h.supervisor
  · exact ⟨fun hc => absurd hc (by simp [State.sweepClosed, State.overlay]),
      fun hc => absurd hc (by simp [State.sweepClosed, State.overlay])⟩
  · rw [State.sweepClosed_agent]
    show _ ↔ none = some b
    split
    · simp
    · next hb =>
      have hother : (s.agent b).state ≠ .purging := fun hc =>
        hb (Option.some.inj (((h.purge.purging b).mp hc).symm.trans ha))
      simp [hother]

theorem State.AgentLaw.sweepVisit {s : State} (h : s.AgentLaw) : s.sweepVisit.AgentLaw := by
  rcases s.sweepVisit_cases with e | ⟨a, k, -, -, hk, e⟩ <;> rw [e]
  · exact h
  · exact h.settle.visitLock a (by rwa [State.settle_purge])

theorem State.AgentLaw.sweepEnd {s : State} (h : s.AgentLaw) : s.sweepEnd.AgentLaw := by
  rcases s.sweepEnd_cases with e | ⟨a, -, ha, -, e⟩ <;> rw [e]
  · exact h
  · exact (h.sweepClosed ha).post _ _

/-! ### Resets (R133, R134) -/

/-- The Agent Table after power-on reset. -/
theorem State.AgentLaw.reset : State.reset.AgentLaw := by
  have hagent : ∀ a, State.reset.agent a = AgentRecord.reset a := get_ofTable _
  refine ⟨fun a => ?_, ?_, ⟨by decide, fun a => ?_, Nat.le_refl _, Nat.zero_le _⟩⟩
  · rw [hagent]; exact ⟨Nat.zero_le _, fun _ => ⟨rfl, rfl⟩⟩
  · rw [State.SupervisorLaw, hagent]; rfl
  · have hst : (AgentRecord.reset a).state ≠ .purging := by
      unfold AgentRecord.reset
      simp only
      split <;> decide
    rw [hagent]
    exact ⟨fun hc => absurd hc hst, fun hc => nomatch hc⟩

/-- R133, R134: agents without notices, PURGING ones made OFFLINE, and the Purge Engine at its reset values. -/
theorem State.AgentLaw.emptied {s t : State} (h : s.AgentLaw)
    (ha : ∀ b, (t.agent b).state = (s.agent b).state.afterReset ∧ (t.agent b).notices = [] ∧
      (t.agent b).overrun = false) (hp : t.purge = PurgeEngine.reset) : t.AgentLaw := by
  refine ⟨fun b => ?_, ?_, ⟨by rw [hp]; decide, fun b => ?_, by rw [hp]; exact Nat.le_refl _,
    by rw [hp]; exact Nat.zero_le _⟩⟩
  · obtain ⟨-, hn, ho⟩ := ha b
    exact ⟨by rw [hn]; exact Nat.zero_le _, fun _ => ⟨hn, ho⟩⟩
  · rw [State.SupervisorLaw, (ha _).1, h.supervisor]
    rfl
  · rw [hp, (ha b).1]
    have hst : (s.agent b).state.afterReset ≠ .purging := by cases (s.agent b).state <;> decide
    exact ⟨fun hc => absurd hc hst, fun hc => nomatch hc⟩

theorem State.busResetAsserted_agent (s : State) (b : Agent) : s.busResetAsserted.agent b = (s.agent b).busReset :=
  get_ofTable _ b

theorem State.resetTablesTaken_agent (s : State) (b : Agent) :
    s.resetTablesTaken.1.agent b = (s.agent b).resetTables := get_ofTable _ b

theorem State.AgentLaw.busReset {s : State} (h : s.AgentLaw) : s.busResetAsserted.AgentLaw :=
  h.emptied (fun b => by rw [State.busResetAsserted_agent]; exact ⟨rfl, rfl, rfl⟩) rfl

theorem State.AgentLaw.resetTablesTaken {s : State} (h : s.AgentLaw) : s.resetTablesTaken.1.AgentLaw :=
  h.emptied (fun b => by rw [State.resetTablesTaken_agent]; exact ⟨rfl, rfl, rfl⟩) rfl

/-! ### Every step -/

theorem State.AgentLaw.taken {s : State} (h : s.AgentLaw) (c : Command) (a : Agent) : (c.taken a s).1.AgentLaw :=
  match c with
  | .nop => h
  | .acquire => h.acquireTaken a
  | .release => h.releaseTaken a
  | .upgrade => h.upgradeTaken a
  | .downgrade => h.downgradeTaken a
  | .cancel => h.cancelTaken a
  | .renew => h.renewTaken a
  | .setAgent => h.setAgentTaken
  | .setLock => h.setLockTaken
  | .forceRelease => h.forceReleaseTaken
  | .purge => h.purgeTaken
  | .setTime => h.setTimeTaken
  | .setDivider => h.setDividerTaken
  | .resetTables => h.resetTablesTaken

/-- What the expiries and held ticks of a tick taken keep, and a change of the Deadline Unit alone, a tick keeps. -/
theorem State.tickTaken_induct {P : State → Prop} (expiry : ∀ s e, P s → P (s.expiryOf e))
    (du : ∀ s f, P s → P (s.withDu f)) {s : State} (h : P s) : P s.tickTaken := by
  have hdrain := State.drain_induct expiry h
  unfold State.tickTaken
  split
  · exact h
  · split
    · exact State.catchUp_induct (fun t ht _ => du t _ ht) hdrain
    · exact du _ _ hdrain

/-- R119, R125, R134: every part of the machine keeps the laws of the Agent Table and the Purge Engine. -/
theorem agentLaw_kept : Kept State.AgentLaw where
  port _ _ h := h.of_eq rfl rfl
  pending _ _ h := h.of_eq rfl rfl
  fields _ a _ _ _ _ _ h := h.setAgent a (h.notices a) rfl
  notices _ a p c h := h.setAgent a ((h.notices a).noticeControl p c) rfl
  snapshots _ _ h := h.of_eq rfl rfl
  taken _ c a h := h.taken c a
  tryGrant _ a l h := ⟨h.settle, fun _ => h.settle.grantNow a l _ _ _⟩
  tryRelease _ a l h _ := h.settle.giveUp a l
  powerOn _ _ := State.AgentLaw.reset.of_eq rfl rfl
  busReset _ h := h.busReset
  tick _ h := State.tickTaken_induct (fun _ e h => h.expiryOf e) (fun _ _ h => h.of_eq rfl rfl) h
  expiry _ h := h.takeExpiry
  sweepVisit _ h := h.sweepVisit
  sweepEnd _ h := h.sweepEnd
  period _ h := h.of_eq rfl rfl
  heldTick _ h _ := h.of_eq rfl rfl

end Sys2Proof.Machine
end

section
/-! The lock table under every command and step (R2, R7, R45, R48, R50 to R52, R58, R118). -/

namespace Sys2Proof.Machine

/-! ### Changes beside the lock table -/

/-- With locks, requests and arrival numbers kept, the laws of the lock table ask only who may wait and hold. -/
theorem State.MidLaw.of_members {s t : State} {x : Option LockNum} (h : s.MidLaw x)
    (hl : ∀ l, t.lock l = s.lock l) (hr : ∀ a, t.request a = s.request a) (hn : t.nextArrival = s.nextArrival)
    (hm : t.MemberLaw) : t.MidLaw x where
  records l := by rw [hl]; exact h.records l
  once l := by rw [hl]; exact h.once l
  joined l a := by rw [hl, hr]; exact h.joined l a
  upgrade a q := by rw [hl, hr]; exact h.upgrade a q
  waiter a q := by rw [hl, hr]; exact h.waiter a q
  shared a q := by rw [hl, hr]; exact h.shared a q
  free l := by rw [hl]; exact h.free l
  bypass a q := by rw [hl, hr]; exact h.bypass a q
  members := hm
  order := h.order.of_sub (fun l => by rw [hl]) (fun _ b _ => hr b) (fun b p hb => ⟨p, by rw [← hr]; exact hb, rfl⟩) hn

/-- An event that keeps locks, requests, agent states, sweep pointer and arrival numbers. -/
theorem State.MidLaw.of_eq {s t : State} {x : Option LockNum} (h : s.MidLaw x) (hl : t.locks = s.locks)
    (hr : t.requests = s.requests) (ha : ∀ a, (t.agent a).state = (s.agent a).state) (hp : t.purge = s.purge)
    (hn : t.nextArrival = s.nextArrival) : t.MidLaw x :=
  h.congr ⟨fun l => by rw [State.lock, hl]; rfl, fun a => by rw [State.request, hr]; rfl, ha, by rw [hp], hn⟩

/-- A change of an agent record that keeps its state. -/
theorem State.MidLaw.setAgent {s : State} {x : Option LockNum} (h : s.MidLaw x) (a : Agent) {r : AgentRecord}
    (st : r.state = (s.agent a).state) : (s.setAgent a r).MidLaw x :=
  h.of_eq rfl rfl (fun b => by
    rw [State.setAgent_agent]
    split
    · next hb => subst hb; exact st
    · rfl) rfl rfl

/-- R8, R17: a lock that is FREE with no holder, no recovered flag and no waiter. -/
structure LockRecord.Vacant (r : LockRecord) : Prop where
  state : r.state = .free
  holders : ∀ a, r.holds a = false
  recovered : r.recovered = false
  queue : r.queue = []

/-- R17: with every lock vacant and no request pending the laws of the lock table hold. -/
theorem State.MidLaw.of_vacant {s : State} (hl : ∀ l, (s.lock l).Vacant) (hr : ∀ a, s.request a = none) :
    s.MidLaw none where
  records l :=
    ⟨fun _ => (hl l).holders, fun hc => absurd ((hl l).state.symm.trans hc) (by decide),
      fun hc => absurd ((hl l).state.symm.trans hc) (by decide),
      fun hc => absurd ((hl l).recovered.symm.trans hc) (by decide)⟩
  once l := by rw [(hl l).queue]; exact List.nodup_nil
  joined l a := by simp [(hl l).queue, hr]
  upgrade a q hq := absurd hq (by simp [hr])
  waiter a q hq := absurd hq (by simp [hr])
  shared a q hq := absurd hq (by simp [hr])
  free l _ _ := (hl l).queue
  bypass a q hq := absurd hq (by simp [hr])
  members := ⟨fun a hc => absurd (hr a) hc, fun a _ l => (hl l).holders a, fun a _ l _ => (hl l).holders a⟩
  order := ⟨fun l => by rw [(hl l).queue]; exact .nil, fun a q hq => absurd hq (by simp [hr]),
    fun a b p q hp => absurd hp (by simp [hr])⟩

theorem LockRecord.reset_vacant : LockRecord.reset.Vacant := ⟨rfl, fun a => by simp [holds, reset], rfl, rfl⟩

theorem LockRecord.emptied_vacant (r : LockRecord) : r.emptied.Vacant :=
  ⟨rfl, fun a => by simp [holds, emptied], rfl, rfl⟩

theorem State.reset_lock (l : LockNum) : State.reset.lock l = LockRecord.reset := get_replicate _ l

theorem State.reset_request (a : Agent) : State.reset.request a = none := get_replicate _ a

theorem State.emptyTables_lock (s : State) (l : LockNum) : s.emptyTables.lock l = (s.lock l).emptied := get_ofTable _ l

theorem State.emptyTables_request (s : State) (a : Agent) : s.emptyTables.request a = none := get_replicate _ a

theorem State.MidLaw.reset : State.reset.MidLaw none :=
  .of_vacant (fun l => by rw [State.reset_lock]; exact LockRecord.reset_vacant) State.reset_request

/-- R17, R144, R156: the laws of the lock table hold of tables that a reset has emptied. -/
theorem State.MidLaw.of_emptied {s t : State} (hl : t.locks = s.emptyTables.locks)
    (hr : t.requests = s.emptyTables.requests) : t.MidLaw none :=
  .of_vacant
    (fun l => by
      rw [show t.lock l = s.emptyTables.lock l by rw [State.lock, hl]; rfl, State.emptyTables_lock]
      exact LockRecord.emptied_vacant _)
    fun a => by
      rw [show t.request a = s.emptyTables.request a by rw [State.request, hr]; rfl]
      exact s.emptyTables_request a

/-! ### What the checks of the commands let pass -/

theorem AgentState.refusal_none {st : AgentState} (h : st.refusal = none) : st = .online := by
  cases st
  · cases h
  · rfl
  · cases h

theorem acquireMode_some {c : BitVec 2} {m : Mode} (h : acquireMode c = some m) : c = m.code ∧ m ≠ .upgrade := by
  unfold acquireMode at h
  split_ifs at h with h1 h2 <;> cases h
  · exact ⟨h1, by decide⟩
  · exact ⟨h2, by decide⟩

/-- R18, R19: ACQUIRE is refused by checks 1 to 6, or passes them and goes on to check 7 or to checks 8 to 11. -/
theorem State.acquireDecision_cases (s : State) (a : Agent) :
    (∃ o, s.acquireDecision a (acquireArgs (s.argsOf a)) = .refuse o) ∨
      ∃ l m, s.PassesAcquire a l m ∧ s.acquireDecision a (acquireArgs (s.argsOf a)) =
        if (s.lock l).grantableNow m then s.grantCheck l m (acquireArgs (s.argsOf a))
        else s.queueChecks a l m (acquireArgs (s.argsOf a)) := by
  obtain ⟨x, hx⟩ : ∃ x, x = acquireArgs (s.argsOf a) := ⟨_, rfl⟩
  rw [← hx]
  unfold State.acquireDecision
  cases hon : (s.agent a).state.refusal with
  | some c => exact Or.inl ⟨_, rfl⟩
  | none =>
    cases hl : lockOf x.lockField with
    | none => exact Or.inl ⟨_, rfl⟩
    | some l =>
      cases hm : x.mode with
      | none => exact Or.inl ⟨_, rfl⟩
      | some m =>
        cases hq : s.request a with
        | some q => exact Or.inl ⟨_, rfl⟩
        | none =>
          simp only
          by_cases h1 : (m == .shared && !(s.lock l).sharedAllowed) = true
          · rw [if_pos h1]; exact Or.inl ⟨_, rfl⟩
          rw [if_neg h1]
          by_cases h2 : ((s.lock l).leaseRequired && x.lease.isNone) = true
          · rw [if_pos h2]; exact Or.inl ⟨_, rfl⟩
          rw [if_neg h2]
          by_cases h3 : (s.lock l).holds a = true
          · rw [if_pos h3]; exact Or.inl ⟨_, rfl⟩
          rw [if_neg h3]
          refine Or.inr ⟨l, m, ?_, rfl⟩
          have hcode : acquireMode (codeField (s.argsOf a).arg0) = some m := by rw [← hm, hx]; rfl
          refine { online := AgentState.refusal_none hon, lock := ?_, asked := (acquireMode_some hcode).2
                   mode := (acquireMode_some hcode).1, idle := hq, allowed := ?_, leased := ?_
                   stranger := by simpa using h3 }
          · rw [hx] at hl; exact lockOf_eq_some hl
          · rintro rfl; simpa using h1
          · intro hreq hzero
            refine h2 ?_
            rw [hreq, hx]
            simp [acquireArgs, duration, hzero]

theorem State.grantCheck_cases (s : State) (l : LockNum) (m : Mode) (x : AcquireArgs) :
    (∃ o, s.grantCheck l m x = .refuse o) ∨ ∃ e, s.grantCheck l m x = .grant l m e := by
  unfold State.grantCheck
  split
  · split
    · exact Or.inr ⟨_, rfl⟩
    · exact Or.inl ⟨_, rfl⟩
  · exact Or.inr ⟨_, rfl⟩

theorem State.queueChecks_cases (s : State) (a : Agent) (l : LockNum) (m : Mode) (x : AcquireArgs) :
    (∃ o, s.queueChecks a l m x = .refuse o) ∨
      ∃ e, s.queueChecks a l m x = .enqueue l m e ∧ s.deadlockHolder a l = none := by
  unfold State.queueChecks
  split
  · split
    · exact Or.inl ⟨_, rfl⟩
    · next hd =>
      split
      · split
        · exact Or.inr ⟨_, rfl, hd⟩
        · exact Or.inl ⟨_, rfl⟩
      · exact Or.inr ⟨_, rfl, hd⟩
  · exact Or.inl ⟨_, rfl⟩

/-- R25: on a FREE lock every request of an ACQUIRE is grantable now. -/
theorem LockRecord.grantableNow_of_free {r : LockRecord} {m : Mode} (hm : m ≠ .upgrade) (h : r.state = .free) :
    r.grantableNow m = true := by
  cases m
  · simp [grantableNow, h]
  · simp [grantableNow, h]
  · exact absurd rfl hm

/-- What an ACQUIRE ends in: nothing done, an immediate grant that passed checks 1 to 6, or a place in the queue. -/
theorem State.acquireTaken_cases (s : State) (a : Agent) :
    (s.acquireTaken a).1 = s.settle ∨
      (∃ l m d e, s.settle.PassesAcquire a l m ∧ (s.settle.lock l).grantableNow m = true ∧
        (s.acquireTaken a).1 = s.settle.grantNow a l m d e) ∨
      ∃ l m t d e, s.settle.PassesAcquire a l m ∧ (s.settle.lock l).grantableNow m = false ∧
        s.settle.deadlockHolder a l = none ∧ (s.acquireTaken a).1 = s.settle.joinQueue a l m t d e := by
  unfold State.acquireTaken
  generalize s.settle = u
  simp only
  rcases u.acquireDecision_cases a with ⟨o, h⟩ | ⟨l, m, hp, h⟩ <;> rw [h]
  · exact Or.inl rfl
  · cases hg : (u.lock l).grantableNow m
    · rw [if_neg (by decide)]
      rcases u.queueChecks_cases a l m (acquireArgs (u.argsOf a)) with ⟨o, hq⟩ | ⟨e, hq, hd⟩ <;> rw [hq]
      · exact Or.inl rfl
      · exact Or.inr (Or.inr ⟨l, m, _, _, e, hp, hg, hd, rfl⟩)
    · rw [if_pos rfl]
      rcases u.grantCheck_cases l m (acquireArgs (u.argsOf a)) with ⟨o, hc⟩ | ⟨e, hc⟩ <;> rw [hc]
      · exact Or.inl rfl
      · exact Or.inr (Or.inl ⟨l, m, _, e, hp, hg, rfl⟩)

/-- R35, Table 2-5: the lock passed is held, and no upgrade of its holder is queued on it. -/
theorem State.releaseCheck_passed {s : State} {a : Agent} {n : Nat} {l : LockNum} (h : s.releaseCheck a n = .inr l) :
    (s.lock l).holds a = true ∧ s.upgradeQueued a l = false := by
  unfold State.releaseCheck at h
  split at h
  · cases h
  · split at h
    · cases h
    · split_ifs at h with h1 h2
      cases h
      exact ⟨by simpa using h1, by simpa using h2⟩

/-- R76, Table 4-3: the lock passed is held, not SHARED, and allows SHARED mode. -/
theorem State.downgradeCheck_passed {s : State} {a : Agent} {n : Nat} {l : LockNum}
    (h : s.downgradeCheck a n = .inr l) :
    (s.lock l).holds a = true ∧ (s.lock l).state ≠ .shared ∧ (s.lock l).sharedAllowed = true := by
  unfold State.downgradeCheck at h
  split at h
  · cases h
  · split at h
    · cases h
    · simp only at h
      split_ifs at h with h1 h2 h3
      cases h
      exact ⟨by simpa using h1, by simpa using h2, by simpa using h3⟩

/-- Checks 1 to 5 of UPGRADE pass (Table 4-1): an ONLINE agent that waits for nothing holds the lock, which is not
EXCLUSIVE. -/
structure State.PassesUpgrade (s : State) (a : Agent) (l : LockNum) : Prop where
  online : (s.agent a).state = .online
  idle : s.request a = none
  holder : (s.lock l).holds a = true
  state : (s.lock l).state ≠ .exclusive

/-- What an UPGRADE ends in: nothing done, a conversion of the sole holder, or a place in the queue. -/
theorem State.upgradeTaken_cases (s : State) (a : Agent) :
    (s.upgradeTaken a).1 = s.settle ∨
      (∃ l, s.settle.PassesUpgrade a l ∧ (s.settle.lock l).soleHolder a = true ∧
        (s.upgradeTaken a).1 = s.settle.convertNow l) ∨
      ∃ l t e, s.settle.PassesUpgrade a l ∧ s.settle.upgraderOf l = none ∧ s.settle.deadlockHolder a l = none ∧
        (s.upgradeTaken a).1 = s.settle.joinQueue a l .upgrade t none e := by
  have key : ∀ (u : State) (w : ArgWords), (∃ o, u.upgradeDecision a w = .refuse o) ∨
      (∃ l m e, u.PassesUpgrade a l ∧ (u.lock l).soleHolder a = true ∧ u.upgradeDecision a w = .grant l m e) ∨
      ∃ l e, u.PassesUpgrade a l ∧ u.upgraderOf l = none ∧ u.deadlockHolder a l = none ∧
        u.upgradeDecision a w = .enqueue l .upgrade e := by
    intro u w
    unfold State.upgradeDecision
    cases hon : (u.agent a).state.refusal with
    | some c => exact Or.inl ⟨_, rfl⟩
    | none =>
      cases hl : lockOf (numberField w.arg0) with
      | none => exact Or.inl ⟨_, rfl⟩
      | some l =>
        cases hq : u.request a with
        | some q => exact Or.inl ⟨_, rfl⟩
        | none =>
          simp only
          by_cases h1 : (!(u.lock l).holds a) = true
          · rw [if_pos h1]; exact Or.inl ⟨_, rfl⟩
          rw [if_neg h1]
          by_cases h2 : ((u.lock l).state == .exclusive) = true
          · rw [if_pos h2]; exact Or.inl ⟨_, rfl⟩
          rw [if_neg h2]
          have hp : u.PassesUpgrade a l :=
            ⟨AgentState.refusal_none hon, hq, by simpa using h1, by simpa using h2⟩
          by_cases h3 : (u.lock l).soleHolder a = true
          · rw [if_pos h3]; exact Or.inr (Or.inl ⟨l, _, _, hp, h3, rfl⟩)
          rw [if_neg h3]
          cases hu : u.upgraderOf l with
          | some b => exact Or.inl ⟨_, rfl⟩
          | none =>
            simp only
            split
            · cases hd : u.deadlockHolder a l with
              | some h => exact Or.inl ⟨_, rfl⟩
              | none =>
                simp only
                split
                · split
                  · exact Or.inr (Or.inr ⟨l, _, hp, hu, hd, rfl⟩)
                  · exact Or.inl ⟨_, rfl⟩
                · exact Or.inr (Or.inr ⟨l, _, hp, hu, hd, rfl⟩)
            · exact Or.inl ⟨_, rfl⟩
  unfold State.upgradeTaken
  generalize s.settle = u
  simp only
  rcases key u (u.argsOf a) with ⟨o, h⟩ | ⟨l, m, e, hp, hs, h⟩ | ⟨l, e, hp, hu, hd, h⟩ <;> rw [h]
  · exact Or.inl rfl
  · exact Or.inr (Or.inl ⟨l, hp, hs, rfl⟩)
  · exact Or.inr (Or.inr ⟨l, _, e, hp, hu, hd, rfl⟩)

/-- R32, Table 2-4: a TRY read that is not refused finds an ONLINE agent and a FREE lock. -/
theorem State.tryRefusal_none {s : State} {a : Agent} {l : LockNum} (h : s.tryRefusal a l = none) :
    (s.agent a).state = .online ∧ (s.lock l).state = .free := by
  unfold State.tryRefusal at h
  split at h
  · cases h
  · next hon =>
    simp only at h
    split_ifs at h with h1 h2 h3
    exact ⟨AgentState.refusal_none hon, by simpa using h3⟩

/-- R39, Table 2-6: a TRY write that is not refused finds a holder without an upgrade queued on the lock. -/
theorem State.tryWriteRefusal_none {s : State} {a : Agent} {l : LockNum} (h : s.tryWriteRefusal a l = none) :
    (s.lock l).holds a = true ∧ s.upgradeQueued a l = false := by
  unfold State.tryWriteRefusal at h
  split at h
  · cases h
  · cases h
  · split_ifs at h with h1
    simpa using h1

/-! ### The commands -/

theorem LockRecord.Law.not_free_of_holds {r : LockRecord} (h : r.Law) {a : Agent} (ha : r.holds a = true) :
    r.state ≠ .free := fun hf => absurd (ha.symm.trans (h.free hf a)) (by decide)

theorem State.MidLaw.acquireTaken {s : State} (h : s.MidLaw none) (a : Agent) : (s.acquireTaken a).1.MidLaw none := by
  rcases s.acquireTaken_cases a with e | ⟨l, m, d, e, hp, hg, heq⟩ | ⟨l, m, t, d, e, hp, hg, -, heq⟩
  · rw [e]; exact h.settle
  · rw [heq]; exact h.settle.grantNow hp.online hg hp.allowed d e
  · rw [heq]
    refine h.settle.joinQueue hp.online hp.idle (fun hf => ?_) hp.allowed (fun _ => hp.stranger)
      (fun hm => absurd hm hp.asked) t d e
    exact absurd (hg.symm.trans (LockRecord.grantableNow_of_free hp.asked hf)) (by decide)

theorem State.MidLaw.releaseTaken {s : State} (h : s.MidLaw none) (a : Agent) : (s.releaseTaken a).1.MidLaw none := by
  unfold State.releaseTaken
  simp only
  split
  · exact h.settle
  · next l hcheck =>
    obtain ⟨hholds, hup⟩ := State.releaseCheck_passed hcheck
    exact h.settle.giveUp hholds hup

theorem State.MidLaw.upgradeTaken {s : State} (h : s.MidLaw none) (a : Agent) : (s.upgradeTaken a).1.MidLaw none := by
  rcases s.upgradeTaken_cases a with e | ⟨l, hp, hs, heq⟩ | ⟨l, t, e, hp, hu, -, heq⟩
  · rw [e]; exact h.settle
  · rw [heq]; exact h.settle.convertNow hp.idle hs
  · rw [heq]
    have hfree := (h.settle.records l).not_free_of_holds hp.holder
    refine h.settle.joinQueue hp.online hp.idle hfree (fun hc => absurd hc (by decide)) (fun hc => absurd rfl hc)
      (fun _ => ⟨hp.holder, ?_, h.settle.noUpgrade_of_upgraderOf hu⟩) t none e
    cases hst : (s.settle.lock l).state
    · exact absurd hst hfree
    · exact absurd hst hp.state
    · rfl

theorem State.MidLaw.downgradeTaken {s : State} (h : s.MidLaw none) (a : Agent) :
    (s.downgradeTaken a).1.MidLaw none := by
  unfold State.downgradeTaken
  simp only
  split
  · exact h.settle
  · next l hcheck =>
    obtain ⟨hholds, hst, hallowed⟩ := State.downgradeCheck_passed hcheck
    have hexcl : (s.settle.lock l).state = .exclusive := by
      cases hs : (s.settle.lock l).state
      · exact absurd hs ((h.settle.records l).not_free_of_holds hholds)
      · rfl
      · exact absurd hs hst
    exact (h.settle.toShared hexcl hallowed).grantStep

theorem State.MidLaw.dropRequest {s : State} (h : s.MidLaw none) (a : Agent) : (s.dropRequest a).MidLaw none :=
  State.dropRequest_induct (h.dequeue a) fun q _ => ((h.dequeue a).weaken (some q.lock)).grantStep

theorem State.MidLaw.cancelTaken {s : State} (h : s.MidLaw none) (a : Agent) : (s.cancelTaken a).1.MidLaw none := by
  unfold State.cancelTaken
  simp only
  split
  · exact h.settle
  · split
    · exact h.settle
    · exact h.settle.dropRequest a

theorem State.MidLaw.renewTaken {s : State} (h : s.MidLaw none) (a : Agent) : (s.renewTaken a).1.MidLaw none := by
  unfold State.renewTaken
  simp only
  split
  · exact h.settle
  · exact h.settle.of_eq rfl rfl (fun _ => rfl) rfl rfl

/-- R51, R118, R121: an agent goes OFFLINE only when it waits for nothing and holds nothing. -/
theorem State.MidLaw.setAgentTaken {s : State} (h : s.MidLaw none) : s.setAgentTaken.1.MidLaw none := by
  unfold State.setAgentTaken
  simp only
  split
  · exact h
  · next n t hcheck =>
    obtain ⟨ht, hn, hoff⟩ := State.setAgentCheck_passed hcheck
    refine h.of_members (fun _ => rfl) (fun _ => rfl) rfl ⟨fun b => ?_, fun b => ?_, fun b => ?_⟩
    · rw [State.setAgent_agent, State.setAgent_request]
      split
      · next hb =>
        subst hb
        intro hwaits
        rw [AgentRecord.withState_state]
        cases t
        · exact absurd (hoff rfl).2.1 hwaits
        · rfl
        · exact absurd rfl ht
      · exact h.members.waiting b
    · rw [State.setAgent_agent]
      split
      · next hb =>
        subst hb
        rw [AgentRecord.withState_state]
        exact fun hst => (hoff hst).2.2
      · exact h.members.offline b
    · rw [State.setAgent_agent]
      split
      · rw [AgentRecord.withState_state]
        exact fun hst => absurd hst ht
      · exact h.members.purging b

theorem State.MidLaw.setLockTaken {s : State} (h : s.MidLaw none) : s.setLockTaken.1.MidLaw none := by
  unfold State.setLockTaken
  simp only
  split
  · exact h.settle
  · next l _ =>
    split
    · exact h.settle
    · next hfree =>
      have hst : (s.settle.lock l).state = .free := by
        by_contra hne
        exact hfree (by simp [hne])
      exact h.settle.setFreeLock hst hst rfl rfl

theorem State.MidLaw.forceReleaseTaken {s : State} (h : s.MidLaw none) : s.forceReleaseTaken.1.MidLaw none := by
  unfold State.forceReleaseTaken
  simp only
  split
  · exact h.settle
  · next l _ =>
    split
    · next hfree =>
      have hst : (s.settle.lock l).state = .free := by simpa using hfree
      exact h.settle.setFreeLock hst hst rfl rfl
    · exact h.settle.forceHeld l

/-- R136: the subject of a purge that begins waits for nothing, and the sweep has passed no lock. -/
theorem State.MidLaw.purgeBegun {s : State} (h : s.MidLaw none) (a : Agent) : (s.purgeBegun a).MidLaw none := by
  have hd := h.dequeue a
  refine hd.of_members (fun _ => rfl) (fun _ => rfl) rfl ⟨fun b => ?_, fun b => ?_, fun b _ l hl => ?_⟩
  · rw [State.purgeBegun_agent]
    split
    · next hb => subst hb; exact fun hc => absurd (s.dequeue_request_self b) hc
    · intro hc
      rw [← State.dequeue_agent s a b]
      exact hd.members.waiting b hc
  · rw [State.purgeBegun_agent]
    split
    · exact fun hc => nomatch hc
    · intro hc
      exact hd.members.offline b (by rwa [State.dequeue_agent])
  · exact absurd hl (Nat.not_lt_zero _)

theorem State.MidLaw.purgeTaken {s : State} (h : s.MidLaw none) : s.purgeTaken.1.MidLaw none := by
  unfold State.purgeTaken
  split
  · exact h
  · next a _ =>
    have hbegun := h.settle.purgeBegun a
    exact State.purgeStart_induct hbegun fun q _ => (hbegun.weaken (some q.lock)).grantStep

theorem State.MidLaw.setDividerTaken {s : State} (h : s.MidLaw none) : s.setDividerTaken.1.MidLaw none := by
  unfold State.setDividerTaken
  simp only
  split
  · exact h
  · exact h.of_eq rfl rfl (fun _ => rfl) rfl rfl

theorem State.MidLaw.taken {s : State} (h : s.MidLaw none) (c : Command) (a : Agent) : (c.taken a s).1.MidLaw none :=
  match c with
  | .nop => h
  | .acquire => h.acquireTaken a
  | .release => h.releaseTaken a
  | .upgrade => h.upgradeTaken a
  | .downgrade => h.downgradeTaken a
  | .cancel => h.cancelTaken a
  | .renew => h.renewTaken a
  | .setAgent => h.setAgentTaken
  | .setLock => h.setLockTaken
  | .forceRelease => h.forceReleaseTaken
  | .purge => h.purgeTaken
  | .setTime => h.settle.of_eq rfl rfl (fun _ => rfl) rfl rfl
  | .setDivider => h.setDividerTaken
  | .resetTables => .of_emptied (s := s) rfl rfl

/-! ### The sweep (R138, R139) -/

/-- R53, R55: the grant step makes no holder of an agent that waits for nothing. -/
theorem State.grantStep_stranger {s : State} {a : Agent} {k : LockNum} (hr : s.request a = none)
    (hk : (s.lock k).holds a = false) (l : LockNum) : ((s.grantStep l).lock k).holds a = false := by
  refine (State.grantStep_induct (P := fun t => t.request a = none ∧ (t.lock k).holds a = false) l
    ?_ ?_ ?_ ?_ ⟨hr, hk⟩).2
  · rintro t rec b ⟨htr, htk⟩
    cases hq : t.request b with
    | none => rw [State.grantWaiter_of_none hq]; exact ⟨htr, htk⟩
    | some q =>
      have hab : a ≠ b := by rintro rfl; rw [htr] at hq; cases hq
      rw [State.grantWaiter_of_some hq, State.post_request, State.post_lock, State.seatWaiter_request,
        State.seatWaiter_lock, if_neg hab]
      refine ⟨htr, ?_⟩
      split
      · next hkl =>
        subst hkl
        rw [LockRecord.withHolder_holds, beq_false_of_ne hab, Bool.or_false]
        exact htk
      · exact htk
  · rintro t b ⟨htr, htk⟩
    cases hq : t.request b with
    | none => rw [State.convert_of_none hq]; exact ⟨htr, htk⟩
    | some q =>
      have hab : a ≠ b := by rintro rfl; rw [htr] at hq; cases hq
      rw [State.convert_of_some hq, State.post_request, State.post_lock, State.seatUpgrade_request,
        State.seatUpgrade_lock, if_neg hab]
      refine ⟨htr, ?_⟩
      split
      · next hkl => subst hkl; exact htk
      · exact htk
  · rintro t ns ⟨htr, htk⟩
    exact ⟨by rw [State.countPassed_request]; simp [htr], htk⟩
  · rintro t ps ⟨htr, htk⟩
    refine ⟨by rw [State.promote_request, State.toClassZero_request]; simp [htr], ?_⟩
    rw [State.promote_lock]
    split
    · next hkl => subst hkl; exact htk
    · exact htk

/-- R138: a hold that the sweep has removed is gone. -/
theorem State.sweepHold_holds (s : State) (a : Agent) (k : LockNum) :
    ((s.sweepHold a k).lock k).holds a = false := by
  have hremoved : ((s.removeHold a k).lock k).holds a = false := by
    rw [State.removeHold_lock, if_pos rfl, LockRecord.withoutHolder_holds]
    simp
  unfold State.sweepHold
  split
  · rw [State.setRecovered_lock, if_pos rfl]
    exact hremoved
  · exact hremoved

theorem State.sweepHold_request (s : State) (a : Agent) (k : LockNum) (b : Agent) :
    (s.sweepHold a k).request b = s.request b := by
  unfold State.sweepHold
  split <;> rfl

/-- R118, R138: the sweep pointer moves past lock `k` when no PURGING agent holds it. -/
theorem State.MidLaw.setSweep {s : State} (h : s.MidLaw none) {k : LockNum}
    (hpurging : ∀ b, (s.agent b).state = .purging → (s.lock k).holds b = false) (n : Nat)
    (hk : s.purge.pointer = k.val) : (s.setSweep n (k.val + 1)).MidLaw none := by
  refine h.of_members (fun _ => rfl) (fun _ => rfl) rfl ⟨h.members.waiting, h.members.offline, fun b hb l hl => ?_⟩
  by_cases hlk : l = k
  · subst hlk; exact hpurging b hb
  · have hlt : l.val < s.purge.pointer := by
      have hne : l.val ≠ k.val := fun hv => hlk (Fin.ext hv)
      have hle : l.val < k.val + 1 := hl
      omega
    exact h.members.purging b hb l hlt

/-- R138: a visit to the lock at the sweep pointer for the subject of the sweep. -/
theorem State.MidLaw.visitLock {s : State} (h : s.MidLaw none) (hA : s.AgentLaw) {a : Agent} {k : LockNum}
    (ha : s.purge.subject = some a) (hk : s.purge.pointer = k.val) : (s.visitLock a k).MidLaw none := by
  have only : ∀ {b}, (s.agent b).state = .purging → b = a := fun hb =>
    Option.some.inj (((hA.purge.purging _).mp hb).symm.trans ha)
  have hnone : s.request a = none := by
    by_contra hc
    exact absurd ((h.members.waiting a hc).symm.trans (hA.subject_purging ha)) (by decide)
  unfold State.visitLock
  split
  · next hholds =>
    have hswept := (h.weaken (some k)).sweepHold hholds (State.upgradeQueued_of_none hnone k)
    have f := (s.sweepHold_frame a k).trans (State.grantAfterHold_frame _ k)
    have hgone : (((s.sweepHold a k).grantAfterHold k).lock k).holds a = false :=
      State.grantIf_induct (P := fun t => (t.lock k).holds a = false) (fun _ => s.sweepHold_holds a k)
        (State.grantStep_stranger (by rw [State.sweepHold_request]; exact hnone) (s.sweepHold_holds a k) k)
    refine hswept.grantAfterHold.setSweep (fun b hb => ?_) _ (by rw [f.purge]; exact hk)
    rw [f.agent_state] at hb
    rw [only hb]
    exact hgone
  · next hholds =>
    refine h.setSweep (fun b hb => ?_) _ hk
    rw [only hb]
    simpa using hholds

/-- R118, R139: the subject of a sweep that has passed every lock holds nothing. -/
theorem State.MidLaw.sweepClosed {s : State} (h : s.MidLaw none) (hA : s.AgentLaw) {a : Agent}
    (ha : s.purge.subject = some a) (hp : s.purge.pointer = 64) : (s.sweepClosed a).MidLaw none := by
  have hpurging := hA.subject_purging ha
  refine h.of_members (fun _ => rfl) (fun _ => rfl) rfl ⟨fun b => ?_, fun b => ?_, fun b => ?_⟩
  · rw [State.sweepClosed_agent]
    split
    · next hb =>
      subst hb
      exact fun hc => absurd ((h.members.waiting b hc).symm.trans hpurging) (by decide)
    · exact h.members.waiting b
  · rw [State.sweepClosed_agent]
    split
    · next hb =>
      subst hb
      exact fun _ l => h.members.purging b hpurging l (by rw [hp]; exact l.isLt)
    · exact h.members.offline b
  · rw [State.sweepClosed_agent]
    split
    · exact fun hc => nomatch hc
    · exact h.members.purging b

theorem State.MidLaw.sweepVisit {s : State} (h : s.MidLaw none) (hA : s.AgentLaw) : s.sweepVisit.MidLaw none := by
  rcases s.sweepVisit_cases with e | ⟨a, k, -, ha, hk, e⟩ <;> rw [e]
  · exact h
  · exact h.settle.visitLock hA.settle (by rwa [State.settle_purge]) (by rwa [State.settle_purge])

theorem State.MidLaw.sweepEnd {s : State} (h : s.MidLaw none) (hA : s.AgentLaw) : s.sweepEnd.MidLaw none := by
  rcases s.sweepEnd_cases with e | ⟨a, -, ha, hp, e⟩ <;> rw [e]
  · exact h
  · exact (h.sweepClosed hA ha hp).post _ _

/-! ### Every step -/

/-- R2, R7, R45, R48, R50 to R52, R58, R118: every part of the machine keeps the laws of the lock table, together with
those of the Agent Table and the Purge Engine. -/
theorem tableLaw_kept : Kept fun s => s.AgentLaw ∧ s.MidLaw none where
  port s p h := ⟨agentLaw_kept.port s p h.1, h.2.of_eq rfl rfl (fun _ => rfl) rfl rfl⟩
  pending s p h := ⟨agentLaw_kept.pending s p h.1, h.2.of_eq rfl rfl (fun _ => rfl) rfl rfl⟩
  fields s a rec ne ee ek es h := ⟨agentLaw_kept.fields s a rec ne ee ek es h.1, h.2.setAgent a rfl⟩
  notices s a p c h := ⟨agentLaw_kept.notices s a p c h.1, h.2.setAgent a rfl⟩
  snapshots s v h := ⟨agentLaw_kept.snapshots s v h.1, h.2.withDu _⟩
  taken _ c a h := ⟨h.1.taken c a, h.2.taken c a⟩
  tryGrant s a l h :=
    ⟨⟨h.1.settle, h.2.settle⟩, fun hn =>
      have ⟨hon, hfree⟩ := State.tryRefusal_none hn
      ⟨h.1.settle.grantNow .., h.2.settle.grantNow hon (LockRecord.grantableNow_of_free (by decide) hfree)
        (fun hc => absurd hc (by decide)) none none⟩⟩
  tryRelease s a l h hn :=
    have ⟨hholds, hup⟩ := State.tryWriteRefusal_none hn
    ⟨h.1.settle.giveUp a l, h.2.settle.giveUp hholds hup⟩
  powerOn s h := ⟨agentLaw_kept.powerOn s h.1, State.MidLaw.reset.of_eq rfl rfl (fun _ => rfl) rfl rfl⟩
  busReset s h := ⟨h.1.busReset, .of_emptied (s := s) rfl rfl⟩
  tick s h := ⟨agentLaw_kept.tick s h.1,
    State.tickTaken_induct (fun _ e ht => ht.expiryOf e) (fun _ f ht => ht.withDu f) h.2⟩
  expiry _ h := ⟨h.1.takeExpiry, h.2.takeExpiry⟩
  sweepVisit _ h := ⟨h.1.sweepVisit, h.2.sweepVisit h.1⟩
  sweepEnd _ h := ⟨h.1.sweepEnd, h.2.sweepEnd h.1⟩
  period s h := ⟨agentLaw_kept.period s h.1, h.2.withDu _⟩
  heldTick s h he := ⟨agentLaw_kept.heldTick s h.1 he, h.2.withDu _⟩

/-- Settles O55: the laws of the lock table hold in the middle of every event in the form `State.MidLaw`, which every
part of the machine keeps. -/
theorem stepKeepsLockTableLaws : Obligations.StepKeepsLockTableLaws := by
  unfold Obligations.StepKeepsLockTableLaws
  intro s t hA hT hO hstep
  have hmid : s.MidLaw none := s.midLaw_iff.mpr ⟨hT, hO⟩
  exact t.midLaw_iff.mp (tableLaw_kept.step ⟨hA, hmid⟩ hstep).2

end Sys2Proof.Machine
end

section
/-! The reset values (R8, R17, R84, R88, R100, R120, R133, R134, R144, R148, R155). -/

namespace Sys2Proof.Machine

theorem State.reset_agent (a : Agent) : State.reset.agent a = AgentRecord.reset a := get_ofTable _ a

theorem State.reset_argsOf (a : Agent) : State.reset.argsOf a = ⟨0, 0⟩ := get_replicate _ a

theorem State.reset_entry (e : EntryNum) : State.reset.du.entries.get e = .free := get_replicate _ e

theorem State.reset_snapshot (a : Agent) : State.reset.du.snapshots.get a = 0 := get_replicate _ a

/-- R155: no interrupt line is asserted while a reset input is. -/
theorem State.line_of_inReset {s : State} (h : s.inReset = true) (a : Agent) : s.line a = false := by
  simp [State.line, h]

theorem State.reset_line (a : Agent) : State.reset.line a = false := by
  simp [State.line, State.reset_agent, AgentRecord.wantsLine, AgentRecord.reset]

/-- Settles O4: each table of `State.reset` has the same row for every agent, lock and entry. -/
theorem resetValues : Obligations.ResetValues :=
  ⟨⟨rfl, rfl, rfl, State.reset_argsOf⟩, State.reset_lock, State.reset_request,
    ⟨rfl, rfl, rfl, State.reset_entry, rfl, rfl, State.reset_snapshot⟩, State.reset_agent, State.reset_line, rfl, rfl⟩

/-! ### The laws of an idle part -/

/-- R92: with no lease, no pending request and every entry FREE there is no owner and nothing owned. -/
theorem State.OwnershipLaw.of_unowned {s : State} (hl : ∀ l a, (s.lock l).leaseOf a = none)
    (hr : ∀ a, s.request a = none) (he : ∀ e, s.du.entries.get e = .free) : s.OwnershipLaw where
  hold l a e hc := absurd hc (by simp [hl])
  request a q hc := absurd hc (by simp [hr])
  waitOwner e a l n o hc := absurd hc (by simp [he])
  leaseOwner e a l n o hc := absurd hc (by simp [he])
  reservedOwner e a l hc := absurd hc (by simp [he])

/-- R79, R81: where no agent waits, the waits-for relation has no edge. -/
theorem State.Acyclic.of_idle {s : State} (hr : ∀ a, s.request a = none) : s.Acyclic := by
  intro a hcycle
  obtain ⟨b, ⟨q, hq, -⟩, -⟩ := Relation.TransGen.head'_iff.mp hcycle
  exact absurd hq (by simp [hr])

/-- Settles O5: the tables are vacant, no agent waits, and every deadline entry is FREE. -/
theorem resetKeepsLaws : Obligations.ResetKeepsLaws := by
  obtain ⟨htable, horder⟩ := State.reset.midLaw_iff.mp State.MidLaw.reset
  have hvacant : ∀ l, (State.reset.lock l).Vacant := fun l => by
    rw [State.reset_lock]; exact LockRecord.reset_vacant
  have hdivider : State.reset.DividerLaw := by unfold State.DividerLaw; decide
  have hpool : State.reset.PoolLaw :=
    ⟨DeadlineUnit.PoolLaw.emptied DeadlineUnit.reset, fun a q hq => absurd hq (by simp [State.reset_request])⟩
  have howners : State.reset.OwnershipLaw :=
    .of_unowned (fun l a => LockRecord.leaseOf_of_not_holds ((hvacant l).holders a)) State.reset_request
      State.reset_entry
  have hheld : State.reset.HeldLaw := fun hready => absurd hready (by decide)
  exact ⟨State.AgentLaw.reset, hdivider, hpool, htable, horder, howners, .of_idle State.reset_request, hheld⟩

/-! ### The reset inputs -/

theorem State.powerOnAsserted_inReset (s : State) : s.powerOnAsserted.inReset = true := rfl

/-- Settles O6: the power-on values are those of `State.reset` in every block but the Bus Port. -/
theorem powerOnResetValues : Obligations.PowerOnResetValues := fun s =>
  ⟨s.powerOnAsserted, rfl, rfl, rfl, State.reset_argsOf, rfl, rfl,
    ⟨rfl, rfl, rfl, State.reset_entry, rfl, rfl, State.reset_snapshot⟩, rfl, rfl,
    State.line_of_inReset s.powerOnAsserted_inReset, rfl⟩

theorem AgentState.afterReset_eq (st : AgentState) : st.afterReset = if st = .purging then .offline else st := by
  cases st <;> rfl

/-- R133, Table 7-6: an agent record at bus reset, field by field. -/
theorem AgentRecord.busReset_eq (r : AgentRecord) : r.busReset =
    { state := if r.state = .purging then .offline else r.state, cls := r.cls, record := ⟨0, .done, 0, false⟩
      notices := [], overrun := false, noticeEnable := false, errorEnable := false, errorKind := .none
      errorSeen := false } := by
  rw [← AgentState.afterReset_eq]
  rfl

theorem State.busResetAsserted_inReset (s : State) : s.busResetAsserted.inReset = true := Bool.or_true _

/-- Settles O7: while the power-on reset input is asserted the bus reset input alone changes; otherwise each block takes
its bus reset values. -/
theorem busResetValues : Obligations.BusResetValues := by
  refine fun s => ⟨fun hp => ?_, fun hp => ⟨s.busResetAsserted, ?_, rfl, hp, fun a => get_replicate _ a,
    s.emptyTables_lock, s.emptyTables_request, rfl, fun a => ?_, rfl,
    State.line_of_inReset s.busResetAsserted_inReset, rfl⟩⟩
  · simp only [exec, execBusReset, hp, if_true]
  · simp only [exec, execBusReset, hp, Bool.false_eq_true, if_false]
  · rw [State.busResetAsserted_agent, AgentRecord.busReset_eq]

end Sys2Proof.Machine
end

section
/-! The read words of the window: plain reads (R13, R15, R87, R126, R129, R130, R132, R148, R158), and the layouts of
LOCK VIEW, AGENT VIEW and HELD MAP (Tables 1-7, 10-10, 10-11, 10-12). -/

namespace Sys2Proof.Machine

/-! ### Plain reads -/

/-- R146, R147: a read that is taken and answers a word of the state changes nothing but the answer. -/
theorem State.readAccess_word {s : State} (h : s.ready = true) (word : State → Word) :
    s.readAccess (fun t => t.answerRead .ok (word t)) = s.respond (.read .ok (word s) (evenParity (word s))) :=
  State.readAccess_taken h _

theorem State.inReset_of_ready {s : State} (h : s.ready = true) : s.inReset = false := by
  unfold State.ready at h
  simpa using (Bool.and_eq_true_iff.mp h).1

/-- Settles O16: each word that can be read is one row of the window map, and its read answers that word. -/
theorem plainReads : Obligations.PlainReads := by
  intro a off s hready
  have reads : ∀ word : State → Word,
      Host.Outcome.next (ρ := Refusal) (φ := Fault) (s.readAccess fun t => t.answerRead .ok (word t)) =
        .next (s.respond (.read .ok (word s) (evenParity (word s)))) :=
    fun word => congrArg Host.Outcome.next (State.readAccess_word hready word)
  have hexec : exec (.refusedRead a off) s = execRefusedRead a off s := rfl
  simp only [hexec, execRefusedRead]
  cases windowWord off
  case lockView l => exact reads (·.lockView l)
  case agentView n => exact reads (·.agentView n)
  case heldMapLow n => exact reads (·.heldMap n 0)
  case heldMapHigh n => exact reads (·.heldMap n 32)
  case timeHigh => exact reads (·.timeHigh a)
  case arg0 => exact reads fun t => (t.argsOf a).arg0
  case arg1 => exact reads fun t => (t.argsOf a).arg1
  case result => exact reads fun t => (t.agent a).record.word
  case noticeHead => exact reads fun t => (t.agent a).noticeHead
  case noticeTime => exact reads fun t => (t.agent a).noticeTime
  case errorStatus => exact reads fun t => (t.agent a).errorStatus
  case interruptEnable => exact reads fun t => (t.agent a).interruptEnable
  case identification k => simp only [State.inReset_of_ready hready, Bool.false_eq_true, if_false]; rfl
  all_goals trivial

/-! ### Layouts -/

@[simp] theorem flagBit_getLsbD (b : Bool) : (flagBit b).getLsbD 0 = b := by cases b <;> rfl

/-- Table 10-10: the holder map holds agent m in bit m. -/
theorem LockRecord.holderMap_getLsbD (r : LockRecord) (m : Agent) : r.holderMap.getLsbD m.val = r.holds m := by
  unfold LockRecord.holderMap
  fin_cases m <;>
    simp only [BitVec.getLsbD_append, Nat.reduceLT, Nat.reduceSub, if_true, if_false, flagBit_getLsbD] <;> rfl

/-- R13, R160: with an empty queue the head agent reads 0 and the head mode EXCLUSIVE. -/
theorem State.headFields_nil {s : State} {l : LockNum} (h : (s.lock l).queue = []) :
    s.headFields l = (false, 0, 1) := by
  simp only [State.headFields, h]
  rfl

/-- R13: the head of a queue, its request present. -/
theorem State.headFields_cons {s : State} {l : LockNum} {a : Agent} {rest : List Agent} {q : PendingRequest}
    (h : (s.lock l).queue = a :: rest) (hq : s.request a = some q) :
    s.headFields l = (true, agentBits a, q.mode.code) := by
  simp only [State.headFields, h, hq]
  rfl

theorem State.headFields_present (s : State) (l : LockNum) :
    (s.headFields l).1 = !(s.lock l).queue.isEmpty := by
  unfold State.headFields
  cases (s.lock l).queue <;> rfl

/-- Table 10-10, R13: the fields of LOCK VIEW. -/
theorem State.lockView_fields (s : State) (l : LockNum) :
    let v := s.lockView l; let r := s.lock l; let h := s.headFields l
    v.extractLsb' 0 2 = r.state.code ∧ v.getLsbD 2 = r.recovered ∧ v.getLsbD 3 = h.1 ∧
      v.extractLsb' 4 4 = BitVec.ofNat 4 r.queue.length ∧ v.extractLsb' 8 8 = r.holderMap ∧
      v.extractLsb' 16 3 = h.2.1 ∧ v.extractLsb' 20 2 = h.2.2 ∧ v.getLsbD 24 = r.sharedAllowed ∧
      v.getLsbD 25 = r.leaseRequired ∧ v.getLsbD 26 = r.report ∧ v.extractLsb' 28 4 = r.bypassLimit ∧
      v.getLsbD 19 = false ∧ v.extractLsb' 22 2 = 0 ∧ v.getLsbD 27 = false := by
  intro v r h
  refine ⟨?_, ?_, ?_, ?_, ?_, ?_, ?_, ?_, ?_, ?_, ?_, ?_, ?_, ?_⟩ <;> simp only [v, State.lockView]
  all_goals
    simp (disch := decide) only [BitVec.extractLsb'_append_eq_of_le, BitVec.extractLsb'_append_eq_of_add_le,
      BitVec.extractLsb'_eq_self, BitVec.getLsbD_append, Nat.reduceSub, Nat.reduceLT, if_true, if_false,
      flagBit_getLsbD]
  all_goals rfl

/-- Tables 10-11 and 10-12: the fields of AGENT VIEW; the pending-request fields are those of `agentViewLow` and the
seven bits above it. -/
theorem State.agentView_fields (s : State) (n : Agent) :
    let v := s.agentView n; let r := s.agent n
    (v.extractLsb' 30 2 = r.state.code ∧ v.extractLsb' 28 2 = r.cls ∧
      v.extractLsb' 24 4 = BitVec.ofNat 4 r.notices.length ∧ v.getLsbD 23 = s.line n ∧
      v.extractLsb' 16 7 = BitVec.ofNat 7 (s.holdCount n) ∧ v.getLsbD 15 = r.overrun) ∧
    v.getLsbD 14 = (s.request n).isSome ∧
    v.extractLsb' 8 6 = ((s.request n).map fun q => lockBits q.lock).getD 0 ∧
    v.extractLsb' 0 8 = s.agentViewLow n := by
  intro v r
  have hv : v = r.state.code ++ r.cls ++ BitVec.ofNat 4 r.notices.length ++ flagBit (s.line n) ++
      BitVec.ofNat 7 (s.holdCount n) ++ flagBit r.overrun ++ flagBit (s.request n).isSome ++
      ((s.request n).map fun q => lockBits q.lock).getD 0 ++ s.agentViewLow n := by
    simp only [v, State.agentView]
    cases s.request n <;> rfl
  rw [hv]
  refine ⟨⟨?_, ?_, ?_, ?_, ?_, ?_⟩, ?_, ?_, ?_⟩ <;>
    simp (disch := decide) only [BitVec.extractLsb'_append_eq_of_le, BitVec.extractLsb'_append_eq_of_add_le,
      BitVec.extractLsb'_eq_self, BitVec.getLsbD_append, Nat.reduceSub, Nat.reduceLT, if_true, if_false,
      flagBit_getLsbD]

/-- Table 10-12: the low byte of AGENT VIEW while a request is pending. -/
theorem State.agentViewLow_some {s : State} {n : Agent} {q : PendingRequest} (h : s.request n = some q) :
    s.agentViewLow n = BitVec.ofNat 4 q.bypass ++ q.effClass ++ q.mode.code := by
  simp only [State.agentViewLow, h]

/-- Table 10-12: the low byte of AGENT VIEW with no request pending. -/
theorem State.agentViewLow_none {s : State} {n : Agent} (h : s.request n = none) :
    s.agentViewLow n =
      if (s.agent n).state = .purging then (BitVec.ofNat 7 s.purge.pointer).zeroExtend 8 else 0 := by
  simp only [State.agentViewLow, h]
  cases (s.agent n).state
  · rfl
  · rfl
  · rw [if_pos rfl]
    apply BitVec.eq_of_toNat_eq
    have hlt : (BitVec.ofNat 7 s.purge.pointer).toNat < 2 ^ 8 :=
      (BitVec.ofNat 7 s.purge.pointer).isLt.trans (by decide)
    rw [BitVec.toNat_append, BitVec.toNat_setWidth, Nat.mod_eq_of_lt hlt]
    exact (congrArg (· ||| _) (Nat.zero_shiftLeft 7)).trans (Nat.zero_or _)

/-- A field of a field. -/
theorem extractLsb'_field {v : Word} {lo w : Nat} {x : BitVec w} (h : v.extractLsb' lo w = x) (i n : Nat)
    (hn : i + n ≤ w) : v.extractLsb' (lo + i) n = x.extractLsb' i n := by
  rw [← h]
  apply BitVec.eq_of_getLsbD_eq
  intro k hk
  simp only [BitVec.getLsbD_extractLsb', hk, decide_true, Bool.true_and, Nat.add_assoc,
    decide_eq_true (show i + k < w by omega)]

/-- A bit of a field. -/
theorem getLsbD_field {v : Word} {lo w : Nat} {x : BitVec w} (h : v.extractLsb' lo w = x) {i : Nat} (hi : i < w) :
    v.getLsbD (lo + i) = x.getLsbD i := by
  rw [← h, BitVec.getLsbD_extractLsb', decide_eq_true hi, Bool.true_and]

/-- Table 1-7: bit k of HELD MAP is the flag of lock `base + k`. -/
theorem State.heldMap_getLsbD (s : State) (a : Agent) (base : Nat) (k : Fin 32) :
    (s.heldMap a base).getLsbD k.val = (s.lock (Fin.ofNat 64 (base + k.val))).holds a := by
  unfold State.heldMap
  rw [BitVec.getLsbD_setWidth, BitVec.getLsbD_ofBoolListLE]
  simp [List.getD]

/-- Settles O17: the fields of each word are those its definition joins, from bit 31 down. -/
theorem viewLayouts : Obligations.ViewLayouts := by
  refine fun s => ⟨fun l => ?_, fun n => ⟨?_, fun q hq => ?_, fun hq => ?_, fun k => ⟨?_, ?_⟩⟩⟩
  · obtain ⟨hstate, hrecovered, hpresent, hlength, hmap, hagent, hmode, hshared, hlease, hreport, hlimit, hunused⟩ :=
      s.lockView_fields l
    refine ⟨hstate, hrecovered, by rw [hpresent, State.headFields_present], hlength, fun m => ?_, fun hnil => ?_,
      fun a rest q hcons hq => ?_, hshared, hlease, hreport, hlimit, hunused⟩
    · rw [getLsbD_field hmap m.isLt, LockRecord.holderMap_getLsbD]
    · rw [hagent, hmode, State.headFields_nil hnil]
      exact ⟨rfl, rfl⟩
    · rw [hagent, hmode, State.headFields_cons hcons hq]
      exact ⟨rfl, rfl⟩
  · exact (s.agentView_fields n).1
  · obtain ⟨-, hpending, hlock, hlow⟩ := s.agentView_fields n
    rw [State.agentViewLow_some hq] at hlow
    rw [hq] at hpending hlock
    have hlow' := fun i w hw => extractLsb'_field hlow i w hw
    simp only [Nat.zero_add] at hlow'
    refine ⟨hpending, hlock, ?_, ?_, ?_⟩
    · rw [hlow' 0 2 (by decide)]
      simp (disch := decide) only [BitVec.extractLsb'_append_eq_of_add_le, BitVec.extractLsb'_eq_self]
    · rw [hlow' 2 2 (by decide)]
      simp (disch := decide) only [BitVec.extractLsb'_append_eq_of_le, BitVec.extractLsb'_append_eq_of_add_le,
        BitVec.extractLsb'_eq_self, Nat.reduceSub]
    · rw [hlow' 4 4 (by decide)]
      simp (disch := decide) only [BitVec.extractLsb'_append_eq_of_le, BitVec.extractLsb'_eq_self, Nat.reduceSub]
  · obtain ⟨-, hpending, hlock, hlow⟩ := s.agentView_fields n
    rw [hq] at hpending hlock
    refine ⟨BitVec.eq_of_getLsbD_eq fun i hi => ?_, by rw [hlow, State.agentViewLow_none hq]⟩
    rw [BitVec.getLsbD_extractLsb', decide_eq_true hi, Bool.true_and]
    by_cases h6 : i < 6
    · rw [getLsbD_field hlock h6]
      simp
    · obtain rfl : i = 6 := by omega
      exact hpending
  · rw [State.heldMap_getLsbD]
    congr 2
    exact Fin.ext (by simp; omega)
  · rw [State.heldMap_getLsbD]
    congr 2
    exact Fin.ext (by simp; omega)

/-! ### SET LOCK -/

/-- R11: SET LOCK with a lock number above 63. -/
theorem State.setLockTaken_badLock {s : State} (h : 63 < s.settle.lockArg 0) :
    s.setLockTaken = (s.settle, ⟨.badArgument, 1⟩) := by
  have hnone : lockOf (s.settle.lockArg 0) = none := dif_neg (by omega)
  unfold State.setLockTaken
  simp only
  rw [show lockOf (numberField (s.settle.argsOf Config.supervisor).arg0) = none from hnone]
  rfl

/-- R11: SET LOCK of lock `l`. -/
theorem State.setLockTaken_lock {s : State} {l : LockNum} (h : s.settle.lockArg 0 = l.val) :
    s.setLockTaken =
      if (s.settle.lock l).state ≠ .free ∨ (s.settle.lock l).queue ≠ [] then
        (s.settle, ⟨.lockBusy, stateDetail (s.settle.lock l).state⟩)
      else (s.settle.setLock l ((s.settle.lock l).withFields (s.settle.argsOf 0).arg1), ⟨.done, 0⟩) := by
  have hsome : lockOf (s.settle.lockArg 0) = some l := by rw [h]; exact dif_pos l.isLt
  unfold State.setLockTaken
  simp only
  rw [show lockOf (numberField (s.settle.argsOf Config.supervisor).arg0) = some l from hsome]
  simp only [Bool.or_eq_true, bne_iff_ne, Bool.not_eq_true', List.isEmpty_eq_false_iff]
  rfl

/-- Settles O34: from another agent the port refuses the write; from agent 0 its outcome is that of `setLockTaken`. -/
theorem setLockOutcomes : Obligations.SetLockOutcomes := by
  intro a w s hready hparity hfresh
  refine ⟨fun ha => ?_, ?_⟩
  · exact congrArg Host.Outcome.next (State.commandWrite_notSupervisor hready hparity hfresh rfl ha _)
  · rintro rfl
    have htakes : s.Takes .setLock 0 w := ⟨hready, hparity, hfresh, fun _ => rfl⟩
    have hexec : exec (.setLock 0 w) s = .next (s.setLockTaken.1.answers 0 w s.setLockTaken.2) :=
      exec_row_taken htakes
    refine ⟨fun hbad => ?_, fun l hl => ⟨fun hbusy => ?_, fun hfree hempty => ?_⟩⟩
    · rw [hexec, State.setLockTaken_badLock hbad]
    · rw [hexec, State.setLockTaken_lock hl, if_pos hbusy]
    · rw [hexec, State.setLockTaken_lock hl, if_neg (by simp [hfree, hempty])]
      rfl

end Sys2Proof.Machine
end

section
/-! What each kind of register is left alone by (R8, R46, R85, R88, R116, R120, R129, R130). -/

namespace Sys2Proof.Machine

/-! ### The four values that SET LOCK sets (R8) -/

/-- R8: shared_allowed, lease_required, bypass_limit and report of every lock are the same. -/
def State.AttributesKept (s t : State) : Prop := ∀ l, (s.lock l).SameAttributes (t.lock l)

namespace State.AttributesKept

theorem refl (s : State) : s.AttributesKept s := fun _ => ⟨rfl, rfl, rfl, rfl⟩

theorem trans {s t u : State} (h : s.AttributesKept t) (g : t.AttributesKept u) : s.AttributesKept u := fun l => by
  obtain ⟨h1, h2, h3, h4⟩ := h l
  obtain ⟨g1, g2, g3, g4⟩ := g l
  exact ⟨g1.trans h1, g2.trans h2, g3.trans h3, g4.trans h4⟩

theorem of_locks {s t : State} (h : ∀ l, t.lock l = s.lock l) : s.AttributesKept t := fun l => by
  rw [h]; exact ⟨rfl, rfl, rfl, rfl⟩

/-- A change of one lock record that keeps the four values. -/
theorem of_one {s t : State} {l : LockNum} (h : (s.lock l).SameAttributes (t.lock l))
    (ne : ∀ k, k ≠ l → t.lock k = s.lock k) : s.AttributesKept t := fun k => by
  by_cases hk : k = l
  · subst hk; exact h
  · rw [ne k hk]; exact ⟨rfl, rfl, rfl, rfl⟩

theorem setLock (s : State) (l : LockNum) {r : LockRecord} (h : (s.lock l).SameAttributes r) :
    s.AttributesKept (s.setLock l r) :=
  of_one (by rw [State.setLock_lock_self]; exact h) fun _ hk => State.setLock_lock_ne _ hk _

theorem post (s : State) (a : Agent) (n : Notice) : s.AttributesKept (s.post a n) := of_locks fun l => s.post_lock a n l

theorem dequeue (s : State) (a : Agent) : s.AttributesKept (s.dequeue a) := fun l => by
  rw [State.dequeue_lock]; exact ⟨rfl, rfl, rfl, rfl⟩

theorem removeHold (s : State) (a : Agent) (l : LockNum) : s.AttributesKept (s.removeHold a l) :=
  of_one (l := l) (by rw [State.removeHold_lock, if_pos rfl]; exact ⟨rfl, rfl, rfl, rfl⟩) fun k hk => by
    rw [State.removeHold_lock, if_neg hk]

theorem setRecovered (s : State) (l : LockNum) : s.AttributesKept (s.setRecovered l) := setLock s l ⟨rfl, rfl, rfl, rfl⟩

theorem grantWaiter (s : State) (l : LockNum) (rec : Bool) (a : Agent) : s.AttributesKept (s.grantWaiter l rec a) := by
  refine of_one (l := l) ?_ (s.grantWaiter_onlyLock l rec a)
  cases hq : s.request a with
  | none => rw [State.grantWaiter_of_none hq]; exact ⟨rfl, rfl, rfl, rfl⟩
  | some q =>
    rw [State.grantWaiter_of_some hq, State.post_lock, State.seatWaiter_lock, if_pos rfl]
    exact ⟨rfl, rfl, rfl, rfl⟩

theorem convert (s : State) (l : LockNum) (a : Agent) : s.AttributesKept (s.convert l a) := by
  refine of_one (l := l) ?_ (s.convert_onlyLock l a)
  cases hq : s.request a with
  | none => rw [State.convert_of_none hq]; exact ⟨rfl, rfl, rfl, rfl⟩
  | some q =>
    rw [State.convert_of_some hq, State.post_lock, State.seatUpgrade_lock, if_pos rfl]
    exact ⟨rfl, rfl, rfl, rfl⟩

theorem promote (s : State) (l : LockNum) (ps : List Agent) : s.AttributesKept (s.promote l ps) :=
  of_one (l := l) (by rw [State.promote_lock, if_pos rfl]; exact ⟨rfl, rfl, rfl, rfl⟩) (s.promote_onlyLock l ps)

/-- R53: the grant step changes none of the four values. -/
theorem grantStep (s : State) (l : LockNum) : s.AttributesKept (s.grantStep l) :=
  State.grantStep_induct (P := fun t => s.AttributesKept t) l (fun t rec a h => h.trans (grantWaiter t l rec a))
    (fun t a h => h.trans (convert t l a)) (fun _ _ h => h) (fun t ps h => h.trans (promote t l ps)) (refl s)

theorem grantIf (s : State) (b : Bool) (l : LockNum) : s.AttributesKept (s.grantIf b l) :=
  State.grantIf_induct (P := fun t => s.AttributesKept t) (fun _ => refl s) (grantStep s l)

theorem revokeHold (s : State) (a : Agent) (l : LockNum) : s.AttributesKept (s.revokeHold a l) := by
  have hremoved := removeHold s a l
  unfold State.revokeHold
  simp only
  split <;> split
  · exact (hremoved.trans (dequeue _ a)).trans (setRecovered _ l)
  · exact hremoved.trans (setRecovered _ l)
  · exact hremoved.trans (dequeue _ a)
  · exact hremoved

/-- R98: an expiry changes none of the four values. -/
theorem expiryOf (s : State) (e : EntryNum) : s.AttributesKept (s.expiryOf e) := by
  unfold State.expiryOf
  split
  · unfold State.waitExpired
    simp only
    split
    · exact refl s
    · exact ((dequeue (s.withDu (·.free e)) _).trans (post _ _ _)).trans (grantIf _ _ _)
  · unfold State.leaseExpired
    simp only
    split
    · exact (State.revokeReported_induct (P := fun t => s.AttributesKept t) (revokeHold (s.withDu (·.free e)) _ _)
        fun t b n h => h.trans (post t b n)).trans (grantIf _ _ _)
    · exact refl s
  · exact refl s
  · exact refl s

theorem settle (s : State) : s.AttributesKept s.settle :=
  State.settle_induct (P := fun t => s.AttributesKept t) (fun t e h => h.trans (expiryOf t e)) (fun _ h => h) (refl s)

theorem toFree (s : State) (l : LockNum) (b : Bool) : s.AttributesKept (s.toFree l b) := by
  have hfree : s.AttributesKept (s.setLock l { s.lock l with state := .free }) := setLock s l ⟨rfl, rfl, rfl, rfl⟩
  unfold State.toFree
  simp only
  split
  · exact hfree.trans (setRecovered _ l)
  · exact hfree

theorem stripLock (s : State) (l : LockNum) : s.AttributesKept (s.stripLock l) := by
  have hremoved : s.AttributesKept (s.removeHolds l) :=
    State.removeHolds_induct (P := fun t => s.AttributesKept t) (fun t a h => h.trans (removeHold t a l)) (refl s)
  have hdropped : s.AttributesKept ((s.removeHolds l).dropUpgrade l) := hremoved.trans fun k => by
    rw [State.dropUpgrade_lock]; exact ⟨rfl, rfl, rfl, rfl⟩
  exact hdropped.trans (toFree _ l _)

theorem postAll (s : State) (bs : List Agent) (n : Agent → Notice) :
    s.AttributesKept (bs.foldl (fun t a => t.post a (n a)) s) := by
  induction bs generalizing s with
  | nil => exact refl s
  | cons b bs ih => exact (post s b (n b)).trans (ih _)

theorem forceHeld (s : State) (l : LockNum) : s.AttributesKept (s.forceHeld l) :=
  ((stripLock s l).trans (postAll _ _ _)).trans (grantStep _ l)

theorem giveUp (s : State) (a : Agent) (l : LockNum) : s.AttributesKept (s.giveUp a l) :=
  (removeHold s a l).trans (grantIf _ _ l)

theorem dropRequest (s : State) (a : Agent) : s.AttributesKept (s.dropRequest a) :=
  State.dropRequest_induct (P := fun t => s.AttributesKept t) (dequeue s a)
    fun q _ => (dequeue s a).trans (grantStep _ q.lock)

theorem grantNow (s : State) (a : Agent) (l : LockNum) (m : Mode) (d : Option Nat) (e : Option EntryNum) :
    s.AttributesKept (s.grantNow a l m d e) :=
  of_one (l := l) (by rw [State.grantNow_lock, if_pos rfl]; exact ⟨rfl, rfl, rfl, rfl⟩) fun k hk => by
    rw [State.grantNow_lock, if_neg hk]

theorem joinQueue (s : State) (a : Agent) (l : LockNum) (m : Mode) (t d : Option Nat) (e : Option EntryNum) :
    s.AttributesKept (s.joinQueue a l m t d e) :=
  of_one (l := l) (by rw [State.joinQueue_lock, if_pos rfl]; exact ⟨rfl, rfl, rfl, rfl⟩) fun k hk => by
    rw [State.joinQueue_lock, if_neg hk]

theorem sweepHold (s : State) (a : Agent) (k : LockNum) : s.AttributesKept (s.sweepHold a k) := by
  unfold State.sweepHold
  split
  · exact (removeHold s a k).trans (setRecovered _ k)
  · exact removeHold s a k

end State.AttributesKept

/-- R30, R73: the entry of a request that queues leaves the clock side of the Deadline Unit. -/
theorem DeadlineUnit.atQueue_clockKept (d : DeadlineUnit) (e : Option EntryNum) (timeout : Option Nat) (a : Agent)
    (l : LockNum) : d.ClockKept (d.atQueue e timeout a l) := by
  unfold DeadlineUnit.atQueue
  split
  · exact d.arm_clockKept ..
  · exact ⟨rfl, rfl, rfl, rfl, rfl, rfl⟩
  · exact .refl d

/-! ### Registers, and which of them a command may change -/

/-- Which registers may change: the four values of lock records, the classes, the agent states, each agent's enables and
snapshot, the tick divider, each agent's command record and error status. -/
structure Touches where
  attributes : Prop
  classes : Prop
  states : Prop
  enables : Agent → Prop
  snapshot : Agent → Prop
  divider : Prop
  record : Agent → Prop
  errors : Agent → Prop

/-- The registers not among `x` are the same in both states, and so are the commands that wait. -/
structure State.RegistersKept (x : Touches) (s t : State) : Prop where
  attributes : ¬ x.attributes → s.AttributesKept t
  classes : ¬ x.classes → ∀ b, (t.agent b).cls = (s.agent b).cls
  states : ¬ x.states → ∀ b, (t.agent b).state = (s.agent b).state
  enables : ∀ b, ¬ x.enables b →
    (t.agent b).noticeEnable = (s.agent b).noticeEnable ∧ (t.agent b).errorEnable = (s.agent b).errorEnable
  snapshot : ∀ b, ¬ x.snapshot b → t.du.snapshots.get b = s.du.snapshots.get b
  divider : ¬ x.divider → t.du.divider = s.du.divider
  record : ∀ b, ¬ x.record b → (t.agent b).record = (s.agent b).record
  errors : ∀ b, ¬ x.errors b →
    (t.agent b).errorKind = (s.agent b).errorKind ∧ (t.agent b).errorSeen = (s.agent b).errorSeen
  pending : t.pending = s.pending

namespace State.RegistersKept

variable {x : Touches} {s t u : State}

theorem trans (h : s.RegistersKept x t) (g : t.RegistersKept x u) : s.RegistersKept x u where
  attributes hx := (h.attributes hx).trans (g.attributes hx)
  classes hx b := (g.classes hx b).trans (h.classes hx b)
  states hx b := (g.states hx b).trans (h.states hx b)
  enables b hx := ⟨(g.enables b hx).1.trans (h.enables b hx).1, (g.enables b hx).2.trans (h.enables b hx).2⟩
  snapshot b hx := (g.snapshot b hx).trans (h.snapshot b hx)
  divider hx := (g.divider hx).trans (h.divider hx)
  record b hx := (g.record b hx).trans (h.record b hx)
  errors b hx := ⟨(g.errors b hx).1.trans (h.errors b hx).1, (g.errors b hx).2.trans (h.errors b hx).2⟩
  pending := g.pending.trans h.pending

/-- An event that changes of the agent records the notice queues and overrun flags alone. -/
theorem of_kept (ha : s.AttributesKept t)
    (hr : ∀ b, t.agent b = { s.agent b with notices := (t.agent b).notices, overrun := (t.agent b).overrun })
    (hs : t.du.snapshots = s.du.snapshots) (hd : t.du.divider = s.du.divider) (hp : t.pending = s.pending) :
    s.RegistersKept x t where
  attributes _ := ha
  classes _ b := by rw [hr]
  states _ b := by rw [hr]
  enables b _ := by rw [hr]; exact ⟨rfl, rfl⟩
  snapshot b _ := by rw [hs]
  divider _ := hd
  record b _ := by rw [hr]
  errors b _ := by rw [hr]; exact ⟨rfl, rfl⟩
  pending := hp

theorem refl (s : State) : s.RegistersKept x s := of_kept (.refl s) (fun _ => rfl) rfl rfl rfl

theorem of_settle (f : s.SettleFrame t) (ha : s.AttributesKept t) : s.RegistersKept x t :=
  of_kept ha f.agents f.snapshots f.divider f.pending

theorem of_engine (f : s.EngineFrame t) (ha : s.AttributesKept t) : s.RegistersKept x t :=
  of_settle ((SettleFrame.refl s).engine f) ha

theorem port (s : State) (p : BusPort) : s.RegistersKept x { s with port := p } :=
  of_kept (.refl s) (fun _ => rfl) rfl rfl rfl

theorem respond (s : State) (b : BusResponse) : s.RegistersKept x (s.respond b) := port s _

theorem settle (s : State) : s.RegistersKept x s.settle := of_settle s.settle_frame (.settle s)

theorem catchUp (s : State) : s.RegistersKept x s.catchUp := by
  obtain ⟨f, hl, -, -⟩ := s.catchUp_frame
  exact of_settle f (.of_locks fun l => by rw [State.lock, hl]; rfl)

theorem takeExpiry (s : State) : s.RegistersKept x s.takeExpiry :=
  State.takeExpiry_induct (P := fun t => s.RegistersKept x t)
    (fun t e h => h.trans (of_engine (t.expiryOf_frame e) (.expiryOf t e))) (refl s)

theorem drain (s : State) : s.RegistersKept x s.drain :=
  State.drain_induct (P := fun t => s.RegistersKept x t)
    (fun t e h => h.trans (of_engine (t.expiryOf_frame e) (.expiryOf t e))) (refl s)

theorem grantStep (s : State) (l : LockNum) : s.RegistersKept x (s.grantStep l) :=
  of_engine (s.grantStep_frame l) (.grantStep s l)

theorem giveUp (s : State) (a : Agent) (l : LockNum) : s.RegistersKept x (s.giveUp a l) :=
  of_engine ((s.removeHold_frame a l).trans (State.grantAfterHold_frame _ l)) (.giveUp s a l)

theorem grantNow (s : State) (a : Agent) (l : LockNum) (m : Mode) (d : Option Nat) (e : Option EntryNum) :
    s.RegistersKept x (s.grantNow a l m d e) := of_engine (s.grantNow_frame ..) (.grantNow s a l m d e)

theorem setLock (s : State) (l : LockNum) {r : LockRecord} (h : (s.lock l).SameAttributes r) :
    s.RegistersKept x (s.setLock l r) := of_engine (s.setLock_frame l r) (.setLock s l h)

theorem toShared (s : State) (l : LockNum) : s.RegistersKept x (s.toShared l) := setLock s l ⟨rfl, rfl, rfl, rfl⟩

theorem forceHeld (s : State) (l : LockNum) : s.RegistersKept x (s.forceHeld l) :=
  of_engine (((s.stripLock_frame l).trans (State.postAll_frame ..)).trans (State.grantStep_frame _ l)) (.forceHeld s l)

theorem joinQueue (s : State) (a : Agent) (l : LockNum) (m : Mode) (t d : Option Nat) (e : Option EntryNum) :
    s.RegistersKept x (s.joinQueue a l m t d e) := by
  obtain ⟨-, hdivider, -, -, -, hsnapshots⟩ := DeadlineUnit.atQueue_clockKept s.du e t a l
  exact of_kept (.joinQueue s a l m t d e) (fun _ => rfl) hsnapshots hdivider rfl

/-- One agent record changed, in registers that may change. -/
theorem setAgent (s : State) {a : Agent} {r : AgentRecord} (hc : x.classes ∨ r.cls = (s.agent a).cls)
    (hs : x.states ∨ r.state = (s.agent a).state)
    (he : x.enables a ∨ (r.noticeEnable = (s.agent a).noticeEnable ∧ r.errorEnable = (s.agent a).errorEnable))
    (hr : x.record a ∨ r.record = (s.agent a).record)
    (hk : x.errors a ∨ (r.errorKind = (s.agent a).errorKind ∧ r.errorSeen = (s.agent a).errorSeen)) :
    s.RegistersKept x (s.setAgent a r) := by
  have self : ∀ {p : AgentRecord → AgentRecord → Prop} {b : Agent}, (b = a → p r (s.agent b)) →
      p (s.agent b) (s.agent b) → p ((s.setAgent a r).agent b) (s.agent b) := fun {p b} ha hb => by
    rw [State.setAgent_agent]
    split
    · next h => exact ha h
    · exact hb
  refine ⟨fun _ => .refl s, fun hx b => ?_, fun hx b => ?_, fun b hx => ?_, fun _ _ => rfl, fun _ => rfl,
    fun b hx => ?_, fun b hx => ?_, rfl⟩
  · exact self (p := fun q q' => q.cls = q'.cls) (by rintro rfl; exact hc.resolve_left hx) rfl
  · exact self (p := fun q q' => q.state = q'.state) (by rintro rfl; exact hs.resolve_left hx) rfl
  · exact self (p := fun q q' => q.noticeEnable = q'.noticeEnable ∧ q.errorEnable = q'.errorEnable)
      (by rintro rfl; exact he.resolve_left hx) ⟨rfl, rfl⟩
  · exact self (p := fun q q' => q.record = q'.record) (by rintro rfl; exact hr.resolve_left hx) rfl
  · exact self (p := fun q q' => q.errorKind = q'.errorKind ∧ q.errorSeen = q'.errorSeen)
      (by rintro rfl; exact hk.resolve_left hx) ⟨rfl, rfl⟩

/-- A subject's record at purge start and at the sweep end, with the Purge Engine (R136, R139). -/
theorem overlay (s : State) {a : Agent} {r : AgentRecord} (hs : x.states)
    (hr : r = { s.agent a with state := r.state, notices := r.notices, overrun := r.overrun }) (p : PurgeEngine) :
    s.RegistersKept x (s.overlay a r p) := by
  have hagent : s.RegistersKept x (s.setAgent a r) := by
    rw [hr]
    exact setAgent s (.inr rfl) (.inl hs) (.inr ⟨rfl, rfl⟩) (.inr rfl) (.inr ⟨rfl, rfl⟩)
  exact hagent.trans (of_kept (.refl _) (fun _ => rfl) rfl rfl rfl)

theorem commandRecord (s : State) {a : Agent} (h : x.record a) (r : CommandRecord) :
    s.RegistersKept x (s.setAgent a { s.agent a with record := r }) :=
  setAgent s (.inr rfl) (.inr rfl) (.inr ⟨rfl, rfl⟩) (.inl h) (.inr ⟨rfl, rfl⟩)

theorem recordError (s : State) {a : Agent} (h : x.errors a) (k : ErrorKind) :
    s.RegistersKept x (s.recordError a k) :=
  setAgent s (.inr rfl) (.inr rfl) (.inr ⟨rfl, rfl⟩) (.inr rfl) (.inl h)

/-- R146: a write refused. -/
theorem refuseWrite (s : State) {a : Agent} (h : x.errors a) (k : ErrorKind) : s.RegistersKept x (s.refuseWrite a k) :=
  (recordError s h k).trans (respond _ _)

/-- R146, R147: a write, its owner's part keeping what may not change. -/
theorem writeAccess {a : Agent} (h : x.errors a) (w : WriteData) {take : State → State}
    (ht : s.RegistersKept x (take s)) : s.RegistersKept x (s.writeAccess a w take) := by
  unfold State.writeAccess
  split
  · split
    · exact ht
    · exact refuseWrite s h _
  · exact respond s _

/-- R146: a read, its owner's part keeping what may not change. -/
theorem readAccess {take : State → State} (ht : s.RegistersKept x (take s)) : s.RegistersKept x (s.readAccess take) :=
  State.readAccess_induct (P := fun t => s.RegistersKept x t) (refl s) (fun _ => ht) fun t b h => h.trans (respond t b)

/-- R149 to R151: a command write of agent `a` changes its command record, or its error status, and what its owner's
part changes. -/
theorem commandWrite {c : Command} {a : Agent} (he : x.errors a) (hr : x.record a) (w : WriteData)
    {take : State → State × CmdOutcome} (ht : s.RegistersKept x (take s).1) :
    s.RegistersKept x (s.commandWrite c a w take) := by
  refine writeAccess he w (RegistersKept.trans ?_ (respond _ _))
  unfold State.takeCommand
  split
  · exact commandRecord s hr _
  · split
    · exact commandRecord s hr _
    · exact ht.trans (commandRecord _ hr _)

end State.RegistersKept

/-- The registers that a command within its row may change, POWER_ON_RESET aside. -/
def Touches.of (i : Instr) : Touches where
  attributes := ∃ a w, i = .setLock a w
  classes := ∃ a w, i = .setAgent a w
  states := (∃ a w, i = .setAgent a w) ∨ (∃ a w, i = .purge a w) ∨ i = .sweepEnd ∨ i = .busReset ∨
    ∃ a w, i = .resetTables a w
  enables b := i = .busReset ∨ ∃ w, i = .interruptEnableWrite b w
  snapshot b := i = .busReset ∨ i = .timeLowRead b
  divider := ∃ a w, i = .setDivider a w
  record b := i = .busReset ∨ (∃ a w, i = .resetTables a w) ∨ ∃ (c : Command) (w : WriteData), i = c.row b w
  errors b := i = .busReset ∨ ∃ x, i.access = some x ∧ x.agent = b

/-- An access may change the error status of its agent. -/
theorem Touches.errors_of_access {i : Instr} {a : Agent} {off : WordOffset} {w : Option WriteData}
    (h : i.access = some ⟨a, off, w⟩) : (Touches.of i).errors a := Or.inr ⟨_, h, rfl⟩

namespace State.RegistersKept

variable {x : Touches} {s : State}

/-! ### The owners' parts of the commands -/

theorem acquireTaken (s : State) (a : Agent) : s.RegistersKept x (s.acquireTaken a).1 := by
  rcases s.acquireTaken_cases a with e | ⟨l, m, d, e, -, -, heq⟩ | ⟨l, m, t, d, e, -, -, -, heq⟩
  · rw [e]; exact settle s
  · rw [heq]; exact (settle s).trans (grantNow _ a l m d e)
  · rw [heq]; exact (settle s).trans (joinQueue _ a l m t d e)

theorem releaseTaken (s : State) (a : Agent) : s.RegistersKept x (s.releaseTaken a).1 := by
  unfold State.releaseTaken
  simp only
  split
  · exact settle s
  · exact (settle s).trans (giveUp _ a _)

theorem upgradeTaken (s : State) (a : Agent) : s.RegistersKept x (s.upgradeTaken a).1 := by
  rcases s.upgradeTaken_cases a with e | ⟨l, -, -, heq⟩ | ⟨l, t, e, -, -, -, heq⟩
  · rw [e]; exact settle s
  · rw [heq]; exact (settle s).trans (setLock _ l ⟨rfl, rfl, rfl, rfl⟩)
  · rw [heq]; exact (settle s).trans (joinQueue _ a l .upgrade t none e)

theorem downgradeTaken (s : State) (a : Agent) : s.RegistersKept x (s.downgradeTaken a).1 := by
  unfold State.downgradeTaken
  simp only
  split
  · exact settle s
  · exact ((settle s).trans (toShared _ _)).trans (grantStep _ _)

theorem cancelTaken (s : State) (a : Agent) : s.RegistersKept x (s.cancelTaken a).1 := by
  unfold State.cancelTaken
  simp only
  split
  · exact settle s
  · split
    · exact settle s
    · exact (settle s).trans (of_engine (State.dropRequest_frame _ a) (.dropRequest _ a))

theorem renewTaken (s : State) (a : Agent) : s.RegistersKept x (s.renewTaken a).1 := by
  unfold State.renewTaken
  simp only
  split
  · exact settle s
  · next l e n _ =>
    have hframe : s.settle.EngineFrame (s.settle.withDu (·.armAsLease e n)) :=
      State.withDu_frame (DeadlineUnit.armAsLease_clockKept ..)
    exact (settle s).trans (of_engine hframe (.refl _))

/-- R122: SET AGENT changes the class and the state of an agent record, and its notices. -/
theorem setAgentTaken (s : State) (hc : x.classes) (hs : x.states) : s.RegistersKept x s.setAgentTaken.1 := by
  unfold State.setAgentTaken
  simp only
  split
  · exact refl s
  · refine setAgent s (.inl hc) (.inl hs) (.inr ?_) (.inr ?_) (.inr ?_) <;> unfold AgentRecord.withState <;> split
    all_goals simp

/-- R11: SET LOCK changes the four values of one lock record alone. -/
theorem setLockTaken (s : State) (ha : x.attributes) : s.RegistersKept x s.setLockTaken.1 := by
  have changed : ∀ (u : State) (l : LockNum) (r : LockRecord), u.RegistersKept x (u.setLock l r) := fun u l r =>
    { refl u with attributes := fun hx => absurd ha hx }
  unfold State.setLockTaken
  simp only
  split
  · exact settle s
  · split
    · exact settle s
    · exact (settle s).trans (changed _ _ _)

theorem forceReleaseTaken (s : State) : s.RegistersKept x s.forceReleaseTaken.1 := by
  unfold State.forceReleaseTaken
  simp only
  split
  · exact settle s
  · split
    · exact (settle s).trans (setLock _ _ ⟨rfl, rfl, rfl, rfl⟩)
    · exact (settle s).trans (forceHeld _ _)

/-- R136: purge start changes agent states. -/
theorem purgeTaken (s : State) (hs : x.states) : s.RegistersKept x s.purgeTaken.1 := by
  unfold State.purgeTaken
  split
  · exact refl s
  · next a _ =>
    have hgone : s.RegistersKept x (s.settle.dequeue a) :=
      (settle s).trans (of_engine (State.dequeue_frame _ a) (.dequeue _ a))
    have hbegun : s.RegistersKept x (s.settle.purgeBegun a) :=
      hgone.trans (overlay _ hs (by rw [State.dequeue_agent]; rfl) _)
    exact State.purgeStart_induct (P := fun t => s.RegistersKept x t) hbegun
      fun q _ => hbegun.trans (grantStep _ q.lock)

theorem setDividerTaken (s : State) (hd : x.divider) : s.RegistersKept x s.setDividerTaken.1 := by
  unfold State.setDividerTaken
  simp only
  split
  · exact refl s
  · exact { refl s with divider := fun hx => absurd hd hx }

/-- R156: RESET TABLES changes agent states and command records. -/
theorem resetTablesTaken (s : State) (hs : x.states) (hr : ∀ b, x.record b) :
    s.RegistersKept x s.resetTablesTaken.1 where
  attributes _ l := by rw [show s.resetTablesTaken.1.lock l = _ from s.emptyTables_lock l]; exact ⟨rfl, rfl, rfl, rfl⟩
  classes _ b := by rw [State.resetTablesTaken_agent]; rfl
  states hx := absurd hs hx
  enables b _ := by rw [State.resetTablesTaken_agent]; exact ⟨rfl, rfl⟩
  snapshot _ _ := rfl
  divider _ := rfl
  record b hx := absurd (hr b) hx
  errors b _ := by rw [State.resetTablesTaken_agent]; exact ⟨rfl, rfl⟩
  pending := rfl

/-- R155: bus reset changes agent states, enables, snapshots, command records and error statuses. -/
theorem busReset (s : State) (hs : x.states) (he : ∀ b, x.enables b) (hv : ∀ b, x.snapshot b) (hr : ∀ b, x.record b)
    (hk : ∀ b, x.errors b) : s.RegistersKept x s.busResetAsserted where
  attributes _ l := by rw [show s.busResetAsserted.lock l = _ from s.emptyTables_lock l]; exact ⟨rfl, rfl, rfl, rfl⟩
  classes _ b := by rw [State.busResetAsserted_agent]; rfl
  states hx := absurd hs hx
  enables b hx := absurd (he b) hx
  snapshot b hx := absurd (hv b) hx
  divider _ := rfl
  record b hx := absurd (hr b) hx
  errors b hx := absurd (hk b) hx
  pending := rfl

/-- Each command changes the registers it may change alone, in its owner's part. -/
theorem taken (c : Command) (a : Agent) (w : WriteData) (s : State) :
    s.RegistersKept (Touches.of (c.row a w)) (c.taken a s).1 :=
  match c with
  | .nop => refl s
  | .acquire => acquireTaken s a
  | .release => releaseTaken s a
  | .upgrade => upgradeTaken s a
  | .downgrade => downgradeTaken s a
  | .cancel => cancelTaken s a
  | .renew => renewTaken s a
  | .setAgent => setAgentTaken s ⟨a, w, rfl⟩ (.inl ⟨a, w, rfl⟩)
  | .setLock => setLockTaken s ⟨a, w, rfl⟩
  | .forceRelease => forceReleaseTaken s
  | .purge => purgeTaken s (.inr (.inl ⟨a, w, rfl⟩))
  | .setTime => (settle s).trans (of_kept (.refl _) (fun _ => rfl) rfl rfl rfl)
  | .setDivider => setDividerTaken s ⟨a, w, rfl⟩
  | .resetTables => resetTablesTaken s (.inr (.inr (.inr (.inr ⟨a, w, rfl⟩)))) fun _ => .inr (.inl ⟨a, w, rfl⟩)

theorem row (c : Command) (a : Agent) (w : WriteData) (s : State) :
    s.RegistersKept (Touches.of (c.row a w)) (s.commandWrite c a w (c.taken a)) :=
  have herrors : (Touches.of (c.row a w)).errors a := by
    cases c <;> exact Touches.errors_of_access rfl
  commandWrite herrors (.inr (.inr ⟨c, w, rfl⟩)) w (taken c a w s)

/-! ### The other accesses -/

theorem tryRead (s : State) (a : Agent) (l : LockNum) : s.RegistersKept x (s.tryReadTaken a l) := by
  unfold State.tryReadTaken
  simp only
  split
  · exact (settle s).trans (respond _ _)
  · exact ((settle s).trans (grantNow _ a l _ _ _)).trans (respond _ _)

theorem tryWrite (s : State) {a : Agent} (h : x.errors a) (l : LockNum) : s.RegistersKept x (s.tryWriteTaken a l) := by
  unfold State.tryWriteTaken
  simp only
  split
  · exact (settle s).trans (refuseWrite _ h _)
  · exact ((settle s).trans (giveUp _ a l)).trans (respond _ _)

/-- R87: a read of TIME LOW changes the reading agent's snapshot. -/
theorem timeLow (s : State) {a : Agent} (h : x.snapshot a) : s.RegistersKept x (s.timeLowTaken a) :=
  { refl s with
    snapshot := fun b hx => get_setRow_ne _ (fun hb => hx (by rw [hb]; exact h)) _ }

theorem noticeControl (s : State) (a : Agent) (w : WriteData) : s.RegistersKept x (s.noticeControlTaken a w) :=
  trans (setAgent s (r := (s.agent a).noticeControl w.popFlag w.clearOverrunFlag) (.inr rfl) (.inr rfl)
    (.inr ⟨rfl, rfl⟩) (.inr rfl) (.inr ⟨rfl, rfl⟩)) (respond _ _)

theorem errorStatus (s : State) {a : Agent} (h : x.errors a) : s.RegistersKept x (s.errorStatusTaken a) :=
  trans (setAgent s (r := { s.agent a with errorKind := .none, errorSeen := false }) (.inr rfl) (.inr rfl)
    (.inr ⟨rfl, rfl⟩) (.inr rfl) (.inl h)) (respond _ _)

theorem interruptEnable (s : State) {a : Agent} (h : x.enables a) (w : WriteData) :
    s.RegistersKept x (s.interruptEnableTaken a w) :=
  trans (setAgent s
    (r := { s.agent a with noticeEnable := w.noticeEnableFlag, errorEnable := w.errorEnableFlag }) (.inr rfl)
    (.inr rfl) (.inl h) (.inr rfl) (.inr ⟨rfl, rfl⟩)) (respond _ _)

/-- R146, R148: a write that is in the row REGISTER_WRITE. -/
theorem registerWrite (s : State) {a : Agent} (h : x.errors a) {off : WordOffset} {w : WriteData}
    (hrow : registerWriteRow off w = true) {t : State} (ht : execRegisterWrite a off w s = .next t) :
    s.RegistersKept x t := by
  have refused : ∀ k, s.RegistersKept x (s.writeRefused a k) := fun k => by
    unfold State.writeRefused
    split
    · exact refuseWrite s h k
    · exact respond s _
  unfold registerWriteRow at hrow
  unfold execRegisterWrite at ht
  cases hword : windowWord off <;> rw [hword] at hrow ht
  case tryWord | command | errorStatus | interruptEnable => exact absurd hrow Bool.false_ne_true
  case arg0 => cases ht; exact writeAccess h w (port s _)
  case arg1 => cases ht; exact writeAccess h w (port s _)
  case noticeControl => cases ht; exact writeAccess h w (noticeControl s a w)
  all_goals (cases ht; exact refused _)

/-- R146: a read that is in the row REFUSED_READ. -/
theorem refusedRead (s : State) {a : Agent} (h : x.errors a) {off : WordOffset} (hrow : refusedReadRow off = true)
    {t : State} (ht : execRefusedRead a off s = .next t) : s.RegistersKept x t := by
  have refused : ∀ k, s.RegistersKept x (s.readAccess fun t => t.refuseRead a k) := fun k =>
    readAccess ((recordError s h k).trans (respond _ _))
  unfold refusedReadRow at hrow
  unfold execRefusedRead at ht
  cases hword : windowWord off <;> rw [hword] at hrow ht <;> cases ht
  case unmapped | command | noticeControl => exact refused _
  case tryWord | timeLow => exact absurd hrow Bool.false_ne_true
  case identification => split <;> exact respond s _
  all_goals exact readAccess (respond s _)

/-! ### The events -/

theorem tickTaken (s : State) : s.RegistersKept x s.tickTaken := by
  unfold State.tickTaken
  split
  · exact refl s
  · split
    · exact (drain s).trans (catchUp _)
    · exact (drain s).trans (of_kept (.refl _) (fun _ => rfl) rfl rfl rfl)

theorem setSweep (s : State) (n p : Nat) : s.RegistersKept x (s.setSweep n p) :=
  of_kept (.refl s) (fun _ => rfl) rfl rfl rfl

theorem sweepVisit (s : State) : s.RegistersKept x s.sweepVisit := by
  rcases s.sweepVisit_cases with e | ⟨a, k, -, -, -, e⟩ <;> rw [e]
  · exact refl s
  · refine (settle s).trans ?_
    unfold State.visitLock
    split
    · exact (of_engine ((State.sweepHold_frame _ a k).trans (State.grantAfterHold_frame _ k))
        ((AttributesKept.sweepHold _ a k).trans (.grantIf _ _ k))).trans (setSweep _ _ _)
    · exact setSweep _ _ _

/-- R139: the sweep end changes the state of the subject. -/
theorem sweepEnd (s : State) (hs : x.states) : s.RegistersKept x s.sweepEnd := by
  rcases s.sweepEnd_cases with e | ⟨a, -, -, -, e⟩ <;> rw [e]
  · exact refl s
  · exact (overlay s hs rfl _).trans (of_engine (State.post_frame ..) (.post _ _ _))

/-- Every command within its row but POWER_ON_RESET changes none but the registers it may change. -/
theorem exec {i : Instr} {t : State} (hwf : i.wf = true) (hi : i ≠ .powerOnReset)
    (ht : Machine.exec i s = .next t) : s.RegistersKept (Touches.of i) t := by
  cases i
  case powerOnReset => exact absurd rfl hi
  case powerOnResetRelease =>
    simp only [Machine.exec, execPowerOnResetRelease] at ht
    split at ht <;> cases ht
    · split
      · exact port s _
      · exact (port s _).trans (port _ _)
    · exact refl s
  case busReset =>
    cases ht
    split
    · exact port s _
    · exact busReset s (.inr (.inr (.inr (.inl rfl)))) (fun _ => .inl rfl) (fun _ => .inl rfl) (fun _ => .inl rfl)
        fun _ => .inl rfl
  case busResetRelease =>
    simp only [Machine.exec, execBusResetRelease] at ht
    split at ht <;> cases ht
    · split
      · exact port s _
      · exact (port s _).trans (port _ _)
    · exact refl s
  case initializationComplete =>
    simp only [Machine.exec, execInitializationComplete] at ht
    split at ht <;> cases ht
    · exact (port s _).trans (catchUp _)
    · exact refl s
  case tickAdvance => cases ht; exact tickTaken s
  case waitExpiry => cases ht; split; exacts [(takeExpiry s).trans (catchUp _), refl s]
  case leaseExpiry => cases ht; split; exacts [(takeExpiry s).trans (catchUp _), refl s]
  case sweepVisit => cases ht; exact sweepVisit s
  case sweepEnd => cases ht; exact sweepEnd s (.inr (.inr (.inl rfl)))
  case tryRead a l => cases ht; exact readAccess (tryRead s a l)
  case tryWrite a l w =>
    cases ht
    exact writeAccess (Touches.errors_of_access rfl) w (tryWrite s (Touches.errors_of_access rfl) l)
  case timeLowRead a => cases ht; exact readAccess (timeLow s (.inr rfl))
  case pop a w => cases ht; exact writeAccess (Touches.errors_of_access rfl) w (noticeControl s a w)
  case clearOverrun a w => cases ht; exact writeAccess (Touches.errors_of_access rfl) w (noticeControl s a w)
  case errorStatusWrite a w =>
    cases ht
    exact writeAccess (Touches.errors_of_access rfl) w (errorStatus s (Touches.errors_of_access rfl))
  case interruptEnableWrite a w =>
    cases ht
    exact writeAccess (Touches.errors_of_access rfl) w (interruptEnable s (Or.inr ⟨w, rfl⟩) w)
  case registerWrite a off w => exact registerWrite s (Touches.errors_of_access rfl) hwf ht
  case refusedRead a off => exact refusedRead s (Touches.errors_of_access rfl) hwf ht
  case nop a w => cases ht; exact row .nop a w s
  case acquire a w => cases ht; exact row .acquire a w s
  case release a w => cases ht; exact row .release a w s
  case upgrade a w => cases ht; exact row .upgrade a w s
  case downgrade a w => cases ht; exact row .downgrade a w s
  case cancel a w => cases ht; exact row .cancel a w s
  case renew a w => cases ht; exact row .renew a w s
  case setAgent a w => cases ht; exact row .setAgent a w s
  case setLock a w => cases ht; exact row .setLock a w s
  case forceRelease a w => cases ht; exact row .forceRelease a w s
  case purge a w => cases ht; exact row .purge a w s
  case setTime a w => cases ht; exact row .setTime a w s
  case setDivider a w => cases ht; exact row .setDivider a w s
  case resetTables a w => cases ht; exact row .resetTables a w s

end State.RegistersKept

/-- Settles O52: what a command may change is `Touches.of`, and it keeps the rest. -/
theorem registerFrames : Obligations.RegisterFrames := by
  intro i s t hwf hexec hi
  have k := State.RegistersKept.exec hwf hi hexec
  refine ⟨fun h => k.attributes fun ⟨a, w, e⟩ => h a w e, fun h => k.classes fun ⟨a, w, e⟩ => h a w e,
    fun hset hpurge hend hbus hreset => k.states ?_, fun hbus b h => k.enables b ?_, fun hbus b h => k.snapshot b ?_,
    fun h => k.divider fun ⟨a, w, e⟩ => h a w e, fun hbus hreset b h => k.record b ?_, fun hbus b h => k.errors b ?_,
    k.pending⟩
  · rintro (⟨a, w, e⟩ | ⟨a, w, e⟩ | e | e | ⟨a, w, e⟩)
    exacts [hset a w e, hpurge a w e, hend e, hbus e, hreset a w e]
  · rintro (e | ⟨w, e⟩)
    exacts [hbus e, h w e]
  · rintro (e | e)
    exacts [hbus e, h e]
  · rintro (e | ⟨a, w, e⟩ | ⟨c, w, e⟩)
    exacts [hbus e, hreset a w e, h c w e]
  · rintro (e | ⟨x, hx, hb⟩)
    exacts [hbus e, h x hx hb]

end Sys2Proof.Machine
end

section
/-! The grant step where it grants nothing or converts, and the grant step after a hold (R41, R54, R57, R106, R138). -/

namespace Sys2Proof.Machine

/-! ### The head test (R54, Table 3-3) -/

theorem State.headTest_of_empty {s : State} {l : LockNum} (h : (s.lock l).queue = []) : s.headTest l = .nothing := by
  simp only [State.headTest, h]

section
variable {s : State} {l : LockNum} {a : Agent} {rest : List Agent} {q : PendingRequest}

/-- Table 3-3: an UPGRADE head on a SHARED lock. -/
theorem State.headTest_upgrade (hqueue : (s.lock l).queue = a :: rest) (hq : s.request a = some q)
    (hm : q.mode = .upgrade) (hs : (s.lock l).state = .shared) :
    s.headTest l = if (s.lock l).soleHolder a then .convert a else .nothing := by
  simp only [State.headTest, hqueue, hq, hm, hs]

/-- Table 3-3: an EXCLUSIVE head on a lock that is held. -/
theorem State.headTest_exclusive (hqueue : (s.lock l).queue = a :: rest) (hq : s.request a = some q)
    (hm : q.mode = .exclusive) (hs : (s.lock l).state ≠ .free) : s.headTest l = .nothing := by
  cases hst : (s.lock l).state
  case free => exact absurd hst hs
  all_goals simp only [State.headTest, hqueue, hq, hm, hst]

/-- Table 3-3: a SHARED head on an EXCLUSIVE lock. -/
theorem State.headTest_shared_of_exclusive (hqueue : (s.lock l).queue = a :: rest) (hq : s.request a = some q)
    (hm : q.mode = .shared) (hs : (s.lock l).state = .exclusive) : s.headTest l = .nothing := by
  simp only [State.headTest, hqueue, hq, hm, hs]

/-- Table 3-3, R56: a SHARED head on a SHARED lock. -/
theorem State.headTest_shared_of_shared (hqueue : (s.lock l).queue = a :: rest) (hq : s.request a = some q)
    (hm : q.mode = .shared) (hs : (s.lock l).state = .shared) :
    s.headTest l = .grant ((a :: rest).takeWhile s.asksShared) := by
  simp only [State.headTest, hqueue, hq, hm, hs]

end

/-- Table 3-3: on a SHARED lock whose head is no SHARED request, all there is to grant is the upgrade of the sole
holder. -/
theorem State.headTest_of_shared_lock {s : State} {l : LockNum} (hs : (s.lock l).state = .shared)
    (hhead : ∀ a q, (s.lock l).queue.head? = some a → s.request a = some q → q.mode ≠ .shared) :
    s.headTest l = .nothing ∨ ∃ a q, (s.lock l).queue.head? = some a ∧ s.request a = some q ∧ q.mode = .upgrade ∧
      (s.lock l).soleHolder a = true ∧ s.headTest l = .convert a := by
  cases hqueue : (s.lock l).queue with
  | nil => exact Or.inl (State.headTest_of_empty hqueue)
  | cons a rest =>
    cases hq : s.request a with
    | none => exact Or.inl (by simp only [State.headTest, hqueue, hq])
    | some q =>
      cases hm : q.mode
      case shared => exact absurd hm (hhead a q (by rw [hqueue]; rfl) hq)
      case exclusive => exact Or.inl (State.headTest_exclusive hqueue hq hm (by rw [hs]; decide))
      case upgrade =>
        have htest := State.headTest_upgrade hqueue hq hm hs
        by_cases hsole : (s.lock l).soleHolder a = true
        · rw [if_pos hsole] at htest
          exact Or.inr ⟨a, q, rfl, hq, hm, hsole, htest⟩
        · rw [if_neg hsole] at htest
          exact Or.inl htest

/-! ### One run (R53, R57) -/

theorem State.grantStep_of_nothing {s : State} {l : LockNum} (h : s.headTest l = .nothing) : s.grantStep l = s := by
  unfold State.grantStep State.grantStepCounted
  cases (s.lock l).queue.length with
  | zero => rfl
  | succ n => simp only [State.grantRuns, h]

theorem State.grantStep_of_convert {s : State} {l : LockNum} {a : Agent} (hqueue : (s.lock l).queue ≠ [])
    (h : s.headTest l = .convert a) : s.grantStep l = s.convert l a := by
  obtain ⟨n, hn⟩ := Nat.exists_eq_succ_of_ne_zero fun hz => hqueue (List.length_eq_zero_iff.mp hz)
  simp only [State.grantStep, State.grantStepCounted, hn, State.grantRuns, h]

theorem State.setLock_setLock (s : State) (l : LockNum) (r r' : LockRecord) :
    (s.setLock l r).setLock l r' = s.setLock l r' := by
  simp only [State.setLock, setRow_setRow]

theorem State.setRequest_setLock (s : State) (a : Agent) (q : Option PendingRequest) (l : LockNum) (r : LockRecord) :
    (s.setRequest a q).setLock l r = (s.setLock l r).setRequest a q := rfl

/-- R57, steps 1 to 4: the request leaves, the lock becomes EXCLUSIVE, the request's entry is freed. -/
theorem State.seatUpgrade_eq (s : State) (l : LockNum) (a : Agent) (q : PendingRequest) :
    s.seatUpgrade l a q =
      ((s.setLock l { s.lock l with state := .exclusive, queue := (s.lock l).queue.filter (· != a) }).setRequest a
        none).withDu (·.freeOwned q.entry) := by
  simp only [State.seatUpgrade, State.leaveQueue, State.setRequest_lock, State.setLock_lock_self,
    State.setRequest_setLock, State.setLock_setLock]

/-- Settles O47: each clause is a row of the head test; the grant step after a hold differs from the grant step only at
a head that a SHARED lock grants. -/
theorem grantStepNothingOrConversion : Obligations.GrantStepNothingOrConversion := by
  intro s l
  refine ⟨fun hempty => State.grantStep_of_nothing (State.headTest_of_empty hempty), fun h => ?_,
    fun h hhead => ?_, fun a rest q hqueue hq => ⟨fun hm => ?_, fun hm hs => ?_, fun hm hs hother => ?_,
    fun hm hs => ?_, fun hm hs => ?_, fun hm hs hsole => ?_⟩⟩
  · refine s.grantAfterHold_eq l (h.symm.imp_right fun hempty b => ?_)
    rw [State.headTest_of_empty hempty]
    exact HeadTest.noConfusion
  · intro t hs
    have hkept : (t.lock l).queue = (s.lock l).queue := by rw [State.removeHold_lock, if_pos rfl]; rfl
    rcases State.headTest_of_shared_lock hs (by rw [hkept]; exact hhead) with hnothing | ⟨a, q, ha, hq, hm, hsole, -⟩
    · exact Or.inl (State.grantStep_of_nothing hnothing)
    · exact Or.inr ⟨a, q, hkept ▸ ha, hq, hm, LockRecord.soleHolder_iff.mp hsole⟩
  · refine s.grantAfterHold_eq l (or_iff_not_imp_left.mpr fun hs b => ?_)
    have hhead : ∀ b p, (s.lock l).queue.head? = some b → s.request b = some p → p.mode ≠ .shared := by
      intro b p hb hp
      rw [hqueue] at hb
      cases hb
      cases hq.symm.trans hp
      exact hm
    rcases State.headTest_of_shared_lock (not_not.mp hs) hhead with hnothing | ⟨_, _, -, -, -, -, hconvert⟩
    · rw [hnothing]; exact HeadTest.noConfusion
    · rw [hconvert]; exact HeadTest.noConfusion
  · exact State.grantAfterHold_of_shared hs (State.headTest_shared_of_shared hqueue hq hm hs)
  · obtain ⟨b, hb, hholds⟩ := hother
    have hnot : ¬ (s.lock l).soleHolder a = true := fun hsole =>
      hb ((LockRecord.soleHolder_iff.mp hsole b).mp hholds)
    exact State.grantStep_of_nothing (by rw [State.headTest_upgrade hqueue hq hm hs, if_neg hnot])
  · exact State.grantStep_of_nothing (State.headTest_exclusive hqueue hq hm hs)
  · exact State.grantStep_of_nothing (State.headTest_shared_of_exclusive hqueue hq hm hs)
  · have htest := State.headTest_upgrade hqueue hq hm hs
    rw [if_pos (LockRecord.soleHolder_iff.mpr hsole)] at htest
    rw [State.grantStep_of_convert (by rw [hqueue]; exact List.cons_ne_nil _ _) htest, State.convert_of_some hq,
      State.seatUpgrade_eq]
    rfl

end Sys2Proof.Machine
end

section
/-! Removing a hold, and joining a queue (Table 1-3, R30, R36, R44, R46 to R49, R73). -/

namespace Sys2Proof.Machine

/-! ### Removing a hold (Table 1-3) -/

theorem LockRecord.withoutHolder_eq (r : LockRecord) (a : Agent) : r.withoutHolder a =
    { r with holders := setRow r.holders a none, state := (r.withoutHolder a).state } := rfl

/-- Table 1-3: a SHARED lock stays SHARED while another holder remains. -/
theorem LockRecord.withoutHolder_state_of_remains {r : LockRecord} {a : Agent} (hs : r.state = .shared)
    (h : ∃ b, b ≠ a ∧ r.holds b = true) : (r.withoutHolder a).state = .shared := by
  obtain ⟨b, hb, hholds⟩ := h
  have hany : (allAgents.any fun b => ((setRow r.holders a none).get b).isSome) = true :=
    List.any_eq_true.mpr ⟨b, mem_allAgents b, by rw [get_setRow_ne _ hb]; exact hholds⟩
  simp only [withoutHolder, hs, hany, if_true]

/-- Table 1-3: else the lock becomes FREE. -/
theorem LockRecord.withoutHolder_state_of_last {r : LockRecord} {a : Agent}
    (h : ¬ (r.state = .shared ∧ ∃ b, b ≠ a ∧ r.holds b = true)) : (r.withoutHolder a).state = .free := by
  cases hs : r.state
  case shared =>
    have hany : (allAgents.any fun b => ((setRow r.holders a none).get b).isSome) = false := by
      refine List.any_eq_false.mpr fun b _ hb => h ⟨hs, b, ?_, ?_⟩
      · rintro rfl
        rw [get_setRow_self] at hb
        exact absurd hb (by decide)
      · have hholds : (r.withoutHolder a).holds b = true := hb
        rw [LockRecord.withoutHolder_holds] at hholds
        exact (Bool.and_eq_true_iff.mp hholds).1
    simp only [withoutHolder, hs, hany, Bool.false_eq_true, if_false]
  all_goals simp only [withoutHolder, hs]

/-- Settles O27: Table 1-3 gives the lock record, and the lease of the hold says what is freed. -/
theorem holdRemoval : Obligations.HoldRemoval := by
  intro s a l _ t remains
  have hlock : t.lock l = (s.lock l).withoutHolder a := by rw [State.removeHold_lock, if_pos rfl]
  refine ⟨fun h => ?_, fun h => ?_, fun e he => ?_, fun hnone => ?_,
    fun k hk => by rw [State.removeHold_lock, if_neg hk], fun _ => rfl, rfl, rfl, rfl, rfl, rfl⟩
  · rw [hlock, LockRecord.withoutHolder_eq, LockRecord.withoutHolder_state_of_remains h.1 h.2, ← h.1]
  · rw [hlock, LockRecord.withoutHolder_eq, LockRecord.withoutHolder_state_of_last h]
  · rw [State.removeHold_du, he]; rfl
  · rw [State.removeHold_du, hnone]; rfl

/-! ### Joining a queue (R49) -/

theorem PendingRequest.rank_of_upgrade {q : PendingRequest} (h : q.mode = .upgrade) : q.rank = 0 := by
  simp only [rank, h]

theorem PendingRequest.rank_of_not_upgrade {q : PendingRequest} (h : q.mode ≠ .upgrade) :
    q.rank = q.effClass.toNat + 1 := by
  cases hm : q.mode
  case upgrade => exact absurd hm h
  all_goals simp only [rank, hm]

/-- R49: a waiter is placed between those it does not stand ahead of and those it does. -/
theorem State.place_eq_append (s : State) (a : Agent) {xs : List Agent}
    (h : xs.Pairwise fun b c => s.precedes b c = true) : ∃ front back, xs = front ++ back ∧
      s.place a xs = front ++ a :: back ∧ (∀ b ∈ front, s.precedes a b ≠ true) ∧
      ∀ b ∈ back, s.precedes a b = true := by
  induction xs with
  | nil => exact ⟨[], [], rfl, rfl, by simp, by simp⟩
  | cons x xs ih =>
    obtain ⟨hx, hxs⟩ := List.pairwise_cons.mp h
    unfold State.place
    by_cases hax : s.precedes a x = true
    · rw [if_pos hax]
      refine ⟨[], x :: xs, rfl, rfl, by simp, fun b hb => ?_⟩
      rcases List.mem_cons.mp hb with rfl | hb
      · exact hax
      · exact State.precedes_trans hax (hx b hb)
    · rw [if_neg hax]
      obtain ⟨front, back, hsplit, hplace, hfront, hback⟩ := ih hxs
      refine ⟨x :: front, back, by rw [hsplit]; rfl, by rw [hplace]; rfl, fun b hb => ?_, hback⟩
      rcases List.mem_cons.mp hb with rfl | hb
      · exact hax
      · exact hfront b hb

section
variable {s : State} {a : Agent} {l : LockNum} {m : Mode} {timeout lease : Option Nat} {e : Option EntryNum}

theorem State.joinQueue_request_ne {b : Agent} (hb : b ≠ a) :
    (s.joinQueue a l m timeout lease e).request b = s.request b := by
  rw [State.joinQueue_request, if_neg hb]

/-- R48, R49: the latest arrival stands ahead of the waiters of greater rank alone. -/
theorem State.joinQueue_precedes (horder : s.OrderLaw) {b : Agent} (hb : b ≠ a) {p : PendingRequest}
    (hp : s.request b = some p) : (s.joinQueue a l m timeout lease e).precedes a b = true ↔
      (if m = .upgrade then 0 else (s.agent a).cls.toNat + 1) < p.rank := by
  obtain ⟨q, hq⟩ : ∃ q : PendingRequest, q =
    { lock := l, mode := m, effClass := (s.agent a).cls, bypass := 0, arrival := s.nextArrival
      timeout := timeout, lease := lease, entry := e } := ⟨_, rfl⟩
  have hqa : (s.joinQueue a l m timeout lease e).request a = some q := by
    rw [State.joinQueue_request, if_pos rfl, hq]
  have hpb : (s.joinQueue a l m timeout lease e).request b = some p := by
    rw [State.joinQueue_request_ne hb, hp]
  have hlate : p.arrival < q.arrival := by rw [hq]; exact horder.early b p hp
  have hrank : q.rank = if m = .upgrade then 0 else (s.agent a).cls.toNat + 1 := by
    split
    · next hm => exact PendingRequest.rank_of_upgrade (by rw [hq]; exact hm)
    · next hm => rw [PendingRequest.rank_of_not_upgrade (by rw [hq]; exact hm), hq]
  rw [State.precedes_iff, ← hrank]
  constructor
  · rintro ⟨x, y, hx, hy, hxy⟩
    cases hqa.symm.trans hx
    cases hpb.symm.trans hy
    omega
  · exact fun h => ⟨q, p, hqa, hpb, Or.inl h⟩

/-- R49: the waiters that were there stand in their order. -/
theorem State.joinQueue_ordered (horder : s.OrderLaw) (hnotin : ∀ b ∈ (s.lock l).queue, b ≠ a) :
    (s.lock l).queue.Pairwise fun b c => (s.joinQueue a l m timeout lease e).precedes b c = true := by
  refine (List.Pairwise.and_mem.mp (horder.ordered l)).imp ?_
  rintro b c ⟨hb, hc, hprecedes⟩
  rwa [State.precedes_congr (s := s) (State.joinQueue_request_ne (hnotin b hb))
    (State.joinQueue_request_ne (hnotin c hc))]

end

/-- R30: the position of an agent that stands behind `front`. -/
theorem State.positionIn_of_append {s : State} {a : Agent} {l : LockNum} {front back : List Agent}
    (h : (s.lock l).queue = front ++ a :: back) (hfront : a ∉ front) : s.positionIn a l = front.length + 1 := by
  rw [State.positionIn, h, List.idxOf_append_of_notMem hfront, List.idxOf_cons_self, Nat.add_zero]

/-- Settles O25: placing splits the queue at the first waiter of greater rank. -/
theorem joiningAQueue : Obligations.JoiningAQueue := by
  intro s a l m timeout lease e horder hqueued hnone t
  have hnotin : ∀ b ∈ (s.lock l).queue, b ≠ a := by
    rintro b hb rfl
    obtain ⟨q, hq, -⟩ := hqueued b hb
    cases hnone.symm.trans hq
  obtain ⟨front, back, hsplit, hplace, hfront, hback⟩ :=
    t.place_eq_append a (State.joinQueue_ordered horder hnotin)
  have hlock : t.lock l = { s.lock l with queue := front ++ a :: back } := by
    rw [State.joinQueue_lock, if_pos rfl, hplace]
  have hin : ∀ {b}, b ∈ front ∨ b ∈ back → b ∈ (s.lock l).queue := fun {b} hb => by
    rw [hsplit]; exact List.mem_append.mpr hb
  have hahead : ∀ {b p}, b ∈ front ∨ b ∈ back → s.request b = some p → (t.precedes a b = true ↔
      (if m = .upgrade then 0 else (s.agent a).cls.toNat + 1) < p.rank) := fun hb hp =>
    State.joinQueue_precedes horder (hnotin _ (hin hb)) hp
  refine ⟨⟨front, back, hsplit, hlock, ?_, fun hm => ⟨fun b hb p hp => ?_, fun b hb p hp => ?_⟩, fun hm hother => ?_⟩,
    by rw [State.joinQueue_request, if_pos rfl], fun b hb => State.joinQueue_request_ne hb,
    fun k hk => by rw [State.joinQueue_lock, if_neg hk], ?_, rfl, rfl, rfl, rfl⟩
  · exact State.positionIn_of_append (by rw [hlock]) fun ha => hnotin a (hin (Or.inl ha)) rfl
  · have hrank := (hahead (Or.inl hb) hp).not.mp (hfront b hb)
    rw [if_neg hm] at hrank
    refine or_iff_not_imp_left.mpr fun hpm => ?_
    rw [PendingRequest.rank_of_not_upgrade hpm] at hrank
    rw [BitVec.le_def]
    omega
  · have hrank := (hahead (Or.inr hb) hp).mp (hback b hb)
    rw [if_neg hm] at hrank
    have hpm : p.mode ≠ .upgrade := fun hpm => by
      rw [PendingRequest.rank_of_upgrade hpm] at hrank
      exact Nat.not_lt_zero _ hrank
    rw [PendingRequest.rank_of_not_upgrade hpm] at hrank
    exact ⟨hpm, BitVec.lt_def.mpr (by omega)⟩
  · refine List.eq_nil_iff_forall_not_mem.mpr fun b hb => ?_
    obtain ⟨p, hp, -⟩ := hqueued b (hin (Or.inl hb))
    refine hfront b hb ((hahead (Or.inl hb) hp).mpr ?_)
    rw [if_pos hm, PendingRequest.rank_of_not_upgrade (hother b (hin (Or.inl hb)) p hp)]
    exact Nat.succ_pos _
  · cases e <;> cases timeout <;> rfl

end Sys2Proof.Machine
end

section
/-! The first checks of the lock commands, RELEASE and the quick path (R20, R21, R32 to R41, R62, R69, R76, R103). -/

namespace Sys2Proof.Machine

/-! ### Checks 1 and 2 (R20, R21, R35) -/

theorem lockOf_val (l : LockNum) : lockOf l.val = some l := dif_pos l.isLt

theorem lockOf_of_gt {n : Nat} (h : 63 < n) : lockOf n = none := dif_neg (by omega)

theorem AgentState.refusal_of_online {st : AgentState} (h : st = .online) : st.refusal = none := by rw [h]; rfl

/-- The second check passes: the lock number of ARG0 is that of the lock asked. -/
theorem State.Asks.lockOf_arg0 {u : State} {a : Agent} {l : LockNum} (h : u.Asks a l) :
    lockOf (numberField (u.argsOf a).arg0) = some l := by
  rw [show numberField (u.argsOf a).arg0 = l.val from h.lock, lockOf_val]

theorem State.Asks.refusal {u : State} {a : Agent} {l : LockNum} (h : u.Asks a l) :
    (u.agent a).state.refusal = none := AgentState.refusal_of_online h.online

/-- R20, R35, R62, R69, R76, R103: an agent that is not ONLINE. -/
theorem Command.taken_of_refusal {c : Command} (hc : c ∈ [.acquire, .release, .upgrade, .downgrade, .cancel, .renew])
    {s : State} {a : Agent} {code : OutcomeCode} (h : (s.settle.agent a).state.refusal = some code) :
    c.taken a s = (s.settle, ⟨code, 0⟩) := by
  simp only [List.mem_cons, List.not_mem_nil, or_false] at hc
  rcases hc with rfl | rfl | rfl | rfl | rfl | rfl
  · simp only [taken, State.acquireTaken, State.acquireDecision, h]
  · simp only [taken, State.releaseTaken, State.releaseCheck, h]
  · simp only [taken, State.upgradeTaken, State.upgradeDecision, h]
  · simp only [taken, State.downgradeTaken, State.downgradeCheck, h]
  · simp only [taken, State.cancelTaken, h]
  · simp only [taken, State.renewTaken, State.renewCheck, h]

/-- R21, R35, R69, R76, R103: a lock number above 63. -/
theorem Command.taken_of_badLock {c : Command} (hc : c ∈ [.acquire, .release, .upgrade, .downgrade, .renew])
    {s : State} {a : Agent} (honline : (s.settle.agent a).state = .online) (hlock : 63 < s.settle.lockArg a) :
    c.taken a s = (s.settle, badArgument 1) := by
  have hon := AgentState.refusal_of_online honline
  have hnone : lockOf (numberField (s.settle.argsOf a).arg0) = none := lockOf_of_gt hlock
  simp only [List.mem_cons, List.not_mem_nil, or_false] at hc
  rcases hc with rfl | rfl | rfl | rfl | rfl
  · simp only [taken, State.acquireTaken, State.acquireDecision, acquireArgs, hon, hnone]
  · simp only [taken, State.releaseTaken, State.releaseCheck, hon, hnone]
  · simp only [taken, State.upgradeTaken, State.upgradeDecision, hon, hnone]
  · simp only [taken, State.downgradeTaken, State.downgradeCheck, hon, hnone]
  · simp only [taken, State.renewTaken, State.renewCheck, hon, hnone]

/-- Settles O21: a first check that fails refuses the command on the settled state. -/
theorem firstChecksOfLockCommands : Obligations.FirstChecksOfLockCommands := by
  intro c a w s htakes u refused
  refine ⟨fun hc => ⟨fun hst => ?_, fun hst => ?_⟩, fun hc honline hlock => ?_⟩ <;>
    simp only [refused, exec_row_taken htakes]
  · rw [Command.taken_of_refusal hc (code := .agentOffline) (by rw [hst]; rfl)]
  · rw [Command.taken_of_refusal hc (code := .agentPurging) (by rw [hst]; rfl)]
  · rw [Command.taken_of_badLock hc honline hlock]
    rfl

/-! ### RELEASE (R35 to R37) -/

/-- Table 2-5: checks 3 and 4 of RELEASE. -/
theorem State.releaseCheck_of_asks {u : State} {a : Agent} {l : LockNum} (h : u.Asks a l) :
    u.releaseCheck a (numberField (u.argsOf a).arg0) =
      if (u.lock l).holds a = false then .inl ⟨.notHolder, 0⟩
      else if u.upgradeQueued a l = true then .inl ⟨.upgradePending, 0⟩ else .inr l := by
  simp only [State.releaseCheck, h.refusal, h.lockOf_arg0, Bool.not_eq_true']

/-- Settles O26: RELEASE is refused, or gives the hold up. -/
theorem releaseOutcomes : Obligations.ReleaseOutcomes := by
  intro a w s l htakes hasks u
  have hcheck := State.releaseCheck_of_asks hasks
  have hexec : exec (.release a w) s = .next ((s.releaseTaken a).1.answers a w (s.releaseTaken a).2) :=
    exec_row_taken htakes
  rw [hexec]
  unfold State.releaseTaken
  refine ⟨fun hno => ?_, fun hholds => ⟨fun hup => ?_, fun hup => ?_⟩⟩
  · rw [if_pos hno] at hcheck
    simp only [hcheck, u]
  · rw [if_neg (by rw [hholds]; decide), if_pos hup] at hcheck
    simp only [hcheck, u]
  · rw [if_neg (by rw [hholds]; decide), if_neg (by rw [hup]; decide)] at hcheck
    simp only [hcheck]
    rfl

/-! ### The quick path (R32 to R34, R39) -/

/-- R27, R159: the detail of GRANTED for a grant that is no conversion. -/
theorem flagsDetail_recovered (recovered : Bool) : flagsDetail recovered false = if recovered then 1 else 0 := by
  cases recovered <;> decide

/-- Table 2-4: checks 2 to 4 of a TRY read. -/
theorem State.tryRefusal_of_online {u : State} {a : Agent} (h : (u.agent a).state = .online) (l : LockNum) :
    u.tryRefusal a l =
      if (u.lock l).leaseRequired = true then some ⟨.leaseRequired, 0⟩
      else if (u.lock l).holds a = true then some (outcomeState .alreadyHolder (u.lock l).state)
      else if (u.lock l).state ≠ .free then some (outcomeState .busy (u.lock l).state) else none := by
  simp only [State.tryRefusal, AgentState.refusal_of_online h, bne_iff_ne]

theorem State.tryRefusal_of_refusal {u : State} {a : Agent} {c : OutcomeCode} (h : (u.agent a).state.refusal = some c)
    (l : LockNum) : u.tryRefusal a l = some ⟨c, 0⟩ := by
  simp only [State.tryRefusal, h]

/-- R32: a TRY read that is refused. -/
theorem State.tryReadTaken_refused {s : State} {a : Agent} {l : LockNum} {o : CmdOutcome}
    (h : s.settle.tryRefusal a l = some o) : s.tryReadTaken a l = s.settle.answerRead .ok o.tryWord := by
  simp only [State.tryReadTaken, h]

/-- R32: a TRY read that is granted. -/
theorem State.tryReadTaken_granted {s : State} {a : Agent} {l : LockNum} (h : s.settle.tryRefusal a l = none) :
    s.tryReadTaken a l = (s.settle.grantNow a l .exclusive none none).answerRead .ok
      (CmdOutcome.tryWord ⟨.granted, flagsDetail (s.settle.lock l).recovered false⟩) := by
  simp only [State.tryReadTaken, h]

/-- Table 2-6: check 2 of a TRY write. -/
theorem State.tryWriteRefusal_of_online {u : State} {a : Agent} (h : (u.agent a).state = .online) (l : LockNum) :
    u.tryWriteRefusal a l =
      if (u.lock l).holds a = false ∨ u.upgradeQueued a l = true then some .notHolder else none := by
  simp only [State.tryWriteRefusal, h, Bool.or_eq_true, Bool.not_eq_true']

theorem State.tryWriteRefusal_of_not_online {u : State} {a : Agent} (h : (u.agent a).state ≠ .online) (l : LockNum) :
    u.tryWriteRefusal a l = some .agentNotOnline := by
  cases hst : (u.agent a).state
  case online => exact absurd hst h
  all_goals simp only [State.tryWriteRefusal, hst]

/-- R39: a TRY write that is refused. -/
theorem State.tryWriteTaken_refused {s : State} {a : Agent} {l : LockNum} {k : ErrorKind}
    (h : s.settle.tryWriteRefusal a l = some k) : s.tryWriteTaken a l = s.settle.refuseWrite a k := by
  simp only [State.tryWriteTaken, h]

/-- R39: a TRY write that gives up the hold. -/
theorem State.tryWriteTaken_released {s : State} {a : Agent} {l : LockNum}
    (h : s.settle.tryWriteRefusal a l = none) : s.tryWriteTaken a l = (s.settle.giveUp a l).answerWrite .ok := by
  simp only [State.tryWriteTaken, h]

/-- Settles O43: the rows of Tables 2-4 and 2-6. -/
theorem tryAccesses : Obligations.TryAccesses := by
  intro a l w s hready u r reads online
  have hread : exec (.tryRead a l) s = .next (s.tryReadTaken a l) :=
    congrArg Host.Outcome.next (State.readAccess_taken hready _)
  have refused : ∀ o : CmdOutcome, u.tryRefusal a l = some o → reads u o.code o.detail := fun o h => by
    simp only [reads]
    rw [hread, State.tryReadTaken_refused h]
    rfl
  refine ⟨⟨fun hst => ?_, fun hst => ?_, fun hon hlease => ?_, fun hon hlease hholds => ?_,
    fun hon hlease hholds hbusy => ?_, fun hon hlease hholds hfree => ?_⟩, fun hparity => ?_⟩
  · exact refused ⟨.agentOffline, 0⟩ (State.tryRefusal_of_refusal (by rw [hst]; rfl) l)
  · exact refused ⟨.agentPurging, 0⟩ (State.tryRefusal_of_refusal (by rw [hst]; rfl) l)
  · exact refused ⟨.leaseRequired, 0⟩ (by rw [State.tryRefusal_of_online hon, if_pos hlease])
  · refine refused (outcomeState .alreadyHolder r.state) ?_
    rw [State.tryRefusal_of_online hon, if_neg (ne_true_of_eq_false hlease), if_pos hholds]
  · refine refused (outcomeState .busy r.state) ?_
    rw [State.tryRefusal_of_online hon, if_neg (ne_true_of_eq_false hlease), if_neg (ne_true_of_eq_false hholds),
      if_pos hbusy]
  · have hnone : u.tryRefusal a l = none := by
      rw [State.tryRefusal_of_online hon, if_neg (ne_true_of_eq_false hlease),
        if_neg (ne_true_of_eq_false hholds), if_neg (not_not.mpr hfree)]
    simp only [reads]
    rw [hread, State.tryReadTaken_granted hnone, flagsDetail_recovered]
    rfl
  · have hwrite : exec (.tryWrite a l w) s = .next (s.tryWriteTaken a l) :=
      congrArg Host.Outcome.next (State.writeAccess_taken hready hparity a _)
    rw [hwrite]
    refine ⟨fun hoff => ?_, fun hon hno => ?_, fun hon hholds hup => ?_⟩
    · rw [State.tryWriteTaken_refused (State.tryWriteRefusal_of_not_online hoff l)]
      rfl
    · rw [State.tryWriteTaken_refused (k := .notHolder) (by rw [State.tryWriteRefusal_of_online hon, if_pos hno])]
      rfl
    · have hnone : u.tryWriteRefusal a l = none := by
        rw [State.tryWriteRefusal_of_online hon, if_neg]
        rintro (h | h)
        exacts [ne_true_of_eq_false h hholds, ne_true_of_eq_false hup h]
      rw [State.tryWriteTaken_released hnone]
      rfl

end Sys2Proof.Machine
end

section
/-! ACQUIRE past its first check (R18 to R30, R80, R89): its arguments, its checks, and what it ends in. -/

namespace Sys2Proof.Machine

/-! ### What the checks look for -/

theorem duration_of_ne {n : Nat} (h : n ≠ 0) : duration n = some n := if_neg h

theorem duration_zero : duration 0 = none := rfl

theorem duration_isSome_iff {n : Nat} : (duration n).isSome = true ↔ n ≠ 0 := by
  by_cases h : n = 0
  · simp [h, duration_zero]
  · simp [h, duration_of_ne h]

/-- R21, R161: the two valid mode codes. -/
theorem acquireMode_of_valid {code : BitVec 2} (h : code = 1 ∨ code = 2) :
    ∃ m, acquireMode code = some m ∧ (m = .shared ↔ code = 2) := by
  rcases h with rfl | rfl
  · exact ⟨.exclusive, rfl, by decide⟩
  · exact ⟨.shared, rfl, by decide⟩

theorem acquireMode_of_invalid {code : BitVec 2} (h1 : code ≠ 1) (h2 : code ≠ 2) : acquireMode code = none := by
  rw [acquireMode, if_neg h1, if_neg h2]

theorem acquireMode_code {m : Mode} (h : m ≠ .upgrade) : acquireMode m.code = some m := by
  cases m
  · rfl
  · rfl
  · exact absurd rfl h

/-- R25: the test of check 7 is the rule. -/
theorem LockRecord.grantableNow_iff {r : LockRecord} {m : Mode} (hm : m ≠ .upgrade) :
    r.grantableNow m = true ↔ r.Grantable m := by
  cases m
  case upgrade => exact absurd rfl hm
  all_goals cases hs : r.state <;> simp [grantableNow, Grantable, hs]

/-- Table 1-3: the state that an immediate grant gives the lock. -/
theorem Mode.lockState_eq {m : Mode} : m.lockState = if m = .shared then .shared else .exclusive := by
  cases m <;> rfl

/-- What a search of an ascending list finds is its least member that passes. -/
theorem find?_eq_some_iff_least {n : Nat} {p : Fin n → Bool} {x : Fin n} : ∀ {xs : List (Fin n)},
    xs.Pairwise (· < ·) → (xs.find? p = some x ↔ (x ∈ xs ∧ p x = true) ∧ ∀ y ∈ xs, p y = true → x ≤ y)
  | [], _ => by simp
  | z :: zs, h => by
    obtain ⟨hz, hzs⟩ := List.pairwise_cons.mp h
    by_cases hp : p z = true
    · rw [List.find?_cons_of_pos hp, Option.some_inj]
      constructor
      · rintro rfl
        exact ⟨⟨List.mem_cons_self, hp⟩, fun y hy _ =>
          (List.mem_cons.mp hy).elim (fun e => e ▸ le_rfl) fun hy => (hz y hy).le⟩
      · rintro ⟨⟨hx, -⟩, hleast⟩
        exact (List.mem_cons.mp hx).elim Eq.symm fun hx =>
          absurd (hleast z List.mem_cons_self hp) (not_le.mpr (hz x hx))
    · have hne : ∀ {y}, p y = true → y ≠ z := by
        rintro y hy rfl
        exact hp hy
      rw [List.find?_cons_of_neg hp, find?_eq_some_iff_least hzs]
      constructor
      · rintro ⟨⟨hx, hpx⟩, hleast⟩
        exact ⟨⟨List.mem_cons_of_mem _ hx, hpx⟩, fun y hy hpy =>
          hleast y ((List.mem_cons.mp hy).resolve_left (hne hpy)) hpy⟩
      · rintro ⟨⟨hx, hpx⟩, hleast⟩
        exact ⟨⟨(List.mem_cons.mp hx).resolve_left (hne hpx), hpx⟩, fun y hy => hleast y (List.mem_cons_of_mem _ hy)⟩

/-- R89: the entry found is the lowest-numbered FREE one. -/
theorem DeadlineUnit.findFree_eq_some_iff {d : DeadlineUnit} {e : EntryNum} : d.findFree = some e ↔ d.FirstFree e := by
  have hsorted : allEntries.Pairwise (· < ·) := List.pairwise_lt_finRange 24
  rw [findFree, find?_eq_some_iff_least hsorted]
  simp only [mem_allEntries, true_and, forall_true_left, beq_iff_eq]
  rfl

/-- R96: no entry is found where none is FREE. -/
theorem DeadlineUnit.findFree_of_full {d : DeadlineUnit} (h : d.Full) : d.findFree = none := by
  rw [findFree, List.find?_eq_none]
  exact fun e _ hfree => h e (by simpa using hfree)

/-- R80: what the walk tests of a holder. -/
theorem State.mem_and_reaches_iff {u : State} {a : Agent} {l : LockNum} {h : Agent} :
    (h ∈ (u.lock l).holderList.filter (· != a) ∧ u.reaches h a = true) ↔ u.Blocks a l h := by
  rw [List.mem_filter, LockRecord.mem_holderList, bne_iff_ne]
  constructor
  · rintro ⟨⟨hholds, hne⟩, hreach⟩
    exact ⟨hholds, hne, (State.reaches_iff hne).mp hreach⟩
  · rintro ⟨hholds, hne, hreach⟩
    exact ⟨⟨hholds, hne⟩, (State.reaches_iff hne).mpr hreach⟩

/-- R80: the holder found is the lowest-numbered from which the requester is reachable. -/
theorem State.deadlockHolder_of_firstBlocker {u : State} {a : Agent} {l : LockNum} {h : Agent}
    (hfirst : u.FirstBlocker a l h) : u.deadlockHolder a l = some h := by
  have hsorted : ((u.lock l).holderList.filter (· != a)).Pairwise (· < ·) :=
    ((List.pairwise_lt_finRange 8).filter _).filter _
  obtain ⟨hblocks, hleast⟩ := hfirst
  exact (find?_eq_some_iff_least hsorted).mpr ⟨State.mem_and_reaches_iff.mpr hblocks, fun k hk hreach =>
    hleast k (State.mem_and_reaches_iff.mp ⟨hk, hreach⟩)⟩

/-- R80: none is found where the requester is reachable from no holder. -/
theorem State.deadlockHolder_of_no_blocker {u : State} {a : Agent} {l : LockNum} (h : ∀ b, ¬ u.Blocks a l b) :
    u.deadlockHolder a l = none :=
  List.find?_eq_none.mpr fun b hb hreach => h b (State.mem_and_reaches_iff.mp ⟨hb, hreach⟩)

/-! ### The checks in order (R19, Table 2-2) -/

section
variable {u : State} {a : Agent} {l : LockNum} {m : Mode}

/-- Check 2. -/
theorem State.acquireDecision_badMode (h : u.Asks a l) (hm : acquireMode (codeField (u.argsOf a).arg0) = none) :
    u.acquireDecision a (acquireArgs (u.argsOf a)) = .refuse (badArgument 2) := by
  simp only [State.acquireDecision, acquireArgs, h.refusal, h.lockOf_arg0, hm]

/-- Check 3. -/
theorem State.acquireDecision_pending (h : u.Asks a l) (hm : acquireMode (codeField (u.argsOf a).arg0) = some m)
    {q : PendingRequest} (hq : u.request a = some q) : u.acquireDecision a (acquireArgs (u.argsOf a)) =
      .refuse (outcomeNumber .requestPending q.lock.val) := by
  simp only [State.acquireDecision, acquireArgs, h.refusal, h.lockOf_arg0, hm, hq]

/-- Checks 4 to 6, and what stands behind them. -/
theorem State.acquireDecision_idle (h : u.Asks a l) (hm : acquireMode (codeField (u.argsOf a).arg0) = some m)
    (hq : u.request a = none) : u.acquireDecision a (acquireArgs (u.argsOf a)) =
      if m = .shared ∧ (u.lock l).sharedAllowed = false then .refuse ⟨.modeNotAllowed, 0⟩
      else if (u.lock l).leaseRequired = true ∧ leaseField (u.argsOf a).arg1 = 0 then .refuse ⟨.leaseRequired, 0⟩
      else if (u.lock l).holds a = true then .refuse (outcomeState .alreadyHolder (u.lock l).state)
      else if (u.lock l).grantableNow m = true then u.grantCheck l m (acquireArgs (u.argsOf a))
      else u.queueChecks a l m (acquireArgs (u.argsOf a)) := by
  have hlease : (acquireArgs (u.argsOf a)).lease.isNone = true ↔ leaseField (u.argsOf a).arg1 = 0 := by
    rw [← Option.not_isSome, Bool.not_eq_true', ← Bool.not_eq_true]
    exact (not_congr duration_isSome_iff).trans not_not
  have hlock : lockOf (acquireArgs (u.argsOf a)).lockField = some l := h.lockOf_arg0
  have hmode : (acquireArgs (u.argsOf a)).mode = some m := hm
  simp only [State.acquireDecision, h.refusal, hlock, hmode, hq, Bool.and_eq_true, beq_iff_eq, Bool.not_eq_true',
    hlease]

/-- Checks 1 to 6 passed: the request goes on to check 7, or to checks 8 to 11. -/
theorem State.PassesAcquire.decision (h : u.PassesAcquire a l m) : u.acquireDecision a (acquireArgs (u.argsOf a)) =
    if (u.lock l).grantableNow m = true then u.grantCheck l m (acquireArgs (u.argsOf a))
    else u.queueChecks a l m (acquireArgs (u.argsOf a)) := by
  have hmode : acquireMode (codeField (u.argsOf a).arg0) = some m := by rw [h.mode, acquireMode_code h.asked]
  rw [State.acquireDecision_idle h.toAsks hmode h.idle,
    if_neg fun hc => ne_true_of_eq_false hc.2 (h.allowed hc.1), if_neg fun hc => h.leased hc.1 hc.2,
    if_neg (ne_true_of_eq_false h.stranger)]

end

/-! ### Check 7, and checks 8 to 11 (R26, R28, R29) -/

section
variable {s : State} {l : LockNum} {m : Mode} {x : AcquireArgs}

theorem State.grantCheck_noLease (h : x.lease = none) : s.grantCheck l m x = .grant l m none := by
  simp [State.grantCheck, h]

theorem State.grantCheck_entry {n : Nat} (h : x.lease = some n) {e : EntryNum} (he : s.du.findFree = some e) :
    s.grantCheck l m x = .grant l m (some e) := by
  simp only [State.grantCheck, h, he, Option.isSome_some, if_true]

theorem State.grantCheck_full {n : Nat} (h : x.lease = some n) (he : s.du.findFree = none) :
    s.grantCheck l m x = .refuse ⟨.noDeadline, 0⟩ := by
  simp only [State.grantCheck, h, he, Option.isSome_some, if_true]

theorem State.queueChecks_busy {a : Agent} (h : x.wait = false) :
    s.queueChecks a l m x = .refuse (outcomeState .busy (s.lock l).state) := by
  simp [State.queueChecks, h]

theorem State.queueChecks_deadlock {a : Agent} (h : x.wait = true) {b : Agent} (hd : s.deadlockHolder a l = some b) :
    s.queueChecks a l m x = .refuse (outcomeNumber .wouldDeadlock b.val) := by
  simp [State.queueChecks, h, hd]

/-- R30: a request that asks neither a timeout nor a lease queues with no entry. -/
theorem State.queueChecks_noEntry {a : Agent} (h : x.wait = true) (hd : s.deadlockHolder a l = none)
    (hn : (x.timeout.isSome || x.lease.isSome) = false) : s.queueChecks a l m x = .enqueue l m none := by
  simp [State.queueChecks, h, hd, hn]

theorem State.queueChecks_entry {a : Agent} (h : x.wait = true) (hd : s.deadlockHolder a l = none)
    (hn : (x.timeout.isSome || x.lease.isSome) = true) {e : EntryNum} (he : s.du.findFree = some e) :
    s.queueChecks a l m x = .enqueue l m (some e) := by
  simp only [State.queueChecks, h, hd, hn, he, if_true]

theorem State.queueChecks_full {a : Agent} (h : x.wait = true) (hd : s.deadlockHolder a l = none)
    (hn : (x.timeout.isSome || x.lease.isSome) = true) (he : s.du.findFree = none) :
    s.queueChecks a l m x = .refuse ⟨.noDeadline, 0⟩ := by
  simp only [State.queueChecks, h, hd, hn, he, if_true]

end

/-! ### What ACQUIRE ends in -/

section
variable {s : State} {a : Agent} {w : WriteData} (htakes : s.Takes .acquire a w)
include htakes

theorem exec_acquire_taken : exec (.acquire a w) s = .next ((s.acquireTaken a).1.answers a w (s.acquireTaken a).2) :=
  exec_row_taken htakes

theorem exec_acquire_refused {o : CmdOutcome}
    (h : s.settle.acquireDecision a (acquireArgs (s.settle.argsOf a)) = .refuse o) :
    exec (.acquire a w) s = .next (s.settle.answers a w o) := by
  rw [exec_acquire_taken htakes]
  simp only [State.acquireTaken, h]

theorem exec_acquire_granted {l : LockNum} {m : Mode} {e : Option EntryNum}
    (h : s.settle.acquireDecision a (acquireArgs (s.settle.argsOf a)) = .grant l m e) :
    exec (.acquire a w) s = .next ((s.settle.grantNow a l m (duration (leaseField (s.settle.argsOf a).arg1)) e).answers
      a w ⟨.granted, if (s.settle.lock l).recovered then 1 else 0⟩) := by
  rw [exec_acquire_taken htakes, ← flagsDetail_recovered]
  simp only [State.acquireTaken, h]
  rfl

theorem exec_acquire_queued {l : LockNum} {m : Mode} {e : Option EntryNum}
    (h : s.settle.acquireDecision a (acquireArgs (s.settle.argsOf a)) = .enqueue l m e) :
    let t := s.settle.joinQueue a l m (duration (timeoutField (s.settle.argsOf a).arg0))
      (duration (leaseField (s.settle.argsOf a).arg1)) e
    exec (.acquire a w) s = .next (t.answers a w ⟨.queued, BitVec.ofNat 16 (t.positionIn a l)⟩) := by
  rw [exec_acquire_taken htakes]
  simp only [State.acquireTaken, h]
  rfl

end

/-- Settles O22: each check refuses where those before it pass. -/
theorem acquireRefusals : Obligations.AcquireRefusals := by
  intro a w s l htakes hasks u r code lease refused
  have refuse : ∀ {o}, u.acquireDecision a (acquireArgs (u.argsOf a)) = .refuse o → refused o :=
    exec_acquire_refused htakes
  refine ⟨fun h1 h2 => refuse (State.acquireDecision_badMode hasks (acquireMode_of_invalid h1 h2)), fun hcode => ?_⟩
  obtain ⟨m, hmode, hshared⟩ := acquireMode_of_valid hcode
  refine ⟨fun q hq => refuse (State.acquireDecision_pending hasks hmode hq), fun hq h2 hno => ?_,
    fun hq hallowed hrequired hzero => ?_, fun hq hallowed hleased hholds => ?_⟩ <;>
    refine refuse ?_ <;> rw [State.acquireDecision_idle hasks hmode hq]
  · rw [if_pos ⟨hshared.mpr h2, hno⟩]
  · rw [if_neg fun hc => ne_true_of_eq_false hc.2 (hallowed (hshared.mp hc.1)), if_pos ⟨hrequired, hzero⟩]
  · rw [if_neg fun hc => ne_true_of_eq_false hc.2 (hallowed (hshared.mp hc.1)), if_neg fun hc => hleased hc.1 hc.2,
      if_pos hholds]
    rfl

/-- Settles O23: check 7 takes an entry for the lease alone. -/
theorem acquireGrants : Obligations.AcquireGrants := by
  intro a w s l m htakes hpasses hgrantable u r lease state granted o
  have hdecision : u.acquireDecision a (acquireArgs (u.argsOf a)) = u.grantCheck l m (acquireArgs (u.argsOf a)) := by
    rw [hpasses.decision, if_pos ((LockRecord.grantableNow_iff hpasses.asked).mpr hgrantable)]
  have hseat : ∀ e, r.withHolder a m.lockState e =
      { r with holders := setRow r.holders a (some ⟨e⟩), state := state, recovered := false } := fun e => by
    rw [Mode.lockState_eq]; rfl
  refine ⟨fun hzero => ?_, fun e hne hfirst => ?_, fun hne hfull => ?_⟩
  · have hlease : duration lease = none := by rw [hzero]; rfl
    rw [exec_acquire_granted htakes (hdecision.trans (State.grantCheck_noLease hlease))]
    simp only [granted, ← hseat]
    rfl
  · have hlease : duration lease = some lease := duration_of_ne hne
    rw [exec_acquire_granted htakes
      (hdecision.trans (State.grantCheck_entry hlease (DeadlineUnit.findFree_eq_some_iff.mpr hfirst)))]
    simp only [granted, ← hseat, State.grantNow, u, lease, hlease]
    rfl
  · exact exec_acquire_refused htakes
      (hdecision.trans (State.grantCheck_full (duration_of_ne hne) (DeadlineUnit.findFree_of_full hfull)))

/-- Settles O24: checks 8 to 11 in order. -/
theorem acquireQueues : Obligations.AcquireQueues := by
  intro a w s l m htakes hpasses hnot u arg0 timeout lease refused queued
  obtain ⟨x, hx⟩ : ∃ x, x = acquireArgs (u.argsOf a) := ⟨_, rfl⟩
  have hdecision : u.acquireDecision a (acquireArgs (u.argsOf a)) = u.queueChecks a l m x := by
    rw [hpasses.decision, if_neg (mt (LockRecord.grantableNow_iff hpasses.asked).mp hnot), hx]
  have hasked : (x.timeout.isSome || x.lease.isSome) = true ↔ timeout ≠ 0 ∨ lease ≠ 0 := by
    rw [Bool.or_eq_true, hx]
    exact or_congr duration_isSome_iff duration_isSome_iff
  have refuse : ∀ {o}, u.queueChecks a l m x = .refuse o → refused o := fun h =>
    exec_acquire_refused htakes (hdecision.trans h)
  have enqueue : ∀ {e}, u.queueChecks a l m x = .enqueue l m e → queued (duration timeout) (duration lease) e :=
    fun h => exec_acquire_queued htakes (hdecision.trans h)
  refine ⟨fun hwait => refuse (State.queueChecks_busy (by rw [hx]; exact hwait)), fun hwait => ?_⟩
  replace hwait : x.wait = true := by rw [hx]; exact hwait
  refine ⟨fun h hfirst => refuse (State.queueChecks_deadlock hwait (State.deadlockHolder_of_firstBlocker hfirst)),
    fun hnone => ?_⟩
  have hd := State.deadlockHolder_of_no_blocker hnone
  refine ⟨fun ht hl => ?_, fun e hfirst => ?_, fun hfull hne => ?_⟩
  · have hno : (x.timeout.isSome || x.lease.isSome) = false :=
      Bool.eq_false_iff.mpr fun hc => (hasked.mp hc).elim (· ht) (· hl)
    have h := enqueue (State.queueChecks_noEntry hwait hd hno)
    rwa [ht, hl] at h
  · have entry : timeout ≠ 0 ∨ lease ≠ 0 → queued (duration timeout) (duration lease) (some e) := fun hne =>
      enqueue (State.queueChecks_entry hwait hd (hasked.mpr hne) (DeadlineUnit.findFree_eq_some_iff.mpr hfirst))
    refine ⟨fun ht => ?_, fun ht hl => ?_⟩
    · have h := entry (Or.inl ht)
      rwa [duration_of_ne ht] at h
    · have h := entry (Or.inr hl)
      rwa [ht, duration_of_ne hl] at h
  · exact refuse (State.queueChecks_full hwait hd (hasked.mpr hne) (DeadlineUnit.findFree_of_full hfull))

end Sys2Proof.Machine
end

section
/-! A request that leaves its queue without a grant: CANCEL and the WAIT expiry (R62, R63, R65, R67). -/

namespace Sys2Proof.Machine

/-! ### The grant step as a request leaves (R67) -/

/-- R67: the request that leaves stood at the head. -/
theorem State.grantIf_of_head {s : State} {a : Agent} {l : LockNum} (h : (s.lock l).queue.head? = some a) (t : State) :
    t.grantIf (s.atHead a l) l = t.grantStep l := by
  rw [show s.atHead a l = true from beq_iff_eq.mpr h, State.grantIf_true]

/-- R67: it stood behind the head. -/
theorem State.grantIf_of_behind {s : State} {a : Agent} {l : LockNum} (h : (s.lock l).queue.head? ≠ some a)
    (t : State) : t.grantIf (s.atHead a l) l = t := by
  rw [show s.atHead a l = false from beq_eq_false_iff_ne.mpr h, State.grantIf_false]

/-! ### CANCEL (R62, R63) -/

section
variable {s : State} {a : Agent}

/-- R63: a request is dropped: it leaves its queue, and the grant step is that of R67. -/
theorem State.dropRequest_of_some {q : PendingRequest} (hq : s.request a = some q) : s.dropRequest a =
    ((s.leaveQueue q.lock a).withDu (·.freeOwned q.entry)).grantIf (s.atHead a q.lock) q.lock := by
  simp only [State.dropRequest, hq, State.dequeue_of_some hq]

/-- R62: an ONLINE agent without a request. -/
theorem State.cancelTaken_of_none (honline : (s.settle.agent a).state = .online) (hq : s.settle.request a = none) :
    s.cancelTaken a = (s.settle, ⟨.nothingPending, 0⟩) := by
  simp only [State.cancelTaken, AgentState.refusal_of_online honline, hq]

/-- R63: an ONLINE agent with a request. -/
theorem State.cancelTaken_of_some (honline : (s.settle.agent a).state = .online) {q : PendingRequest}
    (hq : s.settle.request a = some q) :
    s.cancelTaken a = (s.settle.dropRequest a, outcomeNumber .cancelled q.lock.val) := by
  simp only [State.cancelTaken, AgentState.refusal_of_online honline, hq]

end

/-- Settles O31: CANCEL finds no request, or drops it. -/
theorem cancelOutcomes : Obligations.CancelOutcomes := by
  intro a w s htakes honline u
  have hexec : exec (.cancel a w) s = .next ((s.cancelTaken a).1.answers a w (s.cancelTaken a).2) :=
    exec_row_taken htakes
  refine ⟨fun hnone => by rw [hexec, State.cancelTaken_of_none honline hnone], ?_⟩
  intro q hq l left freed gone
  have hfreed : (u.leaveQueue l a).withDu (·.freeOwned q.entry) = freed := by
    simp only [freed]
    cases q.entry <;> rfl
  have hgone : gone (freed.grantIf (u.atHead a l) l) := by
    simp only [gone]
    rw [hexec, State.cancelTaken_of_some honline hq, State.dropRequest_of_some hq, ← hfreed]
    rfl
  refine ⟨fun hhead => ?_, fun hbehind => ?_⟩
  · rwa [State.grantIf_of_head hhead] at hgone
  · rwa [State.grantIf_of_behind hbehind] at hgone

/-! ### WAIT_EXPIRY (R65, R98) -/

/-- R98: WAIT_EXPIRY takes the expiry first in turn, which is of a WAIT entry, and then the held ticks. -/
theorem exec_waitExpiry_of_wait {s : State} {e : EntryNum} {rest : List EntryNum} {a : Agent} {k : LockNum} {n o : Nat}
    (hfirst : s.du.expiries = e :: rest) (hentry : s.du.entries.get e = .armed .wait a k n o) :
    exec .waitExpiry s = .next (s.waitExpired e a).catchUp := by
  have hnext : s.nextExpiry = some .wait := by simp only [State.nextExpiry, hfirst, hentry]
  have htake : s.takeExpiry = s.waitExpired e a := by simp only [State.takeExpiry, hfirst, State.expiryOf, hentry]
  show execWaitExpiry s = _
  rw [execWaitExpiry, if_pos hnext, htake]

/-- Settles O39: the WAIT expiry of an owned entry is the time-out of its request. -/
theorem waitExpiryTimesOut : Obligations.WaitExpiryTimesOut := by
  intro s e rest a k n o q hfirst hentry hq he l left told
  have htold : s.timeOut a q = told.grantIf (s.atHead a l) l := by
    rw [State.timeOut, State.dequeue_of_some hq, he]
    rfl
  rw [exec_waitExpiry_of_wait hfirst hentry, State.waitExpired_eq hq he, htold]
  refine ⟨fun hhead => ?_, fun hbehind => ?_⟩
  · rw [State.grantIf_of_head hhead]
  · rw [State.grantIf_of_behind hbehind]

end Sys2Proof.Machine
end

section
/-! One run of the grant step on any lock: its head test, its batch, its counts and promotions (R54 to R60); and what
the grant step leaves alone (R53, R54). -/

namespace Sys2Proof.Machine

/-! ### The batch granted (R55, R56) -/

/-- R55, R56: the members of a batch are granted, one after the other. -/
def State.grantBatch (s : State) (l : LockNum) (recovered : Bool) (batch : List Agent) : State :=
  batch.foldl (fun t a => t.grantWaiter l recovered a) s

section
variable {s : State} {l : LockNum} {r : Bool}

theorem State.grantBatch_cons (a : Agent) (bs : List Agent) :
    s.grantBatch l r (a :: bs) = (s.grantWaiter l r a).grantBatch l r bs := rfl

/-- What each grant keeps, the grants of a batch keep. -/
theorem State.grantBatch_induct {P : State → Prop} (grant : ∀ t a, P t → P (t.grantWaiter l r a)) (bs : List Agent)
    (h : P s) : P (s.grantBatch l r bs) := by
  induction bs generalizing s with
  | nil => exact h
  | cons a bs ih => exact ih (grant s a h)

/-- R55: the request of a granted waiter becomes absent. -/
theorem State.grantWaiter_request (a b : Agent) :
    (s.grantWaiter l r a).request b = if b = a then none else s.request b := by
  cases hq : s.request a with
  | some q => rw [State.grantWaiter_of_some hq, State.post_request, State.seatWaiter_request]
  | none =>
    rw [State.grantWaiter_of_none hq]
    split
    · next hb => rw [hb, hq]
    · rfl

theorem State.grantBatch_request (bs : List Agent) (b : Agent) :
    (s.grantBatch l r bs).request b = if b ∈ bs then none else s.request b := by
  induction bs generalizing s with
  | nil => simp [State.grantBatch]
  | cons a bs ih =>
    rw [State.grantBatch_cons, ih, State.grantWaiter_request]
    by_cases hb : b ∈ bs
    · rw [if_pos hb, if_pos (List.mem_cons_of_mem _ hb)]
    · simp only [hb, if_false, List.mem_cons, or_false]

/-- R55: the lock record after a grant. -/
theorem State.grantWaiter_lock_of_some {a : Agent} {q : PendingRequest} (hq : s.request a = some q) :
    (s.grantWaiter l r a).lock l =
      ({ s.lock l with queue := (s.lock l).queue.filter (· != a) }).withHolder a q.mode.lockState q.grantedLease := by
  rw [State.grantWaiter_of_some hq, State.post_lock, State.seatWaiter_lock, if_pos rfl]

theorem State.grantWaiter_queue_sublist (a : Agent) :
    ((s.grantWaiter l r a).lock l).queue.Sublist (s.lock l).queue := by
  cases hq : s.request a with
  | none => rw [State.grantWaiter_of_none hq]
  | some q =>
    rw [State.grantWaiter_lock_of_some hq]
    exact List.filter_sublist

theorem State.grantBatch_queue_sublist (bs : List Agent) :
    ((s.grantBatch l r bs).lock l).queue.Sublist (s.lock l).queue :=
  State.grantBatch_induct (P := fun t => (t.lock l).queue.Sublist (s.lock l).queue)
    (fun _ _ h => (State.grantWaiter_queue_sublist _).trans h) bs (List.Sublist.refl _)

theorem State.grantBatch_frame (bs : List Agent) : s.EngineFrame (s.grantBatch l r bs) :=
  State.grantBatch_induct (P := fun t => s.EngineFrame t) (fun t a h => h.trans (t.grantWaiter_frame l r a)) bs
    (.refl s)

theorem State.grantBatch_onlyLock (bs : List Agent) : State.OnlyLock l s (s.grantBatch l r bs) :=
  State.grantBatch_induct (P := fun t => State.OnlyLock l s t)
    (fun t a h k hk => (t.grantWaiter_onlyLock l r a k hk).trans (h k hk)) bs fun _ _ => rfl

theorem State.grantBatch_attributes (bs : List Agent) : s.AttributesKept (s.grantBatch l r bs) :=
  State.grantBatch_induct (P := fun t => s.AttributesKept t)
    (fun t a h => h.trans (State.AttributesKept.grantWaiter t l r a)) bs (.refl s)

end

/-! ### Promotion (R59) -/

theorem State.place_perm (s : State) (a : Agent) (xs : List Agent) : (s.place a xs).Perm (a :: xs) := by
  induction xs with
  | nil => exact .refl _
  | cons x xs ih =>
    unfold State.place
    split
    · exact .refl _
    · exact (ih.cons x).trans (.swap a x xs)

theorem State.foldl_place_perm (s : State) (ps xs : List Agent) :
    (ps.foldl (fun q a => s.place a q) xs).Perm (ps ++ xs) := by
  induction ps generalizing xs with
  | nil => exact .refl _
  | cons p ps ih => exact (ih _).trans (((s.place_perm p xs).append_left ps).trans List.perm_middle)

/-- R59: the waiters promoted are placed among the others by the order that promotion gives. -/
theorem State.promote_queue (s : State) (l : LockNum) (ps : List Agent) : ((s.promote l ps).lock l).queue =
    ps.foldl (fun q a => (s.promote l ps).place a q) ((s.lock l).queue.filter fun a => !ps.contains a) := by
  rw [State.promote_lock, if_pos rfl]
  exact List.foldl_ext _ _ _ fun q a _ =>
    State.place_congr (s := s.promote l ps) (t := s.toClassZero ps) (fun _ => rfl) a q

/-- R59: promotion re-places waiters and drops none. -/
theorem State.promote_queue_perm (s : State) (l : LockNum) (p : Agent → Bool) :
    ((s.promote l ((s.lock l).queue.filter p)).lock l).queue.Perm (s.lock l).queue := by
  have hothers : ((s.lock l).queue.filter fun a => !((s.lock l).queue.filter p).contains a) =
      (s.lock l).queue.filter fun a => !p a :=
    List.filter_congr fun a ha => by simp [ha]
  rw [State.promote_queue, hothers]
  exact (State.foldl_place_perm ..).trans (List.filter_append_perm p _)

theorem State.toClassZero_nil (s : State) : s.toClassZero [] = s := by
  have hrequests : (s.toClassZero []).requests = s.requests := table_ext fun a => by
    show (s.toClassZero []).request a = s.request a
    rw [State.toClassZero_request, if_neg List.not_mem_nil]
  exact congrArg (fun v => { s with requests := v }) hrequests

theorem State.setLock_self (s : State) (l : LockNum) : s.setLock l (s.lock l) = s := by
  have hlocks : (s.setLock l (s.lock l)).locks = s.locks := table_ext fun k => by
    show (s.setLock l (s.lock l)).lock k = s.lock k
    rw [State.setLock_lock]
    split
    · next hk => rw [hk]
    · rfl
  exact congrArg (fun v => { s with locks := v }) hlocks

/-- R59: with no waiter to promote nothing changes. -/
theorem State.promote_nil (s : State) (l : LockNum) : s.promote l [] = s := by
  simpa [State.promote, State.toClassZero_nil] using s.setLock_self l

theorem State.mem_promotees {s : State} {l : LockNum} {ns : List Nat} {b : Agent} : b ∈ s.promotees l ns ↔
    b ∈ (s.lock l).queue ∧ ∃ p, s.request b = some p ∧ p.promotedBy (s.lock l).bypassLimit ns = true := by
  rw [State.promotees, List.mem_filter]
  cases s.request b <;> simp

/-! ### One run (R54 to R59) -/

/-- R59: the waiters that a run which grants `batch` promotes. -/
def State.runPromotees (s : State) (l : LockNum) (batch : List Agent) : List Agent :=
  (s.grantBatch l (s.lock l).recovered batch).promotees l (batch.flatMap s.arrivalOf)

/-- R55 to R59: the state after a run that grants `batch`: members granted, counts and promotions made. -/
def State.runOf (s : State) (l : LockNum) (batch : List Agent) : State :=
  ((s.grantBatch l (s.lock l).recovered batch).countPassed l (batch.flatMap s.arrivalOf)).promote l
    (s.runPromotees l batch)

section
variable {s : State} {l : LockNum} {batch : List Agent}

/-- Of the lock record, a run changes after its grants the queue alone. -/
theorem State.runOf_lock : (s.runOf l batch).lock l =
    { (s.grantBatch l (s.lock l).recovered batch).lock l with queue := ((s.runOf l batch).lock l).queue } := by
  unfold State.runOf
  rw [State.promote_lock, if_pos rfl]
  rfl

theorem State.runOf_queue_perm : ((s.runOf l batch).lock l).queue.Perm
    ((s.grantBatch l (s.lock l).recovered batch).lock l).queue :=
  State.promote_queue_perm (State.countPassed _ l _) l _

/-- R59: the waiters promoted are re-placed among the others. -/
theorem State.runOf_queue : ((s.runOf l batch).lock l).queue =
    (s.runPromotees l batch).foldl (fun q a => (s.runOf l batch).place a q)
      (((s.grantBatch l (s.lock l).recovered batch).lock l).queue.filter fun a =>
        !(s.runPromotees l batch).contains a) := State.promote_queue _ l _

theorem State.runOf_du : (s.runOf l batch).du = (s.grantBatch l (s.lock l).recovered batch).du := rfl

theorem State.runOf_agent (b : Agent) :
    (s.runOf l batch).agent b = (s.grantBatch l (s.lock l).recovered batch).agent b := rfl

/-- R55, R58: an agent that waits no more, or never did, is passed and promoted by no run. -/
theorem State.runOf_request_of_notMem {b : Agent}
    (hb : b ∉ ((s.grantBatch l (s.lock l).recovered batch).lock l).queue) :
    (s.runOf l batch).request b = if b ∈ batch then none else s.request b := by
  have hpromoted : b ∉ s.runPromotees l batch := fun hp => hb (State.mem_promotees.mp hp).1
  unfold State.runOf
  rw [State.promote_request, State.toClassZero_request, if_neg hpromoted, State.countPassed_request, if_neg hb,
    State.grantBatch_request]

theorem State.runOf_frame : s.EngineFrame (s.runOf l batch) :=
  (State.grantBatch_frame batch).trans ((State.countPassed_frame _ l _).trans (State.promote_frame _ l _))

theorem State.runOf_onlyLock : State.OnlyLock l s (s.runOf l batch) := fun k hk =>
  (State.promote_onlyLock _ l _ k hk).trans (State.grantBatch_onlyLock batch k hk)

theorem State.runOf_attributes : (s.lock l).SameAttributes ((s.runOf l batch).lock l) := by
  rw [State.runOf_lock]
  exact State.grantBatch_attributes batch l

/-! ### The head test (R54) -/

/-- R54, R56: what a head test grants stands at the front of the queue, the head with its request. -/
theorem State.headTest_grant_front (h : s.headTest l = .grant batch) :
    ∃ a bs q, batch = a :: bs ∧ s.request a = some q ∧ batch <+: (s.lock l).queue := by
  cases hqueue : (s.lock l).queue with
  | nil => rw [State.headTest_of_empty hqueue] at h; cases h
  | cons a rest =>
    cases hq : s.request a with
    | none => simp [State.headTest, hqueue, hq] at h
    | some q =>
      have hshared : q.mode = .shared → (a :: rest).takeWhile s.asksShared = a :: rest.takeWhile s.asksShared :=
        fun hm => List.takeWhile_cons_of_pos (State.asksShared_iff.mpr ⟨q, hq, hm⟩)
      cases hm : q.mode <;> cases hs : (s.lock l).state <;> simp only [State.headTest, hqueue, hq, hm, hs] at h
      case exclusive.free =>
        cases h
        exact ⟨a, [], q, rfl, hq, by simp⟩
      case shared.free | shared.shared =>
        cases h
        exact ⟨a, _, q, hshared hm, hq, List.takeWhile_prefix _⟩
      case upgrade.shared => split at h <;> cases h
      all_goals cases h

/-- R57: an upgrade is converted from the head of its queue. -/
theorem State.headTest_convert_mem {a : Agent} (h : s.headTest l = .convert a) : a ∈ (s.lock l).queue := by
  cases hqueue : (s.lock l).queue with
  | nil => rw [State.headTest_of_empty hqueue] at h; cases h
  | cons b rest =>
    cases hq : s.request b with
    | none => simp [State.headTest, hqueue, hq] at h
    | some q =>
      cases hm : q.mode <;> cases hs : (s.lock l).state <;> simp only [State.headTest, hqueue, hq, hm, hs] at h
      case upgrade.shared =>
        split at h <;> cases h
        exact List.mem_cons_self
      all_goals cases h

/-- R60: a run that grants leaves fewer waiters. -/
theorem State.runOf_queue_length (h : s.headTest l = .grant batch) :
    ((s.runOf l batch).lock l).queue.length < (s.lock l).queue.length := by
  obtain ⟨a, bs, q, rfl, hq, hfront⟩ := State.headTest_grant_front h
  have hleft : ((s.grantWaiter l (s.lock l).recovered a).lock l).queue.length < (s.lock l).queue.length := by
    rw [State.grantWaiter_lock_of_some hq, LockRecord.withHolder_queue, List.length_filter_lt_length_iff_exists]
    exact ⟨a, hfront.subset List.mem_cons_self, by simp⟩
  rw [State.runOf_queue_perm.length_eq, State.grantBatch_cons]
  exact (State.grantBatch_queue_sublist bs).length_le.trans_lt hleft

end

/-! ### The runs (R53, R60) -/

section
variable {s : State} {l : LockNum}

theorem State.grantRuns_of_nothing (h : s.headTest l = .nothing) (fuel : Nat) : (State.grantRuns fuel l s).1 = s := by
  cases fuel <;> simp only [State.grantRuns, h]

theorem State.grantRuns_of_convert {a : Agent} (h : s.headTest l = .convert a) (fuel : Nat) :
    (State.grantRuns (fuel + 1) l s).1 = s.convert l a := by
  simp only [State.grantRuns, h]

/-- R60: a run that grants is the last one unless it promotes. -/
theorem State.grantRuns_of_grant {batch : List Agent} (h : s.headTest l = .grant batch) (fuel : Nat) :
    (State.grantRuns (fuel + 1) l s).1 =
      if s.runPromotees l batch = [] then s.runOf l batch
      else (State.grantRuns fuel l (s.runOf l batch)).1 := by
  have hpair : State.grantRuns (fuel + 1) l s = if s.runPromotees l batch = [] then
      ((s.grantBatch l (s.lock l).recovered batch).countPassed l (batch.flatMap s.arrivalOf), batch.length)
      else ((State.grantRuns fuel l (s.runOf l batch)).1,
        batch.length + (State.grantRuns fuel l (s.runOf l batch)).2) := by
    simp only [State.grantRuns, h, List.isEmpty_iff]
    rfl
  rw [hpair]
  split
  · next hnone => rw [State.runOf, hnone, State.promote_nil]
  · rfl

/-- R60: there are no more runs than waiters. -/
theorem State.grantRuns_of_enough : ∀ (n m : Nat) (s : State), (s.lock l).queue.length ≤ n →
    (s.lock l).queue.length ≤ m → (State.grantRuns n l s).1 = (State.grantRuns m l s).1 := by
  have hempty : ∀ {s : State}, (s.lock l).queue.length ≤ 0 → s.headTest l = .nothing := fun h =>
    State.headTest_of_empty (List.eq_nil_of_length_eq_zero (Nat.le_zero.mp h))
  intro n
  induction n with
  | zero =>
    intro m s hn _
    rw [State.grantRuns_of_nothing (hempty hn), State.grantRuns_of_nothing (hempty hn)]
  | succ n ih =>
    intro m s hn hm
    cases m with
    | zero => rw [State.grantRuns_of_nothing (hempty hm), State.grantRuns_of_nothing (hempty hm)]
    | succ m =>
      cases h : s.headTest l with
      | nothing => rw [State.grantRuns_of_nothing h, State.grantRuns_of_nothing h]
      | convert a => rw [State.grantRuns_of_convert h, State.grantRuns_of_convert h]
      | grant batch =>
        have hless := State.runOf_queue_length h
        rw [State.grantRuns_of_grant h, State.grantRuns_of_grant h,
          ih m (s.runOf l batch) (by omega) (by omega)]

/-- R53, R60: a grant step whose head test grants is one run, and after a promotion the grant step of its state. -/
theorem State.grantStep_of_grant {batch : List Agent} (h : s.headTest l = .grant batch) :
    s.grantStep l =
      if s.runPromotees l batch = [] then s.runOf l batch else (s.runOf l batch).grantStep l := by
  have hless := State.runOf_queue_length h
  obtain ⟨n, hn⟩ := Nat.exists_eq_succ_of_ne_zero (Nat.ne_zero_of_lt hless)
  show (State.grantRuns (s.lock l).queue.length l s).1 = _
  rw [hn, State.grantRuns_of_grant h]
  split
  · rfl
  · exact State.grantRuns_of_enough _ _ _ (by omega) (Nat.le_refl _)

end

/-! ### What the grant step leaves alone (R53) -/

theorem State.convert_request (s : State) (l : LockNum) (a b : Agent) :
    (s.convert l a).request b = if b = a then none else s.request b := by
  cases hq : s.request a with
  | some q => rw [State.convert_of_some hq, State.post_request, State.seatUpgrade_request]
  | none =>
    rw [State.convert_of_none hq]
    split
    · next hb => rw [hb, hq]
    · rfl

/-- R53: the grant step changes no request of an agent that does not wait in its queue. -/
theorem State.grantRuns_outsider {l : LockNum} {a : Agent} : ∀ (fuel : Nat) (s : State), a ∉ (s.lock l).queue →
    (State.grantRuns fuel l s).1.request a = s.request a := by
  intro fuel
  induction fuel with
  | zero => exact fun _ _ => rfl
  | succ fuel ih =>
    intro s hout
    cases h : s.headTest l with
    | nothing => rw [State.grantRuns_of_nothing h]
    | convert b =>
      have hne : a ≠ b := fun e => hout (e ▸ State.headTest_convert_mem h)
      rw [State.grantRuns_of_convert h, State.convert_request, if_neg hne]
    | grant batch =>
      obtain ⟨_, _, _, -, -, hfront⟩ := State.headTest_grant_front h
      have hqueue := fun ha => hout ((State.grantBatch_queue_sublist (r := (s.lock l).recovered) batch).subset ha)
      have hrun : (s.runOf l batch).request a = s.request a := by
        rw [State.runOf_request_of_notMem hqueue, if_neg fun ha => hout (hfront.subset ha)]
      rw [State.grantRuns_of_grant h]
      split
      · exact hrun
      · rw [ih _ fun ha => hqueue (State.runOf_queue_perm.subset ha), hrun]

/-- Settles O51: an agent with a request for another lock does not wait in this queue. -/
theorem grantStepFrame : Obligations.GrantStepFrame := by
  intro s l hqueued t
  refine ⟨s.grantStep_frame l, s.grantStep_onlyLock l, State.AttributesKept.grantStep s l l, fun a q hq hother => ?_⟩
  have hout : a ∉ (s.lock l).queue := fun ha => by
    obtain ⟨p, hp, hlock⟩ := hqueued a ha
    cases hq.symm.trans hp
    exact hother hlock
  exact (State.grantRuns_outsider _ s hout).trans hq

end Sys2Proof.Machine
end

section
/-! What a run of the grant step leaves of the lock, its holders, its waiters and the agents told; the EXCLUSIVE head
and the batch (R55, R56, R58 to R60). -/

namespace Sys2Proof.Machine

/-! ### Posting, seen by one agent (R124) -/

theorem State.post_agent_ne (s : State) {a b : Agent} (h : b ≠ a) (n : Notice) : (s.post a n).agent b = s.agent b := by
  rcases s.post_agent a n b with e | ⟨hb, -⟩ | ⟨hb, -⟩
  exacts [e, absurd hb h, absurd hb h]

/-- What a post does to the record of its agent depends on that record alone. -/
theorem State.post_agent_congr {s t : State} {a : Agent} (h : t.agent a = s.agent a) (n : Notice) :
    (t.post a n).agent a = (s.post a n).agent a := by
  by_cases hon : (s.agent a).state = .online
  · by_cases hroom : (s.agent a).notices.length < Config.noticeDepth
    · rw [State.post_of_room hon hroom, State.post_of_room (h ▸ hon) (h ▸ hroom), State.setAgent_agent_self,
        State.setAgent_agent_self, h]
    · rw [State.post_of_full hon hroom, State.post_of_full (h ▸ hon) (h ▸ hroom), State.setAgent_agent_self,
        State.setAgent_agent_self, h]
  · rw [State.post_of_not_online hon, State.post_of_not_online (h ▸ hon), h]

/-! ### The batch, member by member (R55) -/

/-- The agents of a batch, none twice, have requests of mode `m`. -/
structure State.Asking (s : State) (m : Mode) (bs : List Agent) : Prop where
  once : bs.Nodup
  asks : ∀ b ∈ bs, ∃ q, s.request b = some q ∧ q.mode = m

section
variable {s : State} {l : LockNum} {r : Bool} {m : Mode} {a : Agent} {bs : List Agent}

theorem State.Asking.head (h : s.Asking m (a :: bs)) : ∃ q, s.request a = some q ∧ q.mode = m :=
  h.asks a List.mem_cons_self

theorem State.Asking.head_notMem (h : s.Asking m (a :: bs)) : a ∉ bs := (List.nodup_cons.mp h.once).1

theorem State.Asking.ne_head (h : s.Asking m (a :: bs)) {b : Agent} (hb : b ∈ bs) : b ≠ a := by
  rintro rfl
  exact h.head_notMem hb

theorem State.grantWaiter_request_ne {b : Agent} (h : b ≠ a) : (s.grantWaiter l r a).request b = s.request b := by
  rw [State.grantWaiter_request, if_neg h]

/-- The batch behind a member granted. -/
theorem State.Asking.tail (h : s.Asking m (a :: bs)) : (s.grantWaiter l r a).Asking m bs where
  once := (List.nodup_cons.mp h.once).2
  asks b hb := by
    rw [State.grantWaiter_request_ne (h.ne_head hb)]
    exact h.asks b (List.mem_cons_of_mem _ hb)

/-- R55: the batch leaves the front of the queue. -/
theorem State.Asking.queue {rest : List Agent} (h : s.Asking m bs) (hqueue : (s.lock l).queue = bs ++ rest)
    (hrest : ∀ b ∈ bs, b ∉ rest) : ((s.grantBatch l r bs).lock l).queue = rest := by
  induction bs generalizing s with
  | nil => exact hqueue
  | cons a bs ih =>
    obtain ⟨q, hq, -⟩ := h.head
    refine ih h.tail ?_ fun b hb => hrest b (List.mem_cons_of_mem _ hb)
    have hout : ∀ b ∈ bs ++ rest, (b != a) = true := by
      rintro b hb
      rw [bne_iff_ne]
      rintro rfl
      exact (List.mem_append.mp hb).elim h.head_notMem (hrest b List.mem_cons_self)
    rw [State.grantWaiter_lock_of_some hq, LockRecord.withHolder_queue, hqueue, List.cons_append,
      List.filter_cons_of_neg (by simp), List.filter_eq_self.mpr hout]

/-- R55, R7: the last member granted gives the lock its state, and the recovered flag is clear. -/
theorem State.Asking.lockState (h : s.Asking m bs)
    (hs : bs ≠ [] ∨ ((s.lock l).state = m.lockState ∧ (s.lock l).recovered = false)) :
    ((s.grantBatch l r bs).lock l).state = m.lockState ∧ ((s.grantBatch l r bs).lock l).recovered = false := by
  induction bs generalizing s with
  | nil => exact hs.resolve_left fun hne => hne rfl
  | cons a bs ih =>
    obtain ⟨q, hq, hm⟩ := h.head
    refine ih h.tail (Or.inr ?_)
    rw [State.grantWaiter_lock_of_some hq, LockRecord.withHolder_state, LockRecord.withHolder_recovered, hm]
    exact ⟨rfl, rfl⟩

/-- R55: a grant leaves the holds of the other agents. -/
theorem State.grantWaiter_holders_ne {b : Agent} (hb : b ≠ a) :
    ((s.grantWaiter l r a).lock l).holders.get b = (s.lock l).holders.get b := by
  cases hq : s.request a with
  | none => rw [State.grantWaiter_of_none hq]
  | some q =>
    rw [State.grantWaiter_lock_of_some hq]
    exact get_setRow_ne _ hb _

theorem State.grantBatch_holders_of_notMem {b : Agent} (hb : b ∉ bs) :
    ((s.grantBatch l r bs).lock l).holders.get b = (s.lock l).holders.get b := by
  induction bs generalizing s with
  | nil => rfl
  | cons a bs ih =>
    obtain ⟨hba, hbs⟩ := not_or.mp (mt List.mem_cons.mpr hb)
    rw [State.grantBatch_cons, ih hbs, State.grantWaiter_holders_ne hba]

/-- R55: each member of the batch holds the lock, with its lease. -/
theorem State.Asking.holders (h : s.Asking m bs) {b : Agent} (hb : b ∈ bs) {q : PendingRequest}
    (hq : s.request b = some q) : ((s.grantBatch l r bs).lock l).holders.get b = some ⟨q.grantedLease⟩ := by
  induction bs generalizing s with
  | nil => cases hb
  | cons a bs ih =>
    rw [State.grantBatch_cons]
    by_cases hba : b = a
    · subst hba
      rw [State.grantBatch_holders_of_notMem h.head_notMem, State.grantWaiter_lock_of_some hq]
      exact get_setRow_self ..
    · exact ih h.tail ((List.mem_cons.mp hb).resolve_left hba) ((State.grantWaiter_request_ne hba).trans hq)

/-- R55: a grant tells the agent granted, and no other. -/
theorem State.grantWaiter_agent_ne {b : Agent} (hb : b ≠ a) : (s.grantWaiter l r a).agent b = s.agent b := by
  cases hq : s.request a with
  | none => rw [State.grantWaiter_of_none hq]
  | some q =>
    rw [State.grantWaiter_of_some hq, State.post_agent_ne _ hb]
    rfl

theorem State.grantBatch_agent_of_notMem {b : Agent} (hb : b ∉ bs) : (s.grantBatch l r bs).agent b = s.agent b := by
  induction bs generalizing s with
  | nil => rfl
  | cons a bs ih =>
    obtain ⟨hba, hbs⟩ := not_or.mp (mt List.mem_cons.mpr hb)
    rw [State.grantBatch_cons, ih hbs, State.grantWaiter_agent_ne hba]

/-- R55: each member of the batch is told GRANTED. -/
theorem State.Asking.agent (h : s.Asking m bs) {b : Agent} (hb : b ∈ bs) :
    (s.grantBatch l r bs).agent b = (s.post b (.granted l m r false s.now)).agent b := by
  induction bs generalizing s with
  | nil => cases hb
  | cons a bs ih =>
    rw [State.grantBatch_cons]
    by_cases hba : b = a
    · subst hba
      obtain ⟨q, hq, hm⟩ := h.head
      rw [State.grantBatch_agent_of_notMem h.head_notMem, State.grantWaiter_of_some hq, hm]
      exact State.post_agent_congr (s := s) (t := s.seatWaiter l b q) rfl _
    · rw [ih h.tail ((List.mem_cons.mp hb).resolve_left hba), (s.grantWaiter_frame l r a).now]
      exact State.post_agent_congr (State.grantWaiter_agent_ne hba) _

/-- Table 3-2: the entry of each member becomes the LEASE entry of its hold, or is freed. -/
theorem State.Asking.du (h : s.Asking m bs) :
    (s.grantBatch l r bs).du = bs.foldl (fun d b => (s.request b).elim d d.atGrant) s.du := by
  induction bs generalizing s with
  | nil => rfl
  | cons a bs ih =>
    obtain ⟨q, hq, -⟩ := h.head
    have hdu : (s.grantWaiter l r a).du = s.du.atGrant q := by
      rw [State.grantWaiter_of_some hq, State.post_du, State.seatWaiter_du]
    rw [State.grantBatch_cons, ih h.tail, hdu, List.foldl_cons, hq]
    exact List.foldl_ext _ _ _ fun d b hb => by
      rw [State.grantWaiter_request_ne (h.ne_head hb)]

end

/-! ### The waiters passed and promoted (R58, R59) -/

/-- R58, R59: a waiting request after a run that granted requests of these arrivals. -/
def PendingRequest.afterRun (p : PendingRequest) (limit : BitVec 4) (arrivals : List Nat) : PendingRequest :=
  { p with
    bypass := if p.passedBy arrivals then bypassNext limit p.bypass else p.bypass
    effClass := if p.promotedBy limit arrivals then 0 else p.effClass }

/-- R58: which requests a run that grants `batch` passes. -/
theorem PendingRequest.passedBy_batch (p : PendingRequest) (s : State) (batch : List Agent) :
    p.passedBy (batch.flatMap s.arrivalOf) =
      batch.any fun c => (s.request c).any fun q => decide (p.arrival < q.arrival) := by
  rw [passedBy, List.any_flatMap]
  congr 1
  funext c
  unfold State.arrivalOf
  cases s.request c <;> simp

/-- R59: the waiter passed is promoted when it thereby reaches a nonzero limit, and is not yet of class 0. -/
theorem PendingRequest.promotedBy_eq (p : PendingRequest) (limit : BitVec 4) (ns : List Nat) :
    p.promotedBy limit ns =
      (p.passedBy ns && limit != 0 && p.bypass + 1 == limit.toNat && p.effClass != 0) := by
  by_cases hlimit : limit = 0
  · simp [promotedBy, hlimit]
  · have hreach : (decide (p.bypass < limit.toNat) && bypassNext limit p.bypass == limit.toNat) =
        (p.bypass + 1 == limit.toNat) := by
      rw [Bool.eq_iff_iff, Bool.and_eq_true, decide_eq_true_iff, beq_iff_eq, beq_iff_eq, bypassNext, if_neg hlimit]
      omega
    rw [promotedBy, Bool.and_assoc (limit != 0 && p.passedBy ns), hreach, Bool.and_comm (limit != 0)]

/-- R58, R59: class 0 stays class 0. -/
theorem PendingRequest.afterRun_eq (p : PendingRequest) (limit : BitVec 4) (ns : List Nat) : p.afterRun limit ns =
    { p with
      bypass := if p.passedBy ns = true then min (p.bypass + 1) (if limit = 0 then 15 else limit.toNat) else p.bypass
      effClass := if p.passedBy ns = true ∧ limit ≠ 0 ∧ p.bypass + 1 = limit.toNat then 0 else p.effClass } := by
  have hclass : (if p.promotedBy limit ns = true then 0 else p.effClass) =
      if p.passedBy ns = true ∧ limit ≠ 0 ∧ p.bypass + 1 = limit.toNat then 0 else p.effClass := by
    rw [p.promotedBy_eq]
    by_cases hzero : p.effClass = 0#2
    · simp [hzero]
    · simp [hzero, and_assoc]
  rw [afterRun, hclass]
  rfl

theorem PendingRequest.afterRun_arrival (p : PendingRequest) (limit : BitVec 4) (ns : List Nat) :
    (p.afterRun limit ns).arrival = p.arrival := rfl

/-- R48: a request that is not promoted keeps its rank. -/
theorem PendingRequest.afterRun_rank {p : PendingRequest} {limit : BitVec 4} {ns : List Nat}
    (h : p.promotedBy limit ns = false) : (p.afterRun limit ns).rank = p.rank := by
  simp [rank, afterRun, h]

/-! ### The run of a batch at the front of a queue (R54 to R59) -/

/-- The queue of lock `l`, whose waiters have requests for it, is a batch of requests of mode `m` and then a rest. -/
structure State.Front (s : State) (l : LockNum) (m : Mode) (batch rest : List Agent) : Prop where
  queue : (s.lock l).queue = batch ++ rest
  once : (batch ++ rest).Nodup
  queued : s.Queued l
  asks : ∀ b ∈ batch, ∃ q, s.request b = some q ∧ q.mode = m

namespace State.Front
variable {s : State} {l : LockNum} {m : Mode} {batch rest : List Agent}

theorem asking (h : s.Front l m batch rest) : s.Asking m batch := ⟨(List.nodup_append.mp h.once).1, h.asks⟩

theorem apart (h : s.Front l m batch rest) {b : Agent} (hb : b ∈ batch) : b ∉ rest := fun hr =>
  (List.nodup_append.mp h.once).2.2 b hb b hr rfl

/-- The waiters behind the batch have requests too. -/
theorem waiting (h : s.Front l m batch rest) {b : Agent} (hb : b ∈ rest) : ∃ p, s.request b = some p := by
  obtain ⟨p, hp, -⟩ := h.queued b (by rw [h.queue]; exact List.mem_append_right _ hb)
  exact ⟨p, hp⟩

theorem granted_queue (h : s.Front l m batch rest) (r : Bool) : ((s.grantBatch l r batch).lock l).queue = rest :=
  h.asking.queue h.queue fun _ => h.apart

/-- The waiters behind the batch keep their requests while it is granted. -/
theorem granted_request (h : s.Front l m batch rest) (r : Bool) {b : Agent} (hb : b ∈ rest) :
    (s.grantBatch l r batch).request b = s.request b := by
  rw [State.grantBatch_request, if_neg fun hc => h.apart hc hb]

theorem granted_limit (r : Bool) : ((s.grantBatch l r batch).lock l).bypassLimit = (s.lock l).bypassLimit :=
  (State.grantBatch_attributes batch l).2.2.1

/-- R55, R59: the queue keeps the waiters behind the batch. -/
theorem queue_perm (h : s.Front l m batch rest) : ((s.runOf l batch).lock l).queue.Perm rest := by
  have hperm := State.runOf_queue_perm (s := s) (l := l) (batch := batch)
  rwa [h.granted_queue] at hperm

theorem mem_runPromotees (h : s.Front l m batch rest) {b : Agent} {p : PendingRequest} (hb : b ∈ rest)
    (hp : s.request b = some p) : b ∈ s.runPromotees l batch ↔
      p.promotedBy (s.lock l).bypassLimit (batch.flatMap s.arrivalOf) = true := by
  rw [State.runPromotees, State.mem_promotees, h.granted_queue, h.granted_request _ hb, granted_limit, hp]
  simp [hb]

theorem runPromotees_subset (h : s.Front l m batch rest) {b : Agent} (hb : b ∈ s.runPromotees l batch) : b ∈ rest := by
  have := (State.mem_promotees.mp hb).1
  rwa [h.granted_queue] at this

/-- R59: when the run promotes no waiter. -/
theorem runPromotees_eq_nil (h : s.Front l m batch rest) : s.runPromotees l batch = [] ↔
    ∀ b p, b ∈ rest → s.request b = some p →
      p.promotedBy (s.lock l).bypassLimit (batch.flatMap s.arrivalOf) = false := by
  rw [List.eq_nil_iff_forall_not_mem]
  constructor
  · intro hnone b p hb hp
    exact Bool.eq_false_iff.mpr ((h.mem_runPromotees hb hp).not.mp (hnone b))
  · intro hnone b hb
    have hrest := h.runPromotees_subset hb
    obtain ⟨p, hp⟩ := h.waiting hrest
    exact ne_true_of_eq_false (hnone b p hrest hp) ((h.mem_runPromotees hrest hp).mp hb)

/-- R58, R59: the requests of the waiters behind the batch. -/
theorem request_rest (h : s.Front l m batch rest) {b : Agent} {p : PendingRequest} (hb : b ∈ rest)
    (hp : s.request b = some p) : (s.runOf l batch).request b =
      some (p.afterRun (s.lock l).bypassLimit (batch.flatMap s.arrivalOf)) := by
  unfold State.runOf
  rw [State.promote_request, State.toClassZero_request, State.countPassed_request, h.granted_queue, if_pos hb,
    h.granted_request _ hb, granted_limit, hp, Option.map_some, Option.map_some]
  simp only [h.mem_runPromotees hb hp]
  unfold PendingRequest.afterRun
  split <;> split <;> rfl

/-- R55: the requests of all others. -/
theorem request_other (h : s.Front l m batch rest) {b : Agent} (hb : b ∉ rest) :
    (s.runOf l batch).request b = if b ∈ batch then none else s.request b :=
  State.runOf_request_of_notMem (by rwa [h.granted_queue])

/-- R48, R58: two waiters that the run does not promote keep their order. -/
theorem precedes_of_unpromoted (h : s.Front l m batch rest) {b c : Agent} (hb : b ∈ rest) (hc : c ∈ rest)
    (hbp : b ∉ s.runPromotees l batch) (hcp : c ∉ s.runPromotees l batch) (hbc : s.precedes b c = true) :
    (s.runOf l batch).precedes b c = true := by
  obtain ⟨p, q, hp, hq, hpq⟩ := State.precedes_iff.mp hbc
  have hpr := PendingRequest.afterRun_rank (Bool.eq_false_iff.mpr ((h.mem_runPromotees hb hp).not.mp hbp))
  have hqr := PendingRequest.afterRun_rank (Bool.eq_false_iff.mpr ((h.mem_runPromotees hc hq).not.mp hcp))
  exact State.precedes_iff.mpr ⟨_, _, h.request_rest hb hp, h.request_rest hc hq, by
    rwa [hpr, hqr, PendingRequest.afterRun_arrival, PendingRequest.afterRun_arrival]⟩

/-- R48: after the run two waiters stand one ahead of the other. -/
theorem precedes_total (h : s.Front l m batch rest) (horder : s.OrderLaw) {b c : Agent} (hb : b ∈ rest)
    (hc : c ∈ rest) (hcb : c ≠ b) :
    (s.runOf l batch).precedes b c = true ∨ (s.runOf l batch).precedes c b = true := by
  obtain ⟨p, hp⟩ := h.waiting hb
  obtain ⟨q, hq⟩ := h.waiting hc
  exact State.precedes_total (h.request_rest hb hp) (h.request_rest hc hq) fun ha =>
    hcb (horder.apart b c p q hp hq ha).symm

/-- R48: the waiters behind the batch that are not promoted keep their order. -/
theorem unpromoted_ordered (h : s.Front l m batch rest) (horder : s.OrderLaw) :
    (rest.filter fun a => !(s.runPromotees l batch).contains a).Pairwise fun b c =>
      (s.runOf l batch).precedes b c = true := by
  have hall := horder.ordered l
  rw [h.queue] at hall
  refine (List.Pairwise.and_mem.mp ((List.pairwise_append.mp hall).2.1.filter _)).imp ?_
  rintro b c ⟨hb, hc, hbc⟩
  obtain ⟨hb, hbp⟩ := List.mem_filter.mp hb
  obtain ⟨hc, hcp⟩ := List.mem_filter.mp hc
  exact h.precedes_of_unpromoted hb hc (by simpa using hbp) (by simpa using hcp) hbc

theorem runPromotees_nodup (h : s.Front l m batch rest) : (s.runPromotees l batch).Nodup := by
  have hsub := State.promotees_sublist (s.grantBatch l (s.lock l).recovered batch) l (batch.flatMap s.arrivalOf)
  rw [h.granted_queue] at hsub
  exact hsub.nodup (List.nodup_append.mp h.once).2.1

/-- R48, R59: a run keeps the order of the queue. -/
theorem ordered (h : s.Front l m batch rest) (horder : s.OrderLaw) :
    ((s.runOf l batch).lock l).queue.Pairwise fun b c => (s.runOf l batch).precedes b c = true := by
  rw [State.runOf_queue, h.granted_queue]
  refine (State.foldl_place _ _ _ (h.unpromoted_ordered horder) h.runPromotees_nodup (fun b hb hc => ?_)
    fun b hb c hc hcb => ?_).1
  · simpa [hb] using (List.mem_filter.mp hc).2
  · have hcrest : c ∈ rest := hc.elim (fun hc => (List.mem_filter.mp hc).1) h.runPromotees_subset
    exact h.precedes_total horder (h.runPromotees_subset hb) hcrest hcb

/-- R55: the state of the lock and its recovered flag. -/
theorem lockState (h : s.Front l m batch rest) (hne : batch ≠ []) :
    ((s.runOf l batch).lock l).state = m.lockState ∧ ((s.runOf l batch).lock l).recovered = false := by
  rw [State.runOf_lock]
  exact h.asking.lockState (Or.inl hne)

theorem holders (h : s.Front l m batch rest) {b : Agent} (hb : b ∈ batch) {q : PendingRequest}
    (hq : s.request b = some q) : ((s.runOf l batch).lock l).holders.get b = some ⟨q.grantedLease⟩ := by
  rw [State.runOf_lock]
  exact h.asking.holders hb hq

theorem holders_of_notMem {b : Agent} (hb : b ∉ batch) :
    ((s.runOf l batch).lock l).holders.get b = (s.lock l).holders.get b := by
  rw [State.runOf_lock]
  exact State.grantBatch_holders_of_notMem hb

/-- R55: each member of the batch is told GRANTED, with the recovered flag as the run finds it. -/
theorem agent (h : s.Front l m batch rest) {b : Agent} (hb : b ∈ batch) : (s.runOf l batch).agent b =
    (s.post b (.granted l m (s.lock l).recovered false s.now)).agent b :=
  (State.runOf_agent b).trans (h.asking.agent hb)

theorem agent_of_notMem {b : Agent} (hb : b ∉ batch) : (s.runOf l batch).agent b = s.agent b :=
  (State.runOf_agent b).trans (State.grantBatch_agent_of_notMem hb)

end State.Front

/-! ### The EXCLUSIVE head (R55) -/

section
variable {s : State} {l : LockNum} {a : Agent} {rest : List Agent} {q : PendingRequest}

/-- Table 3-3: an EXCLUSIVE head on a FREE lock. -/
theorem State.headTest_exclusive_of_free (hqueue : (s.lock l).queue = a :: rest) (hq : s.request a = some q)
    (hm : q.mode = .exclusive) (hs : (s.lock l).state = .free) : s.headTest l = .grant [a] := by
  simp only [State.headTest, hqueue, hq, hm, hs]

/-- Table 3-3: an EXCLUSIVE lock grants nothing. -/
theorem State.headTest_of_exclusive_lock (hs : (s.lock l).state = .exclusive) : s.headTest l = .nothing := by
  cases hqueue : (s.lock l).queue with
  | nil => exact State.headTest_of_empty hqueue
  | cons a rest =>
    cases hq : s.request a with
    | none => simp only [State.headTest, hqueue, hq]
    | some q => cases hm : q.mode <;> simp only [State.headTest, hqueue, hq, hm, hs]

/-- R55, R60: an EXCLUSIVE head is granted in one run, and no further run grants. -/
theorem State.grantStep_of_exclusive_head (hfront : s.Front l .exclusive [a] rest) (hq : s.request a = some q)
    (hm : q.mode = .exclusive) (hs : (s.lock l).state = .free) : s.grantStep l = s.runOf l [a] := by
  have hend : (s.runOf l [a]).grantStep l = s.runOf l [a] := State.grantStep_of_nothing
    (State.headTest_of_exclusive_lock (hfront.lockState (List.cons_ne_nil _ _)).1)
  rw [State.grantStep_of_grant (State.headTest_exclusive_of_free hfront.queue hq hm hs), hend, ite_self]

end

/-- Settles O48: the grant step is the one run that grants the head. -/
theorem grantStepExclusive : Obligations.GrantStepExclusive := by
  intro s l a rest q hqueue honce hqueued hq hm hs hfree horder limit t
  have hfront : s.Front l .exclusive [a] rest :=
    ⟨hqueue, honce, hqueued, fun b hb => ⟨q, by rwa [List.mem_singleton.mp hb], hm⟩⟩
  have ha : a ∈ [a] := List.mem_singleton_self a
  have hne : ∀ {b}, b ≠ a → b ∉ [a] := fun hb => mt List.mem_singleton.mp hb
  have harrivals : [a].flatMap s.arrivalOf = [q.arrival] := by simp [State.arrivalOf, hq]
  have hrun : t = s.runOf l [a] := State.grantStep_of_exclusive_head hfront hq hm hs
  obtain ⟨hstate, hrecovered⟩ := hfront.lockState (List.cons_ne_nil _ _)
  rw [hrun]
  refine ⟨hstate, fun b => ?_, hrecovered, ?_, ?_, ?_, ?_, fun b hb => ?_, fun b p hb hp => ?_, hfront.queue_perm,
    hfront.ordered horder⟩
  · by_cases hb : b = a
    · subst hb
      simp [LockRecord.holds, hfront.holders ha hq]
    · have hother : ((s.runOf l [a]).lock l).holds b = (s.lock l).holds b :=
        congrArg Option.isSome (State.Front.holders_of_notMem (hne hb))
      rw [hother, hfree b]
      simp [hb]
  · rw [LockRecord.leaseOf, hfront.holders ha hq]
    rfl
  · rw [hfront.request_other (hfront.apart ha), if_pos ha]
  · rw [State.runOf_du, hfront.asking.du, List.foldl_cons, List.foldl_nil, hq]
    rfl
  · exact hfront.agent ha
  · exact State.Front.agent_of_notMem (hne hb)
  · have hpassed : p.passedBy [q.arrival] = true ↔ p.arrival < q.arrival := by simp [PendingRequest.passedBy]
    rw [hfront.request_rest hb hp, harrivals, PendingRequest.afterRun_eq]
    simp only [hpassed]
    rfl

/-! ### The batch at a SHARED head (R56, R60) -/

section
variable {s : State} {l : LockNum} {batch rest : List Agent}

/-- Table 3-3, R56: the head test grants the SHARED requests at the front of the queue. -/
theorem State.headTest_shared (hfront : s.Front l .shared batch rest) (hne : batch ≠ [])
    (hrest : ∀ b q, rest.head? = some b → s.request b = some q → q.mode ≠ .shared)
    (hs : (s.lock l).state ≠ .exclusive) : s.headTest l = .grant batch := by
  have hbatch : (batch ++ rest).takeWhile s.asksShared = batch := by
    rw [List.takeWhile_append_of_pos fun b hb => State.asksShared_iff.mpr (hfront.asks b hb)]
    cases rest with
    | nil => simp
    | cons b rest =>
      rw [List.takeWhile_cons_of_neg, List.append_nil]
      rw [State.asksShared_iff]
      rintro ⟨q, hq, hm⟩
      exact hrest b q rfl hq hm
  obtain ⟨a, bs, rfl⟩ := List.exists_cons_of_ne_nil hne
  obtain ⟨q, hq, hm⟩ := hfront.asking.head
  have hqueue := hfront.queue
  rw [List.cons_append] at hqueue hbatch
  cases hst : (s.lock l).state
  case exclusive => exact absurd hst hs
  all_goals simp only [State.headTest, hqueue, hq, hm, hst, hbatch]

end

/-- Settles O49: the state `v` is that of the run that grants the batch; what the run promotes says how the grant step
goes on. -/
theorem grantStepBatch : Obligations.GrantStepBatch := by
  intro s l batch rest hqueue hne honce hqueued hasks hrest hs limit passed promoted
  have hfront : s.Front l .shared batch rest := ⟨hqueue, honce, hqueued, hasks⟩
  have hstep := State.grantStep_of_grant (State.headTest_shared hfront hne hrest hs)
  have hpassed : ∀ p : PendingRequest, p.passedBy (batch.flatMap s.arrivalOf) = passed p := fun p =>
    p.passedBy_batch s batch
  have hpromoted : ∀ p : PendingRequest, p.promotedBy limit (batch.flatMap s.arrivalOf) = promoted p := fun p => by
    rw [p.promotedBy_eq, hpassed]
  have hnone := hfront.runPromotees_eq_nil
  simp only [show (s.lock l).bypassLimit = limit from rfl, hpromoted] at hnone
  obtain ⟨hstate, hrecovered⟩ := hfront.lockState hne
  refine ⟨s.runOf l batch, fun h => ?_, fun h => ?_, hstate, hrecovered, State.runOf_attributes, hfront.queue_perm,
    hfront.ordered, fun b q hb hq => ⟨?_, hfront.holders hb hq, hfront.agent hb⟩,
    fun b hb => ⟨State.Front.holders_of_notMem hb, State.Front.agent_of_notMem hb⟩, fun b p hb hp => ?_,
    fun b hb hr => ?_, ?_, State.runOf_onlyLock, State.runOf_frame⟩
  · have hempty := hnone.mpr h
    refine ⟨by rw [hstep, if_pos hempty], ?_⟩
    rw [State.runOf, hempty, State.promote_nil]
    exact hfront.granted_queue _
  · obtain ⟨b, p, hb, hp, hpr⟩ := h
    rw [hstep, if_neg fun hempty => ne_true_of_eq_false (hnone.mp hempty b p hb hp) hpr]
  · rw [hfront.request_other (hfront.apart hb), if_pos hb]
  · rw [hfront.request_rest hb hp, PendingRequest.afterRun]
    simp only [show (s.lock l).bypassLimit = limit from rfl, hpassed, hpromoted]
    rfl
  · rw [hfront.request_other hr, if_neg hb]
  · rw [State.runOf_du, hfront.asking.du]
    congr 1
    funext d b
    cases s.request b <;> rfl

end Sys2Proof.Machine
end

section
/-! No step closes a cycle of the waits-for relation (R79 to R81, Table 4-4). -/

namespace Sys2Proof.Machine

/-! ### Changes beside the relation -/

/-- The waits-for relation reads lock records and pending requests alone. -/
theorem State.Acyclic.of_eq {s t : State} (h : s.Acyclic) (hl : t.locks = s.locks) (hr : t.requests = s.requests) :
    t.Acyclic :=
  h.congr (fun k b => by rw [State.lock, hl]; rfl) fun a q hq => ⟨q, by rwa [State.request, hr] at hq, rfl⟩

/-- R17, R144, R156: a reset leaves no request pending. -/
theorem State.Acyclic.of_emptied {s t : State} (hr : t.requests = s.emptyTables.requests) : t.Acyclic :=
  .of_idle fun a => by rw [State.request, hr]; exact s.emptyTables_request a

/-! ### Events of the Lock Engine -/

theorem State.Acyclic.grantAfterHold {s : State} (h : s.Acyclic) (l : LockNum) : (s.grantAfterHold l).Acyclic :=
  State.grantIf_induct (fun _ => h) (h.grantStep l)

theorem State.Acyclic.giveUp {s : State} (h : s.Acyclic) (a : Agent) (l : LockNum) : (s.giveUp a l).Acyclic :=
  (h.removeHold a l).grantAfterHold l

theorem State.Acyclic.dropRequest {s : State} (h : s.Acyclic) (a : Agent) : (s.dropRequest a).Acyclic :=
  State.dropRequest_induct (h.dequeue a) fun q _ => (h.dequeue a).grantStep q.lock

theorem State.Acyclic.takeExpiry {s : State} (h : s.Acyclic) : s.takeExpiry.Acyclic :=
  State.takeExpiry_induct (fun _ e h => h.expiryOf e) h

theorem State.Acyclic.toFree {s : State} (h : s.Acyclic) (l : LockNum) (exclusive : Bool) :
    (s.toFree l exclusive).Acyclic := by
  have hfree := h.setLock l (r := { s.lock l with state := .free }) rfl
  unfold State.toFree
  cases exclusive
  · exact hfree
  · exact hfree.setLock l rfl

/-- R112, steps 1 to 3: holds and an upgrade leave. -/
theorem State.Acyclic.stripLock {s : State} (h : s.Acyclic) (l : LockNum) : (s.stripLock l).Acyclic := by
  have hholds : (s.removeHolds l).Acyclic := State.removeHolds_induct (fun _ a h => h.removeHold a l) h
  refine State.Acyclic.toFree ?_ l _
  unfold State.dropUpgrade
  split
  · exact hholds.dequeue _
  · exact hholds

theorem State.Acyclic.postAll {s : State} (h : s.Acyclic) (bs : List Agent) (n : Agent → Notice) :
    (bs.foldl (fun t a => t.post a (n a)) s).Acyclic := by
  induction bs generalizing s with
  | nil => exact h
  | cons b bs ih => exact ih (h.post b _)

theorem State.Acyclic.forceHeld {s : State} (h : s.Acyclic) (l : LockNum) : (s.forceHeld l).Acyclic :=
  ((h.stripLock l).postAll _ _).grantStep l

/-! ### Immediate grants (R25, R32) -/

/-- R52: no request names a FREE lock. -/
theorem State.MidLaw.no_request_of_free {s : State} (h : s.MidLaw none) {l : LockNum} (hf : (s.lock l).state = .free) :
    ∀ b q, s.request b = some q → q.lock ≠ l := by
  rintro b q hq rfl
  have hb := h.mem_queue hq
  rw [h.free q.lock (by simp) hf] at hb
  exact List.not_mem_nil hb

/-- R25: no request names a lock on which a request is grantable now. -/
theorem State.MidLaw.no_request_of_grantable {s : State} (h : s.MidLaw none) {l : LockNum} {m : Mode}
    (hg : (s.lock l).Grantable m) : ∀ b q, s.request b = some q → q.lock ≠ l := by
  rcases hg with hfree | ⟨-, -, hqueue⟩
  · exact h.no_request_of_free hfree
  · rintro b q hq rfl
    have hb := h.mem_queue hq
    rw [hqueue] at hb
    exact List.not_mem_nil hb

/-! ### The commands -/

/-- R28, R81: an ACQUIRE that queues has passed the deadlock check; one that is granted finds no waiter. -/
theorem State.Acyclic.acquireTaken {s : State} (h : s.Acyclic) (hT : s.MidLaw none) (a : Agent) :
    (s.acquireTaken a).1.Acyclic := by
  rcases s.acquireTaken_cases a with e | ⟨l, m, d, e, hp, hg, heq⟩ | ⟨l, m, t, d, e, -, -, hd, heq⟩
  · rw [e]; exact h.settle
  · rw [heq]
    exact h.settle.grantNow (hT.settle.no_request_of_grantable ((LockRecord.grantableNow_iff hp.asked).mp hg)) m d e
  · rw [heq]; exact h.settle.joinQueue hd m t d e

theorem State.Acyclic.releaseTaken {s : State} (h : s.Acyclic) (a : Agent) : (s.releaseTaken a).1.Acyclic := by
  unfold State.releaseTaken
  simp only
  split
  · exact h.settle
  · exact h.settle.giveUp a _

/-- R71, R73, R81: a conversion changes no holder; an UPGRADE that queues has passed the deadlock check. -/
theorem State.Acyclic.upgradeTaken {s : State} (h : s.Acyclic) (a : Agent) : (s.upgradeTaken a).1.Acyclic := by
  rcases s.upgradeTaken_cases a with e | ⟨l, -, -, heq⟩ | ⟨l, t, e, -, -, hd, heq⟩
  · rw [e]; exact h.settle
  · rw [heq]; exact h.settle.setLock l rfl
  · rw [heq]; exact h.settle.joinQueue hd .upgrade t none e

theorem State.Acyclic.downgradeTaken {s : State} (h : s.Acyclic) (a : Agent) : (s.downgradeTaken a).1.Acyclic := by
  unfold State.downgradeTaken
  simp only
  split
  · exact h.settle
  · next l _ =>
    have hshared : (s.settle.toShared l).Acyclic := h.settle.setLock l rfl
    exact hshared.grantStep l

theorem State.Acyclic.cancelTaken {s : State} (h : s.Acyclic) (a : Agent) : (s.cancelTaken a).1.Acyclic := by
  unfold State.cancelTaken
  simp only
  split
  · exact h.settle
  · split
    · exact h.settle
    · exact h.settle.dropRequest a

theorem State.Acyclic.renewTaken {s : State} (h : s.Acyclic) (a : Agent) : (s.renewTaken a).1.Acyclic := by
  unfold State.renewTaken
  simp only
  split
  · exact h.settle
  · exact h.settle.withDu _

theorem State.Acyclic.setAgentTaken {s : State} (h : s.Acyclic) : s.setAgentTaken.1.Acyclic := by
  unfold State.setAgentTaken
  simp only
  split
  · exact h
  · exact h.of_eq rfl rfl

theorem State.Acyclic.setLockTaken {s : State} (h : s.Acyclic) : s.setLockTaken.1.Acyclic := by
  unfold State.setLockTaken
  simp only
  split
  · exact h.settle
  · split
    · exact h.settle
    · exact h.settle.setLock _ rfl

theorem State.Acyclic.forceReleaseTaken {s : State} (h : s.Acyclic) : s.forceReleaseTaken.1.Acyclic := by
  unfold State.forceReleaseTaken
  simp only
  split
  · exact h.settle
  · split
    · exact h.settle.setLock _ rfl
    · exact h.settle.forceHeld _

theorem State.Acyclic.purgeTaken {s : State} (h : s.Acyclic) : s.purgeTaken.1.Acyclic := by
  unfold State.purgeTaken
  split
  · exact h
  · next a _ =>
    have hbegun : (s.settle.purgeBegun a).Acyclic := (h.settle.dequeue a).of_eq rfl rfl
    exact State.purgeStart_induct hbegun fun q _ => hbegun.grantStep q.lock

theorem State.Acyclic.setDividerTaken {s : State} (h : s.Acyclic) : s.setDividerTaken.1.Acyclic := by
  unfold State.setDividerTaken
  simp only
  split
  · exact h
  · exact h.withDu _

theorem State.Acyclic.taken {s : State} (h : s.Acyclic) (hT : s.MidLaw none) (c : Command) (a : Agent) :
    (c.taken a s).1.Acyclic :=
  match c with
  | .nop => h
  | .acquire => h.acquireTaken hT a
  | .release => h.releaseTaken a
  | .upgrade => h.upgradeTaken a
  | .downgrade => h.downgradeTaken a
  | .cancel => h.cancelTaken a
  | .renew => h.renewTaken a
  | .setAgent => h.setAgentTaken
  | .setLock => h.setLockTaken
  | .forceRelease => h.forceReleaseTaken
  | .purge => h.purgeTaken
  | .setTime => h.settle.withDu _
  | .setDivider => h.setDividerTaken
  | .resetTables => .of_emptied (s := s) rfl

/-! ### The sweep (R138, R139) -/

theorem State.Acyclic.sweepHold {s : State} (h : s.Acyclic) (a : Agent) (k : LockNum) : (s.sweepHold a k).Acyclic := by
  unfold State.sweepHold
  split
  · exact (h.removeHold a k).setLock k rfl
  · exact h.removeHold a k

theorem State.Acyclic.visitLock {s : State} (h : s.Acyclic) (a : Agent) (k : LockNum) : (s.visitLock a k).Acyclic := by
  unfold State.visitLock
  split
  · exact ((h.sweepHold a k).grantAfterHold k).of_eq rfl rfl
  · exact h.of_eq rfl rfl

theorem State.Acyclic.sweepVisit {s : State} (h : s.Acyclic) : s.sweepVisit.Acyclic := by
  rcases s.sweepVisit_cases with e | ⟨a, k, -, -, -, e⟩ <;> rw [e]
  · exact h
  · exact h.settle.visitLock a k

theorem State.Acyclic.sweepEnd {s : State} (h : s.Acyclic) : s.sweepEnd.Acyclic := by
  rcases s.sweepEnd_cases with e | ⟨a, -, -, -, e⟩ <;> rw [e]
  · exact h
  · have hclosed : (s.sweepClosed a).Acyclic := h.of_eq rfl rfl
    exact hclosed.post _ _

/-! ### Every step -/

/-- R81: every part of the machine keeps the relation without a cycle, beside the laws of the lock table, which say
that an immediate grant meets no waiter. -/
theorem noDeadlock_kept : Kept fun s => (s.AgentLaw ∧ s.MidLaw none) ∧ s.Acyclic where
  port s p h := ⟨tableLaw_kept.port s p h.1, h.2.of_eq rfl rfl⟩
  pending s p h := ⟨tableLaw_kept.pending s p h.1, h.2.of_eq rfl rfl⟩
  fields s a rec ne ee ek es h := ⟨tableLaw_kept.fields s a rec ne ee ek es h.1, h.2.of_eq rfl rfl⟩
  notices s a p c h := ⟨tableLaw_kept.notices s a p c h.1, h.2.of_eq rfl rfl⟩
  snapshots s v h := ⟨tableLaw_kept.snapshots s v h.1, h.2.withDu _⟩
  taken s c a h := ⟨tableLaw_kept.taken s c a h.1, h.2.taken h.1.2 c a⟩
  tryGrant s a l h :=
    have ⟨hsettled, hgranted⟩ := tableLaw_kept.tryGrant s a l h.1
    ⟨⟨hsettled, h.2.settle⟩, fun hn => ⟨hgranted hn, h.2.settle.grantNow
      (hsettled.2.no_request_of_free (State.tryRefusal_none hn).2) .exclusive none none⟩⟩
  tryRelease s a l h hn := ⟨tableLaw_kept.tryRelease s a l h.1 hn, h.2.settle.giveUp a l⟩
  powerOn s h := ⟨tableLaw_kept.powerOn s h.1, State.Acyclic.of_idle State.reset_request⟩
  busReset s h := ⟨tableLaw_kept.busReset s h.1, .of_emptied (s := s) rfl⟩
  tick s h := ⟨tableLaw_kept.tick s h.1,
    State.tickTaken_induct (fun _ e ht => ht.expiryOf e) (fun _ f ht => ht.withDu f) h.2⟩
  expiry s h := ⟨tableLaw_kept.expiry s h.1, h.2.takeExpiry⟩
  sweepVisit s h := ⟨tableLaw_kept.sweepVisit s h.1, h.2.sweepVisit⟩
  sweepEnd s h := ⟨tableLaw_kept.sweepEnd s h.1, h.2.sweepEnd⟩
  period s h := ⟨tableLaw_kept.period s h.1, h.2.withDu _⟩
  heldTick s h he := ⟨tableLaw_kept.heldTick s h.1 he, h.2.withDu _⟩

/-- Settles O57: grants and removals drop edges of the relation, an immediate grant meets no waiter, and a request that
queues has passed the deadlock check. -/
theorem stepKeepsNoDeadlock : Obligations.StepKeepsNoDeadlock := by
  unfold Obligations.StepKeepsNoDeadlock
  intro s t hA hT hO hacyclic hstep
  exact (noDeadlock_kept.step ⟨⟨hA, s.midLaw_iff.mpr ⟨hT, hO⟩⟩, hacyclic⟩ hstep).2

end Sys2Proof.Machine
end

section
/-! UPGRADE past its first checks (R68 to R73, R80): what its checks look for, their order, and what it ends in. -/

namespace Sys2Proof.Machine

/-! ### What the checks of UPGRADE look for -/

theorem LockRecord.soleHolder_of_only {r : LockRecord} {a : Agent} (ha : r.holds a = true)
    (h : ∀ b, r.holds b = true → b = a) : r.soleHolder a = true :=
  LockRecord.soleHolder_iff.mpr fun b => ⟨h b, fun hb => hb ▸ ha⟩

theorem LockRecord.not_soleHolder_of_other {r : LockRecord} {a : Agent} (h : ∃ b, b ≠ a ∧ r.holds b = true) :
    ¬ r.soleHolder a = true := fun hsole =>
  have ⟨b, hb, hholds⟩ := h
  hb ((LockRecord.soleHolder_iff.mp hsole b).mp hholds)

theorem State.upgradeQueued_of_some {s : State} {b : Agent} {q : PendingRequest} (hq : s.request b = some q)
    (l : LockNum) : s.upgradeQueued b l = true ↔ q.mode = .upgrade ∧ q.lock = l := by
  simp [State.upgradeQueued, hq]

/-- R72: the agent of an upgrade at the head of the queue is the one found. -/
theorem State.upgraderOf_of_head {s : State} {l : LockNum} {b : Agent} {q : PendingRequest}
    (hhead : (s.lock l).queue.head? = some b) (hq : s.request b = some q) (hm : q.mode = .upgrade) (hl : q.lock = l) :
    s.upgraderOf l = some b := by
  obtain ⟨rest, hqueue⟩ := List.head?_eq_some_iff.mp hhead
  rw [State.upgraderOf, hqueue]
  exact List.find?_cons_of_pos ((State.upgradeQueued_of_some hq l).mpr ⟨hm, hl⟩)

/-- R72: none is found where no waiter asks an upgrade. -/
theorem State.upgraderOf_eq_none {s : State} {l : LockNum}
    (h : ∀ b ∈ (s.lock l).queue, ∃ q, s.request b = some q ∧ q.mode ≠ .upgrade) : s.upgraderOf l = none := by
  refine List.find?_eq_none.mpr fun b hb hqueued => ?_
  obtain ⟨q, hq, hm⟩ := h b hb
  exact hm ((State.upgradeQueued_of_some hq l).mp hqueued).1

/-! ### The checks in order (R69, Table 4-1) -/

/-- The arguments of UPGRADE as those of a request that asks no lease (Table 4-1): its checks 8 to 11 are those of
ACQUIRE. -/
def upgradeArgs (w : ArgWords) : AcquireArgs :=
  { lockField := numberField w.arg0, mode := some .upgrade, wait := waitField w.arg0
    timeout := duration (timeoutField w.arg0), lease := none }

section
variable {u : State} {a : Agent} {l : LockNum}

/-- Check 3. -/
theorem State.upgradeDecision_pending (h : u.Asks a l) {q : PendingRequest} (hq : u.request a = some q) :
    u.upgradeDecision a (u.argsOf a) = .refuse (outcomeNumber .requestPending q.lock.val) := by
  simp only [State.upgradeDecision, h.refusal, h.lockOf_arg0, hq]

/-- Check 4. -/
theorem State.upgradeDecision_stranger (h : u.Asks a l) (hq : u.request a = none) (hno : (u.lock l).holds a = false) :
    u.upgradeDecision a (u.argsOf a) = .refuse ⟨.notHolder, 0⟩ := by
  simp only [State.upgradeDecision, h.refusal, h.lockOf_arg0, hq, hno, Bool.not_false, if_true]

/-- Check 5. -/
theorem State.upgradeDecision_exclusive (h : u.Asks a l) (hq : u.request a = none) (hholds : (u.lock l).holds a = true)
    (hs : (u.lock l).state = .exclusive) :
    u.upgradeDecision a (u.argsOf a) = .refuse (outcomeState .alreadyHolder .exclusive) := by
  simp only [State.upgradeDecision, h.refusal, h.lockOf_arg0, hq, hholds, hs, Bool.not_true, Bool.false_eq_true,
    if_false, beq_self_eq_true, if_true]

/-- Checks 6 to 11, of a SHARED holder: the sole one is converted, beside another one an upgrade queued refuses, and
else the checks are those of an ACQUIRE that is not grantable now. -/
theorem State.upgradeDecision_shared (h : u.Asks a l) (hq : u.request a = none) (hholds : (u.lock l).holds a = true)
    (hs : (u.lock l).state = .shared) : u.upgradeDecision a (u.argsOf a) =
      if (u.lock l).soleHolder a = true then .grant l .upgrade none
      else (u.upgraderOf l).elim (u.queueChecks a l .upgrade (upgradeArgs (u.argsOf a)))
        fun b => .refuse (outcomeNumber .upgradeConflict b.val) := by
  simp only [State.upgradeDecision, State.queueChecks, upgradeArgs, h.refusal, h.lockOf_arg0, hq, hholds, hs,
    Bool.not_true, Bool.false_eq_true, if_false, Option.isSome_none, Bool.or_false, reduceCtorEq, beq_iff_eq]
  refine if_congr Iff.rfl rfl ?_
  cases u.upgraderOf l with
  | some b => rfl
  | none => rfl

end

/-! ### What UPGRADE ends in -/

section
variable {s : State} {a : Agent} {w : WriteData} (htakes : s.Takes .upgrade a w)
include htakes

theorem exec_upgrade_taken : exec (.upgrade a w) s = .next ((s.upgradeTaken a).1.answers a w (s.upgradeTaken a).2) :=
  exec_row_taken htakes

theorem exec_upgrade_refused {o : CmdOutcome} (h : s.settle.upgradeDecision a (s.settle.argsOf a) = .refuse o) :
    exec (.upgrade a w) s = .next (s.settle.answers a w o) := by
  rw [exec_upgrade_taken htakes]
  simp only [State.upgradeTaken, h]

/-- R71: the conversion, with the UPGRADE flag alone. -/
theorem exec_upgrade_converted {l : LockNum} {m : Mode} {e : Option EntryNum}
    (h : s.settle.upgradeDecision a (s.settle.argsOf a) = .grant l m e) :
    exec (.upgrade a w) s = .next ((s.settle.convertNow l).answers a w ⟨.granted, 2⟩) := by
  rw [exec_upgrade_taken htakes]
  simp only [State.upgradeTaken, h]
  rfl

theorem exec_upgrade_queued {l : LockNum} {e : Option EntryNum}
    (h : s.settle.upgradeDecision a (s.settle.argsOf a) = .enqueue l .upgrade e) :
    let t := s.settle.joinQueue a l .upgrade (duration (timeoutField (s.settle.argsOf a).arg0)) none e
    exec (.upgrade a w) s = .next (t.answers a w ⟨.queued, BitVec.ofNat 16 (t.positionIn a l)⟩) := by
  rw [exec_upgrade_taken htakes]
  simp only [State.upgradeTaken, h]
  rfl

end

/-- Settles O28: each check refuses where those before it pass, and the sole holder is converted. -/
theorem upgradeOutcomes : Obligations.UpgradeOutcomes := by
  intro a w s l htakes hasks u r refused
  have refuse : ∀ {o}, u.upgradeDecision a (u.argsOf a) = .refuse o → refused o := exec_upgrade_refused htakes
  refine ⟨fun q hq => refuse (State.upgradeDecision_pending hasks hq),
    fun hq hno => refuse (State.upgradeDecision_stranger hasks hq hno), fun hq hholds =>
    ⟨fun hs => refuse (State.upgradeDecision_exclusive hasks hq hholds hs), fun hs honly => ?_,
      fun hs hother b q hhead hb hm hl => refuse ?_⟩⟩
  · refine exec_upgrade_converted (m := .upgrade) (e := none) htakes ?_
    rw [State.upgradeDecision_shared hasks hq hholds hs, if_pos (LockRecord.soleHolder_of_only hholds honly)]
  · rw [State.upgradeDecision_shared hasks hq hholds hs, if_neg (LockRecord.not_soleHolder_of_other hother),
      State.upgraderOf_of_head hhead hb hm hl]
    rfl

/-! ### The place of an upgrade (R49, R73) -/

theorem State.place_at_head {s : State} {a : Agent} {xs : List Agent} (h : ∀ b ∈ xs, s.precedes a b = true) :
    s.place a xs = a :: xs := by
  cases xs with
  | nil => rfl
  | cons x xs => exact if_pos (h x List.mem_cons_self)

/-- R48: an upgrade that joins stands ahead of every waiter that asks none. -/
theorem State.joinQueue_upgrade_precedes {s : State} {a b : Agent} {q : PendingRequest} (hab : b ≠ a)
    (hq : s.request b = some q) (hm : q.mode ≠ .upgrade) (l : LockNum) (timeout lease : Option Nat)
    (e : Option EntryNum) : (s.joinQueue a l .upgrade timeout lease e).precedes a b = true := by
  refine State.precedes_iff.mpr ⟨_, q, by rw [State.joinQueue_request, if_pos rfl],
    (State.joinQueue_request_ne hab).trans hq, Or.inl ?_⟩
  rw [PendingRequest.rank_of_upgrade rfl, PendingRequest.rank_of_not_upgrade hm]
  exact Nat.succ_pos _

/-- R73: an upgrade that joins a queue without one stands first. -/
theorem State.joinQueue_upgrade_position {s : State} {a : Agent} {l : LockNum} (hidle : s.request a = none)
    (hother : ∀ b ∈ (s.lock l).queue, ∃ q, s.request b = some q ∧ q.mode ≠ .upgrade) (timeout lease : Option Nat)
    (e : Option EntryNum) : (s.joinQueue a l .upgrade timeout lease e).positionIn a l = 1 := by
  refine State.positionIn_of_append (front := []) (back := (s.lock l).queue) ?_ List.not_mem_nil
  rw [State.joinQueue_lock, if_pos rfl]
  refine State.place_at_head fun b hb => ?_
  obtain ⟨q, hq, hm⟩ := hother b hb
  have hab : b ≠ a := by
    rintro rfl
    cases hidle.symm.trans hq
  exact State.joinQueue_upgrade_precedes hab hq hm l timeout lease e

/-- Settles O29: checks 8 to 11 are those of a request that queues, and the upgrade stands first. -/
theorem upgradeQueues : Obligations.UpgradeQueues := by
  intro a w s l htakes hasks hidle hholds hs hother hqueue u arg0 timeout refused queued
  obtain ⟨x, hx⟩ : ∃ x, x = upgradeArgs (u.argsOf a) := ⟨_, rfl⟩
  have hdecision : u.upgradeDecision a (u.argsOf a) = u.queueChecks a l .upgrade x := by
    rw [State.upgradeDecision_shared hasks hidle hholds hs, if_neg (LockRecord.not_soleHolder_of_other hother),
      State.upgraderOf_eq_none hqueue, hx]
    rfl
  have hasked : (x.timeout.isSome || x.lease.isSome) = true ↔ timeout ≠ 0 := by
    rw [hx, ← duration_isSome_iff, upgradeArgs, Option.isSome_none, Bool.or_false]
  have refuse : ∀ {o}, u.queueChecks a l .upgrade x = .refuse o → refused o := fun h =>
    exec_upgrade_refused htakes (hdecision.trans h)
  have enqueue : ∀ {e}, u.queueChecks a l .upgrade x = .enqueue l .upgrade e → queued (duration timeout) e := by
    intro e h
    have hexec := exec_upgrade_queued htakes (hdecision.trans h)
    simp only [State.joinQueue_upgrade_position hidle hqueue] at hexec
    exact hexec
  refine ⟨fun hwait => ?_, fun hwait => ?_⟩
  · have hbusy := refuse (State.queueChecks_busy (by rw [hx]; exact hwait))
    rwa [show (u.lock l).state = .shared from hs] at hbusy
  replace hwait : x.wait = true := by rw [hx]; exact hwait
  refine ⟨fun h hfirst => refuse (State.queueChecks_deadlock hwait (State.deadlockHolder_of_firstBlocker hfirst)),
    fun hnone => ?_⟩
  have hd := State.deadlockHolder_of_no_blocker hnone
  refine ⟨fun ht => ?_, fun e ht hfirst => ?_, fun ht hfull =>
    refuse (State.queueChecks_full hwait hd (hasked.mpr ht) (DeadlineUnit.findFree_of_full hfull))⟩
  · have h := enqueue (State.queueChecks_noEntry hwait hd (Bool.eq_false_iff.mpr fun hc => hasked.mp hc ht))
    rwa [ht] at h
  · have h := enqueue (State.queueChecks_entry hwait hd (hasked.mpr ht) (DeadlineUnit.findFree_eq_some_iff.mpr hfirst))
    rwa [duration_of_ne ht] at h

end Sys2Proof.Machine
end

section
/-! How many waiters the grant step grants (R53, R60), and DOWNGRADE past its first checks (R76, R77). -/

namespace Sys2Proof.Machine

/-! ### The waiters that leave the queue (R54 to R57, R60) -/

section
variable {s : State} {l : LockNum} {batch : List Agent}

/-- Table 3-3, R56: what the head test can find. -/
theorem State.headTest_cases (s : State) (l : LockNum) : s.headTest l = .nothing ∨
    ∃ a rest q, (s.lock l).queue = a :: rest ∧ s.request a = some q ∧
      (s.headTest l = .convert a ∨ (q.mode = .exclusive ∧ s.headTest l = .grant [a]) ∨
        s.headTest l = .grant ((s.lock l).queue.takeWhile s.asksShared)) := by
  cases hqueue : (s.lock l).queue with
  | nil => exact Or.inl (State.headTest_of_empty hqueue)
  | cons a rest =>
    cases hq : s.request a with
    | none => exact Or.inl (by simp only [State.headTest, hqueue, hq])
    | some q =>
      obtain ⟨t, htest⟩ : ∃ t, s.headTest l = t := ⟨_, rfl⟩
      rw [htest]
      cases hm : q.mode <;> cases hs : (s.lock l).state <;> simp only [State.headTest, hqueue, hq, hm, hs] at htest <;>
        subst htest
      case exclusive.free => exact Or.inr ⟨a, rest, q, rfl, hq, Or.inr (Or.inl ⟨hm, rfl⟩)⟩
      case shared.free | shared.shared => exact Or.inr ⟨a, rest, q, rfl, hq, Or.inr (Or.inr rfl)⟩
      case upgrade.shared =>
        split
        · exact Or.inr ⟨a, rest, q, rfl, hq, Or.inl rfl⟩
        · exact Or.inl rfl
      all_goals exact Or.inl rfl

/-- R54, R56: what a head test grants are requests of one mode, none twice where no agent waits twice. -/
theorem State.headTest_grant_asking (honce : (s.lock l).queue.Nodup) (h : s.headTest l = .grant batch) :
    ∃ m, s.Asking m batch := by
  obtain ⟨_, _, _, -, -, hfront⟩ := State.headTest_grant_front h
  have hnodup := hfront.sublist.nodup honce
  rcases s.headTest_cases l with e | ⟨a, rest, q, -, hq, e | ⟨hm, e⟩ | e⟩ <;> cases h.symm.trans e
  · exact ⟨.exclusive, hnodup, fun b hb => ⟨q, by rwa [List.mem_singleton.mp hb], hm⟩⟩
  · exact ⟨.shared, hnodup, fun b hb => State.asksShared_iff.mp (List.mem_takeWhile_imp hb)⟩

/-- R57: the upgrade converted is the request of a waiter. -/
theorem State.headTest_convert_request {a : Agent} (h : s.headTest l = .convert a) : ∃ q, s.request a = some q := by
  rcases s.headTest_cases l with e | ⟨b, rest, q, -, hq, e | ⟨-, e⟩ | e⟩ <;> cases h.symm.trans e
  exact ⟨q, hq⟩

/-- R57: a conversion takes its waiter from the queue. -/
theorem State.convert_queue_length {a : Agent} {q : PendingRequest} (honce : (s.lock l).queue.Nodup)
    (ha : a ∈ (s.lock l).queue) (hq : s.request a = some q) :
    1 + ((s.convert l a).lock l).queue.length = (s.lock l).queue.length := by
  rw [State.convert_of_some hq, State.post_lock, State.seatUpgrade_lock, if_pos rfl]
  show 1 + ((s.lock l).queue.filter (· != a)).length = _
  rw [← honce.erase_eq_filter, List.length_erase_of_mem ha]
  have := List.length_pos_of_mem ha
  omega

/-- R55, R59: a run takes its batch from the queue, and no other waiter. -/
theorem State.runOf_queue_left (honce : (s.lock l).queue.Nodup) (h : s.headTest l = .grant batch) :
    ((s.runOf l batch).lock l).queue.Nodup ∧
      batch.length + ((s.runOf l batch).lock l).queue.length = (s.lock l).queue.length := by
  obtain ⟨_, _, _, -, -, rest, hqueue⟩ := State.headTest_grant_front h
  obtain ⟨m, hasking⟩ := State.headTest_grant_asking honce h
  rw [← hqueue] at honce
  have hleft := hasking.queue (r := (s.lock l).recovered) hqueue.symm fun b hb hr =>
    (List.nodup_append.mp honce).2.2 b hb b hr rfl
  have hperm := State.runOf_queue_perm (s := s) (l := l) (batch := batch)
  rw [hleft] at hperm
  rw [hperm.length_eq, ← hqueue, List.length_append]
  exact ⟨hperm.nodup_iff.mpr (List.nodup_append.mp honce).2.1, rfl⟩

/-- R60: a run that grants counts its batch, and what the further runs grant. -/
theorem State.grantRuns_count_of_grant (h : s.headTest l = .grant batch) (fuel : Nat) :
    (State.grantRuns (fuel + 1) l s).2 =
      batch.length + if s.runPromotees l batch = [] then 0 else (State.grantRuns fuel l (s.runOf l batch)).2 := by
  have hpair : (State.grantRuns (fuel + 1) l s).2 = if s.runPromotees l batch = [] then batch.length
      else batch.length + (State.grantRuns fuel l (s.runOf l batch)).2 := by
    simp only [State.grantRuns, h, List.isEmpty_iff]
    exact apply_ite Prod.snd _ _ _
  rw [hpair]
  split <;> rfl

end

/-- R53, R60: the grant step counts the waiters that leave the queue. -/
theorem State.grantRuns_count {l : LockNum} : ∀ (fuel : Nat) (s : State), (s.lock l).queue.Nodup →
    (State.grantRuns fuel l s).2 + ((State.grantRuns fuel l s).1.lock l).queue.length = (s.lock l).queue.length := by
  intro fuel
  induction fuel with
  | zero => exact fun s _ => Nat.zero_add _
  | succ fuel ih =>
    intro s honce
    cases h : s.headTest l with
    | nothing => simp only [State.grantRuns, h, Nat.zero_add]
    | convert a =>
      obtain ⟨q, hq⟩ := State.headTest_convert_request h
      simp only [State.grantRuns, h]
      exact State.convert_queue_length honce (State.headTest_convert_mem h) hq
    | grant batch =>
      obtain ⟨hnodup, hleft⟩ := State.runOf_queue_left honce h
      rw [State.grantRuns_of_grant h, State.grantRuns_count_of_grant h]
      split
      · exact hleft
      · rw [Nat.add_assoc, ih _ hnodup, hleft]

/-! ### DOWNGRADE (R76, R77) -/

/-- Table 4-3: checks 3 to 5 of DOWNGRADE. -/
theorem State.downgradeCheck_of_asks {u : State} {a : Agent} {l : LockNum} (h : u.Asks a l) :
    u.downgradeCheck a (numberField (u.argsOf a).arg0) =
      if (u.lock l).holds a = false then .inl ⟨.notHolder, 0⟩
      else if (u.lock l).state = .shared then .inl ⟨.notExclusive, 0⟩
      else if (u.lock l).sharedAllowed = false then .inl ⟨.modeNotAllowed, 0⟩ else .inr l := by
  simp only [State.downgradeCheck, h.refusal, h.lockOf_arg0, Bool.not_eq_true', beq_iff_eq]

section
variable {s : State} {a : Agent} {w : WriteData} (htakes : s.Takes .downgrade a w)
include htakes

theorem exec_downgrade_taken :
    exec (.downgrade a w) s = .next ((s.downgradeTaken a).1.answers a w (s.downgradeTaken a).2) :=
  exec_row_taken htakes

theorem exec_downgrade_refused {o : CmdOutcome}
    (h : s.settle.downgradeCheck a (numberField (s.settle.argsOf a).arg0) = .inl o) :
    exec (.downgrade a w) s = .next (s.settle.answers a w o) := by
  rw [exec_downgrade_taken htakes]
  simp only [State.downgradeTaken, h]

/-- R77: the grant step runs on the lock made SHARED, and the detail is its count. -/
theorem exec_downgrade_done {l : LockNum}
    (h : s.settle.downgradeCheck a (numberField (s.settle.argsOf a).arg0) = .inr l) :
    exec (.downgrade a w) s = .next (((s.settle.toShared l).grantStep l).answers a w
      ⟨.downgraded, BitVec.ofNat 16 ((s.settle.toShared l).grantStepCounted l).2⟩) := by
  rw [exec_downgrade_taken htakes]
  simp only [State.downgradeTaken, h]
  rfl

end

/-- Settles O30: the checks in order; the count of the grant step is the number of waiters that left. -/
theorem downgradeOutcomes : Obligations.DowngradeOutcomes := by
  intro a w s l htakes hasks u r refused
  have hcheck := State.downgradeCheck_of_asks hasks
  have refuse : ∀ {o}, u.downgradeCheck a (numberField (u.argsOf a).arg0) = .inl o → refused o :=
    exec_downgrade_refused htakes
  refine ⟨fun hno => refuse ?_, fun hholds hs => refuse ?_, fun hholds hs hnot => refuse ?_,
    fun hholds hs hallowed honce _ => ?_⟩
  · rw [hcheck, if_pos hno]
  · rw [hcheck, if_neg (ne_false_of_eq_true hholds), if_pos hs]
  · rw [hcheck, if_neg (ne_false_of_eq_true hholds), if_neg (by rw [hs]; decide), if_pos hnot]
  · rw [if_neg (ne_false_of_eq_true hholds), if_neg (by rw [hs]; decide),
      if_neg (ne_false_of_eq_true hallowed)] at hcheck
    have hqueue : ((u.toShared l).lock l).queue = r.queue := by rw [State.toShared, State.setLock_lock_self]
    exact ⟨_, exec_downgrade_done htakes hcheck,
      (State.grantRuns_count _ _ (by rwa [hqueue])).trans (congrArg List.length hqueue)⟩

end Sys2Proof.Machine
end

section
/-! What is taken before a request (R97, R98): each expiry leaves fewer, so the expiries presented are all taken, and
then each held tick with its own. -/

namespace Sys2Proof.Machine

/-! ### The expiries awaited, under the requests of the Lock Engine (R93, R95) -/

theorem DeadlineUnit.freeOwned_expiries (d : DeadlineUnit) (o : Option EntryNum) :
    (d.freeOwned o).expiries.Sublist d.expiries := by
  cases o
  · exact .refl _
  · exact List.filter_sublist

theorem DeadlineUnit.armAsLease_expiries (d : DeadlineUnit) (e : EntryNum) (n : Nat) :
    (d.armAsLease e n).expiries.Sublist d.expiries := by
  unfold DeadlineUnit.armAsLease
  split
  · exact List.filter_sublist
  · exact List.filter_sublist
  · exact .refl _

theorem DeadlineUnit.atGrant_expiries (d : DeadlineUnit) (q : PendingRequest) :
    (d.atGrant q).expiries.Sublist d.expiries := by
  unfold DeadlineUnit.atGrant
  split
  · exact d.armAsLease_expiries ..
  · exact List.filter_sublist
  · exact .refl _

/-- Every expiry that `s` awaits is one of `es`, in their order. -/
def State.AwaitsOf (es : List EntryNum) (s : State) : Prop := s.du.expiries.Sublist es

namespace State.AwaitsOf

variable {es : List EntryNum} {s : State}

theorem post (h : s.AwaitsOf es) (a : Agent) (n : Notice) : (s.post a n).AwaitsOf es := by
  rwa [AwaitsOf, State.post_du]

theorem dequeue (h : s.AwaitsOf es) (a : Agent) : (s.dequeue a).AwaitsOf es := by
  cases hq : s.request a with
  | none => rwa [State.dequeue_of_none hq]
  | some q =>
    rw [State.dequeue_of_some hq]
    exact (s.du.freeOwned_expiries q.entry).trans h

theorem removeHold (h : s.AwaitsOf es) (a : Agent) (l : LockNum) : (s.removeHold a l).AwaitsOf es :=
  (s.du.freeOwned_expiries _).trans h

theorem grantWaiter (h : s.AwaitsOf es) (l : LockNum) (r : Bool) (a : Agent) : (s.grantWaiter l r a).AwaitsOf es := by
  cases hq : s.request a with
  | none => rwa [State.grantWaiter_of_none hq]
  | some q =>
    rw [State.grantWaiter_of_some hq]
    exact State.AwaitsOf.post (s := s.seatWaiter l a q) ((s.du.atGrant_expiries q).trans h) _ _

theorem convert (h : s.AwaitsOf es) (l : LockNum) (a : Agent) : (s.convert l a).AwaitsOf es := by
  cases hq : s.request a with
  | none => rwa [State.convert_of_none hq]
  | some q =>
    rw [State.convert_of_some hq]
    exact State.AwaitsOf.post (s := s.seatUpgrade l a q) ((s.du.freeOwned_expiries q.entry).trans h) _ _

theorem grantStep (h : s.AwaitsOf es) (l : LockNum) : (s.grantStep l).AwaitsOf es :=
  State.grantStep_induct (P := State.AwaitsOf es) l (fun _ r a h => h.grantWaiter l r a)
    (fun _ a h => h.convert l a) (fun _ _ h => h) (fun _ _ h => h) h

theorem grantIf (h : s.AwaitsOf es) (b : Bool) (l : LockNum) : (s.grantIf b l).AwaitsOf es :=
  State.grantIf_induct (fun _ => h) (h.grantStep l)

theorem timeOut (h : s.AwaitsOf es) (a : Agent) (q : PendingRequest) : (s.timeOut a q).AwaitsOf es :=
  ((h.dequeue a).post a _).grantIf _ _

theorem revokeHold (h : s.AwaitsOf es) (a : Agent) (l : LockNum) : (s.revokeHold a l).AwaitsOf es := by
  have hupgrade : ∀ t : State, t.AwaitsOf es → (if s.upgradeQueued a l then t.dequeue a else t).AwaitsOf es := by
    intro t ht
    split
    · exact ht.dequeue a
    · exact ht
  have hrecovered : ∀ t : State, t.AwaitsOf es →
      (if (s.lock l).state = .exclusive then t.setRecovered l else t).AwaitsOf es := by
    intro t ht
    split <;> exact ht
  exact hrecovered _ (hupgrade _ (h.removeHold a l))

theorem revokeLease (h : s.AwaitsOf es) (a : Agent) (l : LockNum) : (s.revokeLease a l).AwaitsOf es :=
  (State.revokeReported_induct (P := State.AwaitsOf es) (h.revokeHold a l) fun _ _ _ h => h.post _ _).grantIf _ _

end State.AwaitsOf

/-- R98: the expiry of an entry leaves the expiries awaited with that of every entry it frees or re-arms. -/
theorem State.expiryOf_awaitsOf (s : State) (e : EntryNum) :
    (s.expiryOf e).AwaitsOf (s.du.expiries.filter (· != e)) := by
  have hfree : (s.withDu (·.free e)).AwaitsOf (s.du.expiries.filter (· != e)) := List.Sublist.refl _
  unfold State.expiryOf
  split
  · unfold State.waitExpired
    simp only
    split
    · exact hfree
    · exact hfree.timeOut _ _
  · unfold State.leaseExpired
    simp only
    split
    · exact hfree.revokeLease _ _
    · exact hfree
  · exact List.Sublist.refl _
  · exact List.Sublist.refl _

/-! ### Every expiry presented (R98) -/

theorem State.takeExpiry_of_none {s : State} (h : s.du.expiries = []) : s.takeExpiry = s := by
  simp only [State.takeExpiry, h]

theorem State.takeExpiry_of_cons {s : State} {e : EntryNum} {es : List EntryNum} (h : s.du.expiries = e :: es) :
    s.takeExpiry = s.expiryOf e := by
  simp only [State.takeExpiry, h]

/-- R98: an expiry taken leaves fewer awaited. -/
theorem State.takeExpiry_expiries_lt {s : State} (h : s.du.expiries ≠ []) :
    s.takeExpiry.du.expiries.length < s.du.expiries.length := by
  obtain ⟨e, es, hes⟩ := List.exists_cons_of_ne_nil h
  have hleft := (s.expiryOf_awaitsOf e).length_le
  have hrest : (s.du.expiries.filter (· != e)).length ≤ es.length := by
    rw [hes, List.filter_cons_of_neg (by simp)]
    exact List.length_filter_le ..
  rw [State.takeExpiry_of_cons hes, hes, List.length_cons]
  omega

theorem State.takeExpiries_of_none {s : State} (h : s.du.expiries = []) (n : Nat) : State.takeExpiries n s = s := by
  induction n with
  | zero => rfl
  | succ n ih => rw [State.takeExpiries, State.takeExpiry_of_none h, ih]

/-- R98: none is awaited once as many have been taken as were awaited, whatever else an expiry ended. -/
theorem State.takeExpiries_exhausts {n : Nat} : ∀ {s : State}, s.du.expiries.length ≤ n →
    (State.takeExpiries n s).du.expiries = [] := by
  induction n with
  | zero => exact fun h => List.length_eq_zero_iff.mp (Nat.le_zero.mp h)
  | succ n ih =>
    intro s h
    by_cases hnone : s.du.expiries = []
    · rw [State.takeExpiries_of_none hnone, hnone]
    · exact ih (by have := State.takeExpiry_expiries_lt hnone; omega)

theorem State.takeExpiries_add (n k : Nat) : ∀ s : State,
    State.takeExpiries (n + k) s = State.takeExpiries k (State.takeExpiries n s) := by
  induction n with
  | zero => intro s; rw [Nat.zero_add]; rfl
  | succ n ih => intro s; rw [Nat.succ_add]; exact ih s.takeExpiry

@[simp] theorem State.drain_expiries (s : State) : s.drain.du.expiries = [] :=
  State.takeExpiries_exhausts (Nat.le_refl _)

theorem State.drain_of_none {s : State} (h : s.du.expiries = []) : s.drain = s := State.takeExpiries_of_none h _

/-- R98: there is nothing to take beyond the expiries awaited. -/
theorem State.takeExpiries_eq_drain {n : Nat} {s : State} (h : s.du.expiries.length ≤ n) :
    State.takeExpiries n s = s.drain := by
  obtain ⟨k, rfl⟩ := Nat.exists_eq_add_of_le h
  rw [State.takeExpiries_add]
  exact State.takeExpiries_of_none s.drain_expiries k

/-- R98: to take every expiry awaited is to take the first and then every one left. -/
theorem State.drain_eq_takeExpiry_drain (s : State) : s.drain = s.takeExpiry.drain := by
  by_cases hnone : s.du.expiries = []
  · rw [State.takeExpiry_of_none hnone]
  · have hlt := State.takeExpiry_expiries_lt hnone
    calc s.drain = State.takeExpiries (s.du.expiries.length + 1) s := (State.takeExpiries_eq_drain (by omega)).symm
      _ = State.takeExpiries s.du.expiries.length s.takeExpiry := rfl
      _ = s.takeExpiry.drain := State.takeExpiries_eq_drain hlt.le

@[simp] theorem State.takeExpiry_heldTicks (s : State) : s.takeExpiry.du.heldTicks = s.du.heldTicks :=
  have ⟨_, _, _, _, hheld, _⟩ := s.takeExpiry_frame.clock
  hheld

@[simp] theorem State.drain_heldTicks (s : State) : s.drain.du.heldTicks = s.du.heldTicks :=
  have ⟨_, _, _, _, hheld, _⟩ := s.drain_frame.clock
  hheld

/-! ### Held ticks (R98) -/

@[simp] theorem State.heldTick_heldTicks (s : State) : s.heldTick.du.heldTicks = s.du.heldTicks - 1 := rfl

theorem State.settleTicks_expiries (n : Nat) : ∀ s : State, (State.settleTicks n s).du.expiries = [] := by
  induction n with
  | zero => exact State.drain_expiries
  | succ n ih => exact fun s => ih s.drain.heldTick

theorem State.settleTicks_heldTicks (n : Nat) : ∀ s : State,
    (State.settleTicks n s).du.heldTicks = s.du.heldTicks - n := by
  induction n with
  | zero => exact State.drain_heldTicks
  | succ n ih =>
    intro s
    rw [State.settleTicks, ih, State.heldTick_heldTicks, State.drain_heldTicks]
    omega

@[simp] theorem State.settle_expiries (s : State) : s.settle.du.expiries = [] := State.settleTicks_expiries _ s

@[simp] theorem State.settle_heldTicks (s : State) : s.settle.du.heldTicks = 0 := by
  rw [State.settle, State.settleTicks_heldTicks, Nat.sub_self]

theorem State.settle_takeExpiry (s : State) : s.takeExpiry.settle = s.settle := by
  unfold State.settle
  rw [State.takeExpiry_heldTicks]
  cases s.du.heldTicks with
  | zero => exact s.drain_eq_takeExpiry_drain.symm
  | succ n => rw [State.settleTicks, State.settleTicks, ← s.drain_eq_takeExpiry_drain]

theorem State.settle_heldTick {s : State} (hnone : s.du.expiries = []) (hheld : 0 < s.du.heldTicks) :
    s.heldTick.settle = s.settle := by
  obtain ⟨n, hn⟩ := Nat.exists_eq_add_of_lt hheld
  rw [Nat.zero_add] at hn
  unfold State.settle
  rw [State.heldTick_heldTicks, hn, Nat.add_sub_cancel, State.settleTicks, State.drain_of_none hnone]

/-- Settles O20: an expiry, or with none awaited a held tick, may be taken first of what is taken before a request. -/
theorem settleTakesExpiriesFirst : Obligations.SettleTakesExpiriesFirst := fun s =>
  ⟨State.settle_of_quiet, fun _ => s.settle_takeExpiry.symm,
    fun hnone hheld => (State.settle_heldTick hnone hheld).symm,
    s.settle_expiries, s.settle_heldTicks, s.settle_frame⟩

end Sys2Proof.Machine
end

section
/-! What a request leaves on the deadline side (R26, R30, R73, R93): the entry and the durations that an ACQUIRE or an
UPGRADE ends with, and the clock under the owners' parts of the commands. -/

namespace Sys2Proof.Machine

/-! ### The entry that a check finds (R26, R28) -/

/-- R26: an immediate grant with an entry asks a lease, and the entry was FREE. -/
theorem State.grantCheck_grant {s : State} {l l' : LockNum} {m m' : Mode} {x : AcquireArgs} {e : Option EntryNum}
    (h : s.grantCheck l m x = .grant l' m' e) :
    ∀ y, e = some y → s.du.entries.get y = .free ∧ x.lease.isSome = true := by
  unfold State.grantCheck at h
  split at h
  · next hlease =>
    split at h
    · next hfound =>
      cases h
      rintro y ⟨⟩
      exact ⟨DeadlineUnit.findFree_free hfound, hlease⟩
    · cases h
  · cases h
    exact fun _ hy => nomatch hy

/-- R28, R30: a request queues with an entry that was FREE, and with one exactly when it carries a timeout or a
lease. -/
theorem State.queueChecks_enqueue {s : State} {a : Agent} {l l' : LockNum} {m m' : Mode} {x : AcquireArgs}
    {e : Option EntryNum} (h : s.queueChecks a l m x = .enqueue l' m' e) :
    (∀ y, e = some y → s.du.entries.get y = .free) ∧ e.isSome = (x.timeout.isSome || x.lease.isSome) := by
  unfold State.queueChecks at h
  split at h
  · split at h
    · cases h
    · split at h
      · next hasks =>
        split at h
        · next hfound =>
          cases h
          exact ⟨fun y hy => by cases hy; exact DeadlineUnit.findFree_free hfound, hasks.symm⟩
        · cases h
      · next hasks =>
        cases h
        exact ⟨fun _ hy => (nomatch hy), by simpa using hasks⟩
  · cases h

section
variable {u : State} {a : Agent} {l : LockNum} {m : Mode} {e : Option EntryNum}

/-- R26: what an ACQUIRE that is granted has passed, and the entry it takes. -/
theorem State.acquireDecision_grant (h : u.acquireDecision a (acquireArgs (u.argsOf a)) = .grant l m e) :
    u.PassesAcquire a l m ∧
      ∀ y, e = some y → u.du.entries.get y = .free ∧ (acquireArgs (u.argsOf a)).lease.isSome = true := by
  rcases u.acquireDecision_cases a with ⟨o, ho⟩ | ⟨l', m', hp, hd⟩
  · cases ho.symm.trans h
  · rw [hd] at h
    split at h
    · rcases u.grantCheck_cases l' m' (acquireArgs (u.argsOf a)) with ⟨o, hc⟩ | ⟨e', hc⟩ <;> cases hc.symm.trans h
      exact ⟨hp, State.grantCheck_grant hc⟩
    · rcases u.queueChecks_cases a l' m' (acquireArgs (u.argsOf a)) with ⟨o, hc⟩ | ⟨e', hc, -⟩ <;> cases hc.symm.trans h

/-- R30: what an ACQUIRE that queues has passed, and the entry it takes. -/
theorem State.acquireDecision_enqueue (h : u.acquireDecision a (acquireArgs (u.argsOf a)) = .enqueue l m e) :
    u.PassesAcquire a l m ∧ (∀ y, e = some y → u.du.entries.get y = .free) ∧
      e.isSome = ((acquireArgs (u.argsOf a)).timeout.isSome || (acquireArgs (u.argsOf a)).lease.isSome) := by
  rcases u.acquireDecision_cases a with ⟨o, ho⟩ | ⟨l', m', hp, hd⟩
  · cases ho.symm.trans h
  · rw [hd] at h
    split at h
    · rcases u.grantCheck_cases l' m' (acquireArgs (u.argsOf a)) with ⟨o, hc⟩ | ⟨e', hc⟩ <;> cases hc.symm.trans h
    · rcases u.queueChecks_cases a l' m' (acquireArgs (u.argsOf a)) with ⟨o, hc⟩ | ⟨e', hc, -⟩ <;> cases hc.symm.trans h
      exact ⟨hp, State.queueChecks_enqueue hc⟩

/-- R69, R73: an UPGRADE is refused, or converted, or its checks 9 to 11 are those of an ACQUIRE that waits. -/
theorem State.upgradeDecision_cases (u : State) (a : Agent) (w : ArgWords) :
    (∃ o, u.upgradeDecision a w = .refuse o) ∨ (∃ l, u.upgradeDecision a w = .grant l .upgrade none) ∨
      ∃ l, u.request a = none ∧ u.upgradeDecision a w = u.queueChecks a l .upgrade (upgradeArgs w) := by
  unfold State.upgradeDecision
  cases (u.agent a).state.refusal with
  | some c => exact Or.inl ⟨_, rfl⟩
  | none =>
    cases lockOf (numberField w.arg0) with
    | none => exact Or.inl ⟨_, rfl⟩
    | some l =>
      cases hidle : u.request a with
      | some q => exact Or.inl ⟨_, rfl⟩
      | none =>
        simp only
        split
        · exact Or.inl ⟨_, rfl⟩
        split
        · exact Or.inl ⟨_, rfl⟩
        split
        · exact Or.inr (Or.inl ⟨l, rfl⟩)
        cases u.upgraderOf l with
        | some b => exact Or.inl ⟨_, rfl⟩
        | none =>
          cases hwait : waitField w.arg0 with
          | false => exact Or.inl ⟨_, rfl⟩
          | true =>
            refine Or.inr (Or.inr ⟨l, trivial, ?_⟩)
            simp only [State.queueChecks, upgradeArgs, hwait, Option.isSome_none, Bool.or_false, if_true]

/-- R73: an UPGRADE that queues waited for nothing, and takes an entry as any request that queues. -/
theorem State.upgradeDecision_enqueue {w : ArgWords} (h : u.upgradeDecision a w = .enqueue l m e) :
    u.request a = none ∧ (∀ y, e = some y → u.du.entries.get y = .free) ∧
      e.isSome = ((upgradeArgs w).timeout.isSome || (upgradeArgs w).lease.isSome) := by
  rcases u.upgradeDecision_cases a w with ⟨o, hd⟩ | ⟨l', hd⟩ | ⟨l', hidle, hd⟩
  · cases hd.symm.trans h
  · cases hd.symm.trans h
  · exact ⟨hidle, State.queueChecks_enqueue (hd.symm.trans h)⟩

end

/-- R103, Table 6-3: a RENEW that is taken names a lock that the agent holds with a lease, and a duration in range. -/
theorem State.renewCheck_passed {s : State} {a : Agent} {w : ArgWords} {l : LockNum} {e : EntryNum} {n : Nat}
    (h : s.renewCheck a w = .inr (l, e, n)) : (s.lock l).leaseOf a = some e ∧ DurationLaw n := by
  unfold State.renewCheck at h
  split at h
  · cases h
  · split at h
    · cases h
    · split at h
      · cases h
      · split at h
        · cases h
        · cases h
        · next hlease hduration =>
          cases h
          exact ⟨hlease, duration_law hduration⟩

end Sys2Proof.Machine
end

section
/-! The dividers, the deadline pool and the held ticks under every command and step (R84, R85, R90, R91, R97, R98). -/

namespace Sys2Proof.Machine

/-! ### The clock of the Deadline Unit under the owners' parts of the commands -/

theorem State.giveUp_frame (s : State) (a : Agent) (l : LockNum) : s.EngineFrame (s.giveUp a l) :=
  (s.removeHold_frame a l).trans (State.grantAfterHold_frame _ l)

theorem State.forceHeld_frame (s : State) (l : LockNum) : s.EngineFrame (s.forceHeld l) :=
  ((s.stripLock_frame l).trans (State.postAll_frame ..)).trans (State.grantStep_frame _ l)

theorem State.acquireTaken_clock (s : State) (a : Agent) : s.settle.du.ClockKept (s.acquireTaken a).1.du := by
  unfold State.acquireTaken
  simp only
  split
  · exact .refl _
  · exact (State.grantNow_frame ..).clock
  · exact DeadlineUnit.atQueue_clockKept ..

theorem State.releaseTaken_clock (s : State) (a : Agent) : s.settle.du.ClockKept (s.releaseTaken a).1.du := by
  unfold State.releaseTaken
  simp only
  split
  · exact .refl _
  · exact (State.giveUp_frame ..).clock

theorem State.upgradeTaken_clock (s : State) (a : Agent) : s.settle.du.ClockKept (s.upgradeTaken a).1.du := by
  unfold State.upgradeTaken
  simp only
  split
  · exact .refl _
  · exact .refl _
  · exact DeadlineUnit.atQueue_clockKept ..

theorem State.downgradeTaken_clock (s : State) (a : Agent) : s.settle.du.ClockKept (s.downgradeTaken a).1.du := by
  unfold State.downgradeTaken
  simp only
  split
  · exact .refl _
  · exact (State.grantStep_frame (s.settle.toShared _) _).clock

theorem State.cancelTaken_clock (s : State) (a : Agent) : s.settle.du.ClockKept (s.cancelTaken a).1.du := by
  unfold State.cancelTaken
  simp only
  split
  · exact .refl _
  · split
    · exact .refl _
    · exact (State.dropRequest_frame ..).clock

theorem State.renewTaken_clock (s : State) (a : Agent) : s.settle.du.ClockKept (s.renewTaken a).1.du := by
  unfold State.renewTaken
  simp only
  split
  · exact .refl _
  · exact DeadlineUnit.armAsLease_clockKept ..

theorem State.setLockTaken_clock (s : State) : s.settle.du.ClockKept s.setLockTaken.1.du := by
  unfold State.setLockTaken
  simp only
  split
  · exact .refl _
  · split <;> exact .refl _

theorem State.forceReleaseTaken_clock (s : State) : s.settle.du.ClockKept s.forceReleaseTaken.1.du := by
  unfold State.forceReleaseTaken
  simp only
  split
  · exact .refl _
  · split
    · exact .refl _
    · exact (State.forceHeld_frame ..).clock

theorem State.purgeStart_clock (s : State) (a : Agent) : s.du.ClockKept (s.purgeStart a).du :=
  have hbegun : s.du.ClockKept (s.purgeBegun a).du := (s.dequeue_frame a).clock
  State.purgeStart_induct (P := fun t => s.du.ClockKept t.du) hbegun fun q _ =>
    hbegun.trans (State.grantStep_frame _ q.lock).clock

/-- A command that neither sets the clock nor resets the tables settles first and then keeps the clock, or keeps the
whole Deadline Unit and the Bus Port. -/
theorem Command.taken_clock {c : Command} (hc : c ∉ [.setTime, .setDivider, .resetTables]) (a : Agent) (s : State) :
    s.settle.du.ClockKept (c.taken a s).1.du ∨ ((c.taken a s).1.port = s.port ∧ (c.taken a s).1.du = s.du) := by
  cases c
  case nop => exact Or.inr ⟨rfl, rfl⟩
  case acquire => exact Or.inl (s.acquireTaken_clock a)
  case release => exact Or.inl (s.releaseTaken_clock a)
  case upgrade => exact Or.inl (s.upgradeTaken_clock a)
  case downgrade => exact Or.inl (s.downgradeTaken_clock a)
  case cancel => exact Or.inl (s.cancelTaken_clock a)
  case renew => exact Or.inl (s.renewTaken_clock a)
  case setLock => exact Or.inl s.setLockTaken_clock
  case forceRelease => exact Or.inl s.forceReleaseTaken_clock
  case setAgent =>
    refine Or.inr ?_
    show (State.setAgentTaken s).1.port = _ ∧ (State.setAgentTaken s).1.du = _
    unfold State.setAgentTaken
    simp only
    split <;> exact ⟨rfl, rfl⟩
  case purge =>
    show _ ∨ (State.purgeTaken s).1.port = _ ∧ _
    simp only [taken]
    unfold State.purgeTaken
    split
    · exact Or.inr ⟨rfl, rfl⟩
    · exact Or.inl (State.purgeStart_clock ..)
  all_goals exact absurd (by decide) hc

theorem State.visitLock_clock (s : State) (a : Agent) (k : LockNum) : s.du.ClockKept (s.visitLock a k).du := by
  unfold State.visitLock
  split
  · exact ((s.sweepHold_frame a k).trans (State.grantAfterHold_frame _ k)).clock
  · exact .refl _

theorem State.sweepEnd_du (s : State) : s.sweepEnd.du = s.du := by
  rcases s.sweepEnd_cases with e | ⟨a, -, -, -, e⟩ <;> rw [e]
  rw [State.post_du]
  rfl

/-! ### The dividers and the divider count (R84, R85) -/

theorem State.DividerLaw.of_clock {s t : State} (h : s.DividerLaw) (hc : s.du.ClockKept t.du) : t.DividerLaw := by
  obtain ⟨-, hdivider, hactive, hcount, -, -⟩ := hc
  unfold State.DividerLaw
  rw [hdivider, hactive, hcount]
  exact h

theorem State.DividerLaw.of_settle {s t : State} (h : s.DividerLaw) (f : s.SettleFrame t) : t.DividerLaw := by
  unfold State.DividerLaw
  rw [f.divider, f.activeDivider, f.dividerCount]
  exact h

theorem State.DividerLaw.settle {s : State} (h : s.DividerLaw) : s.settle.DividerLaw := h.of_settle s.settle_frame

/-- R84, R85: a bus clock period counts below the divider in force, or begins a period of the tick divider. -/
theorem State.DividerLaw.countPeriod {s : State} (h : s.DividerLaw) : (s.withDu (·.countPeriod)).DividerLaw := by
  obtain ⟨hdivider, hactive, -⟩ := h
  unfold State.DividerLaw State.withDu DeadlineUnit.countPeriod
  simp only
  split
  · exact ⟨hdivider, hdivider, hdivider.1⟩
  · next hlt => exact ⟨hdivider, hactive, Nat.lt_of_not_le hlt⟩

/-- R85: SET DIVIDER refuses 0 and a value above 65,536. -/
theorem State.DividerLaw.setDividerTaken {s : State} (h : s.DividerLaw) : s.setDividerTaken.1.DividerLaw := by
  have ⟨_, hactive, hcount⟩ := h
  unfold State.setDividerTaken
  simp only
  split
  · exact h
  · next hrange =>
    obtain ⟨hpos, hmax⟩ := not_or.mp hrange
    exact ⟨⟨Nat.one_le_iff_ne_zero.mpr hpos, Nat.le_of_not_lt hmax⟩, hactive, hcount⟩

theorem State.DividerLaw.taken {s : State} (h : s.DividerLaw) (c : Command) (a : Agent) :
    (c.taken a s).1.DividerLaw := by
  by_cases hc : c ∈ [.setTime, .setDivider, .resetTables]
  · simp only [List.mem_cons, List.not_mem_nil, or_false] at hc
    rcases hc with rfl | rfl | rfl
    · exact h.settle
    · exact h.setDividerTaken
    · exact h
  · rcases Command.taken_clock hc a s with hclock | ⟨-, hdu⟩
    · exact h.settle.of_clock hclock
    · exact h.of_clock (by rw [hdu]; exact .refl _)

/-- R85: a tick that falls due puts the tick divider in force. -/
theorem State.DividerLaw.tickTaken {s : State} (h : s.DividerLaw) : s.tickTaken.DividerLaw := by
  have hdrain := h.of_clock s.drain_frame.clock
  unfold State.tickTaken
  split
  · exact h
  · split
    · exact hdrain.of_settle s.drain.catchUp_frame.1
    · obtain ⟨hdivider, -, -⟩ := hdrain
      exact ⟨hdivider, hdivider, hdivider.1⟩

theorem State.DividerLaw.sweepVisit {s : State} (h : s.DividerLaw) : s.sweepVisit.DividerLaw := by
  rcases s.sweepVisit_cases with e | ⟨a, k, -, -, -, e⟩ <;> rw [e]
  · exact h
  · exact h.settle.of_clock (State.visitLock_clock ..)

theorem dividerLaw_kept : Kept State.DividerLaw where
  port _ _ h := h
  pending _ _ h := h
  fields _ _ _ _ _ _ _ h := h
  notices _ _ _ _ h := h
  snapshots _ _ h := h
  taken _ c a h := h.taken c a
  tryGrant _ _ _ h := ⟨h.settle, fun _ => h.settle.of_clock (State.grantNow_frame ..).clock⟩
  tryRelease _ _ _ h _ := h.settle.of_clock (State.giveUp_frame ..).clock
  powerOn _ _ :=
    have ⟨_, hreset, _⟩ := resetKeepsLaws
    hreset
  busReset _ h := h
  tick _ h := h.tickTaken
  expiry s h := h.of_clock s.takeExpiry_frame.clock
  sweepVisit _ h := h.sweepVisit
  sweepEnd s h := h.of_clock (by rw [s.sweepEnd_du]; exact .refl _)
  period _ h := h.countPeriod
  heldTick _ h _ := h

/-! ### The deadline pool (R90, R91, R97) -/

namespace State.PoolLaw

variable {s : State}

theorem catchUp (h : s.PoolLaw) : s.catchUp.PoolLaw := State.catchUp_induct (fun _ ht _ => ht.heldTick) h

theorem grantAfterHold (h : s.PoolLaw) (l : LockNum) : (s.grantAfterHold l).PoolLaw :=
  State.grantIf_induct (fun _ => h) (h.grantStep l)

theorem giveUp (h : s.PoolLaw) (a : Agent) (l : LockNum) : (s.giveUp a l).PoolLaw :=
  (h.removeHold a l).grantAfterHold l

theorem dropRequest (h : s.PoolLaw) (a : Agent) : (s.dropRequest a).PoolLaw :=
  State.dropRequest_induct (h.dequeue a) fun q _ => (h.dequeue a).grantStep q.lock

theorem postAll (h : s.PoolLaw) (bs : List Agent) (n : Agent → Notice) :
    (bs.foldl (fun t a => t.post a (n a)) s).PoolLaw := by
  induction bs generalizing s with
  | nil => exact h
  | cons b bs ih => exact ih (h.post b _)

theorem toFree (h : s.PoolLaw) (l : LockNum) (exclusive : Bool) : (s.toFree l exclusive).PoolLaw := by
  unfold State.toFree
  cases exclusive
  · exact h.setLock l _
  · exact (h.setLock l _).setLock l _

/-- R112: holds and an upgrade leave with their entries, and the grant step runs. -/
theorem forceHeld (h : s.PoolLaw) (l : LockNum) : (s.forceHeld l).PoolLaw := by
  have hholds : (s.removeHolds l).PoolLaw := State.removeHolds_induct (fun _ a h => h.removeHold a l) h
  have hupgrade : ((s.removeHolds l).dropUpgrade l).PoolLaw := by
    unfold State.dropUpgrade
    split
    · exact hholds.dequeue _
    · exact hholds
  have hstripped : (s.stripLock l).PoolLaw := hupgrade.toFree l _
  exact (hstripped.postAll _ _).grantStep l

/-- R26, R30: an ACQUIRE arms or reserves a FREE entry, for durations in range. -/
theorem acquireTaken (h : s.PoolLaw) (a : Agent) : (s.acquireTaken a).1.PoolLaw := by
  unfold State.acquireTaken
  simp only
  split
  · exact h.settle
  · exact h.settle.grantNow a _ _ (fun _ hn => duration_law hn) _
  · next hd =>
    obtain ⟨-, hfree, -⟩ := State.acquireDecision_enqueue hd
    exact h.settle.joinQueue a _ _ (fun _ hn => duration_law hn) (fun _ hn => duration_law hn) hfree

theorem releaseTaken (h : s.PoolLaw) (a : Agent) : (s.releaseTaken a).1.PoolLaw := by
  unfold State.releaseTaken
  simp only
  split
  · exact h.settle
  · exact h.settle.giveUp a _

theorem upgradeTaken (h : s.PoolLaw) (a : Agent) : (s.upgradeTaken a).1.PoolLaw := by
  unfold State.upgradeTaken
  simp only
  split
  · exact h.settle
  · exact h.settle.setLock _ _
  · next hd =>
    obtain ⟨-, hfree, -⟩ := State.upgradeDecision_enqueue hd
    exact h.settle.joinQueue a _ _ (fun _ hn => duration_law hn) (fun _ hn => absurd hn (by simp)) hfree

theorem downgradeTaken (h : s.PoolLaw) (a : Agent) : (s.downgradeTaken a).1.PoolLaw := by
  unfold State.downgradeTaken
  simp only
  split
  · exact h.settle
  · exact State.PoolLaw.grantStep (s := s.settle.toShared _) (h.settle.setLock _ _) _

theorem cancelTaken (h : s.PoolLaw) (a : Agent) : (s.cancelTaken a).1.PoolLaw := by
  unfold State.cancelTaken
  simp only
  split
  · exact h.settle
  · split
    · exact h.settle
    · exact h.settle.dropRequest a

/-- R103, R104: the duration of a RENEW that is taken is that of its lease field. -/
theorem renewTaken (h : s.PoolLaw) (a : Agent) : (s.renewTaken a).1.PoolLaw := by
  unfold State.renewTaken
  simp only
  split
  · exact h.settle
  · next hcheck => exact h.settle.of_du (h.settle.pool.armAsLease _ (State.renewCheck_passed hcheck).2) rfl

theorem setAgentTaken (h : s.PoolLaw) : s.setAgentTaken.1.PoolLaw := by
  unfold State.setAgentTaken
  simp only
  split
  · exact h
  · exact h.of_eq rfl rfl

theorem setLockTaken (h : s.PoolLaw) : s.setLockTaken.1.PoolLaw := by
  unfold State.setLockTaken
  simp only
  split
  · exact h.settle
  · split
    · exact h.settle
    · exact h.settle.setLock _ _

theorem forceReleaseTaken (h : s.PoolLaw) : s.forceReleaseTaken.1.PoolLaw := by
  unfold State.forceReleaseTaken
  simp only
  split
  · exact h.settle
  · split
    · exact h.settle.setLock _ _
    · exact h.settle.forceHeld _

theorem purgeTaken (h : s.PoolLaw) : s.purgeTaken.1.PoolLaw := by
  unfold State.purgeTaken
  split
  · exact h
  · next a _ =>
    have hbegun : (s.settle.purgeBegun a).PoolLaw := (h.settle.dequeue a).of_eq rfl rfl
    exact State.purgeStart_induct hbegun fun q _ => hbegun.grantStep q.lock

theorem setDividerTaken (h : s.PoolLaw) : s.setDividerTaken.1.PoolLaw := by
  unfold State.setDividerTaken
  simp only
  split
  · exact h
  · exact h.of_du (h.pool.of_eq rfl rfl rfl rfl) rfl

/-- With no request pending there is no duration yet to be armed. -/
theorem of_idle {t : State} (hd : t.du.PoolLaw) (hr : ∀ a, t.request a = none) : t.PoolLaw :=
  ⟨hd, fun a q hq => absurd ((hr a).symm.trans hq) (by simp)⟩

theorem taken (h : s.PoolLaw) (c : Command) (a : Agent) : (c.taken a s).1.PoolLaw :=
  match c with
  | .nop => h
  | .acquire => h.acquireTaken a
  | .release => h.releaseTaken a
  | .upgrade => h.upgradeTaken a
  | .downgrade => h.downgradeTaken a
  | .cancel => h.cancelTaken a
  | .renew => h.renewTaken a
  | .setAgent => h.setAgentTaken
  | .setLock => h.setLockTaken
  | .forceRelease => h.forceReleaseTaken
  | .purge => h.purgeTaken
  | .setTime => h.settle.of_du (h.settle.pool.of_eq rfl rfl rfl rfl) rfl
  | .setDivider => h.setDividerTaken
  | .resetTables => of_idle (DeadlineUnit.PoolLaw.emptied s.du) s.emptyTables_request

theorem tickTaken (h : s.PoolLaw) : s.tickTaken.PoolLaw := by
  unfold State.tickTaken
  split
  · exact h
  · split
    · exact h.drain.catchUp
    · exact h.drain.of_du (h.drain.pool.tick.of_eq rfl rfl rfl rfl) rfl

theorem sweepHold (h : s.PoolLaw) (a : Agent) (k : LockNum) : (s.sweepHold a k).PoolLaw := by
  unfold State.sweepHold
  split
  · exact (h.removeHold a k).setLock k _
  · exact h.removeHold a k

theorem visitLock (h : s.PoolLaw) (a : Agent) (k : LockNum) : (s.visitLock a k).PoolLaw := by
  unfold State.visitLock
  split
  · exact ((h.sweepHold a k).grantAfterHold k).of_eq rfl rfl
  · exact h.of_eq rfl rfl

theorem sweepVisit (h : s.PoolLaw) : s.sweepVisit.PoolLaw := by
  rcases s.sweepVisit_cases with e | ⟨a, k, -, -, -, e⟩ <;> rw [e]
  · exact h
  · exact h.settle.visitLock a k

theorem sweepEnd (h : s.PoolLaw) : s.sweepEnd.PoolLaw := by
  rcases s.sweepEnd_cases with e | ⟨a, -, -, -, e⟩ <;> rw [e]
  · exact h
  · have hclosed : (s.sweepClosed a).PoolLaw := h.of_eq rfl rfl
    exact hclosed.post _ _

/-- R84: a bus clock period changes the clock alone. -/
theorem countPeriod (h : s.PoolLaw) : (s.withDu (·.countPeriod)).PoolLaw := by
  refine h.of_du ?_ rfl
  show s.du.countPeriod.PoolLaw
  unfold DeadlineUnit.countPeriod
  split <;> exact h.pool.of_eq rfl rfl rfl rfl

end State.PoolLaw

theorem poolLaw_kept : Kept State.PoolLaw where
  port _ _ h := h.of_eq rfl rfl
  pending _ _ h := h.of_eq rfl rfl
  fields _ _ _ _ _ _ _ h := h.of_eq rfl rfl
  notices _ _ _ _ h := h.of_eq rfl rfl
  snapshots _ _ h := h.of_du (h.pool.of_eq rfl rfl rfl rfl) rfl
  taken _ c a h := h.taken c a
  tryGrant _ a l h := ⟨h.settle, fun _ => h.settle.grantNow a l _ (fun _ hn => absurd hn (by simp)) none⟩
  tryRelease _ a l h _ := h.settle.giveUp a l
  powerOn _ _ := .of_idle (DeadlineUnit.PoolLaw.emptied DeadlineUnit.reset) State.reset_request
  busReset s _ := .of_idle ((DeadlineUnit.PoolLaw.emptied s.du).of_eq rfl rfl rfl rfl) s.emptyTables_request
  tick _ h := h.tickTaken
  expiry _ h := h.takeExpiry
  sweepVisit _ h := h.sweepVisit
  sweepEnd _ h := h.sweepEnd
  period _ h := h.countPeriod
  heldTick _ h _ := h.heldTick

/-! ### Held ticks (R98) -/

namespace State.HeldLaw

variable {s t : State}

theorem of_eq (h : s.HeldLaw) (hready : t.ready = s.ready) (hdu : t.du = s.du) : t.HeldLaw := by
  unfold State.HeldLaw
  rw [hready, hdu]
  exact h

theorem of_notReady (h : t.ready = false) : t.HeldLaw := fun hready => absurd hready (ne_true_of_eq_false h)

theorem of_noneHeld (h : t.du.heldTicks = 0) : t.HeldLaw := fun _ hheld => absurd h hheld.ne'

/-- What keeps the clock of a settled state leaves no tick held. -/
theorem of_settled (h : s.settle.du.ClockKept t.du) : t.HeldLaw :=
  have ⟨_, _, _, _, hheld, _⟩ := h
  of_noneHeld (hheld.trans s.settle_heldTicks)

theorem settle (s : State) : s.settle.HeldLaw := of_settled (.refl _)

/-- Each command settles first, or keeps what the law reads, or leaves the port INITIALIZING. -/
theorem taken (h : s.HeldLaw) (c : Command) (a : Agent) : (c.taken a s).1.HeldLaw := by
  by_cases hc : c ∈ [.setTime, .setDivider, .resetTables]
  · simp only [List.mem_cons, List.not_mem_nil, or_false] at hc
    rcases hc with rfl | rfl | rfl
    · exact settle s
    · simp only [Command.taken]
      unfold State.setDividerTaken
      simp only
      split <;> exact h
    · exact of_notReady (Bool.and_false _)
  · rcases Command.taken_clock hc a s with hclock | ⟨hport, hdu⟩
    · exact of_settled hclock
    · exact h.of_eq (by rw [State.ready, State.inReset, hport]; rfl) hdu

theorem command (h : s.HeldLaw) (c : Command) (a : Agent) (w : WriteData) :
    (s.commandWrite c a w (c.taken a)).HeldLaw :=
  State.commandWrite_induct c a w h (fun h => h.taken c a) (fun _ _ h => h) (fun _ _ _ h => h) fun _ _ _ h => h

theorem write (h : s.HeldLaw) (a : Agent) (w : WriteData) {take : State → State} (ht : (take s).HeldLaw) :
    (s.writeAccess a w take).HeldLaw :=
  State.writeAccess_induct a w h (fun _ => ht) (fun _ _ h => h) fun _ _ _ h => h

theorem read (h : s.HeldLaw) {take : State → State} (ht : (take s).HeldLaw) : (s.readAccess take).HeldLaw :=
  State.readAccess_induct h (fun _ => ht) fun _ _ h => h

theorem tryRead (s : State) (a : Agent) (l : LockNum) : (s.tryReadTaken a l).HeldLaw := by
  unfold State.tryReadTaken
  simp only
  split
  · exact settle s
  · have hgranted := of_settled (s := s) (s.settle.grantNow_frame a l .exclusive none none).clock
    exact hgranted

theorem tryWrite (s : State) (a : Agent) (l : LockNum) : (s.tryWriteTaken a l).HeldLaw := by
  unfold State.tryWriteTaken
  simp only
  split
  · exact settle s
  · have hgiven := of_settled (s := s) (s.settle.giveUp_frame a l).clock
    exact hgiven

/-- A write of any word. -/
theorem registerWrite (h : s.HeldLaw) (a : Agent) (off : WordOffset) (w : WriteData)
    (ht : execRegisterWrite a off w s = .next t) : t.HeldLaw := by
  have refused : ∀ k, (s.writeRefused a k).HeldLaw := fun k => by
    unfold State.writeRefused
    split <;> exact h
  unfold execRegisterWrite at ht
  cases hw : windowWord off <;> rw [hw] at ht
  case command c => cases (execCommand_eq c a w s).symm.trans ht; exact h.command c a w
  case tryWord l => cases ht; exact h.write a w (tryWrite s a l)
  case arg0 | arg1 | noticeControl | errorStatus | interruptEnable => cases ht; exact h.write a w h
  all_goals cases ht; exact refused _

/-- A read of any word. -/
theorem refusedRead (h : s.HeldLaw) (a : Agent) (off : WordOffset) (ht : execRefusedRead a off s = .next t) :
    t.HeldLaw := by
  unfold execRefusedRead at ht
  cases hw : windowWord off <;> rw [hw] at ht
  case tryWord l => cases ht; exact h.read (tryRead s a l)
  case identification w => cases ht; split <;> exact h
  all_goals cases ht; exact h.read h

theorem tickTaken (h : s.HeldLaw) : s.tickTaken.HeldLaw := by
  unfold State.tickTaken
  split
  · exact h
  · split
    · exact s.drain.catchUp_heldLaw
    · next hnone => exact of_noneHeld (s.drain_heldTicks.trans (Nat.eq_zero_of_not_pos hnone))

theorem sweepVisit (h : s.HeldLaw) : s.sweepVisit.HeldLaw := by
  rcases s.sweepVisit_cases with e | ⟨a, k, -, -, -, e⟩ <;> rw [e]
  · exact h
  · exact of_settled (s.settle.visitLock_clock a k)

theorem sweepEnd (h : s.HeldLaw) : s.sweepEnd.HeldLaw := by
  refine h.of_eq ?_ s.sweepEnd_du
  rcases s.sweepEnd_cases with e | ⟨a, -, -, -, e⟩ <;> rw [e]
  simp only [State.ready, State.inReset, State.post_port]
  rfl

/-- R98: every command keeps the law of the held ticks: while the port is READY a command that takes the last expiry
takes the held ticks too, and a reset leaves it not READY. -/
theorem exec (h : s.HeldLaw) {i : Instr} (ht : exec i s = .next t) : t.HeldLaw := by
  cases i
  case registerWrite a off w => exact h.registerWrite a off w ht
  case refusedRead a off => exact h.refusedRead a off ht
  case tryRead a l => cases ht; exact h.read (tryRead s a l)
  case tryWrite a l w => cases ht; exact h.write a w (tryWrite s a l)
  case timeLowRead a => cases ht; exact h.read h
  case pop a w | clearOverrun a w | errorStatusWrite a w | interruptEnableWrite a w => cases ht; exact h.write a w h
  case powerOnReset => cases ht; exact of_notReady rfl
  case busReset =>
    cases ht
    refine of_notReady ?_
    split <;> simp [State.ready, State.inReset, State.busResetAsserted]
  case powerOnResetRelease =>
    simp only [Machine.exec, execPowerOnResetRelease] at ht
    split at ht <;> cases ht
    · split
      · next hbus => exact of_notReady (by simp [State.ready, State.inReset, hbus])
      · exact of_notReady (Bool.and_false _)
    · exact h
  case busResetRelease =>
    simp only [Machine.exec, execBusResetRelease] at ht
    split at ht <;> cases ht
    · split
      · next hpower => exact of_notReady (by simp [State.ready, State.inReset, hpower])
      · exact of_notReady (Bool.and_false _)
    · exact h
  case initializationComplete =>
    simp only [Machine.exec, execInitializationComplete] at ht
    split at ht <;> cases ht
    · exact State.catchUp_heldLaw _
    · exact h
  case tickAdvance => cases ht; exact h.tickTaken
  case waitExpiry | leaseExpiry =>
    cases ht
    split
    · exact State.catchUp_heldLaw _
    · exact h
  case sweepVisit => cases ht; exact h.sweepVisit
  case sweepEnd => cases ht; exact h.sweepEnd
  all_goals cases ht; exact h.command _ _ _

/-- R98: a bus clock period takes every tick that no expiry stands before. -/
theorem busClock (h : s.HeldLaw) : s.busClock.HeldLaw := by
  unfold State.busClock
  split
  · exact h
  · exact State.catchUp_heldLaw _

theorem step (h : s.HeldLaw) (ht : step s = .next t) : t.HeldLaw := by
  unfold Machine.step at ht
  split at ht
  · next c rest _ => exact State.HeldLaw.exec (s := { s with pending := rest }) h ht
  · cases ht
    exact h.busClock

end State.HeldLaw

/-- Settles O54: every part of the machine keeps the dividers and the pool; the held ticks follow the last expiry in
whatever event takes it. -/
theorem stepKeepsDeadlineLaws : Obligations.StepKeepsDeadlineLaws := fun _ _ hstep =>
  ⟨fun hdivider hpool => ⟨dividerLaw_kept.step hdivider hstep, poolLaw_kept.step hpool hstep⟩,
    fun hheld => hheld.step hstep⟩

end Sys2Proof.Machine
end

section
/-! Every entry that is not FREE has its one owner, under every command and step (R92). -/

namespace Sys2Proof.Machine

/-! ### Owners and entries under single requests of the Lock Engine -/

/-- R103, R104: a lease renewed keeps its entry, its hold and its lock. -/
theorem State.OwnershipLaw.renew {s : State} (h : s.OwnershipLaw) {a : Agent} {l : LockNum} {e : EntryNum}
    (he : (s.lock l).leaseOf a = some e) (n : Nat) : (s.withDu (·.armAsLease e n)).OwnershipLaw := by
  obtain ⟨m, o, hentry⟩ := h.hold l a e he
  have hget : ∀ x, (s.withDu (·.armAsLease e n)).du.entries.get x =
      if x = e then .armed .lease a l n s.du.nextArming else s.du.entries.get x :=
    DeadlineUnit.armAsLease_entry (Or.inr ⟨_, _, _, hentry⟩) n
  have hne : ∀ {x k b j p q}, (s.withDu (·.armAsLease e n)).du.entries.get x = .armed k b j p q →
      ∃ p q, s.du.entries.get x = .armed k b j p q := by
    intro x k b j p q hx
    rw [hget] at hx
    split at hx
    · next hxe =>
      cases hx
      exact ⟨m, o, hxe ▸ hentry⟩
    · exact ⟨p, q, hx⟩
  refine ⟨fun j b x hx => ?_, fun b q hq => ?_, fun x b j p q hx => ?_, fun x b j p q hx => ?_, fun x b j hx => ?_⟩
  · obtain ⟨p, q, hold⟩ := h.hold j b x hx
    rw [hget]
    split
    · next hxe =>
      obtain ⟨rfl, rfl⟩ := h.hold_apart (hxe ▸ hx) he
      exact ⟨_, _, rfl⟩
    · exact ⟨p, q, hold⟩
  · refine (h.request b q hq).congr rfl rfl rfl rfl fun x hx => ?_
    rw [hget, if_neg]
    rintro rfl
    exact h.lease_apart hq hx he
  · obtain ⟨p, q, hx⟩ := hne hx
    exact h.waitOwner x b j p q hx
  · obtain ⟨p, q, hx⟩ := hne hx
    exact h.leaseOwner x b j p q hx
  · rw [hget] at hx
    split at hx
    · cases hx
    · exact h.reservedOwner x b j hx

/-- R76, R77: the lock that the checks of DOWNGRADE pass is EXCLUSIVE, and may become SHARED. -/
theorem State.MidLaw.toShared_of_downgradeCheck {s : State} (h : s.MidLaw none) {a : Agent} {n : Nat} {l : LockNum}
    (hcheck : s.downgradeCheck a n = .inr l) : (s.toShared l).MidLaw (some l) := by
  obtain ⟨hholds, hshared, hallowed⟩ := State.downgradeCheck_passed hcheck
  have hfree := (h.records l).not_free_of_holds hholds
  refine h.toShared ?_ hallowed
  cases hs : (s.lock l).state
  · exact absurd hs hfree
  · rfl
  · exact absurd hs hshared

/-- R118, R134: the subject of a sweep waits for nothing. -/
theorem State.MidLaw.subject_idle {s : State} {x : Option LockNum} (h : s.MidLaw x) (hA : s.AgentLaw) {a : Agent}
    (ha : s.purge.subject = some a) : s.request a = none := by
  by_contra hc
  exact absurd ((h.members.waiting a hc).symm.trans (hA.subject_purging ha)) (by decide)

namespace State.OwnershipLaw

variable {s : State}

/-- The law reads locks, requests and entries alone. -/
theorem of_tables {t : State} (h : s.OwnershipLaw) (hl : t.locks = s.locks) (hr : t.requests = s.requests)
    (he : t.du.entries = s.du.entries) : t.OwnershipLaw :=
  h.of_eq (fun l a => by rw [State.lock, hl]; rfl) (fun a => by rw [State.request, hr]; rfl) fun e => by rw [he]

/-- R17, R100, R144, R156: tables that a reset has emptied own nothing. -/
theorem of_emptied {t : State} (hl : t.locks = s.emptyTables.locks) (hr : t.requests = s.emptyTables.requests)
    (he : t.du.entries = s.emptyTables.du.entries) : t.OwnershipLaw := by
  refine of_tables (s := s.emptyTables) ?_ hl hr he
  refine of_unowned (fun l a => ?_) s.emptyTables_request fun e => get_replicate _ e
  rw [State.emptyTables_lock]
  exact LockRecord.leaseOf_of_not_holds (LockRecord.emptied_vacant _ |>.holders a)

theorem grantAfterHold {l : LockNum} (h : s.OwnershipLaw) (hm : s.MidLaw (some l)) :
    (s.grantAfterHold l).OwnershipLaw := State.grantIf_induct (fun _ => h) (h.grantStep hm)

theorem giveUp (h : s.OwnershipLaw) (hm : s.MidLaw none) {a : Agent} {l : LockNum}
    (ha : (s.lock l).holds a = true) (hup : s.upgradeQueued a l = false) : (s.giveUp a l).OwnershipLaw :=
  (h.removeHold a l).grantAfterHold ((hm.weaken (some l)).removeHold ha hup)

/-- R63, R67, R136: a request withdrawn leaves with its entry, and the grant step keeps the law. -/
theorem withdrawn {a : Agent} (h : s.OwnershipLaw) (hm : s.MidLaw none) : (s.dropRequest a).OwnershipLaw :=
  State.dropRequest_induct (h.dequeue a) fun q _ => (h.dequeue a).grantStep ((hm.dequeue a).weaken (some q.lock))

theorem takeExpiry (h : s.OwnershipLaw) (hm : s.MidLaw none) : s.takeExpiry.OwnershipLaw :=
  (State.takeExpiry_induct (P := fun t => t.MidLaw none ∧ t.OwnershipLaw)
    (fun _ e h => ⟨h.1.expiryOf e, h.2.expiryOf h.1 e⟩) ⟨hm, h⟩).2

theorem drain (h : s.OwnershipLaw) (hm : s.MidLaw none) : s.drain.OwnershipLaw :=
  (State.drain_induct (P := fun t => t.MidLaw none ∧ t.OwnershipLaw)
    (fun _ e h => ⟨h.1.expiryOf e, h.2.expiryOf h.1 e⟩) ⟨hm, h⟩).2

theorem heldTick (h : s.OwnershipLaw) : s.heldTick.OwnershipLaw := h.tick (fun _ => rfl) (fun _ => rfl) fun _ => rfl

theorem catchUp (h : s.OwnershipLaw) : s.catchUp.OwnershipLaw := State.catchUp_induct (fun _ ht _ => ht.heldTick) h

theorem tickTaken (h : s.OwnershipLaw) (hm : s.MidLaw none) : s.tickTaken.OwnershipLaw := by
  unfold State.tickTaken
  split
  · exact h
  · split
    · exact (h.drain hm).catchUp
    · exact (h.drain hm).tick (fun _ => rfl) (fun _ => rfl) fun _ => rfl

/-! ### FORCE RELEASE (R112) -/

theorem postAll (h : s.OwnershipLaw) (bs : List Agent) (n : Agent → Notice) :
    (bs.foldl (fun t a => t.post a (n a)) s).OwnershipLaw := by
  induction bs generalizing s with
  | nil => exact h
  | cons b bs ih => exact ih (h.post b _)

theorem toFree (h : s.OwnershipLaw) (l : LockNum) (exclusive : Bool) : (s.toFree l exclusive).OwnershipLaw := by
  unfold State.toFree
  cases exclusive
  · exact h.setLock l rfl
  · exact (h.setLock l (r := { s.lock l with state := .free }) rfl).setLock l rfl

theorem stripLock (h : s.OwnershipLaw) (l : LockNum) : (s.stripLock l).OwnershipLaw := by
  have hholds : (s.removeHolds l).OwnershipLaw := State.removeHolds_induct (fun _ a h => h.removeHold a l) h
  refine toFree ?_ l _
  unfold State.dropUpgrade
  split
  · exact hholds.dequeue _
  · exact hholds

theorem forceHeld (h : s.OwnershipLaw) (hm : s.MidLaw none) (l : LockNum) : (s.forceHeld l).OwnershipLaw :=
  ((h.stripLock l).postAll _ _).grantStep ((hm.stripLock l).postAll _ _)

/-! ### The commands -/

theorem acquireTaken (h : s.OwnershipLaw) (hm : s.MidLaw none) (a : Agent) : (s.acquireTaken a).1.OwnershipLaw := by
  have hsettled := h.settle hm
  unfold State.acquireTaken
  simp only
  split
  · exact hsettled
  · next hd =>
    obtain ⟨hp, hentry⟩ := State.acquireDecision_grant hd
    exact hsettled.grantNow hp.stranger _ hentry
  · next hd =>
    obtain ⟨hp, hfree, hsome⟩ := State.acquireDecision_enqueue hd
    exact hsettled.joinQueue hp.idle hfree hsome

theorem releaseTaken (h : s.OwnershipLaw) (hm : s.MidLaw none) (a : Agent) : (s.releaseTaken a).1.OwnershipLaw := by
  unfold State.releaseTaken
  simp only
  split
  · exact h.settle hm
  · next hcheck =>
    obtain ⟨hholds, hup⟩ := State.releaseCheck_passed hcheck
    exact (h.settle hm).giveUp hm.settle hholds hup

theorem upgradeTaken (h : s.OwnershipLaw) (hm : s.MidLaw none) (a : Agent) : (s.upgradeTaken a).1.OwnershipLaw := by
  have hsettled := h.settle hm
  unfold State.upgradeTaken
  simp only
  split
  · exact hsettled
  · exact hsettled.setLock _ rfl
  · next hd =>
    obtain ⟨hidle, hfree, hsome⟩ := State.upgradeDecision_enqueue hd
    exact hsettled.joinQueue hidle hfree hsome

theorem downgradeTaken (h : s.OwnershipLaw) (hm : s.MidLaw none) (a : Agent) :
    (s.downgradeTaken a).1.OwnershipLaw := by
  unfold State.downgradeTaken
  simp only
  split
  · exact h.settle hm
  · next l hcheck =>
    have hshared : (s.settle.toShared l).OwnershipLaw := (h.settle hm).setLock l rfl
    exact hshared.grantStep (hm.settle.toShared_of_downgradeCheck hcheck)

theorem cancelTaken (h : s.OwnershipLaw) (hm : s.MidLaw none) (a : Agent) : (s.cancelTaken a).1.OwnershipLaw := by
  unfold State.cancelTaken
  simp only
  split
  · exact h.settle hm
  · split
    · exact h.settle hm
    · exact (h.settle hm).withdrawn hm.settle

theorem renewTaken (h : s.OwnershipLaw) (hm : s.MidLaw none) (a : Agent) : (s.renewTaken a).1.OwnershipLaw := by
  unfold State.renewTaken
  simp only
  split
  · exact h.settle hm
  · next hcheck => exact (h.settle hm).renew (State.renewCheck_passed hcheck).1 _

theorem setAgentTaken (h : s.OwnershipLaw) : s.setAgentTaken.1.OwnershipLaw := by
  unfold State.setAgentTaken
  simp only
  split
  · exact h
  · exact h.of_tables rfl rfl rfl

theorem setLockTaken (h : s.OwnershipLaw) (hm : s.MidLaw none) : s.setLockTaken.1.OwnershipLaw := by
  unfold State.setLockTaken
  simp only
  split
  · exact h.settle hm
  · split
    · exact h.settle hm
    · exact (h.settle hm).setLock _ rfl

theorem forceReleaseTaken (h : s.OwnershipLaw) (hm : s.MidLaw none) : s.forceReleaseTaken.1.OwnershipLaw := by
  unfold State.forceReleaseTaken
  simp only
  split
  · exact h.settle hm
  · split
    · exact (h.settle hm).setLock _ rfl
    · exact (h.settle hm).forceHeld hm.settle _

theorem purgeTaken (h : s.OwnershipLaw) (hm : s.MidLaw none) : s.purgeTaken.1.OwnershipLaw := by
  unfold State.purgeTaken
  split
  · exact h
  · next a _ =>
    have hbegun : (s.settle.purgeBegun a).OwnershipLaw := ((h.settle hm).dequeue a).of_tables rfl rfl rfl
    exact State.purgeStart_induct hbegun fun q _ =>
      hbegun.grantStep ((hm.settle.purgeBegun a).weaken (some q.lock))

theorem setDividerTaken (h : s.OwnershipLaw) : s.setDividerTaken.1.OwnershipLaw := by
  unfold State.setDividerTaken
  simp only
  split
  · exact h
  · exact h.of_tables rfl rfl rfl

theorem taken (h : s.OwnershipLaw) (hm : s.MidLaw none) (c : Command) (a : Agent) : (c.taken a s).1.OwnershipLaw :=
  match c with
  | .nop => h
  | .acquire => h.acquireTaken hm a
  | .release => h.releaseTaken hm a
  | .upgrade => h.upgradeTaken hm a
  | .downgrade => h.downgradeTaken hm a
  | .cancel => h.cancelTaken hm a
  | .renew => h.renewTaken hm a
  | .setAgent => h.setAgentTaken
  | .setLock => h.setLockTaken hm
  | .forceRelease => h.forceReleaseTaken hm
  | .purge => h.purgeTaken hm
  | .setTime => (h.settle hm).of_tables rfl rfl rfl
  | .setDivider => h.setDividerTaken
  | .resetTables => .of_emptied (s := s) rfl rfl rfl

/-! ### The sweep (R138, R139) -/

theorem sweepHold (h : s.OwnershipLaw) (a : Agent) (k : LockNum) : (s.sweepHold a k).OwnershipLaw := by
  unfold State.sweepHold
  split
  · exact (h.removeHold a k).setLock k rfl
  · exact h.removeHold a k

/-- R138: the subject of a sweep waits for nothing, so a hold removed leaves no upgrade of its holder behind. -/
theorem visitLock (h : s.OwnershipLaw) (hm : s.MidLaw none) {a : Agent} (hidle : s.request a = none) (k : LockNum) :
    (s.visitLock a k).OwnershipLaw := by
  unfold State.visitLock
  split
  · next hholds =>
    have hswept := (hm.weaken (some k)).sweepHold hholds (State.upgradeQueued_of_none hidle k)
    exact ((h.sweepHold a k).grantAfterHold hswept).of_tables rfl rfl rfl
  · exact h.of_tables rfl rfl rfl

theorem sweepVisit (h : s.OwnershipLaw) (hm : s.MidLaw none) (hA : s.AgentLaw) : s.sweepVisit.OwnershipLaw := by
  rcases s.sweepVisit_cases with e | ⟨a, k, -, ha, -, e⟩ <;> rw [e]
  · exact h
  · exact (h.settle hm).visitLock hm.settle (hm.settle.subject_idle hA.settle (by rwa [State.settle_purge])) k

theorem sweepEnd (h : s.OwnershipLaw) : s.sweepEnd.OwnershipLaw := by
  rcases s.sweepEnd_cases with e | ⟨a, -, -, -, e⟩ <;> rw [e]
  · exact h
  · have hclosed : (s.sweepClosed a).OwnershipLaw := h.of_tables rfl rfl rfl
    exact hclosed.post _ _

/-- R84: a bus clock period changes the clock alone. -/
theorem countPeriod (h : s.OwnershipLaw) : (s.withDu (·.countPeriod)).OwnershipLaw := by
  refine h.of_tables rfl rfl ?_
  show s.du.countPeriod.entries = _
  unfold DeadlineUnit.countPeriod
  split <;> rfl

end State.OwnershipLaw

/-! ### Every step -/

/-- R92: every part of the machine keeps the law of ownership, beside the laws of the lock table, which say that a
waiter seated, or an agent granted at once, held nothing on that lock. -/
theorem ownership_kept : Kept fun s => (s.AgentLaw ∧ s.MidLaw none) ∧ s.OwnershipLaw where
  port s p h := ⟨tableLaw_kept.port s p h.1, h.2.of_tables rfl rfl rfl⟩
  pending s p h := ⟨tableLaw_kept.pending s p h.1, h.2.of_tables rfl rfl rfl⟩
  fields s a rec ne ee ek es h := ⟨tableLaw_kept.fields s a rec ne ee ek es h.1, h.2.of_tables rfl rfl rfl⟩
  notices s a p c h := ⟨tableLaw_kept.notices s a p c h.1, h.2.of_tables rfl rfl rfl⟩
  snapshots s v h := ⟨tableLaw_kept.snapshots s v h.1, h.2.of_tables rfl rfl rfl⟩
  taken s c a h := ⟨tableLaw_kept.taken s c a h.1, h.2.taken h.1.2 c a⟩
  tryGrant s a l h :=
    have ⟨hsettled, hgranted⟩ := tableLaw_kept.tryGrant s a l h.1
    have howned := h.2.settle h.1.2
    ⟨⟨hsettled, howned⟩, fun hn => ⟨hgranted hn, howned.grantNow
      ((hsettled.2.records l).free (State.tryRefusal_none hn).2 a) .exclusive fun _ hx => nomatch hx⟩⟩
  tryRelease s a l h hn :=
    have ⟨hholds, hup⟩ := State.tryWriteRefusal_none hn
    ⟨tableLaw_kept.tryRelease s a l h.1 hn, (h.2.settle h.1.2).giveUp h.1.2.settle hholds hup⟩
  powerOn s h :=
    have ⟨_, _, _, _, _, hreset, _⟩ := resetKeepsLaws
    ⟨tableLaw_kept.powerOn s h.1, hreset.of_tables rfl rfl rfl⟩
  busReset s h := ⟨tableLaw_kept.busReset s h.1, .of_emptied (s := s) rfl rfl rfl⟩
  tick s h := ⟨tableLaw_kept.tick s h.1, h.2.tickTaken h.1.2⟩
  expiry s h := ⟨tableLaw_kept.expiry s h.1, h.2.takeExpiry h.1.2⟩
  sweepVisit s h := ⟨tableLaw_kept.sweepVisit s h.1, h.2.sweepVisit h.1.2 h.1.1⟩
  sweepEnd s h := ⟨tableLaw_kept.sweepEnd s h.1, h.2.sweepEnd⟩
  period s h := ⟨tableLaw_kept.period s h.1, h.2.countPeriod⟩
  heldTick s h he := ⟨tableLaw_kept.heldTick s h.1 he, h.2.heldTick⟩

/-- Settles O56: owners come and go with their entries, and a waiter's entry becomes the lease of its hold. -/
theorem stepKeepsOwnership : Obligations.StepKeepsOwnership := by
  unfold Obligations.StepKeepsOwnership
  intro s t hA hT hO howned hstep
  exact (ownership_kept.step ⟨⟨hA, s.midLaw_iff.mpr ⟨hT, hO⟩⟩, howned⟩ hstep).2

end Sys2Proof.Machine
end

section
/-! The events that time brings (R84, R85, R97, R98, R139, R154): a bus clock period, the end of initialization, a tick
advance, and what each takes of the expiries and ticks that wait. -/

namespace Sys2Proof.Machine

/-! ### Held ticks once no expiry is awaited (R98) -/

/-- R98: a held tick waits while an expiry is awaited. -/
theorem State.catchUp_of_waiting {s : State} (h : s.du.expiries ≠ [] ∨ s.du.heldTicks = 0) : s.catchUp = s := by
  unfold State.catchUp
  cases hn : s.du.heldTicks with
  | zero => rfl
  | succ n =>
    have hawaited : s.du.expiries ≠ [] := h.resolve_right (by rw [hn]; exact Nat.succ_ne_zero n)
    exact if_neg (by simpa using hawaited)

/-- R98: with no expiry awaited the first held tick is taken, and then those that can follow it. -/
theorem State.catchUp_eq_heldTick_catchUp {s : State} (hnone : s.du.expiries = []) (hheld : 0 < s.du.heldTicks) :
    s.catchUp = s.heldTick.catchUp := by
  obtain ⟨n, hn⟩ := Nat.exists_eq_add_of_lt hheld
  rw [Nat.zero_add] at hn
  unfold State.catchUp
  rw [State.heldTick_heldTicks, hn, Nat.add_sub_cancel]
  exact if_pos (by rw [hnone]; rfl)

/-! ### A bus clock period (R84, R85, R154) -/

/-- R84, R85: the count grows by 1 below the divider of the period in progress, and returns to 0 at it. -/
theorem DeadlineUnit.countPeriod_eq (d : DeadlineUnit) : d.countPeriod =
    if d.dividerCount + 1 < d.activeDivider then { d with dividerCount := d.dividerCount + 1 }
    else { d with dividerCount := 0, activeDivider := d.divider, heldTicks := d.heldTicks + 1 } := by
  unfold DeadlineUnit.countPeriod
  by_cases h : d.dividerCount + 1 < d.activeDivider
  · rw [if_pos h, if_neg (Nat.not_le_of_lt h)]
  · rw [if_neg h, if_pos (Nat.le_of_not_lt h)]

@[simp] theorem DeadlineUnit.countPeriod_expiries (d : DeadlineUnit) : d.countPeriod.expiries = d.expiries := by
  unfold DeadlineUnit.countPeriod
  split <;> rfl

/-- R154: with the power-on reset input not asserted the initialization period counts while the port is INITIALIZING
and the bus reset input is not asserted either, and ends at its length. -/
theorem State.countInitialization_eq {s : State} (h : s.port.powerOnReset = false) : s.countInitialization =
    { s with port :=
        if s.port.busReset = true ∨ s.port.state = .ready then s.port
        else if Config.initLength s.port.initIndex ≤ s.port.initElapsed + 1 then { s.port with state := .ready }
        else { s.port with initElapsed := s.port.initElapsed + 1 } } := by
  have hreset : s.inReset = s.port.busReset := by rw [State.inReset, h, Bool.false_or]
  unfold State.countInitialization
  rw [hreset]
  cases hbus : s.port.busReset <;> cases hstate : s.port.state
  case false.initializing =>
    simp only [Bool.false_eq_true, false_or, reduceCtorEq, if_false]
    split <;> rfl
  all_goals simp

/-! ### The part's own event in a period (R98, R139) -/

theorem State.ownEvent_of_expiry {s : State} (h : s.du.expiries ≠ []) : s.ownEvent = s.takeExpiry := by
  unfold State.ownEvent
  exact if_pos (by simpa using h)

theorem State.ownEvent_of_none {s : State} (h : s.du.expiries = []) :
    s.ownEvent = if s.purge.pointer = 64 then s.sweepEnd else s.sweepVisit := by
  unfold State.ownEvent
  exact if_neg (by simp [h])

theorem State.sweepVisit_of_idle {s : State} (h : s.purge.state = .idle) : s.sweepVisit = s := by
  rcases s.sweepVisit_cases with e | ⟨_, _, hs, _⟩
  · exact e
  · cases hs.symm.trans h

theorem State.sweepEnd_of_idle {s : State} (h : s.purge.state = .idle) : s.sweepEnd = s := by
  rcases s.sweepEnd_cases with e | ⟨_, hs, _⟩
  · exact e
  · cases hs.symm.trans h

theorem State.ownEvent_of_idle {s : State} (h : s.du.expiries = []) (hidle : s.purge.state = .idle) :
    s.ownEvent = s := by
  rw [State.ownEvent_of_none h, State.sweepEnd_of_idle hidle, State.sweepVisit_of_idle hidle, ite_self]

/-! ### A step with no command waiting (log entry 4) -/

/-- The state of a bus clock period once its counts are made, before its own event. -/
def State.counted (s : State) : State := (s.withDu (·.countPeriod)).countInitialization

@[simp] theorem State.counted_expiries {s : State} (h : s.port.powerOnReset = false) :
    s.counted.du.expiries = s.du.expiries := by
  rw [State.counted, State.countInitialization_eq (s := s.withDu (·.countPeriod)) h]
  exact s.du.countPeriod_expiries

theorem State.counted_purge {s : State} (h : s.port.powerOnReset = false) : s.counted.purge = s.purge := by
  rw [State.counted, State.countInitialization_eq (s := s.withDu (·.countPeriod)) h]
  rfl

theorem State.counted_of_ready {s : State} (h : s.port.powerOnReset = false) (hready : s.port.state = .ready) :
    s.counted = s.withDu (·.countPeriod) := by
  rw [State.counted, State.countInitialization_eq (s := s.withDu (·.countPeriod)) h]
  exact congrArg (fun p => { s.withDu (·.countPeriod) with port := p }) (if_pos (Or.inr hready))

theorem step_of_idle_queue {s : State} (h : s.pending = []) : step s = .next s.busClock := by
  simp only [step, h]

theorem step_counts {s : State} (h : s.pending = []) (hp : s.port.powerOnReset = false) :
    step s = .next s.counted.ownEvent.catchUp := by
  rw [step_of_idle_queue h, State.busClock, hp]
  rfl

/-- R84, R97: with no expiry awaited and no other tick held, a tick that falls due is taken at once. -/
theorem State.catchUp_of_due {s : State} (hnone : s.du.expiries = []) (hheld : s.du.heldTicks = 1) :
    s.catchUp = s.heldTick := by
  rw [State.catchUp_eq_heldTick_catchUp hnone (by omega)]
  exact State.catchUp_of_waiting (Or.inr (by rw [State.heldTick_heldTicks, hheld]))

/-- Settles O2: the counts of the period, its own event, and the held ticks that no expiry stands before. -/
theorem idleStepCountsOnePeriod : Obligations.IdleStepCountsOnePeriod := by
  refine ⟨fun s hpending => ⟨fun hp => ?_, fun hp hready hnone hheld hidle => ?_, fun hp => ?_⟩,
    fun s => ⟨State.catchUp_of_waiting, State.catchUp_eq_heldTick_catchUp⟩⟩
  · rw [step_of_idle_queue hpending, State.busClock, if_pos hp]
  · have hcounted := State.counted_of_ready hp hready
    have hexpiries : s.counted.du.expiries = [] := by rw [State.counted_expiries hp, hnone]
    rw [step_counts hpending hp, State.ownEvent_of_idle hexpiries (by rw [State.counted_purge hp, hidle]), hcounted]
    rw [hcounted] at hexpiries
    refine ⟨fun hlt => ?_, fun heq => ?_⟩
    · have hcount : s.du.countPeriod = { s.du with dividerCount := s.du.dividerCount + 1 } :=
        s.du.countPeriod_eq.trans (if_pos hlt)
      rw [State.catchUp_of_waiting (Or.inr (by rw [State.withDu, hcount]; exact hheld)), State.withDu, hcount]
    · have hcount : s.du.countPeriod =
          { s.du with dividerCount := 0, activeDivider := s.du.divider, heldTicks := s.du.heldTicks + 1 } :=
        s.du.countPeriod_eq.trans (if_neg (by omega))
      rw [State.catchUp_of_due hexpiries (by rw [State.withDu, hcount, hheld]), State.heldTick, State.withDu,
        State.withDu, hcount]
      rfl
  · intro d p u
    have hu : s.counted = u := by
      rw [State.counted, State.countInitialization_eq (s := s.withDu (·.countPeriod)) hp]
      simp only [u, d, p, ← DeadlineUnit.countPeriod_eq]
      rfl
    have hexpiries : u.du.expiries = s.du.expiries := by rw [← hu, State.counted_expiries hp]
    have hpurge : u.purge = s.purge := rfl
    rw [step_counts hpending hp, hu]
    refine ⟨fun hawaited => ?_, fun hnone hidle => ?_, fun hnone hsweeping => ?_⟩
    · rw [State.ownEvent_of_expiry (by rwa [hexpiries])]
    · rw [State.ownEvent_of_idle (hexpiries.trans hnone) (hpurge ▸ hidle)]
    · rw [State.ownEvent_of_none (hexpiries.trans hnone), hpurge]
      split
      · exact ⟨_, rfl, rfl⟩
      · exact ⟨_, rfl, rfl⟩

/-! ### Releases of the reset inputs, and the end of initialization (R154, R155) -/

/-- Settles O8: a release begins an initialization period unless the other input is asserted. -/
theorem releasesAndInitialization : Obligations.ReleasesAndInitialization := by
  intro s begun
  refine ⟨fun hp hb => ?_, fun hp hb => ?_, fun hb hp => ?_, fun hb hp => ?_, fun hreset hstate => ?_⟩
  · simp only [exec, execPowerOnResetRelease, hp, hb, if_true, Bool.false_eq_true, if_false, begun]
    rfl
  · simp only [exec, execPowerOnResetRelease, hp, hb, if_true]
  · simp only [exec, execBusResetRelease, hp, hb, if_true, Bool.false_eq_true, if_false, begun]
    rfl
  · simp only [exec, execBusResetRelease, hp, hb, if_true]
  · simp only [exec, execInitializationComplete, hreset, hstate]

/-! ### A tick advance (R97, R98) -/

theorem DeadlineUnit.mem_tick_armedList {d : DeadlineUnit} {e : EntryNum} :
    e ∈ d.tick.armedList ↔ e ∈ d.armedList ∧ (d.entries.get e).remaining ≠ 1 := by
  simp [DeadlineUnit.tick]

/-- R97: an entry that runs out stays as it was, and so does one that is not armed. -/
theorem DeadlineUnit.tick_entry_of_not_mem {d : DeadlineUnit} {e : EntryNum} (h : e ∉ d.tick.armedList) :
    d.tick.entries.get e = d.entries.get e := by
  rw [DeadlineUnit.tick_entry, if_neg (fun hc => h (DeadlineUnit.mem_tick_armedList.mpr hc))]

/-- R97: an entry that stays in the armed list loses one count. -/
theorem DeadlineUnit.tick_entry_of_mem {d : DeadlineUnit} {e : EntryNum} (h : e ∈ d.tick.armedList) :
    d.tick.entries.get e = (d.entries.get e).countDown := by
  rw [DeadlineUnit.tick_entry, if_pos (DeadlineUnit.mem_tick_armedList.mp h)]

section
variable {s : State} (hp : s.port.powerOnReset = false)
include hp

/-- R98: a tick is taken once the expiries before it have been. -/
theorem State.tickTaken_takeExpiry : s.takeExpiry.tickTaken = s.tickTaken := by
  have hport := s.takeExpiry_frame.port
  simp only [State.tickTaken, hport, hp, Bool.false_eq_true, if_false, State.takeExpiry_heldTicks,
    ← s.drain_eq_takeExpiry_drain]

/-- R98: with no expiry awaited a held tick is taken, and those that can follow it. -/
theorem State.tickTaken_of_held (hnone : s.du.expiries = []) (hheld : 0 < s.du.heldTicks) :
    s.tickTaken = s.heldTick.catchUp := by
  rw [State.tickTaken, if_neg (by rw [hp]; decide), if_pos hheld, State.drain_of_none hnone,
    State.catchUp_eq_heldTick_catchUp hnone hheld]

/-- R84, R85: with no expiry awaited and no tick held a tick falls due. -/
theorem State.tickTaken_of_due (hnone : s.du.expiries = []) (hheld : s.du.heldTicks = 0) :
    s.tickTaken = s.withDu fun d => { d.tick with dividerCount := 0, activeDivider := d.divider } := by
  rw [State.tickTaken, if_neg (by rw [hp]; decide), if_neg (by omega), State.drain_of_none hnone]

end

/-- Settles O38: the tick taken is a held one, or one that falls due; either is the tick of R97. -/
theorem tickAdvanceCounts : Obligations.TickAdvanceCounts := by
  intro s hp
  have hexec : ∀ t, exec .tickAdvance t = .next t.tickTaken := fun _ => rfl
  have stays : ∀ e, e ∉ s.du.tick.armedList → s.du.tick.entries.get e = s.du.entries.get e := fun _ =>
    DeadlineUnit.tick_entry_of_not_mem
  have counts : ∀ e k a l n o, e ∈ s.du.tick.armedList → s.du.entries.get e = .armed k a l n o →
      s.du.tick.entries.get e = .armed k a l (n - 1) o := fun e k a l n o he hentry => by
    rw [DeadlineUnit.tick_entry_of_mem he, hentry]
    rfl
  refine ⟨fun _ => by rw [hexec, hexec, State.tickTaken_takeExpiry hp], fun hnone => ?_⟩
  have hout : s.du.tick.expiries = s.du.armedList.filter fun e => (s.du.entries.get e).remaining == 1 := by
    simp only [DeadlineUnit.tick, hnone, List.nil_append]
  rw [hexec]
  rcases Nat.eq_zero_or_pos s.du.heldTicks with hheld | hheld
  · obtain ⟨d, hd⟩ : ∃ d : DeadlineUnit, d = { s.du.tick with dividerCount := 0, activeDivider := s.du.divider } :=
      ⟨_, rfl⟩
    refine ⟨d, ?_, ?_⟩
    · rw [State.tickTaken_of_due hp hnone hheld, State.catchUp_of_waiting (Or.inr (by rw [hd]; exact hheld)), hd]
      rfl
    · subst hd
      exact ⟨rfl, rfl, hout, stays, counts, rfl, rfl, fun _ => ⟨hheld, rfl, rfl⟩, fun hc => absurd hheld hc.ne'⟩
  · refine ⟨{ s.du.tick with heldTicks := s.du.heldTicks - 1 }, ?_, rfl, rfl, hout, stays, counts, rfl, rfl,
      fun hc => absurd hc hheld.ne', fun _ => ⟨Nat.sub_add_cancel hheld, rfl, rfl⟩⟩
    rw [State.tickTaken_of_held hp hnone hheld]
    rfl

end Sys2Proof.Machine
end

section
/-! SET_TIME, SET_DIVIDER and the timebase words (R85 to R87), and LEASE_EXPIRY (R98, R106 to R109). -/

namespace Sys2Proof.Machine

/-! ### SET_TIME and SET_DIVIDER (R85, R86) -/

/-- R85: the values that SET DIVIDER refuses. -/
theorem State.setDividerTaken_refused {s : State}
    (h : dividerField (s.argsOf 0).arg0 = 0 ∨ 65536 < dividerField (s.argsOf 0).arg0) :
    s.setDividerTaken = (s, badArgument 3) := if_pos h

/-- R85: the values that SET DIVIDER takes. -/
theorem State.setDividerTaken_done {s : State} (hpos : 1 ≤ dividerField (s.argsOf 0).arg0)
    (hmax : dividerField (s.argsOf 0).arg0 ≤ 65536) : s.setDividerTaken =
      (s.withDu fun d => { d with divider := dividerField (s.argsOf 0).arg0 }, ⟨.done, 0⟩) :=
  if_neg (not_or.mpr ⟨Nat.one_le_iff_ne_zero.mp hpos, Nat.not_lt.mpr hmax⟩)

/-- Settles O37: SET_TIME loads the settled part's timebase; SET_DIVIDER is refused or sets the divider. -/
theorem setTimeAndSetDivider : Obligations.SetTimeAndSetDivider := by
  intro a w s
  refine ⟨fun htakes => ?_, fun htakes => ?_⟩
  · intro u time
    exact exec_row_taken htakes
  intro n
  have hexec : exec (.setDivider a w) s = .next (s.setDividerTaken.1.answers a w s.setDividerTaken.2) :=
    exec_row_taken htakes
  refine ⟨fun hbad => ?_, fun hpos hmax => ?_⟩
  · rw [hexec, State.setDividerTaken_refused hbad]
    rfl
  · rw [hexec, State.setDividerTaken_done hpos hmax]
    rfl

/-! ### TIME LOW and TIME HIGH (R87) -/

theorem windowWord_time : windowWord 0x98 = .timeLow ∧ windowWord 0x99 = .timeHigh := by decide +kernel

/-- R146: a write to a word that is refused before its parity is looked at. -/
theorem State.writeRefused_of_ready {s : State} (h : s.ready = true) (a : Agent) (k : ErrorKind) :
    s.writeRefused a k = s.errs a k (.write .error) := if_pos h

/-- R154, R155: a read while the port is not READY. -/
theorem State.readAccess_retry {s : State} (h : s.ready = false) (take : State → State) :
    s.readAccess take = s.respond (.read .retry 0 0) := by
  rw [State.readAccess_notReady h, State.answerRead]
  exact congrArg (fun p => s.respond (.read .retry 0 p)) evenParity_zero

/-- Settles O44: the word at each of the two offsets, read and written. -/
theorem timeWords : Obligations.TimeWords := by
  intro a w s
  obtain ⟨hlow, hhigh⟩ := windowWord_time
  have hread : exec (.refusedRead a 0x99) s = .next (s.readAccess fun t => t.answerRead .ok (t.timeHigh a)) := by
    show execRefusedRead a 0x99 s = _
    simp only [execRefusedRead, hhigh]
  have hlatch : exec (.timeLowRead a) s = .next (s.readAccess fun t => t.timeLowTaken a) := rfl
  refine ⟨fun hready => ?_, fun hready => ⟨?_, ?_⟩⟩
  · intro low high
    refine ⟨?_, ?_, ?_, ?_⟩
    · rw [hlatch, State.readAccess_taken hready]
      rfl
    · rw [hread, State.readAccess_taken hready]
      rfl
    · rw [← State.writeRefused_of_ready hready]
      show execRegisterWrite a 0x98 w s = _
      simp only [execRegisterWrite, hlow]
    · rw [← State.writeRefused_of_ready hready]
      show execRegisterWrite a 0x99 w s = _
      simp only [execRegisterWrite, hhigh]
  · rw [hlatch, State.readAccess_retry hready]
  · rw [hread, State.readAccess_retry hready]

/-! ### LEASE_EXPIRY (R98, R106 to R109) -/

/-- R98: LEASE_EXPIRY takes the expiry first in turn, which is of a LEASE entry, and then the held ticks. -/
theorem exec_leaseExpiry_of_lease {s : State} {e : EntryNum} {rest : List EntryNum} {h : Agent} {l : LockNum}
    {n o : Nat} (hfirst : s.du.expiries = e :: rest) (hentry : s.du.entries.get e = .armed .lease h l n o) :
    exec .leaseExpiry s = .next (s.leaseExpired e h l).catchUp := by
  have hnext : s.nextExpiry = some .lease := by simp only [State.nextExpiry, hfirst, hentry]
  have htake : s.takeExpiry = s.leaseExpired e h l := by simp only [State.takeExpiry, hfirst, State.expiryOf, hentry]
  show execLeaseExpiry s = _
  rw [execLeaseExpiry, if_pos hnext, htake]

theorem LockState.mode_eq (st : LockState) : st.mode = if st = .shared then .shared else .exclusive := by
  cases st <;> rfl

/-- R107: the upgrade of a revoked holder, queued on the lock, leaves with its entry; a request on another lock, or that
asks no upgrade, stays. -/
theorem State.dequeue_if_upgradeQueued {s t : State} {h : Agent} {l : LockNum} {q : PendingRequest}
    (hq : s.request h = some q) (hsame : t.request h = some q) :
    (if s.upgradeQueued h l = true then t.dequeue h else t) =
      if q.mode = .upgrade ∧ q.lock = l then (t.leaveQueue l h).withDu (·.freeOwned q.entry) else t := by
  simp only [State.upgradeQueued_of_some hq]
  split
  · next hup => rw [State.dequeue_of_some hsame, hup.2]
  · rfl

/-- R109: the report of a revocation goes to the supervisor, unless it is the holder. -/
theorem State.reportRevocation_eq (s : State) (a : Agent) (l : LockNum) (m : Mode) : s.reportRevocation a l m =
    if (s.lock l).report = true ∧ a ≠ 0 then s.post 0 (.revokeReport l m .lease a s.now) else s := by
  unfold State.reportRevocation
  simp only [Bool.and_eq_true, bne_iff_ne]
  rfl

/-- Settles O40: the expiry of an owned LEASE entry is the revocation of its hold. -/
theorem leaseExpiryRevokes : Obligations.LeaseExpiryRevokes := by
  intro s e rest h l n o hfirst hentry hlease r time removed left marked mode told reported
  have hleft : (if s.upgradeQueued h l = true then removed.dequeue h else removed) = left := by
    simp only [left]
    cases hq : s.request h with
    | none => exact if_neg (by rw [State.upgradeQueued_of_none hq]; decide)
    | some q => exact State.dequeue_if_upgradeQueued hq hq
  have hmarked : s.revokeHold h l = marked := by
    unfold State.revokeHold
    simp only [removed] at hleft
    simp only [hleft]
    rfl
  have htold : (s.revokeHold h l).post h (s.leaseNotice h l) = told := by
    rw [hmarked, State.leaseNotice, LockState.mode_eq]
    rfl
  have hreported : s.revokeReported h l = reported := by
    rw [State.revokeReported, htold, State.reportRevocation_eq, LockState.mode_eq]
    obtain ⟨-, -, -, hkept⟩ := State.AttributesKept.revokeHold s h l l
    have hreport : (told.lock l).report = r.report := by rw [← htold, State.post_lock, hkept]
    have hnow : told.now = time := htold ▸ ((s.revokeHold_frame h l).trans (State.post_frame ..)).now
    rw [hreport, hnow]
  have hexec : exec .leaseExpiry s =
      .next (reported.grantIf (s.upgradeQueued h l || reported.grantsAfterHold l) l).catchUp := by
    rw [exec_leaseExpiry_of_lease hfirst hentry, State.leaseExpired_eq hlease, State.revokeLease, hreported]
  refine ⟨fun hup => ?_, fun hup => ?_⟩
  · rw [hexec, hup, Bool.true_or, State.grantIf_true]
  · rw [hexec, hup, Bool.false_or]
    rfl

end Sys2Proof.Machine
end

section
/-! The requests on one entry of the deadline pool, and what a grant does with the entry a request owns (R93 to R95). -/

namespace Sys2Proof.Machine

/-! ### The place of an armed entry in the armed list (R90, R94) -/

/-- R94: an armed entry goes before the first entry whose remaining count is greater than its own. -/
theorem insertArmed_eq (count : EntryNum → Nat) (e : EntryNum) (n : Nat) (xs : List EntryNum) :
    insertArmed count e n xs = xs.takeWhile (count · ≤ n) ++ e :: xs.dropWhile (count · ≤ n) := by
  induction xs with
  | nil => rfl
  | cons x xs ih =>
    by_cases hx : count x ≤ n
    · simp [insertArmed, hx, ih]
    · simp [insertArmed, hx]

/-- R90: along the armed list the remaining counts do not fall. -/
theorem DeadlineUnit.PoolLaw.remaining_mono {d : DeadlineUnit} (h : d.PoolLaw) :
    d.armedList.Pairwise fun x y => (d.entries.get x).remaining ≤ (d.entries.get y).remaining := by
  refine (List.Pairwise.and_mem.mp h.ordered).imp ?_
  intro x y ⟨hx, hy, hbefore⟩
  obtain ⟨k, a, l, n, o, ex⟩ := h.listed x hx
  obtain ⟨k', a', l', m, p, ey⟩ := h.listed y hy
  rw [DeadlineUnit.Before.iff ex ey] at hbefore
  simp only [ex, ey, DeadlineEntry.remaining]
  omega

/-- In a list of counts that do not fall, every count from the first above `n` onwards is above `n`. -/
theorem lt_of_mem_dropWhile {count : EntryNum → Nat} {n : Nat} {xs : List EntryNum}
    (h : xs.Pairwise fun x y => count x ≤ count y) {y : EntryNum} (hy : y ∈ xs.dropWhile (count · ≤ n)) :
    n < count y := by
  induction xs with
  | nil => cases hy
  | cons x xs ih =>
    obtain ⟨hle, hrest⟩ := List.pairwise_cons.mp h
    by_cases hx : count x ≤ n
    · rw [List.dropWhile_cons_of_pos (by simpa using hx)] at hy
      exact ih hrest hy
    · rw [List.dropWhile_cons_of_neg (by simpa using hx)] at hy
      have hxy : count x ≤ count y := by
        rcases List.mem_cons.mp hy with rfl | hin
        · exact le_refl _
        · exact hle y hin
      omega

/-- The first entry that `dropWhile` leaves has a count above `n`. -/
theorem lt_of_head?_dropWhile {count : EntryNum → Nat} {n : Nat} {xs : List EntryNum} {y : EntryNum}
    (hy : (xs.dropWhile (count · ≤ n)).head? = some y) : n < count y := by
  have hnot := List.head?_dropWhile_not (fun x => decide (count x ≤ n)) xs
  rw [hy] at hnot
  simpa using hnot

/-! ### An entry at the grant of the request that owns it (R47, R92) -/

/-- A request without an entry leaves the deadline pool as it is. -/
theorem PendingRequest.atGrant_of_entry_none {q : PendingRequest} (h : q.entry = none) (d : DeadlineUnit) :
    q.grantedLease = none ∧ d.atGrant q = d := by
  unfold PendingRequest.grantedLease DeadlineUnit.atGrant
  rw [h]
  cases q.lease <;> exact ⟨rfl, rfl⟩

/-- The entry of a request that carries no lease is freed. -/
theorem PendingRequest.atGrant_of_lease_none {q : PendingRequest} {e : EntryNum} (h : q.entry = some e)
    (hlease : q.lease = none) (d : DeadlineUnit) : q.grantedLease = none ∧ d.atGrant q = d.free e := by
  unfold PendingRequest.grantedLease DeadlineUnit.atGrant
  rw [h, hlease]
  exact ⟨rfl, rfl⟩

/-- The entry of a request that carries a lease becomes the lease of its hold. -/
theorem PendingRequest.atGrant_of_lease {q : PendingRequest} {e : EntryNum} {n : Nat} (h : q.entry = some e)
    (hlease : q.lease = some n) (d : DeadlineUnit) : q.grantedLease = some e ∧ d.atGrant q = d.armAsLease e n := by
  unfold PendingRequest.grantedLease DeadlineUnit.atGrant
  rw [h, hlease]
  exact ⟨rfl, rfl⟩

theorem DeadlineUnit.armAsLease_of_reserved {d : DeadlineUnit} {e : EntryNum} {a : Agent} {l : LockNum}
    (h : d.entries.get e = .reserved a l) (n : Nat) : d.armAsLease e n = d.arm e .lease a l n := by
  unfold DeadlineUnit.armAsLease
  rw [h]

theorem DeadlineUnit.armAsLease_of_armed {d : DeadlineUnit} {e : EntryNum} {k : EntryKind} {a : Agent} {l : LockNum}
    {m o : Nat} (h : d.entries.get e = .armed k a l m o) (n : Nat) : d.armAsLease e n = d.arm e .lease a l n := by
  unfold DeadlineUnit.armAsLease
  rw [h]

/-- Settles O59: ARM, RESERVE and FREE of one entry, and the entry of a request at its grant. -/
theorem deadlineEntryRequests : Obligations.DeadlineEntryRequests := by
  intro d e a l
  refine ⟨fun k n => ?_, ⟨?_, fun f hf => ?_, rfl⟩, ⟨?_, fun f hf => ?_, rfl⟩, fun q => ⟨fun hnone => ?_, ?_, ?_⟩⟩
  · intro t
    refine ⟨?_, fun f hf => ?_, rfl, rfl, d.arm_clockKept e k a l n, ?_⟩
    · exact (d.arm_entry e k a l n e).trans (if_pos rfl)
    · exact (d.arm_entry e k a l n f).trans (if_neg hf)
    refine ⟨_, _, List.takeWhile_append_dropWhile.symm, insertArmed_eq .., fun x hx => ?_,
      fun x => lt_of_head?_dropWhile, fun hpool x => lt_of_mem_dropWhile (hpool.remaining_mono.filter _)⟩
    simpa using List.mem_takeWhile_imp hx
  · exact (d.reserve_entry e a l e).trans (if_pos rfl)
  · exact (d.reserve_entry e a l f).trans (if_neg hf)
  · exact (d.free_entry e e).trans (if_pos rfl)
  · exact (d.free_entry e f).trans (if_neg hf)
  · exact q.atGrant_of_entry_none hnone d
  · intro hentry hlease
    exact q.atGrant_of_lease_none hentry hlease d
  · intro n hentry hlease
    obtain ⟨hgranted, hgrant⟩ := q.atGrant_of_lease hentry hlease d
    refine ⟨hgranted, fun hreserved => ?_, fun k m o harmed => ?_⟩
    · rw [hgrant, d.armAsLease_of_reserved hreserved]
    · rw [hgrant, d.armAsLease_of_armed harmed]

end Sys2Proof.Machine
end

section
/-! RENEW (R98, R103, R104). -/

namespace Sys2Proof.Machine

section
variable {u : State} {a : Agent} {l : LockNum}

/-- Table 6-3: check 3 of RENEW. -/
theorem State.renewCheck_notHolder (h : u.Asks a l) (hno : (u.lock l).holds a = false) :
    u.renewCheck a (u.argsOf a) = .inl ⟨.notHolder, 0⟩ := by
  simp only [State.renewCheck, h.refusal, h.lockOf_arg0, hno, Bool.not_false, if_true]

/-- Table 6-3: check 4 of RENEW. -/
theorem State.renewCheck_noLease (h : u.Asks a l) (hholds : (u.lock l).holds a = true)
    (hlease : (u.lock l).leaseOf a = none) : u.renewCheck a (u.argsOf a) = .inl ⟨.noLease, 0⟩ := by
  simp only [State.renewCheck, h.refusal, h.lockOf_arg0, hholds, hlease, Bool.not_true, Bool.false_eq_true, if_false]

/-- Table 6-3: check 5 of RENEW; all pass with a duration that is not 0. -/
theorem State.renewCheck_lease (h : u.Asks a l) {e : EntryNum} (hlease : (u.lock l).leaseOf a = some e) :
    u.renewCheck a (u.argsOf a) =
      if leaseField (u.argsOf a).arg1 = 0 then .inl ⟨.badArgument, 4⟩
      else .inr (l, e, leaseField (u.argsOf a).arg1) := by
  by_cases hn : leaseField (u.argsOf a).arg1 = 0
  · simp only [State.renewCheck, h.refusal, h.lockOf_arg0, LockRecord.holds_of_leaseOf hlease, hlease, hn,
      duration_zero, Bool.not_true, Bool.false_eq_true, if_false, if_true]
    rfl
  · simp only [State.renewCheck, h.refusal, h.lockOf_arg0, LockRecord.holds_of_leaseOf hlease, hlease, hn,
      duration_of_ne hn, Bool.not_true, Bool.false_eq_true, if_false]

end

section
variable {s : State} {a : Agent}

/-- R103: RENEW is refused on the settled state. -/
theorem State.renewTaken_refused {o : CmdOutcome} (h : s.settle.renewCheck a (s.settle.argsOf a) = .inl o) :
    s.renewTaken a = (s.settle, o) := by
  simp only [State.renewTaken, h]

/-- R104: RENEW arms the LEASE entry of the hold again. -/
theorem State.renewTaken_renewed {l : LockNum} {e : EntryNum} {n : Nat}
    (h : s.settle.renewCheck a (s.settle.argsOf a) = .inr (l, e, n)) :
    s.renewTaken a =
      (s.settle.withDu (·.armAsLease e n), ⟨.renewed, stateDetail (s.settle.lock l).state⟩) := by
  simp only [State.renewTaken, h, outcomeState]

end

/-- Settles O32: the hold, its lease and the duration are checked in turn, and the entry is armed again. -/
theorem renewOutcomes : Obligations.RenewOutcomes := by
  intro a w s l htakes hasks u n refused
  have hexec : exec (.renew a w) s = .next ((s.renewTaken a).1.answers a w (s.renewTaken a).2) :=
    exec_row_taken htakes
  have hrefused : ∀ {o}, u.renewCheck a (u.argsOf a) = .inl o → refused o := fun h => by
    simp only [refused, hexec, State.renewTaken_refused h, u]
  refine ⟨fun hno => hrefused (State.renewCheck_notHolder hasks hno),
    fun hholds hlease => hrefused (State.renewCheck_noLease hasks hholds hlease), fun e hlease => ?_⟩
  have hcheck := State.renewCheck_lease hasks hlease
  refine ⟨fun hzero => hrefused (hcheck.trans (if_pos hzero)), fun d o hn hentry => ?_⟩
  have harmed : u.withDu (·.armAsLease e n) = u.withDu (·.arm e .lease a l n) := by
    simp only [State.withDu, DeadlineUnit.armAsLease_of_armed hentry]
  rw [hexec, State.renewTaken_renewed (hcheck.trans (if_neg hn)), ← harmed]

end Sys2Proof.Machine
end

section
/-! FORCE RELEASE: what the stripping of a held lock leaves, and who is told (R98, R108, R111 to R113). -/

namespace Sys2Proof.Machine

/-! ### Several entries of the deadline pool are freed (R95) -/

/-- R95: the entries that `p` picks out are freed in `t`, and leave the armed list and the expiries; the rest of `d`
stands. -/
structure DeadlineUnit.Freed (p : EntryNum → Bool) (d t : DeadlineUnit) : Prop where
  entry : ∀ e, t.entries.get e = if p e = true then .free else d.entries.get e
  rest : t = { d with
    entries := t.entries, armedList := d.armedList.filter fun e => !p e
    expiries := d.expiries.filter fun e => !p e }

namespace DeadlineUnit.Freed

theorem none_freed (d : DeadlineUnit) : d.Freed (fun _ => false) d where
  entry _ := rfl
  rest := by simp

theorem congr {p q : EntryNum → Bool} {d t : DeadlineUnit} (h : d.Freed p t) (hpq : ∀ e, p e = q e) : d.Freed q t :=
  (funext hpq : p = q) ▸ h

theorem trans {p q : EntryNum → Bool} {d t v : DeadlineUnit} (h : d.Freed p t) (g : t.Freed q v) :
    d.Freed (fun e => p e || q e) v where
  entry e := by
    rw [g.entry, h.entry]
    cases p e <;> cases q e <;> rfl
  rest := by
    rw [g.rest, h.rest]
    simp only [List.filter_filter, Bool.not_or, Bool.and_comm]

/-- The entry of an owner that leaves is freed. -/
theorem freeOwned (d : DeadlineUnit) (o : Option EntryNum) : d.Freed (fun e => o == some e) (d.freeOwned o) where
  entry e := by
    rw [DeadlineUnit.freeOwned_entry]
    simp only [beq_iff_eq]
  rest := by
    cases o with
    | none => simp [DeadlineUnit.freeOwned]
    | some x =>
      have hkeep : (fun e => !(some x == some e)) = fun e => e != x := by
        funext e
        rw [Option.some_beq_some, bne, Bool.beq_comm]
      rw [hkeep]
      rfl

end DeadlineUnit.Freed

/-! ### The upgrade queued on a lock (R50, R72) -/

theorem State.upgradeQueued_iff {s : State} {b : Agent} {l : LockNum} : s.upgradeQueued b l = true ↔
    ∃ q, s.request b = some q ∧ q.mode = .upgrade ∧ q.lock = l := by
  cases hq : s.request b with
  | none => simp [State.upgradeQueued_of_none hq]
  | some q => simp [State.upgradeQueued_of_some hq]

/-- R50, R72: the upgrader of a lock is the one agent that has an upgrade queued on it. -/
theorem State.QueueLaw.upgraderOf_beq {s : State} (h : s.QueueLaw) (l : LockNum) (b : Agent) :
    (s.upgraderOf l == some b) = s.upgradeQueued b l := by
  rw [Bool.eq_iff_iff, beq_iff_eq, State.upgradeQueued_iff]
  constructor
  · exact fun hu => (State.upgraderOf_some hu).2
  · rintro ⟨q, hq, hm, rfl⟩
    exact State.upgraderOf_of_head (h.upgrade b q hq hm).1 hq hm rfl

/-! ### FORCE RELEASE, steps 1 to 3 (R112) -/

/-- A lock that no agent holds has no row of its holder set present (R4). -/
theorem LockRecord.holders_eq_of_empty {r : LockRecord} (h : ∀ b, r.holds b = false) :
    r.holders = Vector.replicate 8 none :=
  table_ext fun b => (Option.not_isSome_iff_eq_none.mp (Bool.eq_false_iff.mp (h b))).trans (get_replicate none b).symm

theorem LockRecord.holderList_nodup (r : LockRecord) : r.holderList.Nodup := (List.nodup_finRange 8).filter _

theorem LockRecord.holderList_length (r : LockRecord) : r.holderList.length = allAgents.countP fun b => r.holds b :=
  List.countP_eq_length_filter.symm

/-- Step 1: the lock loses its holders, and its state with them; the rest of its record stands. -/
theorem State.removeHolds_lock_eq (s : State) (l : LockNum) : (s.removeHolds l).lock l =
    { s.lock l with
      holders := Vector.replicate 8 none, state := ((s.removeHolds l).lock l).state } := by
  rw [← LockRecord.holders_eq_of_empty (s.removeHolds_lock l).2.1]
  refine State.removeHolds_induct (P := fun t => t.lock l =
    { s.lock l with holders := (t.lock l).holders, state := (t.lock l).state }) (fun t a ht => ?_) rfl
  rw [State.removeHold_lock, if_pos rfl]
  exact congrArg (fun r : LockRecord =>
    { r with holders := ((t.lock l).withoutHolder a).holders, state := ((t.lock l).withoutHolder a).state }) ht

/-- Step 1: the lease entries of the holds are freed. -/
theorem State.removeHolds_freed (s : State) (l : LockNum) :
    s.du.Freed (fun e => (s.lock l).holderList.any fun b => (s.lock l).leaseOf b == some e) (s.removeHolds l).du := by
  have hfold : ∀ (bs : List Agent) (t : State), bs.Nodup →
      t.du.Freed (fun e => bs.any fun b => (t.lock l).leaseOf b == some e)
        (bs.foldl (fun t a => t.removeHold a l) t).du := by
    intro bs
    induction bs with
    | nil => exact fun t _ => .none_freed t.du
    | cons a bs ih =>
      intro t hnodup
      obtain ⟨ha, hbs⟩ := List.nodup_cons.mp hnodup
      have hfirst : t.du.Freed (fun e => (t.lock l).leaseOf a == some e) (t.removeHold a l).du := .freeOwned ..
      refine (hfirst.trans (ih _ hbs)).congr fun e => ?_
      have hkept : ∀ b ∈ bs, ((t.removeHold a l).lock l).leaseOf b = (t.lock l).leaseOf b := by
        intro b hb
        rw [State.removeHold_lock, if_pos rfl, LockRecord.withoutHolder_leaseOf, if_neg (ne_of_mem_of_not_mem hb ha)]
      rw [Bool.eq_iff_iff]
      simp only [Bool.or_eq_true, List.any_cons, List.any_eq_true]
      exact or_congr_right (exists_congr fun b => and_congr_right fun hb => by rw [hkept b hb])
  exact hfold _ s (s.lock l).holderList_nodup

/-- Step 2: the entry of the upgrade is freed. -/
theorem State.dropUpgrade_freed (s : State) (l : LockNum) :
    s.du.Freed (fun e => (s.upgraderOf l).any fun b => (s.request b).any fun q => q.entry == some e)
      (s.dropUpgrade l).du := by
  unfold State.dropUpgrade
  cases hu : s.upgraderOf l with
  | none => exact .none_freed s.du
  | some a =>
    obtain ⟨-, q, hq, -, -⟩ := State.upgraderOf_some hu
    simp only [Option.any_some, hq, State.dequeue_of_some hq]
    exact .freeOwned s.du q.entry

/-- Step 3: the lock becomes FREE, and only its record changes. -/
theorem State.toFree_eq (s : State) (l : LockNum) (exclusive : Bool) : s.toFree l exclusive =
    s.setLock l { s.lock l with state := .free, recovered := exclusive || (s.lock l).recovered } := by
  unfold State.toFree
  cases exclusive with
  | false => rfl
  | true =>
    simp only [if_true, State.setRecovered, State.setLock_lock_self, State.setLock_setLock, Bool.true_or]

section
variable (s : State) (l : LockNum)

/-- Steps 1 to 3: the record of the lock. -/
theorem State.stripLock_lock_self : (s.stripLock l).lock l =
    { s.lock l with
      state := .free, holders := Vector.replicate 8 none
      recovered := (s.lock l).state == .exclusive || (s.lock l).recovered
      queue := (s.lock l).queue.filter fun b => s.upgraderOf l != some b } := by
  rw [State.stripLock, State.toFree_eq, State.setLock_lock_self, State.dropUpgrade_lock, if_pos rfl,
    State.removeHolds_upgraderOf, State.removeHolds_lock_eq]

theorem State.stripLock_lock_ne {k : LockNum} (h : k ≠ l) : (s.stripLock l).lock k = s.lock k := by
  rw [State.stripLock, State.toFree_eq, State.setLock_lock_ne _ h, State.dropUpgrade_lock, if_neg h,
    (s.removeHolds_lock l).1 k h]

theorem State.stripLock_request (b : Agent) :
    (s.stripLock l).request b = if s.upgraderOf l = some b then none else s.request b := by
  rw [State.stripLock, State.toFree_eq, State.setLock_request, State.dropUpgrade_request, State.removeHolds_upgraderOf,
    State.removeHolds_request]

/-- Steps 1 to 3: the entries of the leases and of the upgrade are freed. -/
theorem State.stripLock_freed : s.du.Freed
    (fun e => ((s.lock l).holderList.any fun b => (s.lock l).leaseOf b == some e) ||
      (s.upgraderOf l).any fun b => (s.request b).any fun q => q.entry == some e) (s.stripLock l).du := by
  have hdrop := (s.removeHolds l).dropUpgrade_freed l
  simp only [State.removeHolds_upgraderOf, State.removeHolds_request] at hdrop
  rw [State.stripLock, State.toFree_eq, State.setLock_du]
  exact (s.removeHolds_freed l).trans hdrop

end

/-- R92, R112: an entry is freed exactly if a lease on the lock or the upgrade queued on it owns it. -/
theorem State.QueueLaw.freed_eq {s : State} (h : s.QueueLaw) (l : LockNum) (e : EntryNum) :
    (((s.lock l).holderList.any fun b => (s.lock l).leaseOf b == some e) ||
      (s.upgraderOf l).any fun b => (s.request b).any fun q => q.entry == some e) =
    allAgents.any fun b => (s.lock l).leaseOf b == some e ||
      (s.upgradeQueued b l && (s.request b).any fun q => q.entry == some e) := by
  have hleases : ((s.lock l).holderList.any fun b => (s.lock l).leaseOf b == some e) = true ↔
      ∃ b, (s.lock l).leaseOf b = some e := by
    simp only [List.any_eq_true, LockRecord.mem_holderList, beq_iff_eq]
    exact exists_congr fun b => and_iff_right_of_imp LockRecord.holds_of_leaseOf
  rw [Bool.eq_iff_iff, Bool.or_eq_true, hleases]
  simp only [← h.upgraderOf_beq, Option.any_eq_true, List.any_eq_true, mem_allAgents, true_and, Bool.or_eq_true,
    Bool.and_eq_true, beq_iff_eq, exists_or]

/-! ### FORCE RELEASE, step 4 (R108, R112) -/

section
variable (s : State) (bs : List Agent) (n : Agent → Notice)

/-- Posts to several agents change nothing but the agent records. -/
theorem State.postAll_eq : bs.foldl (fun t a => t.post a (n a)) s =
    { s with agents := (bs.foldl (fun t a => t.post a (n a)) s).agents } := by
  induction bs generalizing s with
  | nil => rfl
  | cons b bs ih => rw [List.foldl_cons, ih, State.post_eq]

/-- R124: each agent posted to once is told by its own post alone. -/
theorem State.postAll_agent {bs : List Agent} (hnodup : bs.Nodup) (b : Agent) :
    (bs.foldl (fun t a => t.post a (n a)) s).agent b = if b ∈ bs then (s.post b (n b)).agent b else s.agent b := by
  induction bs generalizing s with
  | nil => rfl
  | cons a bs ih =>
    obtain ⟨ha, hbs⟩ := List.nodup_cons.mp hnodup
    rw [List.foldl_cons, ih _ hbs]
    by_cases hb : b = a
    · subst hb
      rw [if_neg ha, if_pos List.mem_cons_self]
    · have hkept : (s.post a (n a)).agent b = s.agent b := s.post_agent_ne hb _
      simp only [List.mem_cons, hb, false_or, hkept, State.post_agent_congr hkept]

end

/-- R112, steps 1 to 4: the held lock is stripped, and each former holder told. -/
def State.forceTold (s : State) (l : LockNum) : State :=
  (s.lock l).holderList.foldl
    (fun t a => t.post a (forcedNotice l (s.lock l).state (s.upgraderOf l) a s.now)) (s.stripLock l)

theorem State.forceHeld_eq (s : State) (l : LockNum) : s.forceHeld l = (s.forceTold l).grantStep l := rfl

section
variable (s : State) (l : LockNum)

theorem State.forceTold_eq :
    s.forceTold l = { s.stripLock l with agents := (s.forceTold l).agents } := State.postAll_eq ..

theorem State.forceTold_lock (k : LockNum) : (s.forceTold l).lock k = (s.stripLock l).lock k := by
  rw [State.forceTold_eq]; rfl

theorem State.forceTold_request (b : Agent) : (s.forceTold l).request b = (s.stripLock l).request b := by
  rw [State.forceTold_eq]; rfl

theorem State.forceTold_du : (s.forceTold l).du = (s.stripLock l).du := by rw [State.forceTold_eq]

theorem State.forceTold_frame : s.EngineFrame (s.forceTold l) := (s.stripLock_frame l).trans (State.postAll_frame ..)

/-- R112, step 4: each former holder is told, and no other agent. -/
theorem State.forceTold_agent (b : Agent) : (s.forceTold l).agent b =
    if (s.lock l).holds b = true then
      (s.post b (forcedNotice l (s.lock l).state (s.upgraderOf l) b s.now)).agent b
    else s.agent b := by
  have hkept : (s.stripLock l).agent b = s.agent b := by rw [State.agent, s.stripLock_agents l]; rfl
  rw [State.forceTold, State.postAll_agent _ _ (s.lock l).holderList_nodup, hkept, State.post_agent_congr hkept]
  simp only [LockRecord.mem_holderList]

end

/-- R108: the mode of the hold that a forced release ends. -/
theorem LockState.mode_of_held {st : LockState} (h : st ≠ .free) :
    st.mode = if st = .exclusive then .exclusive else .shared := by
  cases st
  case free => exact absurd rfl h
  all_goals rfl

/-! ### FORCE RELEASE (R111, R113) -/

section
variable {s : State}

theorem State.forceReleaseTaken_badLock (h : 63 < s.settle.lockArg 0) :
    s.forceReleaseTaken = (s.settle, ⟨.badArgument, 1⟩) := by
  have hnone : lockOf (numberField (s.settle.argsOf Config.supervisor).arg0) = none := lockOf_of_gt h
  simp only [State.forceReleaseTaken, hnone]
  rfl

theorem State.forceReleaseTaken_lock {l : LockNum} (h : s.settle.lockArg 0 = l.val) : s.forceReleaseTaken =
    if (s.settle.lock l).state = .free then
      (s.settle.setLock l { s.settle.lock l with recovered := false }, ⟨.done, 0⟩)
    else (s.settle.forceHeld l, outcomeNumber .done (allAgents.countP fun b => (s.settle.lock l).holds b)) := by
  have hsome : lockOf (numberField (s.settle.argsOf Config.supervisor).arg0) = some l := by
    rw [show numberField (s.settle.argsOf Config.supervisor).arg0 = l.val from h, lockOf_val]
  simp only [State.forceReleaseTaken, hsome, beq_iff_eq, LockRecord.holderList_length]

end

/-- Settles O35: a held lock is stripped and its holders told (`State.forceTold`), and then the grant step runs. -/
theorem forceReleaseOutcomes : Obligations.ForceReleaseOutcomes := by
  intro a w s htakes u
  obtain rfl : a = 0 := htakes.allowed rfl
  have hexec : exec (.forceRelease 0 w) s = .next (s.forceReleaseTaken.1.answers 0 w s.forceReleaseTaken.2) :=
    exec_row_taken htakes
  refine ⟨fun hbad => by rw [hexec, State.forceReleaseTaken_badLock hbad], fun l hl => ?_⟩
  intro r freed
  have htaken := State.forceReleaseTaken_lock hl
  refine ⟨fun hfree => by rw [hexec, htaken, if_pos hfree], fun hheld hlaw => ?_⟩
  have hupgrader := hlaw.queues.upgraderOf_beq l
  have hfreed : u.du.Freed freed (u.forceTold l).du := by
    rw [State.forceTold_du]
    exact (u.stripLock_freed l).congr (hlaw.queues.freed_eq l)
  obtain ⟨hport, harrival, hpurge, hpending, -, -⟩ := u.forceTold_frame l
  refine ⟨u.forceTold l, ?_, ?_, fun k hk => ?_, fun b => ?_, fun b hb => ?_, fun b hb => ?_, hfreed.entry, hfreed.rest,
    hport, hpurge, harrival, hpending⟩
  · rw [hexec, htaken, if_neg hheld, State.forceHeld_eq]
    rfl
  · have hrecovered : r.recovered = false :=
      Bool.eq_false_iff.mpr fun h => hheld ((hlaw.records l).recovered h)
    rw [State.forceTold_lock, State.stripLock_lock_self]
    simp only [bne, hupgrader]
    rw [show (u.lock l).recovered = false from hrecovered, Bool.or_false]
  · rw [State.forceTold_lock, State.stripLock_lock_ne _ _ hk]
  · rw [State.forceTold_request, State.stripLock_request, ← hupgrader b]
    simp only [beq_iff_eq]
  · rw [State.forceTold_agent, if_neg (by rw [show (u.lock l).holds b = false from hb]; decide)]
  · rw [State.forceTold_agent, if_pos hb, forcedNotice, hupgrader b, LockState.mode_of_held hheld]
    rfl

end Sys2Proof.Machine
end

section
/-! The law of the Agent Table over a step, notices, the writes of the banked words, and the interrupt lines (R119, R124,
R125, R127, R129 to R131, R134). -/

namespace Sys2Proof.Machine

/-- Settles O53: every part of the machine keeps the laws of the Agent Table and the Purge Engine. -/
theorem stepKeepsAgentLaw : Obligations.StepKeepsAgentLaw := fun _ _ hlaw hstep => agentLaw_kept.step hlaw hstep

/-- Settles O50: the three cases of a post. -/
theorem noticePost : Obligations.NoticePost := fun _ _ n =>
  ⟨fun hoff => State.post_of_not_online hoff n, fun hon hroom => State.post_of_room hon hroom n,
    fun hon hfull => State.post_of_full hon (Nat.not_lt.mpr hfull) n⟩

/-! ### The writes of NOTICE CONTROL, ERROR STATUS and INTERRUPT ENABLE (R127, R129, R130) -/

/-- R127: POP, with or without CLEAR OVERRUN. -/
theorem AgentRecord.noticeControl_pop (r : AgentRecord) (c : Bool) : r.noticeControl true c =
    { r with notices := r.notices.tail, overrun := if c then false else r.overrun } := rfl

/-- R127: CLEAR OVERRUN alone. -/
theorem AgentRecord.noticeControl_clear (r : AgentRecord) : r.noticeControl false true = { r with overrun := false } :=
  rfl

/-- R127: neither flag. -/
theorem AgentRecord.noticeControl_neither (r : AgentRecord) : r.noticeControl false false = r := rfl

/-- R127: a write of NOTICE CONTROL is the same event in each of the rows that can spell it. -/
theorem exec_noticeControl {s : State} {a : Agent} {w : WriteData} (hready : s.ready = true)
    (hparity : w.parityGood = true) {i : Instr}
    (hi : i = .pop a w ∨ i = .clearOverrun a w ∨ i = .registerWrite a 0xA5 w) :
    exec i s = .next ((s.setAgent a ((s.agent a).noticeControl (w.data.getLsbD 0) (w.data.getLsbD 1))).respond
      (.write .ok)) := by
  have hwrite : exec i s = .next (s.writeAccess a w fun t => t.noticeControlTaken a w) := by
    obtain rfl | rfl | rfl := hi
    · rfl
    · rfl
    · obtain ⟨-, hcontrol, -⟩ := Laws.AccessRoundTrip.windowWord_named
      show execRegisterWrite a 0xA5 w s = _
      simp only [execRegisterWrite, hcontrol]
  rw [hwrite, State.writeAccess_taken hready hparity]
  rfl

/-- Settles O45: the two flags of NOTICE CONTROL, and the two words whose writes do not depend on what stood there. -/
theorem bankedWrites : Obligations.BankedWrites := by
  intro a w s hready hparity r after
  have taken := State.writeAccess_taken hready hparity a
  refine ⟨fun hpop => ?_, fun hpop hclear => ?_, fun hpop hclear => ?_, ?_, ?_⟩
  · rw [exec_noticeControl hready hparity (.inl rfl), hpop, AgentRecord.noticeControl_pop]
  · rw [exec_noticeControl hready hparity (.inr (.inl rfl)), hpop, hclear, AgentRecord.noticeControl_clear]
  · rw [exec_noticeControl hready hparity (.inr (.inr rfl)), hpop, hclear, AgentRecord.noticeControl_neither]
  · exact congrArg Host.Outcome.next (taken fun t => t.errorStatusTaken a)
  · exact congrArg Host.Outcome.next (taken fun t => t.interruptEnableTaken a w)

/-! ### The interrupt lines (R131) -/

/-- R131: what asserts the line of an agent. -/
theorem AgentRecord.wantsLine_iff (r : AgentRecord) : r.wantsLine = true ↔
    (r.noticeEnable = true ∧ (r.notices ≠ [] ∨ r.overrun = true)) ∨ (r.errorEnable = true ∧ r.errorSeen = true) := by
  simp [AgentRecord.wantsLine]

/-- R131: the line of an agent. -/
theorem State.line_iff (s : State) (n : Agent) :
    s.line n = true ↔ s.inReset = false ∧ (s.agent n).wantsLine = true := by
  simp [State.line]

/-- R131, R133: with its notices and overrun gone at RESET TABLES, an agent has the error cause alone. -/
theorem AgentRecord.resetTables_wantsLine_iff (r : AgentRecord) :
    r.resetTables.wantsLine = true ↔ r.errorEnable = true ∧ r.errorSeen = true := by
  rw [AgentRecord.wantsLine_iff]
  simp [AgentRecord.resetTables, AgentRecord.emptied]

/-- R131, R151: the outcome of a command and its bus answer are no cause of a line. -/
theorem State.answers_line (u : State) (a : Agent) (w : WriteData) (o : CmdOutcome) (n : Agent) :
    (u.answers a w o).line n = u.line n := by
  unfold State.answers
  rw [State.respond_line, State.line, State.line, State.setAgent_inReset, State.setAgent_agent]
  split
  · next h => subst h; rfl
  · rfl

/-- Settles O46: the causes of a line, and which of them each reset leaves. -/
theorem interruptLines : Obligations.InterruptLines := by
  refine ⟨fun s n => ?_, fun s t i hi ht n => ?_, fun s t a w htakes ht n => ?_⟩
  · rw [State.line_iff, AgentRecord.wantsLine_iff]
  · obtain rfl | ⟨rfl, hpower⟩ := hi
    · cases ht
      have hagent : s.powerOnAsserted.agent n = AgentRecord.reset n := State.reset_agent n
      rw [hagent]
      exact ⟨State.line_of_inReset s.powerOnAsserted_inReset n, rfl, rfl, rfl, rfl, rfl⟩
    · have hbus : exec .busReset s = .next s.busResetAsserted := by
        simp only [exec, execBusReset, hpower, Bool.false_eq_true, if_false]
      cases hbus.symm.trans ht
      rw [State.busResetAsserted_agent]
      exact ⟨State.line_of_inReset s.busResetAsserted_inReset n, rfl, rfl, rfl, rfl, rfl⟩
  · have hexec : exec (.resetTables a w) s = .next (s.resetTablesTaken.1.answers a w s.resetTablesTaken.2) :=
      exec_row_taken htakes
    cases hexec.symm.trans ht
    have hreset : s.inReset = false := State.inReset_of_ready htakes.ready
    rw [State.answers_line, State.line_iff, State.resetTablesTaken_agent, AgentRecord.resetTables_wantsLine_iff]
    exact and_iff_right hreset

end Sys2Proof.Machine
end

section
/-! SET_AGENT (R121, R122), and the layouts of RESULT, NOTICE HEAD, NOTICE TIME, ERROR STATUS, INTERRUPT ENABLE and TIME
HIGH (Tables 7-5, 10-6 to 10-9). -/

namespace Sys2Proof.Machine

/-! ### The operands of SET_AGENT (R121, R161) -/

theorem agentOf_val (n : Agent) : agentOf n.val = some n := dif_pos n.isLt

theorem agentOf_of_gt {k : Nat} (h : 7 < k) : agentOf k = none := dif_neg (by omega)

theorem targetState_of_invalid {c : BitVec 2} (h0 : c ≠ 0) (h1 : c ≠ 1) : targetState c = none := by
  rw [targetState, if_neg h0, if_neg h1]

/-- R3: an agent that holds no lock. -/
theorem State.holdCount_eq_zero_iff (s : State) (n : Agent) :
    s.holdCount n = 0 ↔ ∀ l, (s.lock l).holds n = false := by
  simp [State.holdCount, List.countP_eq_zero]

/-! ### The new record (R122, Table 7-4) -/

theorem AgentRecord.withState_online (r : AgentRecord) (cls : BitVec 2) :
    r.withState .online cls = { r with state := .online, cls := cls } := if_neg (by simp)

/-- R122: OFFLINE, for an agent that is not PURGING: one that leaves ONLINE loses its notices and its overrun. -/
theorem AgentRecord.withState_offline {r : AgentRecord} (h : r.state ≠ .purging) (cls : BitVec 2) :
    r.withState .offline cls =
      if r.state = .online then { r with state := .offline, cls := cls, notices := [], overrun := false }
      else { r with cls := cls } := by
  obtain ⟨st⟩ := r
  cases st
  · rfl
  · rfl
  · exact absurd rfl h

/-! ### SET_AGENT at the Agent Table (R121, Table 7-3) -/

section
variable {s : State} {n : Agent}

theorem State.setAgentTaken_badAgent (h : 7 < numberField (s.argsOf 0).arg0) :
    s.setAgentTaken = (s, ⟨.badArgument, 5⟩) := by
  have hsup : Config.supervisor = 0 := rfl
  simp only [State.setAgentTaken, State.setAgentCheck, hsup, agentOf_of_gt h]
  rfl

theorem State.setAgentTaken_badTarget (hn : numberField (s.argsOf 0).arg0 = n.val)
    (h0 : codeField (s.argsOf 0).arg0 ≠ 0) (h1 : codeField (s.argsOf 0).arg0 ≠ 1) :
    s.setAgentTaken = (s, ⟨.badArgument, 6⟩) := by
  have hsup : Config.supervisor = 0 := rfl
  simp only [State.setAgentTaken, State.setAgentCheck, hsup, hn, agentOf_val, targetState_of_invalid h0 h1]
  rfl

/-- R121, R122: the checks of the target ONLINE. -/
theorem State.setAgentTaken_online (hn : numberField (s.argsOf 0).arg0 = n.val)
    (h1 : codeField (s.argsOf 0).arg0 = 1) : s.setAgentTaken =
      if (s.agent n).state = .purging then (s, ⟨.agentBusy, 1⟩)
      else (s.setAgent n { s.agent n with state := .online, cls := classField (s.argsOf 0).arg0 }, ⟨.done, 0⟩) := by
  have hsup : Config.supervisor = 0 := rfl
  have htarget : targetState 1 = some .online := rfl
  have honline : (AgentState.online == .offline) = false := rfl
  simp only [State.setAgentTaken, State.setAgentCheck, hsup, hn, h1, agentOf_val, htarget, honline, Bool.and_false,
    Bool.false_and, Bool.false_eq_true, if_false, beq_iff_eq, ← AgentRecord.withState_online]
  split_ifs <;> rfl

/-- R121, R122: the checks of the target OFFLINE, in order. -/
theorem State.setAgentTaken_offline (hn : numberField (s.argsOf 0).arg0 = n.val)
    (h0 : codeField (s.argsOf 0).arg0 = 0) : s.setAgentTaken =
      if n = 0 then (s, ⟨.badArgument, 7⟩)
      else if (s.agent n).state = .purging then (s, ⟨.agentBusy, 1⟩)
      else if s.request n ≠ none then (s, ⟨.agentBusy, 2⟩)
      else if s.holdCount n ≠ 0 then (s, ⟨.agentBusy, 3⟩)
      else (s.setAgent n ((s.agent n).withState .offline (classField (s.argsOf 0).arg0)), ⟨.done, 0⟩) := by
  have hsup : Config.supervisor = 0 := rfl
  have htarget : targetState 0 = some .offline := rfl
  simp only [State.setAgentTaken, State.setAgentCheck, hsup, hn, h0, agentOf_val, htarget, beq_self_eq_true,
    Bool.and_true, Bool.true_and, beq_iff_eq, bne_iff_ne, Option.isSome_iff_ne_none]
  split_ifs <;> rfl

end

/-- Settles O33: the operands are checked, then the agent, and for OFFLINE what it waits for and holds. -/
theorem setAgentOutcomes : Obligations.SetAgentOutcomes := by
  intro a w s htakes arg0 code
  obtain rfl : a = 0 := htakes.allowed rfl
  have hexec : exec (.setAgent 0 w) s = .next (s.setAgentTaken.1.answers 0 w s.setAgentTaken.2) :=
    exec_row_taken htakes
  rw [hexec]
  refine ⟨fun hbad => by rw [State.setAgentTaken_badAgent hbad], fun n hn => ?_⟩
  intro r
  have offline : code = 0 → _ := State.setAgentTaken_offline hn
  have online : code = 1 → _ := State.setAgentTaken_online hn
  refine ⟨fun h0 h1 => ?_, fun hsup h0 => ?_, fun hsup htarget hpurging => ?_, fun hsup h0 hst hwaits => ?_,
    fun hsup h0 hst hidle hholds => ?_, fun h1 hst => ?_, fun hsup h0 hst hidle hfree => ?_⟩
  · rw [State.setAgentTaken_badTarget hn h0 h1]
  · rw [offline h0, if_pos hsup]
  · obtain h0 | h1 := htarget
    · rw [offline h0, if_neg hsup, if_pos hpurging]
    · rw [online h1, if_pos hpurging]
  · rw [offline h0, if_neg hsup, if_neg hst, if_pos hwaits]
  · have hcount : s.holdCount n ≠ 0 := by
      rw [Ne, State.holdCount_eq_zero_iff]
      simpa using hholds
    rw [offline h0, if_neg hsup, if_neg hst, if_neg (not_not.mpr hidle), if_pos hcount]
  · rw [online h1, if_neg hst]
  · have hcount : s.holdCount n = 0 := (s.holdCount_eq_zero_iff n).mpr hfree
    rw [offline h0, if_neg hsup, if_neg hst, if_neg (not_not.mpr hidle), if_neg (not_not.mpr hcount),
      AgentRecord.withState_offline hst]

/-! ### RESULT, ERROR STATUS, INTERRUPT ENABLE and TIME HIGH -/

/-- Table 10-6: the fields of RESULT. -/
theorem CommandRecord.word_fields (c : CommandRecord) : c.word.extractLsb' 0 8 = c.tag ∧
    c.word.extractLsb' 8 7 = c.code.code ∧ c.word.getLsbD 15 = c.replayed ∧ c.word.extractLsb' 16 16 = c.detail := by
  refine ⟨?_, ?_, ?_, ?_⟩ <;> simp only [CommandRecord.word]
  all_goals
    simp (disch := decide) only [BitVec.extractLsb'_append_eq_of_le, BitVec.extractLsb'_append_eq_of_add_le,
      BitVec.extractLsb'_eq_self, BitVec.getLsbD_append, Nat.reduceSub, Nat.reduceLT, if_true, if_false,
      flagBit_getLsbD]

/-- Section 10.6: the fields of ERROR STATUS and of INTERRUPT ENABLE. -/
theorem AgentRecord.errorStatus_interruptEnable_fields (r : AgentRecord) :
    r.errorStatus.extractLsb' 0 3 = r.errorKind.code ∧ r.errorStatus.getLsbD 3 = r.errorSeen ∧
      r.errorStatus.extractLsb' 4 28 = 0 ∧ r.interruptEnable.getLsbD 0 = r.noticeEnable ∧
      r.interruptEnable.getLsbD 1 = r.errorEnable ∧ r.interruptEnable.extractLsb' 2 30 = 0 := by
  refine ⟨?_, ?_, ?_, ?_, ?_, ?_⟩ <;> simp only [AgentRecord.errorStatus, AgentRecord.interruptEnable]
  all_goals
    simp (disch := decide) only [BitVec.extractLsb'_append_eq_of_le, BitVec.extractLsb'_append_eq_of_add_le,
      BitVec.extractLsb'_eq_self, BitVec.getLsbD_append, Nat.reduceSub, Nat.reduceLT, if_true, if_false,
      flagBit_getLsbD]

/-- R87: the fields of TIME HIGH. -/
theorem State.timeHigh_fields (s : State) (a : Agent) : (s.timeHigh a).extractLsb' 0 16 = s.du.snapshots.get a ∧
    (s.timeHigh a).extractLsb' 16 16 = 0 := by
  refine ⟨?_, ?_⟩ <;> simp only [State.timeHigh]
  all_goals
    simp (disch := decide) only [BitVec.extractLsb'_append_eq_of_le, BitVec.extractLsb'_append_eq_of_add_le,
      BitVec.extractLsb'_eq_self, Nat.reduceSub]

/-! ### NOTICE HEAD and NOTICE TIME (Tables 7-5, 10-9) -/

/-- Table 10-9: the word of `overrun`, queue length `len` and the fields `f` of a notice. -/
def NoticeFields.headWord (f : NoticeFields) (overrun : Bool) (len : BitVec 4) : Word :=
  flagBit overrun ++ len ++ f.count ++ (0 : BitVec 1) ++ f.subject ++ flagBit f.upgrade ++ flagBit f.recovered ++ f.lock
    ++ f.mode ++ f.cause ++ (0 : BitVec 1) ++ f.kind

/-- R126, R160: NOTICE HEAD of an empty queue. -/
theorem AgentRecord.noticeHead_nil {r : AgentRecord} (h : r.notices = []) :
    r.noticeHead = NoticeFields.absent.headWord r.overrun 0 := by
  simp only [AgentRecord.noticeHead, h]
  rfl

/-- R126: NOTICE HEAD of a queue whose oldest notice is `n`. -/
theorem AgentRecord.noticeHead_cons {r : AgentRecord} {n : Notice} {rest : List Notice} (h : r.notices = n :: rest) :
    r.noticeHead = n.fields.headWord r.overrun (BitVec.ofNat 4 r.notices.length) := by
  simp only [AgentRecord.noticeHead, h]
  rfl

/-- Table 10-9: the fields of NOTICE HEAD at their places. -/
theorem NoticeFields.headWord_fields (f : NoticeFields) (overrun : Bool) (len : BitVec 4) :
    let v := f.headWord overrun len
    v.getLsbD 31 = overrun ∧ v.extractLsb' 27 4 = len ∧ v.getLsbD 3 = false ∧ v.getLsbD 19 = false ∧
      v.extractLsb' 0 3 = f.kind ∧ v.extractLsb' 4 2 = f.cause ∧ v.extractLsb' 6 2 = f.mode ∧
      v.extractLsb' 8 6 = f.lock ∧ v.getLsbD 14 = f.recovered ∧ v.getLsbD 15 = f.upgrade ∧
      v.extractLsb' 16 3 = f.subject ∧ v.extractLsb' 20 7 = f.count := by
  intro v
  refine ⟨?_, ?_, ?_, ?_, ?_, ?_, ?_, ?_, ?_, ?_, ?_, ?_⟩ <;> simp only [v, NoticeFields.headWord]
  all_goals
    simp (disch := decide) only [BitVec.extractLsb'_append_eq_of_le, BitVec.extractLsb'_append_eq_of_add_le,
      BitVec.extractLsb'_eq_self, BitVec.getLsbD_append, Nat.reduceSub, Nat.reduceLT, if_true, if_false,
      flagBit_getLsbD]
  all_goals rfl

/-- Settles O18: the fields of each word are those its definition joins; the fields of a notice and the codes are
tables. -/
theorem bankedLayouts : Obligations.BankedLayouts := by
  refine ⟨CommandRecord.word_fields, fun r => ?_, AgentRecord.errorStatus_interruptEnable_fields,
    State.timeHigh_fields, fun _ _ _ _ _ _ _ _ => ⟨rfl, rfl, rfl, rfl, rfl, rfl⟩, ⟨rfl, rfl, rfl, rfl, rfl⟩, rfl, rfl,
    rfl⟩
  cases hqueue : r.notices with
  | nil =>
    have hempty : ∀ o, (NoticeFields.absent.headWord o 0).extractLsb' 0 27 = 0 := by decide
    obtain ⟨hoverrun, hlength, -⟩ := NoticeFields.absent.headWord_fields r.overrun 0
    rw [AgentRecord.noticeHead_nil hqueue]
    exact ⟨hoverrun, hlength, fun _ => ⟨hempty _, by simp only [AgentRecord.noticeTime, hqueue]⟩,
      fun _ _ hcons => nomatch hcons⟩
  | cons n rest =>
    obtain ⟨hoverrun, hlength, hbit3, hbit19, hfields⟩ :=
      n.fields.headWord_fields r.overrun (BitVec.ofNat 4 (n :: rest).length)
    rw [AgentRecord.noticeHead_cons hqueue, hqueue]
    refine ⟨hoverrun, hlength, fun hnil => absurd hnil (List.cons_ne_nil n rest), fun _ _ hcons => ?_⟩
    cases hcons
    exact ⟨hbit3, hbit19, by simp only [AgentRecord.noticeTime, hqueue], hfields⟩

end Sys2Proof.Machine
end

section
/-! The purge of an agent: PURGE, SWEEP_VISIT and SWEEP_END (R135, R136, R138, R139). -/

namespace Sys2Proof.Machine

/-! ### SWEEP_VISIT (R138) -/

section
variable {s : State} {a : Agent} {k : LockNum}

/-- R98, R138: a visit that is presented is made on the state that the expiries and held ticks before it leave. -/
theorem State.sweepVisit_of_sweeping (hstate : s.purge.state = .sweeping) (ha : s.purge.subject = some a)
    (hk : s.purge.pointer = k.val) : s.sweepVisit = s.settle.visitLock a k := by
  simp only [State.sweepVisit, hstate, ha, hk, lockOf_val]

/-- R138: a lock that the subject does not hold is passed over. -/
theorem State.visitLock_of_not_holds (h : (s.lock k).holds a = false) :
    s.visitLock a k = { s with purge := { s.purge with pointer := k.val + 1 } } := by
  rw [State.visitLock, if_neg (ne_true_of_eq_false h)]
  rfl

/-- R138: at a lock that the subject holds, the hold goes, the grant step runs, and the hold is counted; neither of the
first two touches the Purge Engine. -/
theorem State.visitLock_of_holds (h : (s.lock k).holds a = true) :
    s.visitLock a k = { (s.sweepHold a k).grantAfterHold k with
      purge := { s.purge with pointer := k.val + 1, count := s.purge.count + 1 } } := by
  have hpurge : ((s.sweepHold a k).grantAfterHold k).purge = s.purge :=
    ((s.sweepHold_frame a k).trans (State.grantAfterHold_frame _ k)).purge
  rw [State.visitLock, if_pos h, State.setSweep, hpurge]

end

/-- Settles O41: the visit is made after the expiries before it, and the lock is held by the subject or passed over. -/
theorem sweepVisitRemoves : Obligations.SweepVisitRemoves := by
  intro s a k hstate ha hk u
  have hexec : exec .sweepVisit s = .next (u.visitLock a k) :=
    congrArg Host.Outcome.next (State.sweepVisit_of_sweeping hstate ha hk)
  have hpurge : u.purge = s.purge := s.settle_purge
  refine ⟨fun hfree => ?_, fun hholds => ?_⟩
  · rw [hexec, State.visitLock_of_not_holds hfree, hpurge]
  · rw [hexec, State.visitLock_of_holds hholds, hpurge]
    rfl

/-! ### SWEEP_END (R139) -/

/-- R139: the end of a sweep whose pointer is 64. The order of its parts does not show: an OFFLINE subject is posted
nothing, so the notice may be read as posted first and the two records as replaced after it. -/
theorem State.sweepEnd_of_done {s : State} {a : Agent} (hstate : s.purge.state = .sweeping)
    (ha : s.purge.subject = some a) (hp : s.purge.pointer = 64) :
    s.sweepEnd = (s.post Config.supervisor (.purgeDone a s.purge.count s.now)).overlay a
      { s.agent a with state := .offline } { s.purge with state := .idle, subject := none } := by
  have hposted : s.sweepEnd = (s.sweepClosed a).post Config.supervisor (.purgeDone a s.purge.count s.now) := by
    simp only [State.sweepEnd, hstate, ha, hp, if_true]
    rfl
  rw [hposted, State.sweepClosed, State.overlay_post (by simp)]

theorem State.overlay_agent (s : State) (a : Agent) (r : AgentRecord) (p : PurgeEngine) (b : Agent) :
    (s.overlay a r p).agent b = if b = a then r else s.agent b := s.setAgent_agent a b r

/-- Settles O42: the supervisor is told, and the subject's record and the Purge Engine are replaced. -/
theorem sweepEndReports : Obligations.SweepEndReports := by
  intro s a hstate ha hp hsup
  refine ⟨s.sweepEnd, rfl, ?_⟩
  rw [State.sweepEnd_of_done hstate ha hp]
  refine ⟨?_, ?_, fun b hb hne => ?_, rfl, rfl, State.post_locks .., State.post_requests .., State.post_du ..,
    State.post_port .., State.post_pending ..⟩
  · rw [State.overlay_agent, if_pos rfl]
  · rw [State.overlay_agent, if_neg hsup.symm]
    rfl
  · rw [State.overlay_agent, if_neg hne]
    exact s.post_agent_ne hb _

/-! ### The checks of PURGE (R135, Table 8-2) -/

section
variable {s : State} {arg0 : Word} {n : Agent}

theorem State.purgeCheck_badAgent (h : 7 < numberField arg0) : s.purgeCheck arg0 = .inl ⟨.badArgument, 5⟩ := by
  rw [State.purgeCheck, agentOf_of_gt h]
  rfl

theorem State.purgeCheck_supervisor (h : numberField arg0 = 0) : s.purgeCheck arg0 = .inl ⟨.badArgument, 7⟩ := by
  rw [State.purgeCheck, h]
  rfl

/-- R135: the checks of the Purge Engine, of an agent other than the supervisor. -/
theorem State.purgeCheck_sweeping (hn : numberField arg0 = n.val) (hsup : n ≠ 0) {b : Agent}
    (hstate : s.purge.state = .sweeping) (hb : s.purge.subject = some b) :
    s.purgeCheck arg0 = .inl ⟨.engineBusy, BitVec.ofNat 16 b.val⟩ := by
  have hother : (n == Config.supervisor) = false := beq_eq_false_iff_ne.mpr hsup
  simp only [State.purgeCheck, hn, agentOf_val, hother, Bool.false_eq_true, if_false, hstate, hb]
  rfl

/-- R135: the check of the agent, when the Purge Engine is IDLE. -/
theorem State.purgeCheck_idle (hn : numberField arg0 = n.val) (hsup : n ≠ 0) (hidle : s.purge.state = .idle) :
    s.purgeCheck arg0 = if (s.agent n).state ≠ .online then .inl ⟨.badArgument, 8⟩ else .inr n := by
  have hother : (n == Config.supervisor) = false := beq_eq_false_iff_ne.mpr hsup
  simp only [State.purgeCheck, hn, agentOf_val, hother, Bool.false_eq_true, if_false, hidle, bne_iff_ne]
  rfl

end

/-! ### PURGE (R135, R136) -/

section
variable {s : State}

theorem State.purgeTaken_of_refused {o : CmdOutcome} (h : s.purgeCheck (s.argsOf 0).arg0 = .inl o) :
    s.purgeTaken = (s, o) := by
  have hsup : Config.supervisor = 0 := rfl
  simp only [State.purgeTaken, hsup, h]

/-- R98, R136: past the checks, purge start comes after the expiries before it. -/
theorem State.purgeTaken_of_passed {n : Agent} (h : s.purgeCheck (s.argsOf 0).arg0 = .inr n) :
    s.purgeTaken = (s.settle.purgeStart n, outcomeNumber .started (s.settle.holdCount n)) := by
  have hsup : Config.supervisor = 0 := rfl
  simp only [State.purgeTaken, hsup, h]

/-- R136, step 3: an agent that does not wait has no request to remove. -/
theorem State.dropRequest_of_none {a : Agent} (h : s.request a = none) : s.dropRequest a = s := by
  simp only [State.dropRequest, h]

end

/-- Settles O36: the checks in order; past them, the pending request of the subject is dropped (`State.dropRequest`)
between the two changes of its record. -/
theorem purgeOutcomes : Obligations.PurgeOutcomes := by
  intro a w s htakes number refused
  obtain rfl : a = 0 := htakes.allowed rfl
  have hexec : exec (.purge 0 w) s = .next (s.purgeTaken.1.answers 0 w s.purgeTaken.2) := exec_row_taken htakes
  have refuse : ∀ {o}, s.purgeCheck (s.argsOf 0).arg0 = .inl o → refused o := fun h => by
    simp only [refused]
    rw [hexec, State.purgeTaken_of_refused h]
  refine ⟨fun hbad => ?_, fun hzero => ?_, fun n hn hsup => ⟨fun b hstate hb => ?_, fun hidle hoff => ?_,
    fun hidle honline => ?_⟩⟩
  · exact refuse (State.purgeCheck_badAgent hbad)
  · exact refuse (State.purgeCheck_supervisor hzero)
  · exact refuse (State.purgeCheck_sweeping hn hsup hstate hb)
  · exact refuse ((State.purgeCheck_idle hn hsup hidle).trans (if_pos hoff))
  · intro u p started
    have hcheck : s.purgeCheck (s.argsOf 0).arg0 = .inr n :=
      (State.purgeCheck_idle hn hsup hidle).trans (if_neg (not_not.mpr honline))
    have hstarted : started (p.dropRequest n) := by
      simp only [started]
      rw [hexec, State.purgeTaken_of_passed hcheck]
      rfl
    have hrequest : p.request n = u.request n := u.setAgent_request ..
    refine ⟨fun hnone => ?_, fun q hq => ?_⟩
    · rwa [State.dropRequest_of_none (hrequest.trans hnone)] at hstarted
    · intro left
      have hqueue : (p.lock q.lock).queue = (u.lock q.lock).queue := congrArg LockRecord.queue (u.setAgent_lock ..)
      rw [State.dropRequest_of_some (hrequest.trans hq)] at hstarted
      refine ⟨fun hhead => ?_, fun hbehind => ?_⟩
      · rwa [State.grantIf_of_head (hqueue ▸ hhead)] at hstarted
      · rwa [State.grantIf_of_behind (hqueue ▸ hbehind)] at hstarted

end Sys2Proof.Machine
end

section
/-! The row of an access: each access of the window is one command within its row, and has one effect whichever row of
the table spells it (R145, R146, Tables 10-1 and 10-2). -/

namespace Sys2Proof.Laws.AccessRoundTrip

/-- Settles O58: one lemma for each constructor of `Instr`. -/
theorem accessRoundTrip : Obligations.AccessRoundTrip := fun i =>
  match i with
  | .powerOnReset => powerOnReset
  | .powerOnResetRelease => powerOnResetRelease
  | .busReset => busReset
  | .busResetRelease => busResetRelease
  | .initializationComplete => initializationComplete
  | .tickAdvance => tickAdvance
  | .waitExpiry => waitExpiry
  | .leaseExpiry => leaseExpiry
  | .sweepVisit => sweepVisit
  | .sweepEnd => sweepEnd
  | .nop a w => nop a w
  | .acquire a w => acquire a w
  | .release a w => release a w
  | .upgrade a w => upgrade a w
  | .downgrade a w => downgrade a w
  | .cancel a w => cancel a w
  | .renew a w => renew a w
  | .setAgent a w => setAgent a w
  | .setLock a w => setLock a w
  | .forceRelease a w => forceRelease a w
  | .purge a w => purge a w
  | .setTime a w => setTime a w
  | .setDivider a w => setDivider a w
  | .resetTables a w => resetTables a w
  | .tryRead a l => tryRead a l
  | .tryWrite a l w => tryWrite a l w
  | .timeLowRead a => timeLowRead a
  | .pop a w => pop a w
  | .clearOverrun a w => clearOverrun a w
  | .errorStatusWrite a w => errorStatusWrite a w
  | .interruptEnableWrite a w => interruptEnableWrite a w
  | .registerWrite a off w => registerWrite a off w
  | .refusedRead a off => refusedRead a off

end Sys2Proof.Laws.AccessRoundTrip

namespace Sys2Proof.Machine

/-! ### The rows that can spell an access (log entry 5) -/

/-- A command that is an access is the row that the window map gives the access, or one of the four rows that can spell
an access of another row: POP and CLEAR_OVERRUN, REGISTER_WRITE, REFUSED_READ. -/
theorem eq_command_of_access {i : Instr} {b : BusAccess} (h : i.access = some b) :
    i = b.command ∨ (∃ a w, i = .pop a w ∨ i = .clearOverrun a w) ∨ (∃ a off w, i = .registerWrite a off w) ∨
      ∃ a off, i = .refusedRead a off := by
  by_cases hwf : i.wf = true
  · exact .inl (Laws.AccessRoundTrip.accessRoundTrip i hwf b h).symm
  · cases i
    case pop a w => exact .inr (.inl ⟨a, w, .inl rfl⟩)
    case clearOverrun a w => exact .inr (.inl ⟨a, w, .inr rfl⟩)
    case registerWrite a off w => exact .inr (.inr (.inl ⟨a, off, w, rfl⟩))
    case refusedRead a off => exact .inr (.inr (.inr ⟨a, off, rfl⟩))
    all_goals exact absurd rfl hwf

/-- The row that a write is acts as REGISTER_WRITE does at its offset. -/
theorem exec_writeRow (a : Agent) (off : WordOffset) (w : WriteData) (s : State) :
    exec (writeRow a off w) s = execRegisterWrite a off w s := by
  cases hk : windowWord off
  case command c =>
    simp only [writeRow, execRegisterWrite, hk, execCommand_eq]
    exact exec_row c a w s
  case noticeControl =>
    simp only [writeRow, execRegisterWrite, hk]
    split_ifs
    · rfl
    · rfl
    · show execRegisterWrite a off w s = _
      simp only [execRegisterWrite, hk]
  case tryWord | errorStatus | interruptEnable => simp only [writeRow, execRegisterWrite, hk]; rfl
  all_goals
    have hrow : writeRow a off w = .registerWrite a off w := by simp only [writeRow, hk]
    rw [hrow]
    rfl

/-- The row that a read is acts as REFUSED_READ does at its offset. -/
theorem exec_readRow (a : Agent) (off : WordOffset) (s : State) :
    exec (readRow a off) s = execRefusedRead a off s := by
  cases hk : windowWord off
  case tryWord | timeLow => simp only [readRow, execRefusedRead, hk]; rfl
  all_goals
    have hrow : readRow a off = .refusedRead a off := by simp only [readRow, hk]
    rw [hrow]
    rfl

/-- A write acts as REGISTER_WRITE does, whichever row spells it. -/
theorem exec_write {i : Instr} {a : Agent} {off : WordOffset} {w : WriteData}
    (h : i.access = some ⟨a, off, some w⟩) (s : State) : exec i s = execRegisterWrite a off w s := by
  obtain hi | ⟨_, _, rfl | rfl⟩ | ⟨_, _, _, rfl⟩ | ⟨_, _, rfl⟩ := eq_command_of_access h
  · exact (congrArg (exec · s) hi).trans (exec_writeRow a off w s)
  case inr.inr.inl => cases h; rfl
  case inr.inr.inr => cases h
  all_goals
    cases h
    obtain ⟨-, hcontrol, -⟩ := Laws.AccessRoundTrip.windowWord_named
    simp only [execRegisterWrite, hcontrol]
    rfl

/-- A read acts as REFUSED_READ does, whichever row spells it. -/
theorem exec_read {i : Instr} {a : Agent} {off : WordOffset} (h : i.access = some ⟨a, off, none⟩) (s : State) :
    exec i s = execRefusedRead a off s := by
  obtain hi | ⟨_, _, rfl | rfl⟩ | ⟨_, _, _, rfl⟩ | ⟨_, _, rfl⟩ := eq_command_of_access h
  · exact (congrArg (exec · s) hi).trans (exec_readRow a off s)
  all_goals cases h
  rfl

/-- The words that are no other row's are written by REGISTER_WRITE alone. -/
theorem eq_registerWrite_of_access {i : Instr} {a : Agent} {off : WordOffset} {w : WriteData}
    (h : i.access = some ⟨a, off, some w⟩) (hk : windowWord off = .arg0 ∨ windowWord off = .arg1) :
    i = .registerWrite a off w := by
  obtain hi | ⟨_, _, rfl | rfl⟩ | ⟨_, _, _, rfl⟩ | ⟨_, _, rfl⟩ := eq_command_of_access h
  · have hrow : writeRow a off w = .registerWrite a off w := by
      rcases hk with hk | hk <;> simp only [writeRow, hk]
    exact hi.trans hrow
  case inr.inr.inl => cases h; rfl
  case inr.inr.inr => cases h
  all_goals
    cases h
    obtain ⟨-, hcontrol, -⟩ := Laws.AccessRoundTrip.windowWord_named
    rcases hk with hk | hk <;> cases hcontrol.symm.trans hk

end Sys2Proof.Machine
end

section
/-! What a command leaves of the queue of commands, the argument words and the latest bus answer (R148, R162): the
events and the owners' parts of the commands all three, an access all but its own answer and argument word. -/

namespace Sys2Proof.Machine

/-- The commands that wait, the argument words and the latest bus answer are the same in both states. -/
structure State.BusKept (s t : State) : Prop where
  pending : t.pending = s.pending
  args : t.port.args = s.port.args
  response : t.port.response = s.port.response

namespace State.BusKept

variable {s t u : State}

theorem refl (s : State) : s.BusKept s := ⟨rfl, rfl, rfl⟩

theorem trans (h : s.BusKept t) (g : t.BusKept u) : s.BusKept u :=
  ⟨g.pending.trans h.pending, g.args.trans h.args, g.response.trans h.response⟩

theorem of_port (hpending : t.pending = s.pending) (hport : t.port = s.port) : s.BusKept t :=
  ⟨hpending, congrArg BusPort.args hport, congrArg BusPort.response hport⟩

theorem of_engine (f : s.EngineFrame t) : s.BusKept t := of_port f.pending f.port

theorem of_settle (f : s.SettleFrame t) : s.BusKept t := of_port f.pending f.port

theorem settle (s : State) : s.BusKept s.settle := of_settle s.settle_frame

theorem catchUp (s : State) : s.BusKept s.catchUp := of_settle s.catchUp_frame.1

theorem giveUp (s : State) (a : Agent) (l : LockNum) : s.BusKept (s.giveUp a l) := of_engine (s.giveUp_frame a l)

theorem recordError (s : State) (a : Agent) (k : ErrorKind) : s.BusKept (s.recordError a k) := ⟨rfl, rfl, rfl⟩

/-! ### The owners' parts of the commands -/

theorem acquireTaken (s : State) (a : Agent) : s.BusKept (s.acquireTaken a).1 := by
  rcases s.acquireTaken_cases a with e | ⟨l, m, d, e, -, -, heq⟩ | ⟨l, m, t, d, e, -, -, -, heq⟩
  · rw [e]; exact settle s
  · rw [heq]; exact (settle s).trans (of_engine (State.grantNow_frame ..))
  · rw [heq]; exact (settle s).trans ⟨rfl, rfl, rfl⟩

theorem releaseTaken (s : State) (a : Agent) : s.BusKept (s.releaseTaken a).1 := by
  unfold State.releaseTaken
  simp only
  split
  · exact settle s
  · exact (settle s).trans (giveUp _ a _)

theorem upgradeTaken (s : State) (a : Agent) : s.BusKept (s.upgradeTaken a).1 := by
  rcases s.upgradeTaken_cases a with e | ⟨l, -, -, heq⟩ | ⟨l, t, e, -, -, -, heq⟩
  · rw [e]; exact settle s
  · rw [heq]; exact (settle s).trans ⟨rfl, rfl, rfl⟩
  · rw [heq]; exact (settle s).trans ⟨rfl, rfl, rfl⟩

theorem downgradeTaken (s : State) (a : Agent) : s.BusKept (s.downgradeTaken a).1 := by
  unfold State.downgradeTaken
  simp only
  split
  · exact settle s
  · exact (settle s).trans (of_engine ((State.setLock_frame ..).trans (State.grantStep_frame ..)))

theorem cancelTaken (s : State) (a : Agent) : s.BusKept (s.cancelTaken a).1 := by
  unfold State.cancelTaken
  simp only
  split
  · exact settle s
  · split
    · exact settle s
    · exact (settle s).trans (of_engine (State.dropRequest_frame _ a))

theorem renewTaken (s : State) (a : Agent) : s.BusKept (s.renewTaken a).1 := by
  unfold State.renewTaken
  simp only
  split
  · exact settle s
  · exact (settle s).trans ⟨rfl, rfl, rfl⟩

theorem setAgentTaken (s : State) : s.BusKept s.setAgentTaken.1 := by
  unfold State.setAgentTaken
  simp only
  split <;> exact ⟨rfl, rfl, rfl⟩

theorem setLockTaken (s : State) : s.BusKept s.setLockTaken.1 := by
  unfold State.setLockTaken
  simp only
  split
  · exact settle s
  · split
    · exact settle s
    · exact (settle s).trans (of_engine (State.setLock_frame ..))

theorem forceReleaseTaken (s : State) : s.BusKept s.forceReleaseTaken.1 := by
  unfold State.forceReleaseTaken
  simp only
  split
  · exact settle s
  · split
    · exact (settle s).trans (of_engine (State.setLock_frame ..))
    · exact (settle s).trans (of_engine (State.forceHeld_frame ..))

theorem purgeTaken (s : State) : s.BusKept s.purgeTaken.1 := by
  unfold State.purgeTaken
  split
  · exact refl s
  · next a _ =>
    have hgone : s.BusKept (s.settle.dequeue a) := (settle s).trans (of_engine (State.dequeue_frame _ a))
    have hbegun : s.BusKept (s.settle.purgeBegun a) := hgone.trans ⟨rfl, rfl, rfl⟩
    exact State.purgeStart_induct (P := fun t => s.BusKept t) hbegun
      fun q _ => hbegun.trans (of_engine (State.grantStep_frame _ q.lock))

theorem setDividerTaken (s : State) : s.BusKept s.setDividerTaken.1 := by
  unfold State.setDividerTaken
  simp only
  split <;> exact ⟨rfl, rfl, rfl⟩

/-- No owner's part of a command touches the queue, an argument word or the answer lines. -/
theorem taken (s : State) (c : Command) (a : Agent) : s.BusKept (c.taken a s).1 :=
  match c with
  | .nop => refl s
  | .acquire => acquireTaken s a
  | .release => releaseTaken s a
  | .upgrade => upgradeTaken s a
  | .downgrade => downgradeTaken s a
  | .cancel => cancelTaken s a
  | .renew => renewTaken s a
  | .setAgent => setAgentTaken s
  | .setLock => setLockTaken s
  | .forceRelease => forceReleaseTaken s
  | .purge => purgeTaken s
  | .setTime => (settle s).trans ⟨rfl, rfl, rfl⟩
  | .setDivider => setDividerTaken s
  | .resetTables => ⟨rfl, rfl, rfl⟩

theorem takeCommand (s : State) (c : Command) (a : Agent) (tag : BitVec 8) :
    s.BusKept (s.takeCommand c a tag (c.taken a)) := by
  unfold State.takeCommand
  split
  · exact ⟨rfl, rfl, rfl⟩
  · split
    · exact ⟨rfl, rfl, rfl⟩
    · exact (taken s c a).trans ⟨rfl, rfl, rfl⟩

/-! ### The events -/

theorem tickTaken (s : State) : s.BusKept s.tickTaken :=
  State.tickTaken_induct (P := fun t => s.BusKept t) (fun t e h => h.trans (of_engine (t.expiryOf_frame e)))
    (fun _ _ h => h.trans ⟨rfl, rfl, rfl⟩) (refl s)

theorem takeExpiry (s : State) : s.BusKept s.takeExpiry := of_engine s.takeExpiry_frame

theorem visitLock (s : State) (a : Agent) (k : LockNum) : s.BusKept (s.visitLock a k) := by
  unfold State.visitLock
  split
  · exact (of_engine ((s.sweepHold_frame a k).trans (State.grantAfterHold_frame _ k))).trans ⟨rfl, rfl, rfl⟩
  · exact ⟨rfl, rfl, rfl⟩

theorem sweepVisit (s : State) : s.BusKept s.sweepVisit := by
  rcases s.sweepVisit_cases with e | ⟨a, k, -, -, -, e⟩ <;> rw [e]
  · exact refl s
  · exact (settle s).trans (visitLock _ a k)

theorem sweepEnd (s : State) : s.BusKept s.sweepEnd := by
  rcases s.sweepEnd_cases with e | ⟨a, -, -, -, e⟩ <;> rw [e]
  · exact refl s
  · have hclosed : s.BusKept (s.sweepClosed a) := ⟨rfl, rfl, rfl⟩
    exact hclosed.trans (of_engine (State.post_frame ..))

theorem counted (s : State) : s.BusKept s.counted := by
  unfold State.counted State.countInitialization
  split
  · split <;> exact ⟨rfl, rfl, rfl⟩
  · exact ⟨rfl, rfl, rfl⟩

theorem ownEvent (s : State) : s.BusKept s.ownEvent := by
  unfold State.ownEvent
  split
  · exact takeExpiry s
  · split
    · exact sweepEnd s
    · exact sweepVisit s

/-- A bus clock period with no command waiting touches none of the three (log entry 6). -/
theorem busClock (s : State) : s.BusKept s.busClock := by
  unfold State.busClock
  split
  · exact refl s
  · exact ((counted s).trans (ownEvent _)).trans (catchUp _)

/-- The events but the assertions of the two reset inputs. -/
theorem event {i : Instr} (h : i.access = none) (hpower : i ≠ .powerOnReset) (hbus : i ≠ .busReset) (s : State) :
    ∃ t, exec i s = .next t ∧ s.BusKept t := by
  cases i
  case powerOnReset => exact absurd rfl hpower
  case busReset => exact absurd rfl hbus
  case powerOnResetRelease =>
    simp only [exec, execPowerOnResetRelease]
    split
    · refine ⟨_, rfl, ?_⟩
      split <;> exact ⟨rfl, rfl, rfl⟩
    · exact ⟨s, rfl, refl s⟩
  case busResetRelease =>
    simp only [exec, execBusResetRelease]
    split
    · refine ⟨_, rfl, ?_⟩
      split <;> exact ⟨rfl, rfl, rfl⟩
    · exact ⟨s, rfl, refl s⟩
  case initializationComplete =>
    simp only [exec, execInitializationComplete]
    split
    · have hready : s.BusKept { s with port := { s.port with state := .ready } } := ⟨rfl, rfl, rfl⟩
      exact ⟨_, rfl, hready.trans (catchUp _)⟩
    · exact ⟨s, rfl, refl s⟩
  case tickAdvance => exact ⟨_, rfl, tickTaken s⟩
  case waitExpiry | leaseExpiry =>
    refine ⟨_, rfl, ?_⟩
    split
    · exact (takeExpiry s).trans (catchUp _)
    · exact refl s
  case sweepVisit => exact ⟨_, rfl, sweepVisit s⟩
  case sweepEnd => exact ⟨_, rfl, sweepEnd s⟩
  all_goals cases h

end State.BusKept

/-- R155: BUS_RESET, with its two cases in one state. -/
theorem exec_busReset (s : State) : exec .busReset s =
    .next (if s.port.powerOnReset then { s with port := { s.port with busReset := true } } else s.busResetAsserted) :=
  rfl

/-- An event, the assertions of the reset inputs among them, touches neither the queue nor the answer lines. -/
theorem exec_event {i : Instr} (h : i.access = none) (s : State) :
    ∃ t, exec i s = .next t ∧ t.pending = s.pending ∧ t.port.response = s.port.response := by
  by_cases hpower : i = .powerOnReset
  · exact ⟨s.powerOnAsserted, hpower ▸ rfl, rfl, rfl⟩
  · by_cases hbus : i = .busReset
    · refine ⟨_, hbus ▸ exec_busReset s, ?_⟩
      split <;> exact ⟨rfl, rfl⟩
    · obtain ⟨t, ht, hkept⟩ := State.BusKept.event h hpower hbus s
      exact ⟨t, ht, hkept.pending, hkept.response⟩

/-! ### A write (R146, R147) -/

/-- A write of the word `k` has been answered: the queue and every argument word are the same, ARG0 and ARG1 written
aside. -/
structure State.WriteAnswered (k : WindowWord) (s t : State) : Prop where
  pending : t.pending = s.pending
  args : k ≠ .arg0 → k ≠ .arg1 → t.port.args = s.port.args
  answer : ∃ c, t.port.response = .write c

namespace State.WriteAnswered

variable {k : WindowWord} {s : State}

theorem of_kept {u : State} (h : s.BusKept u) (c : BusAnswer) : s.WriteAnswered k (u.answerWrite c) :=
  ⟨h.pending, fun _ _ => h.args, c, rfl⟩

theorem setArgs (hk : k = .arg0 ∨ k = .arg1) (a : Agent) (x : ArgWords) (c : BusAnswer) :
    s.WriteAnswered k ((s.setArgs a x).answerWrite c) :=
  ⟨rfl, fun h0 h1 => absurd hk (not_or.mpr ⟨h0, h1⟩), c, rfl⟩

theorem writeRefused (s : State) (a : Agent) (e : ErrorKind) : s.WriteAnswered k (s.writeRefused a e) := by
  unfold State.writeRefused
  split
  · exact of_kept (.recordError s a e) _
  · exact of_kept (.refl s) _

theorem writeAccess {take : State → State} (h : s.WriteAnswered k (take s)) (a : Agent) (w : WriteData) :
    s.WriteAnswered k (s.writeAccess a w take) := by
  unfold State.writeAccess
  split
  · split
    · exact h
    · exact of_kept (.recordError s a .parity) _
  · exact of_kept (.refl s) _

theorem tryWriteTaken (s : State) (a : Agent) (l : LockNum) : s.WriteAnswered k (s.tryWriteTaken a l) := by
  unfold State.tryWriteTaken
  simp only
  split
  · exact of_kept ((BusKept.settle s).trans (.recordError ..)) _
  · exact of_kept ((BusKept.settle s).trans (.giveUp _ a l)) _

end State.WriteAnswered

theorem WindowWord.eq_unmapped_of_noWord {k : WindowWord} (h : k.direction = .noWord) : k = .unmapped := by
  cases k
  case unmapped => rfl
  all_goals cases h

/-- R146, check 1: a write to an offset that holds no word. -/
theorem execRegisterWrite_unmapped {off : WordOffset} (h : windowWord off = .unmapped) (a : Agent) (w : WriteData)
    (s : State) : execRegisterWrite a off w s = .next (s.writeRefused a .badOffset) := by
  simp only [execRegisterWrite, h]

/-- R146, check 2: a write to a read-only word. -/
theorem execRegisterWrite_readOnly {off : WordOffset} (h : (windowWord off).direction = .readOnly) (a : Agent)
    (w : WriteData) (s : State) : execRegisterWrite a off w s = .next (s.writeRefused a .readOnly) := by
  unfold execRegisterWrite
  generalize windowWord off = k at h ⊢
  cases k
  case lockView | agentView | heldMapLow | heldMapHigh | timeLow | timeHigh | result | noticeHead | noticeTime
    | identification => rfl
  all_goals cases h

/-- R146, R147: a write to a word that takes writes meets the parity check, and is then answered as its word gives. -/
theorem execRegisterWrite_writable {off : WordOffset}
    (h : (windowWord off).direction = .readWrite ∨ (windowWord off).direction = .writeOnly) (a : Agent)
    (w : WriteData) (s : State) :
    ∃ take, execRegisterWrite a off w s = .next (s.writeAccess a w take) ∧
      s.WriteAnswered (windowWord off) (take s) := by
  unfold execRegisterWrite
  generalize windowWord off = k at h ⊢
  cases k
  case arg0 => exact ⟨_, rfl, .setArgs (.inl rfl) ..⟩
  case arg1 => exact ⟨_, rfl, .setArgs (.inr rfl) ..⟩
  case command c => exact ⟨_, execCommand_eq c a w s, .of_kept (.takeCommand ..) _⟩
  case tryWord l => exact ⟨_, rfl, .tryWriteTaken s a l⟩
  case noticeControl | errorStatus | interruptEnable => exact ⟨_, rfl, rfl, fun _ _ => rfl, .ok, rfl⟩
  all_goals cases h <;> contradiction

/-- R146: a write of any word is answered. -/
theorem execRegisterWrite_answered (a : Agent) (off : WordOffset) (w : WriteData) (s : State) :
    ∃ t, execRegisterWrite a off w s = .next t ∧ s.WriteAnswered (windowWord off) t := by
  have writable (h : (windowWord off).direction = .readWrite ∨ (windowWord off).direction = .writeOnly) :
      ∃ t, execRegisterWrite a off w s = .next t ∧ s.WriteAnswered (windowWord off) t := by
    obtain ⟨take, hexec, htaken⟩ := execRegisterWrite_writable h a w s
    exact ⟨_, hexec, htaken.writeAccess a w⟩
  cases hd : (windowWord off).direction
  case noWord => exact ⟨_, execRegisterWrite_unmapped (WindowWord.eq_unmapped_of_noWord hd) a w s, .writeRefused ..⟩
  case readOnly => exact ⟨_, execRegisterWrite_readOnly hd a w s, .writeRefused ..⟩
  case readWrite => exact writable (.inl hd)
  case writeOnly => exact writable (.inr hd)

/-- R154, R155: not READY, a write of any word is answered RETRY and has no effect. -/
theorem execRegisterWrite_notReady {s : State} (h : s.ready = false) (a : Agent) (off : WordOffset) (w : WriteData) :
    execRegisterWrite a off w s = .next (s.respond (.write .retry)) := by
  have refused (k : ErrorKind) : s.writeRefused a k = s.respond (.write .retry) := if_neg (ne_true_of_eq_false h)
  have writable (hw : (windowWord off).direction = .readWrite ∨ (windowWord off).direction = .writeOnly) :
      execRegisterWrite a off w s = .next (s.respond (.write .retry)) := by
    obtain ⟨take, hexec, -⟩ := execRegisterWrite_writable hw a w s
    rw [hexec, State.writeAccess_notReady h]
    rfl
  cases hd : (windowWord off).direction
  case noWord => rw [execRegisterWrite_unmapped (WindowWord.eq_unmapped_of_noWord hd), refused]
  case readOnly => rw [execRegisterWrite_readOnly hd, refused]
  case readWrite => exact writable (.inl hd)
  case writeOnly => exact writable (.inr hd)

/-! ### A read (R146, R147) -/

/-- A read has been answered, with correct parity: the queue and every argument word are the same. -/
structure State.ReadAnswered (s t : State) : Prop where
  pending : t.pending = s.pending
  args : t.port.args = s.port.args
  answer : ∃ c d, t.port.response = .read c d (evenParity d)

namespace State.ReadAnswered

variable {s : State}

theorem of_kept {u : State} (h : s.BusKept u) (c : BusAnswer) (d : Word) : s.ReadAnswered (u.answerRead c d) :=
  ⟨h.pending, h.args, c, d, rfl⟩

theorem readAccess {take : State → State} (h : s.ReadAnswered (take s)) : s.ReadAnswered (s.readAccess take) := by
  unfold State.readAccess
  split
  · exact h
  · exact of_kept (.refl s) _ _

theorem tryReadTaken (s : State) (a : Agent) (l : LockNum) : s.ReadAnswered (s.tryReadTaken a l) := by
  unfold State.tryReadTaken
  simp only
  split
  · exact of_kept (.settle s) _ _
  · exact of_kept ((BusKept.settle s).trans (.of_engine (State.grantNow_frame ..))) _ _

end State.ReadAnswered

/-- R158: a read of an identification word, whatever the port state. -/
theorem execRefusedRead_identification {off : WordOffset} {k : Fin 4} (h : windowWord off = .identification k)
    (a : Agent) (s : State) : execRefusedRead a off s =
      .next (if s.inReset then s.answerRead .retry 0 else s.answerRead .ok (Config.identification k)) := by
  simp only [execRefusedRead, h]

/-- R146, check 1: a read of an offset that holds no word. -/
theorem execRefusedRead_unmapped {off : WordOffset} (h : windowWord off = .unmapped) (a : Agent) (s : State) :
    execRefusedRead a off s = .next (s.readAccess fun t => t.refuseRead a .badOffset) := by
  simp only [execRefusedRead, h]

/-- R146, check 3: a read of a write-only word. -/
theorem execRefusedRead_writeOnly {off : WordOffset} (h : (windowWord off).direction = .writeOnly) (a : Agent)
    (s : State) : execRefusedRead a off s = .next (s.readAccess fun t => t.refuseRead a .writeOnly) := by
  unfold execRefusedRead
  generalize windowWord off = k at h ⊢
  cases k
  case command | noticeControl => rfl
  all_goals cases h

/-- R146, R154: a read of any other word waits for READY, and is then answered as its word gives. -/
theorem execRefusedRead_readAccess {off : WordOffset} (h : ∀ k, windowWord off ≠ .identification k) (a : Agent)
    (s : State) : ∃ take, execRefusedRead a off s = .next (s.readAccess take) ∧ s.ReadAnswered (take s) := by
  unfold execRefusedRead
  generalize windowWord off = k at h ⊢
  cases k
  case identification k => exact absurd rfl (h k)
  case tryWord l => exact ⟨_, rfl, .tryReadTaken s a l⟩
  case timeLow => exact ⟨_, rfl, rfl, rfl, .ok, _, rfl⟩
  case unmapped | command | noticeControl => exact ⟨_, rfl, .of_kept (.recordError ..) ..⟩
  all_goals exact ⟨_, rfl, .of_kept (.refl s) ..⟩

/-- R146, R158: a read of any word is answered. -/
theorem execRefusedRead_answered (a : Agent) (off : WordOffset) (s : State) :
    ∃ t, execRefusedRead a off s = .next t ∧ s.ReadAnswered t := by
  by_cases h : ∃ k, windowWord off = .identification k
  · obtain ⟨k, hk⟩ := h
    refine ⟨_, execRefusedRead_identification hk a s, ?_⟩
    split <;> exact .of_kept (.refl s) ..
  · obtain ⟨take, hexec, htaken⟩ := execRefusedRead_readAccess (fun k hk => h ⟨k, hk⟩) a s
    exact ⟨_, hexec, htaken.readAccess⟩

/-! ### Every command -/

/-- Every access is answered, and leaves the queue as it was. -/
theorem exec_access {i : Instr} {b : BusAccess} (h : i.access = some b) (s : State) :
    ∃ t, exec i s = .next t ∧ t.pending = s.pending ∧
      ((∃ c, t.port.response = .write c) ∨ ∃ c d, t.port.response = .read c d (evenParity d)) := by
  obtain ⟨a, off, _ | w⟩ := b
  · obtain ⟨t, ht, hanswered⟩ := execRefusedRead_answered a off s
    exact ⟨t, (exec_read h s).trans ht, hanswered.pending, .inr hanswered.answer⟩
  · obtain ⟨t, ht, hanswered⟩ := execRegisterWrite_answered a off w s
    exact ⟨t, (exec_write h s).trans ht, hanswered.pending, .inl hanswered.answer⟩

/-- Settles O3: an event or an access. -/
theorem execAnswersNext : Obligations.ExecAnswersNext := by
  intro i s
  cases h : i.access with
  | none =>
    obtain ⟨t, ht, hpending, -⟩ := exec_event h s
    exact ⟨t, ht, hpending⟩
  | some b =>
    obtain ⟨t, ht, hpending, -⟩ := exec_access h s
    exact ⟨t, ht, hpending⟩

end Sys2Proof.Machine
end

section
/-! The answers of the Bus Port (R145 to R148, R154, R155, R158, R162): accesses refused, not READY, or of bad parity;
the identification words and the argument words; and the signals. -/

namespace Sys2Proof.Machine

/-! ### Refused and not READY (R146, R154, R155) -/

/-- R147: a read answered with data 0 drives its parity lines 0. -/
theorem State.answerRead_zero (s : State) (b : BusAnswer) : s.answerRead b 0 = s.respond (.read b 0 0) :=
  congrArg (fun p => s.respond (.read b 0 p)) evenParity_zero

/-- Settles O15: the three checks that stand before the parity of a write. -/
theorem refusedAccesses : Obligations.RefusedAccesses := by
  intro a off w s hready
  have writes (k : ErrorKind) := State.writeRefused_of_ready hready a k
  have reads (k : ErrorKind) : s.readAccess (fun t => t.refuseRead a k) = s.errs a k (.read .error 0 0) := by
    rw [State.readAccess_taken hready, State.refuseRead, State.answerRead_zero]
    rfl
  refine ⟨fun hk => ⟨?_, ?_⟩, fun hk => ?_, fun hk => ?_⟩
  · exact (execRegisterWrite_unmapped hk a w s).trans (congrArg _ (writes _))
  · exact (execRefusedRead_unmapped hk a s).trans (congrArg _ (reads _))
  · exact (execRegisterWrite_readOnly hk a w s).trans (congrArg _ (writes _))
  · exact (execRefusedRead_writeOnly hk a s).trans (congrArg _ (reads _))

/-- R154, R155: not READY, a read is answered RETRY with data 0, one of an identification word in INITIALIZING aside. -/
theorem execRefusedRead_notReady {s : State} (h : s.ready = false) {off : WordOffset}
    (hoff : s.inReset = true ∨ ∀ k, windowWord off ≠ .identification k) (a : Agent) :
    execRefusedRead a off s = .next (s.respond (.read .retry 0 0)) := by
  by_cases hk : ∀ k, windowWord off ≠ .identification k
  · obtain ⟨take, hexec, -⟩ := execRefusedRead_readAccess hk a s
    rw [hexec, State.readAccess_retry h]
  · obtain ⟨k, hk'⟩ := not_forall_not.mp hk
    rw [execRefusedRead_identification hk', if_pos (hoff.resolve_right hk), State.answerRead_zero]

/-- Settles O10: a write, or a read that is not of an identification word in INITIALIZING. -/
theorem notReadyAnswersRetry : Obligations.NotReadyAnswersRetry := by
  rintro i ⟨a, off, _ | w⟩ s haccess hready hoff
  · exact (exec_read haccess s).trans
      (execRefusedRead_notReady hready (hoff.imp_right fun h => h.resolve_left fun hw => hw rfl) a)
  · exact (exec_write haccess s).trans (execRegisterWrite_notReady hready a off w)

/-! ### The identification words (R158) -/

theorem windowWord_identification (k : Fin 4) : windowWord (BitVec.ofNat 8 (0xFC + k.val)) = .identification k := by
  fin_cases k <;> decide +kernel

/-- Settles O11: a read depends on the reset inputs alone, and a write is one to a read-only word. -/
theorem identificationWords : Obligations.IdentificationWords := by
  intro s a k w off value
  have hoff : windowWord off = .identification k := windowWord_identification k
  have hvalue : Config.identification k = value := by fin_cases k <;> rfl
  have hread : exec (.refusedRead a off) s = _ := execRefusedRead_identification hoff a s
  have hwrite : exec (.registerWrite a off w) s = _ := execRegisterWrite_readOnly (by rw [hoff]; rfl) a w s
  refine ⟨fun hinput => ?_, fun hinput => ?_, fun hready => ?_, fun hready => ?_⟩
  · rw [hread, hinput, hvalue]
    rfl
  · rw [hread, if_pos hinput, State.answerRead_zero]
  · rw [hwrite, State.writeRefused_of_ready hready]
  · exact execRegisterWrite_notReady hready a off w

/-! ### Parity (R147) -/

/-- R147: the parity line of a byte is right when the byte with its line holds an even number of ones. -/
theorem evenParityBit_iff (b : BitVec 8) (line : Bool) :
    line = evenParityBit b ↔ (onesOf b + line.toNat) % 2 = 0 := by
  unfold evenParityBit
  cases line
  · rw [eq_comm, beq_eq_false_iff_ne, Bool.toNat_false]
    omega
  · rw [eq_comm, beq_iff_eq, Bool.toNat_true]
    omega

theorem WriteData.parityGood_iff (w : WriteData) : w.parityGood = true ↔
    ∀ k : Fin 4, (onesOf (byteOf w.data k.val) + (w.parity.getLsbD k.val).toNat) % 2 = 0 := by
  have hlines : w.parity = evenParity w.data ↔
      ∀ k : Fin 4, w.parity.getLsbD k.val = evenParityBit (byteOf w.data k.val) := by
    simp only [← evenParity_line]
    exact ⟨fun h _ => by rw [h], fun h => BitVec.eq_of_getLsbD_eq fun i hi => h ⟨i, hi⟩⟩
  rw [WriteData.parityGood, beq_iff_eq, hlines]
  exact forall_congr' fun k => evenParityBit_iff ..

/-- Settles O12: the parity check of a write stands between READY and its word; each read is answered with the parity
of its data. -/
theorem parityOfWritesAndReads : Obligations.ParityOfWritesAndReads := by
  refine ⟨WriteData.parityGood_iff, fun d => beq_self_eq_true _, ?_⟩
  rintro i ⟨a, off, write⟩ s haccess
  refine ⟨?_, ?_⟩
  · rintro w rfl
    refine ⟨fun hready hword hbad => ?_, fun hready => ?_⟩
    · obtain ⟨take, hexec, -⟩ := execRegisterWrite_writable hword a w s
      rw [exec_write haccess, hexec, State.writeAccess_badParity hready hbad]
      rfl
    · exact (exec_write haccess s).trans (execRegisterWrite_notReady hready a off w)
  · rintro rfl
    obtain ⟨t, ht, hanswered⟩ := execRefusedRead_answered a off s
    obtain ⟨c, d, hresponse⟩ := hanswered.answer
    exact ⟨t, c, d, (exec_read haccess s).trans ht, hresponse⟩

/-! ### The argument words (R148) -/

theorem windowWord_args : windowWord 0xA0 = .arg0 ∧ windowWord 0xA1 = .arg1 := by decide +kernel

/-- R148: a command other than POWER_ON_RESET, BUS_RESET and a write of ARG0 or ARG1 leaves every argument word. -/
theorem exec_args {i : Instr} (hpower : i ≠ .powerOnReset) (hbus : i ≠ .busReset)
    (hi : ∀ a off w, i = .registerWrite a off w → windowWord off ≠ .arg0 ∧ windowWord off ≠ .arg1) {s t : State}
    (ht : exec i s = .next t) : t.port.args = s.port.args := by
  cases haccess : i.access with
  | none =>
    obtain ⟨u, hu, hkept⟩ := State.BusKept.event haccess hpower hbus s
    cases hu.symm.trans ht
    exact hkept.args
  | some b =>
    obtain ⟨a, off, _ | w⟩ := b
    · obtain ⟨u, hu, hanswered⟩ := execRefusedRead_answered a off s
      cases ((exec_read haccess s).trans hu).symm.trans ht
      exact hanswered.args
    · obtain ⟨u, hu, hanswered⟩ := execRegisterWrite_answered a off w s
      cases ((exec_write haccess s).trans hu).symm.trans ht
      refine hanswered.args (fun h0 => ?_) fun h1 => ?_
      · exact (hi a off w (eq_registerWrite_of_access haccess (.inl h0))).1 h0
      · exact (hi a off w (eq_registerWrite_of_access haccess (.inr h1))).2 h1

/-- Settles O19: the two words at their offsets, the two resets, and every other command. -/
theorem argumentWords : Obligations.ArgumentWords := by
  obtain ⟨hword0, hword1⟩ := windowWord_args
  refine ⟨fun a w s hready => ?_, fun s t a ht => ?_, fun s t a hinput ht => ?_, fun i s t hpower hbus hi ht b => ?_⟩
  · have hwrite0 : exec (.registerWrite a 0xA0 w) s = .next (s.writeAccess a w fun t =>
        (t.setArgs a { t.argsOf a with arg0 := w.data }).answerWrite .ok) := by
      show execRegisterWrite a 0xA0 w s = _
      simp only [execRegisterWrite, hword0]
    have hwrite1 : exec (.registerWrite a 0xA1 w) s = .next (s.writeAccess a w fun t =>
        (t.setArgs a { t.argsOf a with arg1 := w.data }).answerWrite .ok) := by
      show execRegisterWrite a 0xA1 w s = _
      simp only [execRegisterWrite, hword1]
    have hread (word : State → Word) := congrArg (Host.Outcome.next (φ := Fault) (ρ := Refusal))
      (State.readAccess_word hready word)
    refine ⟨fun hgood => ?_, fun hbad => ?_, ?_, ?_⟩
    · rw [hwrite0, hwrite1, State.writeAccess_taken hready hgood, State.writeAccess_taken hready hgood]
      exact ⟨rfl, rfl⟩
    · rw [hwrite0, hwrite1, State.writeAccess_badParity hready hbad, State.writeAccess_badParity hready hbad]
      exact ⟨rfl, rfl⟩
    · rw [← hread fun t => (t.argsOf a).arg0]
      show execRefusedRead a 0xA0 s = _
      simp only [execRefusedRead, hword0]
    · rw [← hread fun t => (t.argsOf a).arg1]
      show execRefusedRead a 0xA1 s = _
      simp only [execRefusedRead, hword1]
  · cases ht
    exact State.reset_argsOf a
  · rw [exec_busReset, hinput] at ht
    cases ht
    exact State.reset_argsOf a
  · exact congrArg (Vector.get · b) (exec_args hpower hbus hi ht)

/-! ### The signals (R145, R162) -/

/-- R162: the answer lines of a step that takes an access: 00, and then the answer. -/
theorem State.answerLevels_of_access {i : Instr} {b : BusAccess} (h : i.access = some b) {rest : List Instr}
    {s t : State} (ht : step { s with pending := i :: rest } = .next t) :
    State.answerLevels { s with pending := i :: rest } = [0, t.answerLines] := by
  have hawaits : State.awaitsAnswer { s with pending := i :: rest } = true := congrArg Option.isSome h
  simp only [State.answerLevels, ht, hawaits, if_true]

/-- R162: the answer lines of a step that takes no access: the level that stands. -/
theorem State.answerLevels_of_none {s t : State} (h : s.awaitsAnswer = false) (ht : step s = .next t) :
    s.answerLevels = [t.answerLines] := by
  simp only [State.answerLevels, ht, h, Bool.false_eq_true, if_false]

/-- A step that takes no access, a bus clock period among them, leaves the latest bus answer. -/
theorem step_response {s : State} (h : ∀ i, s.pending.head? = some i → i.access = none) :
    ∃ t, step s = .next t ∧ t.port.response = s.port.response := by
  cases hpending : s.pending with
  | nil => exact ⟨_, step_of_idle_queue hpending, (State.BusKept.busClock s).response⟩
  | cons i rest =>
    obtain ⟨t, ht, -, hresponse⟩ := exec_event (h i (by rw [hpending]; rfl)) { s with pending := rest }
    refine ⟨t, ?_, hresponse⟩
    rw [step, hpending]
    exact ht

theorem State.awaitsAnswer_of_none {s : State} (h : ∀ i, s.pending.head? = some i → i.access = none) :
    s.awaitsAnswer = false := by
  unfold State.awaitsAnswer
  cases hhead : s.pending.head? with
  | none => rfl
  | some i => exact congrArg Option.isSome (h i hhead)

/-- Settles O60: the codes, the answer lines of each kind of step, the lines that are active low, and the access that
the input lines spell. -/
theorem signalLevels : Obligations.SignalLevels := by
  refine ⟨⟨rfl, rfl, rfl⟩, fun i b rest s haccess => ?_, fun s h => ?_, fun s n => by simp [State.interruptLevel],
    fun p => by simp [BusPort.porstLevel, BusPort.brstLevel], fun a mid d dp wr => ⟨rfl, fun n hn => ?_⟩⟩
  · intro u
    obtain ⟨t, ht, -, hanswer⟩ := exec_access haccess { s with pending := rest }
    have hstep : step u = .next t := ht
    have hlevels : u.answerLevels = [0, t.answerLines] := State.answerLevels_of_access haccess hstep
    obtain ⟨c, hresponse, hlines⟩ : ∃ c, (t.port.response = .write c ∨
        ∃ d, t.port.response = .read c d (evenParity d)) ∧ t.answerLines = c.code := by
      obtain ⟨c, hc⟩ | ⟨c, d, hc⟩ := hanswer
      · exact ⟨c, .inl hc, congrArg BusResponse.ans hc⟩
      · exact ⟨c, .inr ⟨d, hc⟩, congrArg BusResponse.ans hc⟩
    exact ⟨t, c, hstep, hresponse, hlines ▸ hlevels, hlines⟩
  · obtain ⟨t, ht, hresponse⟩ := step_response h
    have hlines : t.answerLines = s.answerLines := congrArg BusResponse.ans hresponse
    exact ⟨t, ht, by rw [State.answerLevels_of_none (State.awaitsAnswer_of_none h) ht, hlines], hlines⟩
  · obtain rfl : mid.toFin = n := Fin.ext hn
    exact ⟨rfl, rfl⟩

end Sys2Proof.Machine
end

section
/-! Command writes: the replay test, NOT_SUPERVISOR and NOP (R150 to R152), and RESET_TABLES (R156). -/

namespace Sys2Proof.Machine

/-! ### The replay test (R150) -/

theorem State.isReplay_iff (s : State) (a : Agent) (tag : BitVec 8) :
    s.isReplay a tag = true ↔ tag ≠ 0 ∧ tag = (s.agent a).record.tag := by
  rw [State.isReplay, Bool.and_eq_true, bne_iff_ne, beq_iff_eq]

/-- R151: the record and the answer that a command leaves. -/
theorem State.answers_record (u : State) (a : Agent) (w : WriteData) (o : CmdOutcome) :
    ((u.answers a w o).agent a).record = ⟨w.tag, o.code, o.detail, false⟩ :=
  congrArg AgentRecord.record (u.setAgent_agent_self a _)

/-- R150 to R152: a command write that is no replay ends with an outcome, its owner's or NOT_SUPERVISOR. -/
theorem exec_row_fresh {s : State} {a : Agent} {w : WriteData} (hready : s.ready = true) (hparity : w.parityGood = true)
    (hfresh : s.isReplay a w.tag = false) (c : Command) :
    ∃ (u : State) (o : CmdOutcome), exec (c.row a w) s = .next (u.answers a w o) := by
  by_cases hallowed : c.supervisor = true → a = Config.supervisor
  · exact ⟨_, _, exec_row_taken ⟨hready, hparity, hfresh, hallowed⟩⟩
  · obtain ⟨hc, ha⟩ := Classical.not_imp.mp hallowed
    exact ⟨_, _, (exec_row c a w s).trans
      (congrArg _ (State.commandWrite_notSupervisor hready hparity hfresh hc ha _))⟩

/-- Settles O13: the two ends of the replay test. -/
theorem replayTest : Obligations.ReplayTest := by
  intro c a w s hready hparity
  refine ⟨fun hnonzero hlast => ?_, fun hfresh => ?_⟩
  · rw [exec_row, State.commandWrite_replay hready hparity ((s.isReplay_iff a w.tag).mpr ⟨hnonzero, hlast⟩)]
    rfl
  · have hnot : s.isReplay a w.tag = false := by
      rw [← Bool.not_eq_true, State.isReplay_iff]
      exact fun ⟨hnonzero, hlast⟩ => hfresh.elim hnonzero fun hne => hne hlast
    obtain ⟨u, o, hexec⟩ := exec_row_fresh hready hparity hnot c
    have hrecord := u.answers_record a w o
    exact ⟨_, hexec, by rw [hrecord], by rw [hrecord], rfl⟩

/-! ### NOT_SUPERVISOR (R152) -/

theorem State.setAgentCheck_code {s : State} {arg0 : Word} {o : CmdOutcome} (h : s.setAgentCheck arg0 = .inl o) :
    o.code ≠ .notSupervisor := by
  unfold State.setAgentCheck at h
  split at h
  · cases h; exact nofun
  · cases h; exact nofun
  · split_ifs at h <;> cases h <;> exact nofun

theorem State.purgeCheck_code {s : State} {arg0 : Word} {o : CmdOutcome} (h : s.purgeCheck arg0 = .inl o) :
    o.code ≠ .notSupervisor := by
  unfold State.purgeCheck at h
  split at h
  · cases h; exact nofun
  · split at h
    · cases h; exact nofun
    · split at h
      · cases h; exact nofun
      · cases h; exact nofun
      · split at h <;> cases h
        exact nofun

/-- R152: no owner of a supervisor command gives the outcome NOT_SUPERVISOR. -/
theorem Command.taken_code_ne_notSupervisor {c : Command} (hc : c.supervisor = true) (a : Agent) (s : State) :
    (c.taken a s).2.code ≠ .notSupervisor := by
  cases c
  case setAgent =>
    simp only [taken, State.setAgentTaken]
    split
    · next o ho => exact State.setAgentCheck_code ho
    · exact nofun
  case setLock =>
    simp only [taken, State.setLockTaken]
    split
    · exact nofun
    · split <;> exact nofun
  case forceRelease =>
    simp only [taken, State.forceReleaseTaken]
    split
    · exact nofun
    · split <;> exact nofun
  case purge =>
    simp only [taken, State.purgeTaken]
    split
    · next o ho => exact State.purgeCheck_code ho
    · exact nofun
  case setTime => exact nofun
  case setDivider =>
    simp only [taken, State.setDividerTaken]
    split <;> exact nofun
  case resetTables => exact nofun
  all_goals cases hc

/-- Settles O14: NOP, and a supervisor command of each agent. -/
theorem supervisorCheckAndNop : Obligations.SupervisorCheckAndNop := by
  intro a w s hready hparity hfresh
  refine ⟨?_, fun c hc => ⟨fun ha => ?_, fun ha => ?_⟩⟩
  · exact exec_row_taken (c := .nop) ⟨hready, hparity, hfresh, nofun⟩
  · rw [exec_row, State.commandWrite_notSupervisor hready hparity hfresh hc ha]
  · refine ⟨_, exec_row_taken ⟨hready, hparity, hfresh, fun _ => ha⟩, ?_⟩
    rw [State.answers_record]
    exact Command.taken_code_ne_notSupervisor hc a s

/-! ### RESET_TABLES (R156) -/

/-- R156, step 4: an agent record at RESET_TABLES, field by field. -/
theorem AgentRecord.resetTables_eq (r : AgentRecord) : r.resetTables =
    { r with
      state := if r.state = .purging then .offline else r.state, notices := [], overrun := false
      record := ⟨0, .done, 0, false⟩ } := by
  rw [← AgentState.afterReset_eq]
  rfl

/-- Settles O9: the tables emptied, the port INITIALIZING, and the outcome of the command in the record of agent 0. -/
theorem resetTablesValues : Obligations.ResetTablesValues := by
  intro s a w htakes
  obtain rfl : a = 0 := htakes.allowed rfl
  refine ⟨_, exec_row_taken (c := .resetTables) htakes, s.emptyTables_lock, s.emptyTables_request, rfl, rfl,
    fun b => ?_, rfl, rfl⟩
  have hagent (b : Agent) : s.resetTablesTaken.1.agent b = _ :=
    (s.resetTablesTaken_agent b).trans (s.agent b).resetTables_eq
  show (s.resetTablesTaken.1.setAgent 0
    { s.resetTablesTaken.1.agent 0 with record := ⟨w.tag, .done, 0, false⟩ }).agent b = _
  rw [State.setAgent_agent]
  by_cases hb : b = 0
  · subst hb
    rw [if_pos rfl, if_pos rfl, hagent]
  · rw [if_neg hb, if_neg hb, hagent]

end Sys2Proof.Machine
end

section
/-! A step with a command waiting (log entry 4): the counterpart of `step_of_idle_queue`, and the statement it settles. -/

namespace Sys2Proof.Machine

/-- The front of a queue that is not empty is taken with the rest of the queue left to wait. -/
theorem step_of_waiting_queue {c : Instr} {rest : List Instr} {s : State} (h : s.pending = c :: rest) :
    step s = exec c { s with pending := rest } := by
  simp only [step, h]

/-- Settles O1: the queue there holds a command, and its rest replaces it whole. -/
theorem stepRunsFrontCommand : Obligations.StepRunsFrontCommand := fun c rest s =>
  step_of_waiting_queue (s := { s with pending := c :: rest }) rfl

end Sys2Proof.Machine
end
